-- ==== Sys2Proof/Word.lean ====
section
/-! DEFINITION. The word types of the Potar and the fields of its seven instruction formats (R164 to R171): plain data, no meaning. -/

namespace Sys2Proof

/-- The smallest addressable unit of every memory (R5). -/
abbrev Byte := BitVec 8
/-- A vector register of one lane (R172). -/
abbrev W32 := BitVec 32
/-- A scalar register, a code word, a control-space word, an address value (R148, R172). -/
abbrev W64 := BitVec 64
/-- A set of lanes of one gang, bit n for the lane of LANEID n (R47). -/
abbrev LaneMask := BitVec 32

/-- The common fields of an instruction word below OP (R164). -/
structure Guard where
  pred : BitVec 4
  pn : Bool
  fe : BitVec 3
  deriving DecidableEq, Repr

/-- Format T, three sources (R165). -/
structure FmtT where
  d : BitVec 8
  a : BitVec 8
  b : BitVec 8
  c : BitVec 8
  bs : Bool
  cs : Bool
  mod : BitVec 14
  deriving DecidableEq, Repr

/-- Format I, immediate (R166). -/
structure FmtI where
  d : BitVec 8
  a : BitVec 8
  imm : BitVec 32
  deriving DecidableEq, Repr

/-- Format M, memory (R167). WH is FE bit 2 of the common fields. -/
structure FmtM where
  d : BitVec 8
  h : BitVec 4
  w : BitVec 3
  sx : Bool
  a : BitVec 8
  imm : BitVec 24
  deriving DecidableEq, Repr

/-- Format B, branch and control (R169). -/
structure FmtB where
  j : BitVec 4
  off : BitVec 44
  deriving DecidableEq, Repr

/-- Format X, matrix (R170). -/
structure FmtX where
  acc : BitVec 5
  mac : BitVec 4
  fs : BitVec 3
  as_ : BitVec 8
  vc : BitVec 8
  mod : BitVec 20
  deriving DecidableEq, Repr

/-- Format S, system (R171). -/
structure FmtS where
  d : BitVec 8
  a : BitVec 8
  csrn : BitVec 16
  imm : BitVec 16
  deriving DecidableEq, Repr

/-- How REGISTER_FILL serves an access: as soon as it may; for a load past its lane's store-buffer entry; or, for a cross-lane word, the source lanes
it reads at this instant and the receiving lanes it fills (R114, R220). -/
inductive Fill where
  | now | late
  | part (reads fills : BitVec 32)
  deriving DecidableEq, Repr

/-- Cache contents that leave to make room when a line is installed: which ones is the device's choice, so an event names them
(R90, R98, R350). -/
structure Evict where
  /-- Physical addresses of sectors that leave the issuing core's L1. -/
  l1 : List Nat
  /-- Physical addresses of sectors that leave their home slice. -/
  slice : List Nat
  /-- Physical page addresses whose replica leaves the requesting cluster's slice. -/
  replicas : List Nat
  deriving DecidableEq, Repr

/-- A ring frame as it travels (R308, R309): the header fields the stops read, and its bytes. -/
structure Frame where
  entry : Nat
  tenant : Nat
  tile : W32
  gen : W32
  hole : Bool
  /-- The CRC field as it travels. -/
  crc : W32
  bfmt : BitVec 4
  bsc : BitVec 2
  scale : W32
  payload : List Byte
  scales : List Byte
  deriving DecidableEq, Repr

/-- An XFER packet as it arrives from another module (R371). -/
structure XferPacket where
  ctx : Nat
  ticket : Nat
  addr : W64
  /-- The bytes it writes; empty for a packet wholly at or above the valid count (R384). -/
  data : List Byte
  /-- The byte count it credits. -/
  credit : Nat
  counter : W64
  deriving DecidableEq, Repr

/-- The kinds of collective packet (R375, R377, R381). -/
inductive CollKind where
  | contribution | result | announce
  deriving DecidableEq, Repr

/-- A packet of a collective that arrives from another member (R375, R385). -/
structure CollPacket where
  group : Nat
  number : Nat
  epoch : Nat
  chunk : Nat
  sender : Nat
  kind : CollKind
  data : List Byte
  deriving DecidableEq, Repr

/-- The first class-0 exchange of a collective, or an epoch exchange, as it arrives from another member (R373, R378, R379). -/
structure CollExchange where
  group : Nat
  number : Nat
  sender : Nat
  epoch : Nat
  /-- The sender's group entry: word 0 and the member list. -/
  entry : List Nat
  /-- The sender's parameters: operation word, N, chunk size, target or source rank. -/
  params : List Nat
  /-- Modules the sender has found lost. -/
  lost : List Nat
  /-- The sender announces a mismatch. -/
  mismatch : Bool
  /-- The sender holds every chunk DONE (the confirmation round, R381). -/
  allDone : Bool
  deriving DecidableEq, Repr

/-- The states of a link (R367). -/
inductive LinkSt where
  | down | train | up | retrain | failed
  deriving DecidableEq, Repr

/-- A flit as it arrives on a link (R366). -/
structure Flit where
  seq : BitVec 12
  crcOk : Bool
  last : Bool
  payload : List Byte
  /-- The link on which its packet goes on from the crossing buffer (R369); none for a packet that ends here. -/
  onward : Option Nat := none
  deriving DecidableEq, Repr

/-- What the distributor places (R354, R357, R392). -/
inductive PlaceWhat where
  | skein (launch : Nat)
  | child (n : Nat)
  | handler (core n : Nat)
  deriving DecidableEq, Repr

/-- The page sizes (R25). -/
inductive PageSize where
  | k64 | m2 | g1
  deriving DecidableEq, Repr

/-- A page-table entry of a context as the driver wrote it (R25, R359). -/
structure PageMap where
  ctx : Nat
  va : Nat
  pa : Nat
  size : PageSize
  present : Bool
  /-- The module whose memory it maps (R22). -/
  module : Nat
  /-- Physical addresses of the table entries that the walk to it reads, from the root's on (R16, R429). -/
  walk : List Nat := []
  deriving DecidableEq, Repr

/-- One access of the host over CXL.mem (R92, R427). -/
structure CxlAccess where
  pa : Nat
  /-- The bytes written, or none for a read of `len` bytes. -/
  data : Option (List Byte)
  len : Nat
  /-- The host address the read data or the poison marker goes to. -/
  hostAddr : Nat
  /-- The page-table entries that the bytes written form, for a write to page tables (R25, R359, log 28). -/
  tables : List PageMap := []
  deriving DecidableEq, Repr

/-- A range of a pool extent, in bytes (R432). -/
structure PoolRange where
  extent : Nat
  offset : Nat
  bytes : Nat
  deriving DecidableEq, Repr

/-- What a pool device reports (R432): its metadata is lost, or the lines named, whose rebuild is impossible. -/
inductive PoolFault where
  | metadata (device : Nat)
  | lines (device : Nat) (ranges : List PoolRange)
  deriving DecidableEq, Repr

end Sys2Proof
end

