-- ==== Sys2Proof/Syntax.lean ====
section
/-! DEFINITION. The operations of the Potar, one constructor per row of the opcode table: the 184 instruction words carry the fields of
their format (R164 to R177), and the device's own steps carry the operands that the spec leaves to the device or to the outside world. -/

namespace Sys2Proof

/-- One constructor per row of the opcode table. -/
inductive Instr where
  /-- Opcode 0x00, format T (R205). -/
  | nop (g : Guard) (f : FmtT)
  /-- Opcode 0x01, format T (R190). -/
  | smov (g : Guard) (f : FmtT)
  /-- Opcode 0x02, format I (R192). -/
  | smovi (g : Guard) (f : FmtI)
  /-- Opcode 0x03, format T (R190). -/
  | sadd (g : Guard) (f : FmtT)
  /-- Opcode 0x04, format I (R192). -/
  | saddi (g : Guard) (f : FmtI)
  /-- Opcode 0x05, format T (R190). -/
  | ssub (g : Guard) (f : FmtT)
  /-- Opcode 0x06, format T (R190). -/
  | smul (g : Guard) (f : FmtT)
  /-- Opcode 0x07, format T (R190). -/
  | smulh (g : Guard) (f : FmtT)
  /-- Opcode 0x08, format T (R190). -/
  | sand (g : Guard) (f : FmtT)
  /-- Opcode 0x09, format T (R190). -/
  | sor (g : Guard) (f : FmtT)
  /-- Opcode 0x0A, format T (R190). -/
  | sxor (g : Guard) (f : FmtT)
  /-- Opcode 0x0B, format T (R190). -/
  | sshl (g : Guard) (f : FmtT)
  /-- Opcode 0x0C, format T (R190). -/
  | sshr (g : Guard) (f : FmtT)
  /-- Opcode 0x0D, format T (R190). -/
  | ssra (g : Guard) (f : FmtT)
  /-- Opcode 0x0E, format T (R190). -/
  | smin (g : Guard) (f : FmtT)
  /-- Opcode 0x0F, format T (R190). -/
  | smax (g : Guard) (f : FmtT)
  /-- Opcode 0x10, format T (R190). -/
  | sclz (g : Guard) (f : FmtT)
  /-- Opcode 0x11, format T (R190). -/
  | spopc (g : Guard) (f : FmtT)
  /-- Opcode 0x12, format T (R190). -/
  | scmp (g : Guard) (f : FmtT)
  /-- Opcode 0x13, format T (R190). -/
  | ssel (g : Guard) (f : FmtT)
  /-- Opcode 0x14, format T (R191). -/
  | sdiv (g : Guard) (f : FmtT)
  /-- Opcode 0x15, format B (R194). -/
  | jmp (g : Guard) (f : FmtB)
  /-- Opcode 0x16, format I (R196). -/
  | brz (g : Guard) (f : FmtI)
  /-- Opcode 0x17, format I (R196). -/
  | brnz (g : Guard) (f : FmtI)
  /-- Opcode 0x18, format B (R195). -/
  | brv (g : Guard) (f : FmtB)
  /-- Opcode 0x19, format I (R197). -/
  | call (g : Guard) (f : FmtI)
  /-- Opcode 0x1A, format T (R198). -/
  | ret (g : Guard) (f : FmtT)
  /-- Opcode 0x1B, format B (R199). -/
  | rejoin (g : Guard) (f : FmtB)
  /-- Opcode 0x1C, format T (R200). -/
  | jmset (g : Guard) (f : FmtT)
  /-- Opcode 0x1C, format T (R200). -/
  | jmadd (g : Guard) (f : FmtT)
  /-- Opcode 0x1C, format T (R200). -/
  | jmdel (g : Guard) (f : FmtT)
  /-- Opcode 0x1D, format T (R201). -/
  | jmqry (g : Guard) (f : FmtT)
  /-- Opcode 0x1E, format T (R203). -/
  | exit (g : Guard) (f : FmtT)
  /-- Opcode 0x1F, format T (R206). -/
  | yield (g : Guard) (f : FmtT)
  /-- Opcode 0x20, format T (R209). -/
  | vmov (g : Guard) (f : FmtT)
  /-- Opcode 0x21, format I (R211). -/
  | vmovi (g : Guard) (f : FmtI)
  /-- Opcode 0x22, format T (R210). -/
  | vadd (g : Guard) (f : FmtT)
  /-- Opcode 0x23, format T (R212). -/
  | vaddc (g : Guard) (f : FmtT)
  /-- Opcode 0x24, format T (R210). -/
  | vsub (g : Guard) (f : FmtT)
  /-- Opcode 0x25, format T (R212). -/
  | vsubb (g : Guard) (f : FmtT)
  /-- Opcode 0x26, format T (R209). -/
  | vmul (g : Guard) (f : FmtT)
  /-- Opcode 0x27, format T (R209). -/
  | vmulh (g : Guard) (f : FmtT)
  /-- Opcode 0x28, format T (R213). -/
  | vmad (g : Guard) (f : FmtT)
  /-- Opcode 0x29, format T (R213). -/
  | vmadw (g : Guard) (f : FmtT)
  /-- Opcode 0x2A, format T (R209). -/
  | vand (g : Guard) (f : FmtT)
  /-- Opcode 0x2B, format T (R209). -/
  | vor (g : Guard) (f : FmtT)
  /-- Opcode 0x2C, format T (R209). -/
  | vxor (g : Guard) (f : FmtT)
  /-- Opcode 0x2D, format T (R209). -/
  | vnot (g : Guard) (f : FmtT)
  /-- Opcode 0x2E, format T (R209). -/
  | vandn (g : Guard) (f : FmtT)
  /-- Opcode 0x2F, format T (R209). -/
  | vshl (g : Guard) (f : FmtT)
  /-- Opcode 0x30, format T (R209). -/
  | vshr (g : Guard) (f : FmtT)
  /-- Opcode 0x31, format T (R209). -/
  | vsra (g : Guard) (f : FmtT)
  /-- Opcode 0x32, format T (R209). -/
  | vrot (g : Guard) (f : FmtT)
  /-- Opcode 0x33, format T (R209). -/
  | vmin (g : Guard) (f : FmtT)
  /-- Opcode 0x34, format T (R209). -/
  | vmax (g : Guard) (f : FmtT)
  /-- Opcode 0x35, format T (R209). -/
  | vabs (g : Guard) (f : FmtT)
  /-- Opcode 0x36, format T (R209). -/
  | vneg (g : Guard) (f : FmtT)
  /-- Opcode 0x37, format T (R209). -/
  | vclz (g : Guard) (f : FmtT)
  /-- Opcode 0x38, format T (R209). -/
  | vpopc (g : Guard) (f : FmtT)
  /-- Opcode 0x39, format T (R209). -/
  | vbrev (g : Guard) (f : FmtT)
  /-- Opcode 0x3A, format T (R214). -/
  | vbfe (g : Guard) (f : FmtT)
  /-- Opcode 0x3B, format T (R214). -/
  | vbfi (g : Guard) (f : FmtT)
  /-- Opcode 0x3C, format T (R215). -/
  | vperm4 (g : Guard) (f : FmtT)
  /-- Opcode 0x3D, format T (R216). -/
  | vcmp (g : Guard) (f : FmtT)
  /-- Opcode 0x3E, format T (R217). -/
  | vsel (g : Guard) (f : FmtT)
  /-- Opcode 0x40, format T (R218). -/
  | pand (g : Guard) (f : FmtT)
  /-- Opcode 0x41, format T (R218). -/
  | por (g : Guard) (f : FmtT)
  /-- Opcode 0x42, format T (R218). -/
  | pxor (g : Guard) (f : FmtT)
  /-- Opcode 0x43, format T (R218). -/
  | pnot (g : Guard) (f : FmtT)
  /-- Opcode 0x44, format T (R221). -/
  | xquad (g : Guard) (f : FmtT)
  /-- Opcode 0x45, format T (R222). -/
  | xlane (g : Guard) (f : FmtT)
  /-- Opcode 0x46, format T (R223). -/
  | xbcast (g : Guard) (f : FmtT)
  /-- Opcode 0x47, format T (R223). -/
  | xread (g : Guard) (f : FmtT)
  /-- Opcode 0x48, format T (R224). -/
  | xred (g : Guard) (f : FmtT)
  /-- Opcode 0x49, format T (R225). -/
  | xscan (g : Guard) (f : FmtT)
  /-- Opcode 0x4A, format T (R226). -/
  | xvote (g : Guard) (f : FmtT)
  /-- Opcode 0x4B, format T (R227). -/
  | xmatch (g : Guard) (f : FmtT)
  /-- Opcode 0x50, format T (R231). -/
  | fadd (g : Guard) (f : FmtT)
  /-- Opcode 0x51, format T (R231). -/
  | fsub (g : Guard) (f : FmtT)
  /-- Opcode 0x52, format T (R231). -/
  | fmul (g : Guard) (f : FmtT)
  /-- Opcode 0x53, format T (R231). -/
  | ffma (g : Guard) (f : FmtT)
  /-- Opcode 0x54, format T (R231). -/
  | fmin (g : Guard) (f : FmtT)
  /-- Opcode 0x55, format T (R231). -/
  | fmax (g : Guard) (f : FmtT)
  /-- Opcode 0x56, format T (R234). -/
  | fcmp (g : Guard) (f : FmtT)
  /-- Opcode 0x57, format T (R232). -/
  | frcp (g : Guard) (f : FmtT)
  /-- Opcode 0x58, format T (R232). -/
  | frsq (g : Guard) (f : FmtT)
  /-- Opcode 0x59, format T (R232). -/
  | fsqrt (g : Guard) (f : FmtT)
  /-- Opcode 0x5A, format T (R231). -/
  | fdiv (g : Guard) (f : FmtT)
  /-- Opcode 0x5B, format T (R232). -/
  | fexp2 (g : Guard) (f : FmtT)
  /-- Opcode 0x5C, format T (R232). -/
  | flog2 (g : Guard) (f : FmtT)
  /-- Opcode 0x5D, format T (R232). -/
  | fsin (g : Guard) (f : FmtT)
  /-- Opcode 0x5E, format T (R232). -/
  | fcos (g : Guard) (f : FmtT)
  /-- Opcode 0x5F, format T (R232). -/
  | ftanh (g : Guard) (f : FmtT)
  /-- Opcode 0x60, format T (R232). -/
  | ffrc (g : Guard) (f : FmtT)
  /-- Opcode 0x61, format T (R232). -/
  | frnd (g : Guard) (f : FmtT)
  /-- Opcode 0x62, format T (R233). -/
  | fclass (g : Guard) (f : FmtT)
  /-- Opcode 0x63, format T (R231). -/
  | fscale (g : Guard) (f : FmtT)
  /-- Opcode 0x68, format T (R235). -/
  | dadd (g : Guard) (f : FmtT)
  /-- Opcode 0x69, format T (R235). -/
  | dsub (g : Guard) (f : FmtT)
  /-- Opcode 0x6A, format T (R235). -/
  | dmul (g : Guard) (f : FmtT)
  /-- Opcode 0x6B, format T (R235). -/
  | dfma (g : Guard) (f : FmtT)
  /-- Opcode 0x6C, format T (R235). -/
  | dmin (g : Guard) (f : FmtT)
  /-- Opcode 0x6D, format T (R235). -/
  | dmax (g : Guard) (f : FmtT)
  /-- Opcode 0x6E, format T (R234). -/
  | dcmp (g : Guard) (f : FmtT)
  /-- Opcode 0x6F, format T (R235). -/
  | ddiv (g : Guard) (f : FmtT)
  /-- Opcode 0x70, format T (R235). -/
  | dsqrt (g : Guard) (f : FmtT)
  /-- Opcode 0x71, format T (R236). -/
  | hadd2 (g : Guard) (f : FmtT)
  /-- Opcode 0x72, format T (R236). -/
  | hmul2 (g : Guard) (f : FmtT)
  /-- Opcode 0x73, format T (R236). -/
  | hfma2 (g : Guard) (f : FmtT)
  /-- Opcode 0x74, format T (R237). -/
  | cvtff (g : Guard) (f : FmtT)
  /-- Opcode 0x75, format T (R238). -/
  | cvtfi (g : Guard) (f : FmtT)
  /-- Opcode 0x76, format T (R239). -/
  | cvtif (g : Guard) (f : FmtT)
  /-- Opcode 0x77, format T (R241). -/
  | cvtq (g : Guard) (f : FmtT)
  /-- Opcode 0x78, format T (R242). -/
  | cvtdq (g : Guard) (f : FmtT)
  /-- Opcode 0x80, format M (R246). -/
  | ld (g : Guard) (f : FmtM)
  /-- Opcode 0x81, format M (R246). -/
  | st (g : Guard) (f : FmtM)
  /-- Opcode 0x82, format M (R247). -/
  | lds (g : Guard) (f : FmtM)
  /-- Opcode 0x83, format M (R247). -/
  | sts (g : Guard) (f : FmtM)
  /-- Opcode 0x84, format M (R248). -/
  | ldsp (g : Guard) (f : FmtM)
  /-- Opcode 0x85, format M (R248). -/
  | stsp (g : Guard) (f : FmtM)
  /-- Opcode 0x86, format M (R249). -/
  | ldc (g : Guard) (f : FmtM)
  /-- Opcode 0x88, format T (R259). -/
  | hborx (g : Guard) (f : FmtT)
  /-- Opcode 0x89, format T (R259). -/
  | hbors (g : Guard) (f : FmtT)
  /-- Opcode 0x8A, format T (R259). -/
  | hborc (g : Guard) (f : FmtT)
  /-- Opcode 0x8B, format T (R80). -/
  | hreb (g : Guard) (f : FmtT)
  /-- Opcode 0x8C, format T (R80). -/
  | hsplit (g : Guard) (f : FmtT)
  /-- Opcode 0x8D, format T (R80). -/
  | hmerge (g : Guard) (f : FmtT)
  /-- Opcode 0x8E, format T (R80). -/
  | hret (g : Guard) (f : FmtT)
  /-- Opcode 0x8F, format T (R80). -/
  | hgive (g : Guard) (f : FmtT)
  /-- Opcode 0x90, format T (R261). -/
  | hqry (g : Guard) (f : FmtT)
  /-- Step HANK_OP_DEFERRED (R72): A hank operation held by a non-zero ENG count takes effect when ENG reaches zero. -/
  | hankOpDeferred (n : Nat)
  /-- Opcode 0x91, format M (R250). -/
  | atom (g : Guard) (f : FmtM)
  /-- Opcode 0x92, format M (R251). -/
  | atomcas (g : Guard) (f : FmtM)
  /-- Opcode 0x93, format M (R252). -/
  | red (g : Guard) (f : FmtM)
  /-- Opcode 0x94, format M (R253). -/
  | waitv (g : Guard) (f : FmtM)
  /-- Opcode 0x95, format T (R254). -/
  | fence (g : Guard) (f : FmtT)
  /-- Opcode 0x96, format M (R255). -/
  | clnr (g : Guard) (f : FmtM)
  /-- Opcode 0x97, format M (R256). -/
  | invr (g : Guard) (f : FmtM)
  /-- Opcode 0x98, format T (R268). -/
  | bara (g : Guard) (f : FmtT)
  /-- Opcode 0x99, format T (R268). -/
  | barw (g : Guard) (f : FmtT)
  /-- Opcode 0x9A, format T (R265). -/
  | acset (g : Guard) (f : FmtT)
  /-- Opcode 0x9B, format T (R266). -/
  | acadd (g : Guard) (f : FmtT)
  /-- Opcode 0x9C, format T (R267). -/
  | acwait (g : Guard) (f : FmtT)
  /-- Opcode 0x9D, format T (R272). -/
  | qdef (g : Guard) (f : FmtT)
  /-- Opcode 0x9E, format T (R273). -/
  | qpush (g : Guard) (f : FmtT)
  /-- Opcode 0x9F, format T (R273). -/
  | qpop (g : Guard) (f : FmtT)
  /-- Opcode 0xA0, format T (R274). -/
  | qstat (g : Guard) (f : FmtT)
  /-- Opcode 0xA1, format T (R275). -/
  | rqset (g : Guard) (f : FmtT)
  /-- Step RQSET_COMPLETE (R61): RQSET completes once every register it removes has filled, and the quota moves. -/
  | rqsetComplete (wg : Nat) (gang : Nat)
  /-- Opcode 0xA2, format T (R276). -/
  | rcfence (g : Guard) (f : FmtT)
  /-- Opcode 0xA8, format X (R292). -/
  | mld (g : Guard) (f : FmtX)
  /-- Opcode 0xA9, format X (R289). -/
  | mma (g : Guard) (f : FmtX)
  /-- Opcode 0xAA, format X (R288). -/
  | mmat (g : Guard) (f : FmtX)
  /-- Opcode 0xAB, format X (R293). -/
  | mzero (g : Guard) (f : FmtX)
  /-- Opcode 0xAC, format T (R294). -/
  | mrd (g : Guard) (f : FmtT)
  /-- Opcode 0xAD, format T (R294). -/
  | mwr (g : Guard) (f : FmtT)
  /-- Opcode 0xAE, format T (R298). -/
  | mbatch (g : Guard) (f : FmtT)
  /-- Opcode 0xAF, format T (R300). -/
  | mwait (g : Guard) (f : FmtT)
  /-- Opcode 0xB0, format T (R302). -/
  | mstat (g : Guard) (f : FmtT)
  /-- Opcode 0xB1, format T (R295). -/
  | mrel (g : Guard) (f : FmtT)
  /-- Step MATRIX_COMMAND_START (R284): A batched command whose macro and tile are ready begins execution in the matrix unit. -/
  | matrixCommandStart (wg : Nat) (n : Nat) (parity : Bool)
  /-- Step MATRIX_COMMAND_COMPLETE (R289): A command's sums or zeros enter its tile in one step and its flags are ORed into MFLAGS. -/
  | matrixCommandComplete (wg : Nat) (n : Nat)
  /-- Step MLD_COMPLETE (R292): An MLD completes and its macro turns RESIDENT with the slot's format. -/
  | mldComplete (wg : Nat) (n : Nat)
  /-- Opcode 0xC0, format T (R320). -/
  | msub (g : Guard) (f : FmtT)
  /-- Opcode 0xC1, format T (R321). -/
  | munsub (g : Guard) (f : FmtT)
  /-- Opcode 0xC2, format T (R322). -/
  | msubq (g : Guard) (f : FmtT)
  /-- Opcode 0xC3, format T (R323). -/
  | rstat (g : Guard) (f : FmtT)
  /-- Opcode 0xC4, format T (R337). -/
  | cpy (g : Guard) (f : FmtT)
  /-- Opcode 0xC5, format T (R342). -/
  | cpyt (g : Guard) (f : FmtT)
  /-- Opcode 0xC6, format T (R347). -/
  | cpyq (g : Guard) (f : FmtT)
  /-- Opcode 0xC7, format T (R349). -/
  | msop (g : Guard) (f : FmtT)
  /-- Opcode 0xC8, format T (R353). -/
  | amsend (g : Guard) (f : FmtT)
  /-- Opcode 0xC9, format T (R355). -/
  | spawn (g : Guard) (f : FmtT)
  /-- Opcode 0xCA, format T (R358). -/
  | waitch (g : Guard) (f : FmtT)
  /-- Opcode 0xD0, format T (R370). -/
  | xfer (g : Guard) (f : FmtT)
  /-- Opcode 0xD1, format T (R380). -/
  | cred (g : Guard) (f : FmtT)
  /-- Opcode 0xD2, format T (R380). -/
  | cbcast (g : Guard) (f : FmtT)
  /-- Opcode 0xD3, format T (R380). -/
  | cgath (g : Guard) (f : FmtT)
  /-- Opcode 0xD4, format T (R382). -/
  | cwait (g : Guard) (f : FmtT)
  /-- Opcode 0xD5, format T (R382). -/
  | cqry (g : Guard) (f : FmtT)
  /-- Opcode 0xF0, format S (R408). -/
  | csrr (g : Guard) (f : FmtS)
  /-- Opcode 0xF1, format S (R408). -/
  | csrw (g : Guard) (f : FmtS)
  /-- Opcode 0xF0, format S (R409). -/
  | csrrCtl (g : Guard) (f : FmtS)
  /-- Opcode 0xF1, format S (R409). -/
  | csrwCtl (g : Guard) (f : FmtS)
  /-- Opcode 0xF2, format S (R410). -/
  | trap (g : Guard) (f : FmtS)
  /-- Opcode 0xF3, format S (R411). -/
  | rett (g : Guard) (f : FmtS)
  /-- Opcode 0xF4, format S (R410). -/
  | bkpt (g : Guard) (f : FmtS)
  /-- Opcode 0xF5, format S (R410). -/
  | haltg (g : Guard) (f : FmtS)
  /-- Opcode 0xF6, format S (R412). -/
  | timew (g : Guard) (f : FmtS)
  /-- Step PORT_ISSUE_CHOICE (R393): A free issue port chooses one ganged gang or quad PC group to issue. -/
  | portIssueChoice (core : Nat) (port : Nat)
  /-- Step REGISTER_FILL (R161): A long-latency result arrives and marks its destination full. -/
  | registerFill (wg : Nat) (gang : Nat) (n : Nat) (how : Fill) (ev : Evict)
  /-- Step REJOIN_RELEASE (R48): A satisfied rejoin site releases its blocked lanes to the following clause. -/
  | rejoinRelease (wg : Nat) (gang : Nat)
  /-- Step YIELD_EXPIRY (R206): A YIELD delay ends and the lanes become runnable. -/
  | yieldExpiry (wg : Nat) (gang : Nat)
  /-- Step TIMEW_RELEASE (R412): TIME1588 reaches the awaited instant and TIMEW lanes are released. -/
  | timewRelease (wg : Nat) (gang : Nat)
  /-- Step WORKGROUP_END (R204): After all gangs exit and engine commands complete, buffers drain, write-back completes, grants are released and resources freed. -/
  | workgroupEnd (wg : Nat)
  /-- Step TICKET_SUPPLY_DRAW (R70): A core draws ticket values from the IOD into its supply ahead of need. -/
  | ticketSupplyDraw (core : Nat) (ctx : Nat)
  /-- Step OWNERSHIP_REQUEST (R78): A run request reaches its home, which grants, conflicts, queues or refuses it. -/
  | ownershipRequest (n : Nat)
  /-- Step RUN_GRANT (R76): A grant reaches the requester, which sends the next run or completes the borrow. -/
  | runGrant (n : Nat)
  /-- Step OWNERSHIP_RETURN (R80): A return message reaches its home, which lowers or frees entries. -/
  | ownershipReturn (n : Nat)
  /-- Step WRITEBACK_ACK (R82): The home acknowledges an X return's write-back, clearing XRET and freeing the entry. -/
  | writebackAck (n : Nat)
  /-- Step COLLAPSE_REQUEST (R91): A cluster receives a collapse request, drops the page and acknowledges. -/
  | collapseRequest (n : Nat)
  /-- Step COLLAPSE_ACK (R91): The last collapse acknowledgement empties the set, clears COLL and grants. -/
  | collapseAck (n : Nat)
  /-- Step REPLICA_EVICTION_NOTICE (R90): An eviction notice reaches the home and removes the cluster when its sequence is current. -/
  | replicaEvictionNotice (n : Nat)
  /-- Step KILL_WALK_END (R86): A table's kill walk ends and the table grants its waiters. -/
  | killWalkEnd (home : Nat) (ctx : Nat)
  /-- Step REVOCATION_NOTICE (R431): A core receives a revocation notice and sets REVOKED in the matching hanks. -/
  | revocationNotice (n : Nat)
  /-- Step STORE_BUFFER_DRAIN (R114): A store-buffer entry leaves the buffer and performs at its place. -/
  | storeBufferDrain (wg : Nat) (gang : Nat) (n : Nat) (ev : Evict)
  /-- Step ACCESS_ACK (R114): A place acknowledges an entry and the unacknowledged counter falls. -/
  | accessAck (wg : Nat) (gang : Nat)
  /-- Step MEMSIDE_ATOMIC (R99): A common-region atomic, LDC or WAITV request performs at the home's memory-side ALU. -/
  | memsideAtomic (n : Nat)
  /-- Step WAITV_POLL (R253): A waiter without a watch entry re-reads its element every 2 µs. -/
  | waitvPoll (n : Nat)
  /-- Step FRAME_ARRIVAL (R316): A frame's first byte reaches a cluster stop and matching subscriptions accept it. -/
  | frameArrival (n : Nat) (bad : Bool)
  /-- Step RING_LOAD_COMPLETE (R318): A ring load completes, the macro turns RESIDENT and the counter is credited. -/
  | ringLoadComplete (wg : Nat) (handle : Nat)
  /-- Step STAGING_COPY (R325): A ring engine copies a pool image to its staging address LEAD entries ahead. -/
  | stagingCopy (entry : Nat)
  /-- Step RGCTL_WRITE (R312): A write to RGCTL starts the ring or is refused. -/
  | rgctlWrite (value : W64)
  /-- Step SLCTL_WRITE (R394): A write to the slice control word is applied or refused with BADW. -/
  | slctlWrite (value : W64)
  /-- Step COPY_PIECE (R338): A copy engine performs one piece, invalidates L1 and credits the counter. -/
  | copyPiece (n : Nat)
  /-- Step MSOP_LINE (R349): The memory-side ALU computes one destination line and credits the counter. -/
  | msopLine (n : Nat)
  /-- Step AM_ACCEPT (R354): An active message reaches its core and is accepted or refused. -/
  | amAccept (n : Nat)
  /-- Step AM_REPLY (R353): The target's answer fills the sender's status register. -/
  | amReply (n : Nat)
  /-- Step WORKGROUP_PLACE (R392): The distributor places a skein, child or handler on a core. -/
  | workgroupPlace (what : PlaceWhat) (cores : List Nat)
  /-- Step CHILD_END (R356): A child ends and its lent X hank returns to the parent. -/
  | childEnd (wg : Nat)
  /-- Step LINK_NOTICE (R367): A link notice updates the live link table at a module. -/
  | linkNotice (module : Nat) (link : Nat) (st : LinkSt)
  /-- Step PLANE_RESEND_TIMEOUT (R364): A request unanswered 20 µs after its plane failed is resent. -/
  | planeResendTimeout (plane : Nat)
  /-- Step ACK_SEND (R366): The receiver returns an acknowledgement after 64 flits or 1 µs. -/
  | ackSend (link : Nat)
  /-- Step XFER_PACKET (R371): An XFER packet reaches the remote module and is written and credited or refused. -/
  | xferPacket (pkt : XferPacket)
  /-- Step XFER_ACK (R372): A packet acknowledgement credits the local counter; the last fills the status. -/
  | xferAck (n : Nat) (status : Nat)
  /-- Step COLLECTIVE_PACKET (R375): A contribution, result or announcement of a chunk arrives and is combined or written. -/
  | collectivePacket (pkt : CollPacket)
  /-- Step CONFIRMATION_ROUND (R381): The class-0 round after the last chunk ends the collective at a member. -/
  | confirmationRound (coll : Nat)
  /-- Step QUEUE_DOORBELL (R386): A host write of a work queue's TAIL enqueues entries or is refused. -/
  | queueDoorbell (queue : Nat) (value : W64)
  /-- Step LAUNCH_START (R391): The distributor starts an entry whose dependences are met, taking argument borrows. -/
  | launchStart (queue : Nat)
  /-- Step LAUNCH_COMPLETE (R390): A launch ends, its completion word is written and DONESEQ advances. -/
  | launchComplete (launch : Nat)
  /-- Step PREEMPTION_DECISION (R395): A needed core makes the Potar drain, flush or save a skein. -/
  | preemptionDecision (skein : Nat) (sw : Bool)
  /-- Step DRAIN_TIMEOUT (R396): A draining skein not exited after 100 µs is saved. -/
  | drainTimeout (skein : Nat)
  /-- Step SKEIN_SAVE (R404): A skein's workgroups are written into bolts and leave their cores. -/
  | skeinSave (skein : Nat)
  /-- Step SKEIN_RESTORE (R404): A saved skein is restored from its bolts on cores of the module. -/
  | skeinRestore (skein : Nat) (cores : List Nat)
  /-- Step WATCHDOG_EXPIRY (R401): A workgroup's watchdog reaches WDOG and its context is declared hung. -/
  | watchdogExpiry (wg : Nat)
  /-- Step SAVE_STALL_KILL (R402): A save that writes nothing for 10 ms kills the context. -/
  | saveStallKill (skein : Nat)
  /-- Step HCQCTL_WRITE (R427): A write of the command queue TAIL rings the doorbell, or is refused setting ERR. -/
  | hcqctlWrite (value : W64)
  /-- Step FQCTL_WRITE (R427): A write sizes the fault ring or is ignored. -/
  | fqctlWrite (value : W64)
  /-- Step FQHEAD_WRITE (R427): The host consumes fault records, making room in the ring. -/
  | fqheadWrite (value : W64)
  /-- Step IMGCTL_WRITE (R419): A write names, moves or clears the image area, or is ignored. -/
  | imgctlWrite (value : W64)
  /-- Step CONTROL_SPACE_WRITE (R409): A write to a control space word with no behaviour of its own. -/
  | controlSpaceWrite (addr : Nat) (value : W64)
  /-- Step OWNERSHIP_REFUSAL (R77): A CONFLICT, FULL or SELF reply from a home reaches the requester, which returns the runs already granted, empties the hank and writes the status. -/
  | ownershipRefusal (n : Nat)
  /-- Step RING_BORROW_RETURN (R332): A frame's last byte passes the stop after its engine, and the engine's shared borrow is returned and acted on by the table in that cycle. -/
  | ringBorrowReturn (n : Nat)
  /-- Step QUEUE_DESCRIPTOR_WRITE (R386): A host write to a work queue's BASE, LOG2SZ or control word is applied, enabling the queue, or is refused and sets ERR. -/
  | queueDescriptorWrite (queue : Nat) (word : Nat) (value : W64)
  /-- Step RESIDENCY_RANGE_WRITE (R97): A write to a residency range register is applied or refused with BADW. -/
  | residencyRangeWrite (addr : Nat) (value : W64)
  /-- Step SEGMENT_FRAME_ARRIVAL (R313): A frame arrives at the IOD stop from the ring segment and is passed on or replaced by a hole. -/
  | segmentFrameArrival (frame : Frame)
  /-- Step RGPAT_WRITE (R312): A write of the pattern base takes effect at a later revolution boundary. -/
  | rgpatWrite (value : W64)
  /-- Step RGLEN_WRITE (R312): A write of the pattern length takes effect at a later revolution boundary. -/
  | rglenWrite (value : W64)
  /-- Step RGERR_WRITE (R312): A write of 0 clears the ring error counts. -/
  | rgerrWrite (value : W64)
  /-- Step FLIT_RECEIVE (R366): A flit arrives, is checked and resequenced for delivery. -/
  | flitReceive (link : Nat) (flit : Flit)
  /-- Step ACK_RECEIVE (R366): The sender receives an acknowledgement and resends missing flits. -/
  | ackReceive (link : Nat) (seq : BitVec 12) (bitmap : W64)
  /-- Step LINK_LOCK (R367): A training link locks and enters UP, or FAILED without a common version. -/
  | linkLock (link : Nat) (lo : Nat) (hi : Nat)
  /-- Step LOSS_OF_LOCK (R367): A link loses lock and enters RETRAIN. -/
  | lossOfLock (link : Nat)
  /-- Step TRAINING_TIMEOUT (R367): A training attempt ends without lock; after three the link is FAILED. -/
  | trainingTimeout (link : Nat)
  /-- Step SLOT_RESERVATION (R365): The slot allocator grants or refuses a stream's slot reservation. -/
  | slotReservation (links : List Nat) (slots : List Nat)
  /-- Step STARVATION_TOKEN (R365): A local input waiting 64 table turns gains a starvation token. -/
  | starvationToken (router : Nat) (input : Nat)
  /-- Step XFER_RESEND (R371): A sender resends after 2 µs when the receiver's credit store is full. -/
  | xferResend (n : Nat)
  /-- Step EPOCH_EXCHANGE (R378): Members exchange epochs and proceed on the highest. -/
  | epochExchange (ex : CollExchange)
  /-- Step MEMBER_LOST_TIMEOUT (R379): A member silent for 1 ms is found lost and the collective ends with CODE 3. -/
  | memberLostTimeout (coll : Nat) (module : Nat)
  /-- Step EXTENT_TAKEBACK (R431): The fabric manager takes back an extent and the IOD revokes it at one instant. -/
  | extentTakeback (extent : Nat)
  /-- Step POOL_FATAL_ERROR (R432): A CXL fatal error revokes every extent of the pool device; or, where a rebuild is impossible, the ranges
  named are lost. -/
  | poolFatalError (device : PoolFault)
  /-- Step CXL_MEM_ACCESS (R92): A host CXL.mem read or write is served under host borrows or poisoned and dropped. -/
  | cxlMemAccess (acc : CxlAccess)
  /-- Step THERMAL_LIMIT (R434): At a thermal or power limit the arithmetic clock steps down by 125 MHz. -/
  | thermalLimit (up : Bool)
  /-- Step PORT_ENABLE (R367): The host enables a port, moving its link from DOWN or FAILED to TRAIN. -/
  | portEnable (link : Nat)
  /-- Step SLICE_TABLE_WRITE (R394): A write to SLSTART or a slice entry is applied, or is refused and sets BADW in SLCTL. -/
  | sliceTableWrite (addr : Nat) (value : W64)
  /-- Step CLAUSE_START (R152): A PC group whose wait slots all hold starts its clause. -/
  | clauseStart
  /-- Step FRAME_INJECT (R332): A ring stop decides a frame's borrow and injects the tile or a hole. -/
  | frameInject
  /-- Step SLICE_SWITCH (R394): A time slice ends at its 1588 instant and the tenants change. -/
  | sliceSwitch
  /-- Step FAULT_RECORD_WRITE (R427): A waiting fault record is written to the fault ring when it has room, raising an interrupt. -/
  | faultRecordWrite
  /-- Step LOAD (R418): Checks, relocates and seals an object as a resident image. -/
  | load
  /-- Step UNLOAD (R421): Evicts an unused resident image. -/
  | unload
  /-- Step REPLACE (R424): Writes or clears a kernel indirection entry at one instant. -/
  | replace
  /-- Step CTXSET (R429): Writes a context table entry. -/
  | ctxset
  /-- Step HBORROW (R428): Takes a host borrow on device memory. -/
  | hborrow
  /-- Step HRETURN (R428): Returns a host borrow. -/
  | hreturn
  /-- Step KILL (R86): Kills a context and starts the ownership table walks. -/
  | kill
  /-- Step WGTERM (R400): Terminates a workgroup. -/
  | wgterm
  /-- Step RESUME (R400): Answers a fault record by making the lanes or command resume. -/
  | resume
  /-- Step SKIP (R400): Answers a fault record by resuming past the faulting word. -/
  | skip
  /-- Step FAIL (R400): Answers a fault record by terminating the workgroup or failing the command. -/
  | fail
  /-- Step FUSEUP (R422): Starts raising the fuse counter. -/
  | fuseup
  /-- Step FUSE_BLOW_COMPLETE (R422): The fuses are blown and older indirection entries invalidated. -/
  | fuseBlowComplete
  /-- Step ATTEST (R425): Writes a signed attestation report for a nonce. -/
  | attest
  /-- Step EXTMAP (R430): Maps a pool extent at a window slot. -/
  | extmap
  /-- Step EXTUNMAP (R431): Unmaps a pool extent, revoking it. -/
  | extunmap
  /-- Step SECURITY_ALARM (R426): A voltage, clock or tamper violation raises the alarm and may erase the key store. -/
  | securityAlarm
  /-- Step RESET (R367): Reset ends: every register takes its reset value and every link leaves DOWN for TRAIN. -/
  | reset
  deriving DecidableEq, Repr

end Sys2Proof
end

