-- ==== Sys2Proof/Machine/Static.lean ====
section
/-! DEFINITION. What R159 checks of an instruction word before its clause runs: the use each word makes of its fields (its shape), the
reserved values, the class and the control words; and the register operands that the same shapes give. -/

namespace Sys2Proof.Machine

/-- What a field of a word names (R172). `no` is a field the entry does not use, and so reserved (R173). -/
inductive RK where
  | no
  /-- n vector registers, aligned to n when n is 2. -/
  | v (n : Nat)
  /-- n vector registers from any on (R294). -/
  | vr (n : Nat)
  /-- n scalar registers, aligned to n. -/
  | s (n : Nat)
  | p | j | h | h24 | q | mac | acc
  /-- A number 0 to 15 that names no register. -/
  | k16
  deriving DecidableEq, Repr

/-- The use a format-T word makes of its fields. -/
structure Shape where
  d : RK := .no
  a : RK := .no
  b : RK := .no
  c : RK := .no
  /-- B, or C, may name a scalar register through BS, or CS. -/
  bs : Bool := false
  cs : Bool := false
  /-- MOD bits the entry defines. -/
  mask : BitVec 14 := 0
  /-- The entry's remaining conditions on MOD. -/
  ok : Bool := true
  /-- D is read as well as written, or is read only. -/
  dSrc : Bool := false
  dDst : Bool := true
  /-- C is written as well (VADDC, VSUBB), or is a destination only (the status of a borrow). -/
  cDst : Bool := false
  cSrc : Bool := true
  /-- FE[50] covers C. -/
  feC : Bool := true
  deriving DecidableEq, Repr

/-- MOD[hi:lo]. -/
def modBits (m : BitVec 14) (lo n : Nat) : Nat := (m.toNat / 2 ^ lo) % 2 ^ n
/-- A MOD bit. -/
def modBit (m : BitVec 14) (n : Nat) : Bool := m.getLsbD n

/-- One, two or three scalar sources to a scalar destination (R190). -/
def shS (n : Nat) (mask : BitVec 14) : Shape :=
  { d := .s 1, a := .s 1, b := if n ≥ 2 then .s 1 else .no, c := if n ≥ 3 then .s 1 else .no, mask := mask }
/-- Vector sources of w registers to a vector destination; B and C may be scalars (R208, R228). -/
def shV (n w : Nat) (mask : BitVec 14) : Shape :=
  { d := .v w, a := .v w, b := if n ≥ 2 then .v w else .no, c := if n ≥ 3 then .v w else .no, bs := n ≥ 2, cs := n ≥ 3, mask := mask }
/-- A comparison into a predicate, combined with pC by MOD[5:4] (R216, R234). -/
def shCmp (w : Nat) (mask m : BitVec 14) : Shape :=
  { d := .p, a := .v w, b := .v w, bs := true, c := if modBits m 4 2 = 0 then .no else .p, mask := mask, ok := modBits m 4 2 ≠ 3 }
/-- 16-bit formats of CVTFF, CVTFI and CVTIF: f16 is 2 and bf16 is 3 (R237). -/
def is16 (f : Nat) : Bool := f ≥ 2
/-- The register width of a floating format of R237. -/
def fw (f : Nat) : Nat := if f = 1 then 2 else 1
/-- The register width of an integer format of R238: s64 is 2 and u64 is 3. -/
def iw (f : Nat) : Nat := if f = 2 ∨ f = 3 then 2 else 1
/-- The hank numbers in MOD of a collective (R380): 0 to 23, or 31 for none where the form allows it. -/
def collHanks (m : BitVec 14) (noneIn noneOut : Bool) : Bool :=
  (modBits m 0 5 < 24 || (modBits m 0 5 == 31 && noneIn)) && (modBits m 5 5 < 24 || (modBits m 5 5 == 31 && noneOut))

/-- The shape of each format-T word, from its entry; none for words of other formats. -/
def shapeOf : Instr → Option (Guard × FmtT × Shape)
  | .nop g f => some (g, f, {})
  | .smov g f => some (g, f, shS 1 0)
  | .sadd g f => some (g, f, shS 2 0)
  | .ssub g f => some (g, f, shS 2 0)
  | .smul g f => some (g, f, shS 2 0)
  | .smulh g f => some (g, f, shS 2 1)
  | .sand g f => some (g, f, shS 2 0)
  | .sor g f => some (g, f, shS 2 0)
  | .sxor g f => some (g, f, shS 2 0)
  | .sshl g f => some (g, f, shS 2 0)
  | .sshr g f => some (g, f, shS 2 0)
  | .ssra g f => some (g, f, shS 2 0)
  | .smin g f => some (g, f, shS 2 1)
  | .smax g f => some (g, f, shS 2 1)
  | .sclz g f => some (g, f, shS 1 0)
  | .spopc g f => some (g, f, shS 1 0)
  | .scmp g f => some (g, f, { shS 2 15 with ok := modBits f.mod 0 3 < 6 })
  | .ssel g f => some (g, f, shS 3 0)
  | .sdiv g f => some (g, f, shS 2 3)
  | .ret g f => some (g, f, { a := .v 2 })
  | .exit g f => some (g, f, {})
  | .yield g f => some (g, f, { mask := 0x3FFF })
  | .jmset g f => some (g, f, { d := .j, a := if modBit f.mod 2 then .no else .s 1, mask := 7, ok := modBits f.mod 0 2 = 0 })
  | .jmadd g f => some (g, f, { d := .j, a := if modBit f.mod 2 then .no else .s 1, mask := 7, ok := modBits f.mod 0 2 = 1 })
  | .jmdel g f => some (g, f, { d := .j, a := if modBit f.mod 2 then .no else .s 1, mask := 7, ok := modBits f.mod 0 2 = 2 })
  | .jmqry g f => some (g, f, { d := .s 1, a := if modBits f.mod 0 2 = 0 then .j else .no, mask := 3, ok := modBits f.mod 0 2 ≠ 3 })
  | .vmov g f => some (g, f, { d := .v 1, a := if modBit f.mod 0 then .s 1 else .v 1, mask := 3, ok := modBits f.mod 0 2 ≠ 2 })
  | .vadd g f => some (g, f, { shV 2 1 3 with ok := modBits f.mod 0 2 ≠ 3 })
  | .vsub g f => some (g, f, { shV 2 1 3 with ok := modBits f.mod 0 2 ≠ 3 })
  | .vaddc g f => some (g, f, { shV 2 1 1 with c := .p, cDst := true })
  | .vsubb g f => some (g, f, { shV 2 1 1 with c := .p, cDst := true })
  | .vmul g f => some (g, f, shV 2 1 0)
  | .vmulh g f => some (g, f, shV 2 1 1)
  | .vmad g f => some (g, f, shV 3 1 0)
  | .vmadw g f => some (g, f, { shV 3 1 1 with d := .v 2, c := .v 2 })
  | .vand g f => some (g, f, shV 2 1 0)
  | .vor g f => some (g, f, shV 2 1 0)
  | .vxor g f => some (g, f, shV 2 1 0)
  | .vnot g f => some (g, f, shV 1 1 0)
  | .vandn g f => some (g, f, shV 2 1 0)
  | .vshl g f => some (g, f, shV 2 1 0)
  | .vshr g f => some (g, f, shV 2 1 0)
  | .vsra g f => some (g, f, shV 2 1 0)
  | .vrot g f => some (g, f, shV 2 1 1)
  | .vmin g f => some (g, f, shV 2 1 1)
  | .vmax g f => some (g, f, shV 2 1 1)
  | .vabs g f => some (g, f, shV 1 1 1)
  | .vneg g f => some (g, f, shV 1 1 1)
  | .vclz g f => some (g, f, shV 1 1 0)
  | .vpopc g f => some (g, f, shV 1 1 0)
  | .vbrev g f => some (g, f, shV 1 1 0)
  | .vbfe g f => some (g, f, shV 3 1 1)
  | .vbfi g f => some (g, f, { shV 3 1 0 with dSrc := true })
  | .vperm4 g f => some (g, f, shV 3 1 0)
  | .vcmp g f => some (g, f, { shCmp 1 0x3F f.mod with ok := modBits f.mod 4 2 ≠ 3 ∧ modBits f.mod 0 3 < 6 })
  | .vsel g f => some (g, f, { shV 2 1 0 with c := .p })
  | .pand g f => some (g, f, { d := .p, a := .p, b := .p })
  | .por g f => some (g, f, { d := .p, a := .p, b := .p })
  | .pxor g f => some (g, f, { d := .p, a := .p, b := .p })
  | .pnot g f => some (g, f, { d := .p, a := .p })
  | .xquad g f => some (g, f, { shV 1 1 0x1F with ok := modBits f.mod 0 3 < 4 ∧ (modBits f.mod 0 3 = 3 ∨ modBits f.mod 3 2 = 0) })
  | .xlane g f => some (g, f, { shV 1 1 0x3FF with ok := modBit f.mod 2 = false ∨ modBits f.mod 6 4 = 0 })
  | .xbcast g f => some (g, f, { shV 1 1 0xFF with
      b := if modBit f.mod 7 then .s 1 else .no, bs := modBit f.mod 7, ok := modBit f.mod 7 = false ∨ (f.bs ∧ modBits f.mod 0 7 = 0) })
  | .xread g f => some (g, f, shV 2 1 0)
  | .xred g f => some (g, f, { shV 1 1 0x7F with ok := modBits f.mod 0 4 < 11 })
  | .xscan g f => some (g, f, { shV 1 1 0xFF with ok := modBits f.mod 0 4 < 11 })
  | .xvote g f => some (g, f, { d := if modBits f.mod 0 2 = 2 then .s 1 else .p, a := .p, mask := 3, ok := modBits f.mod 0 2 ≠ 3 })
  | .xmatch g f => some (g, f, shV 1 1 0)
  | .fadd g f => some (g, f, shV 2 1 7)
  | .fsub g f => some (g, f, shV 2 1 7)
  | .fmul g f => some (g, f, shV 2 1 7)
  | .ffma g f => some (g, f, shV 3 1 7)
  | .fmin g f => some (g, f, shV 2 1 4)
  | .fmax g f => some (g, f, shV 2 1 4)
  | .fcmp g f => some (g, f, shCmp 1 0x3F f.mod)
  | .frcp g f => some (g, f, shV 1 1 4)
  | .frsq g f => some (g, f, shV 1 1 4)
  | .fsqrt g f => some (g, f, shV 1 1 7)
  | .fdiv g f => some (g, f, shV 2 1 7)
  | .fexp2 g f => some (g, f, shV 1 1 4)
  | .flog2 g f => some (g, f, shV 1 1 4)
  | .fsin g f => some (g, f, shV 1 1 4)
  | .fcos g f => some (g, f, shV 1 1 4)
  | .ftanh g f => some (g, f, shV 1 1 4)
  | .ffrc g f => some (g, f, shV 1 1 4)
  | .frnd g f => some (g, f, shV 1 1 7)
  | .fclass g f => some (g, f, { d := .v 1, a := .v (if modBit f.mod 0 then 2 else 1), mask := 1 })
  | .fscale g f => some (g, f, shV 2 1 7)
  | .dadd g f => some (g, f, shV 2 2 3)
  | .dsub g f => some (g, f, shV 2 2 3)
  | .dmul g f => some (g, f, shV 2 2 3)
  | .dfma g f => some (g, f, shV 3 2 3)
  | .dmin g f => some (g, f, shV 2 2 0)
  | .dmax g f => some (g, f, shV 2 2 0)
  | .dcmp g f => some (g, f, shCmp 2 0x37 f.mod)
  | .ddiv g f => some (g, f, shV 2 2 3)
  | .dsqrt g f => some (g, f, shV 1 2 3)
  | .hadd2 g f => some (g, f, { shV 2 1 15 with ok := ¬ (modBit f.mod 2 ∧ modBit f.mod 3) })
  | .hmul2 g f => some (g, f, { shV 2 1 15 with ok := ¬ (modBit f.mod 2 ∧ modBit f.mod 3) })
  | .hfma2 g f => some (g, f, { shV 3 1 15 with ok := ¬ (modBit f.mod 2 ∧ modBit f.mod 3) })
  | .cvtff g f => some (g, f, {
      d := .v (fw (modBits f.mod 5 2)), a := .v (fw (modBits f.mod 3 2)), mask := 0x1FF, dSrc := modBit f.mod 8,
      ok := (modBit f.mod 8 → is16 (modBits f.mod 5 2)) ∧ (modBit f.mod 7 → is16 (modBits f.mod 3 2)) ∧
        (modBit f.mod 2 → modBits f.mod 5 1 = 0 ∧ modBits f.mod 3 1 = 0) })
  | .cvtfi g f => some (g, f, {
      d := .v (iw (modBits f.mod 5 3)), a := .v (fw (modBits f.mod 3 2)), mask := 0x1FB,
      ok := modBit f.mod 8 → is16 (modBits f.mod 3 2) })
  | .cvtif g f => some (g, f, {
      d := .v (fw (modBits f.mod 6 2)), a := .v (iw (modBits f.mod 3 3)), mask := 0x1FB, dSrc := modBit f.mod 8,
      ok := modBit f.mod 8 → is16 (modBits f.mod 6 2) })
  | .cvtq g f => some (g, f, {
      d := .v 1, a := .v 1, b := if modBit f.mod 4 then .v 1 else .no, bs := modBit f.mod 4, mask := 0x3FF,
      dSrc := !modBit f.mod 8, ok := ¬ (modBit f.mod 4 ∧ modBit f.mod 9) })
  | .cvtdq g f => some (g, f, {
      d := .v 1, a := .v 1, b := if modBit f.mod 4 then .v 1 else .no, bs := modBit f.mod 4, mask := 0x2FF,
      ok := ¬ (modBit f.mod 3 ∧ modBit f.mod 9) })
  | .hborx g f => some (g, f, { d := .h, a := .s 1, b := .s 1, c := .s 1, mask := 1, cDst := true, cSrc := false, feC := false })
  | .hbors g f => some (g, f, { d := .h, a := .s 1, b := .s 1, c := .s 1, mask := 1, cDst := true, cSrc := false, feC := false })
  | .hborc g f => some (g, f, { d := .h, a := .s 1, b := .s 1, c := .s 1, mask := 1, cDst := true, cSrc := false, feC := false })
  | .hreb g f => some (g, f, { a := .h, b := .s 1, c := .k16 })
  | .hsplit g f => some (g, f, { d := .h, a := .h, b := .s 1 })
  | .hmerge g f => some (g, f, { a := .h, b := .h })
  | .hret g f => some (g, f, { a := .h })
  | .hgive g f => some (g, f, { a := .h, b := .s 1, c := .k16 })
  | .hqry g f => some (g, f, { d := .s 2, a := .h })
  | .fence g f => some (g, f, { mask := 0x1F })
  | .bara g f => some (g, f, { a := .s 1 })
  | .barw g f => some (g, f, { a := .s 1, mask := 1 })
  | .acset g f => some (g, f, { a := .s 1, b := .s 1, c := if modBits f.mod 0 2 = 3 then .s 1 else .no, mask := 3, feC := false })
  | .acadd g f => some (g, f, { a := .s 1, b := .s 1 })
  | .acwait g f => some (g, f, { d := .s 1, a := .s 1 })
  | .qdef g f => some (g, f, { d := .q, a := .s 1, b := .s 1 })
  | .qpush g f => some (g, f, { a := .q, b := .s 1 })
  | .qpop g f => some (g, f, { d := .s 1, a := .q })
  | .qstat g f => some (g, f, { d := .s 1, a := .q })
  | .rqset g f => some (g, f, { a := .s 1, b := .s 1 })
  | .rcfence g f => some (g, f, {})
  | .mrd g f => some (g, f, {
      d := .vr (2 ^ modBits f.mod 0 3), a := .acc, b := .s 1, bs := true, mask := 7,
      ok := f.bs ∧ modBits f.mod 0 3 < 6 ∧ f.d.toNat + 2 ^ modBits f.mod 0 3 ≤ 256 })
  | .mwr g f => some (g, f, {
      d := .vr (2 ^ modBits f.mod 0 3), a := .acc, b := .s 1, bs := true, mask := 7, dSrc := true, dDst := false,
      ok := f.bs ∧ modBits f.mod 0 3 < 6 ∧ f.d.toNat + 2 ^ modBits f.mod 0 3 ≤ 256 })
  | .mbatch g f => some (g, f, { d := .s 1 })
  | .mwait g f => some (g, f, {
      d := .s 1, a := if modBit f.mod 4 then .s 1 else .no, mask := 0x1F,
      ok := modBit f.mod 4 = false ∨ modBits f.mod 0 4 = 0 })
  | .mstat g f => some (g, f, {
      d := .s 1, a := if modBits f.mod 0 2 = 0 then .mac else if modBits f.mod 0 2 = 1 then .k16 else .no, mask := 3,
      ok := modBits f.mod 0 2 ≠ 3 })
  | .mrel g f => some (g, f, { a := .mac })
  | .msub g f => some (g, f, { d := .s 1, a := .mac, b := .s 1, c := .s 1, mask := 1 })
  | .munsub g f => some (g, f, { a := .s 1 })
  | .msubq g f => some (g, f, { d := .s 1, a := .s 1, mask := 1 })
  | .rstat g f => some (g, f, { d := .s 1, mask := 3, ok := modBits f.mod 0 2 ≠ 3 })
  | .cpy g f => some (g, f, { d := .h24, a := .h24, b := .s 2, c := .s 2, mask := 1 })
  | .cpyt g f => some (g, f, { d := .h24, a := .h24, b := .s 1, c := .s 2, mask := 1 })
  | .cpyq g f => some (g, f, { d := .s 1 })
  | .msop g f => some (g, f, { d := .h, a := .h, b := if modBits f.mod 9 2 = 3 then .no else .h, c := .s 4, mask := 0xFFF })
  | .amsend g f => some (g, f, { d := .s 1, a := .s 1, b := .s 1, c := .s 1, mask := 1 })
  | .spawn g f => some (g, f, { d := .s 1, a := .s 1, b := .s 1, mask := 0xFF })
  | .waitch g f => some (g, f, { d := .s 1, a := .s 1, mask := 1 })
  | .xfer g f => some (g, f, { d := .s 1, a := .h, b := .s 2, c := .s 4 })
  | .cred g f => some (g, f, { d := .s 1, a := .h, b := .s 4, c := .s 1, mask := 0x3FFF, ok := collHanks f.mod false (!modBit f.mod 13) ∧ modBits f.mod 10 2 ≠ 3 })
  | .cbcast g f => some (g, f, { d := .s 1, a := .h, b := .s 4, c := .s 1, mask := 0x3FF, ok := collHanks f.mod true false })
  | .cgath g f => some (g, f, { d := .s 1, a := .h, b := .s 4, c := .s 1, mask := 0x3FF, ok := collHanks f.mod false false })
  | .cwait g f => some (g, f, { d := .s 1, a := .s 1 })
  | .cqry g f => some (g, f, { d := .s 1, a := .s 1 })
  | _ => none

/-- A field holds a value its kind allows (R172). -/
def rkOk (k : RK) (x : BitVec 8) : Bool :=
  match k with
  | .no => x == 0
  | .v n => n != 2 || x.toNat % 2 == 0
  | .vr _ => true
  | .s n => x.toNat + n ≤ 64 && x.toNat % n == 0
  | .p => x.toNat < 16
  | .j => x.toNat < 8
  | .h => x.toNat < 24
  | .h24 => x.toNat < 25
  | .q => x.toNat < 16
  | .mac => x.toNat < 16
  | .acc => x.toNat < 32
  | .k16 => x.toNat < 16

/-- A kind that an FE bit can cover: a register whose fullness is tracked (R162). -/
def rkFe : RK → Bool
  | .v _ => true
  | .vr _ => true
  | .s _ => true
  | .p => true
  | _ => false

/-- The static check of a format-T word against its shape (R165, R172, R173). -/
def shapeOk (g : Guard) (f : FmtT) (k : Shape) : Bool :=
  let kb := if f.bs then .s 1 else k.b
  let kc := if f.cs then .s 1 else k.c
  rkOk k.d f.d && rkOk k.a f.a && rkOk kb f.b && rkOk kc f.c
    && (!f.bs || k.bs) && (!f.cs || k.cs)
    && (!g.fe.getLsbD 0 || rkFe k.a) && (!g.fe.getLsbD 1 || rkFe k.b) && (!g.fe.getLsbD 2 || (rkFe k.c && k.feC && k.cSrc))
    && f.mod &&& ~~~k.mask == 0 && k.ok

/-- CSR numbers that R407 lists. -/
def csrListed (n : Nat) : Bool :=
  n ≤ 0x0C || n == 0x10 || n == 0x11 || (0x20 ≤ n && n ≤ 0x24) || (0x30 ≤ n && n ≤ 0x33)
/-- The lane-scoped status registers of R407. -/
def csrLane (n : Nat) : Bool := n == 1 || n == 2 || n == 0x21 || n == 0x23 || n == 0x24
/-- The status registers that are read-only (R407). -/
def csrReadOnly (n : Nat) : Bool := !(n == 0x10 || n == 0x11 || n == 0x22 || n == 0x23)
/-- The register that IMM16[1:0] selects (R408). -/
def csrFileOk (file : Nat) (r : BitVec 8) : Bool :=
  file == 0 || (file == 1 && r.toNat < 64) || (file == 2 && r.toNat % 2 == 0)

/-- W of format M names this many bytes. -/
def wBytes (w : BitVec 3) : Nat := 2 ^ w.toNat
/-- Registers a vector access of W occupies (R168). -/
def vRegs (w : BitVec 3) : Nat := if w.toNat ≤ 2 then 1 else 2 ^ (w.toNat - 2)
/-- Scalar registers an access of W occupies (R247). -/
def sRegs (w : BitVec 3) : Nat := if w.toNat ≤ 3 then 1 else 2 ^ (w.toNat - 3)

/-- The OPC, ORD, SCOPE and OFF12 fields of R244. -/
def opcOf (f : FmtM) : Nat := (f.imm.extractLsb' 20 4).toNat
def ordOf (f : FmtM) : Nat := (f.imm.extractLsb' 18 2).toNat
def scopeOf (f : FmtM) : BitVec 3 := f.imm.extractLsb' 15 3
def off12Of (f : FmtM) : BitVec 12 := f.imm.extractLsb' 0 12

/-- WH and H name a hank (R167). -/
def hankOk (g : Guard) (f : FmtM) : Bool := !g.fe.getLsbD 2 || f.h.toNat < 8
/-- FE[48] covers a named offset register; FE[49] covers D when D is a source (R167). -/
def feM (g : Guard) (f : FmtM) (dSrc : Bool) : Bool := (!g.fe.getLsbD 0 || f.a != 0xFF#8) && (!g.fe.getLsbD 1 || dSrc)
/-- Widths that an atomic operation permits (R250). -/
def atomWidthOk (f : FmtM) : Bool :=
  if opcOf f ≤ 8 then f.w.toNat == 2 || f.w.toNat == 3 else opcOf f ≤ 11 && (f.w.toNat == 2 || f.w.toNat == 1)

/-- The static check of a format-M load or store: vector data (R245). -/
def memVOk (g : Guard) (f : FmtM) (load : Bool) : Bool :=
  f.w.toNat ≤ 5 && (!f.sx || (load && f.w.toNat ≤ 1)) && f.d.toNat % vRegs f.w == 0 && feM g f !load

/-- Valid count field of format X: a scalar register, or 0xFF for full (R170, R286). -/
def vcOk (g : Guard) (f : FmtX) : Bool := (f.vc == 0xFF#8 && !g.fe.getLsbD 1) || f.vc.toNat < 64

/-- The reserved-field check of R159 for one word: true when no field holds a value it reserves. Steps of the device have no word. -/
def staticOk (i : Instr) : Bool :=
  match i with
  | .smovi g f => f.d.toNat < 64 && f.a.toNat ≤ 2 && g.fe == 0
  | .saddi g f => f.d.toNat < 64 && f.a.toNat < 64 && g.fe &&& 6 == 0
  | .brz g f => f.d == 0 && f.a.toNat < 64 && g.fe &&& 6 == 0
  | .brnz g f => f.d == 0 && f.a.toNat < 64 && g.fe &&& 6 == 0
  | .call g f => f.d.toNat % 2 == 0 && g.fe &&& 6 == 0
      && ((f.a == 0xFF#8 && !g.fe.getLsbD 0) || (f.a.toNat % 2 == 0 && f.imm == 0))
  | .vmovi g f => f.a == 0 && g.fe == 0
  | .jmp g f => g.pred == 0 && f.j == 8#4 && g.fe == 0
  | .brv g _ => g.fe == 0
  | .rejoin g f => f.j.toNat < 8 && f.off == 0 && g.pred == 0 && g.fe == 0
  | .ld g f => memVOk g f true && hankOk g f
  | .st g f => memVOk g f false && hankOk g f
  | .ldsp g f => memVOk g f true && f.h == 0 && !g.fe.getLsbD 2
  | .stsp g f => memVOk g f false && f.h == 0 && !g.fe.getLsbD 2
  | .lds g f => f.w.toNat ≤ 5 && (!f.sx || f.w.toNat ≤ 1) && f.d.toNat + sRegs f.w ≤ 64 && f.d.toNat % sRegs f.w == 0
      && (f.a.toNat < 64 || f.a == 0xFF#8) && feM g f false && hankOk g f
  | .sts g f => f.w.toNat ≤ 5 && !f.sx && f.d.toNat + sRegs f.w ≤ 64 && f.d.toNat % sRegs f.w == 0
      && (f.a.toNat < 64 || f.a == 0xFF#8) && feM g f true && hankOk g f
  | .ldc g f => (f.w.toNat == 2 || f.w.toNat == 3) && !f.sx && f.d.toNat % vRegs f.w == 0 && opcOf f == 0 && ordOf f ≤ 1
      && f.imm.extractLsb' 12 3 == 0 && feM g f false && hankOk g f
  | .atom g f => atomWidthOk f && !f.sx && f.d.toNat % vRegs f.w == 0 && f.imm.extractLsb' 12 3 == 0 && feM g f true && hankOk g f
  | .atomcas g f => (f.w.toNat == 2 || f.w.toNat == 3) && !f.sx && f.d.toNat % (2 * vRegs f.w) == 0 && opcOf f == 0
      && f.imm.extractLsb' 12 3 == 0 && feM g f true && hankOk g f
  | .red g f => atomWidthOk f && !f.sx && f.d.toNat % vRegs f.w == 0 && (ordOf f == 0 || ordOf f == 2)
      && f.imm.extractLsb' 12 3 == 0 && feM g f true && hankOk g f
  | .waitv g f => (f.w.toNat == 2 || f.w.toNat == 3) && !f.sx && f.d.toNat % vRegs f.w == 0 && ordOf f == 1 && opcOf f % 8 < 6
      && f.imm.extractLsb' 12 3 == 0 && feM g f true && hankOk g f
  | .clnr g f => f.d == 0 && f.w == 0 && (!f.sx || (f.a == 0xFF#8 && f.imm == 0)) && feM g f false && hankOk g f
  | .invr g f => f.d == 0 && f.w == 0 && (!f.sx || (f.a == 0xFF#8 && f.imm == 0)) && feM g f false && hankOk g f
  | .mma g f => f.as_.toNat < 64 && vcOk g f && f.mod == 0 && !g.fe.getLsbD 2
  | .mmat g f => f.as_.toNat < 64 && vcOk g f && f.mod == 0 && !g.fe.getLsbD 2
  | .mld g f => f.acc == 0 && f.as_.toNat % 2 == 0 && f.as_.toNat ≤ 62 && vcOk g f && f.mod.toNat % 32 < 24 && f.mod.toNat < 64
      && !g.fe.getLsbD 2
  | .mzero g f => f.mac == 0 && f.fs == 0 && f.as_ == 0 && vcOk g f && f.mod == 0 && !g.fe.getLsbD 2 && !g.fe.getLsbD 0
  | .csrr g f => csrListed f.csrn.toNat && f.imm.toNat ≤ 2 && f.a == 0 && csrFileOk f.imm.toNat f.d && g.fe == 0
      && !(csrLane f.csrn.toNat && f.imm.toNat == 1)
  | .csrw g f => csrListed f.csrn.toNat && f.imm.toNat ≤ 2 && f.d == 0 && csrFileOk f.imm.toNat f.a && g.fe &&& 6 == 0
      && !(csrLane f.csrn.toNat && f.imm.toNat == 1)
  | .csrrCtl g f => f.csrn == 0xFFFF#16 && f.imm == 1 && f.d.toNat < 64 && f.a.toNat < 64 && g.fe &&& 6 == 0
  | .csrwCtl g f => f.csrn == 0xFFFF#16 && f.imm == 1 && f.d.toNat < 64 && f.a.toNat < 64 && g.fe &&& 6 == 0
  | .trap g f => f.d == 0 && f.a == 0 && f.csrn == 0 && f.imm.toNat < 64 && g.fe == 0
  | .bkpt g f => f.d == 0 && f.a == 0 && f.csrn == 0 && g.fe == 0
  | .haltg g f => f.d == 0 && f.a == 0 && f.csrn == 0 && g.fe == 0
  | .rett g f => f.d == 0 && f.a == 0 && f.csrn == 0 && f.imm.toNat < 2 && g.fe == 0
  | .timew g f => f.d == 0 && f.a.toNat < 64 && f.csrn == 0 && f.imm == 0 && g.fe &&& 6 == 0
  | i =>
    match shapeOf i with
    | some (g, f, k) => shapeOk g f k
    | none => false

/-- A register operand of a word: the first register and how many. -/
inductive Opd where
  | vec (r n : Nat)
  | scal (r n : Nat)
  | pred (r : Nat)
  deriving DecidableEq, Repr

/-- A source, and the FE bit that covers it (R162). -/
structure Src where
  opd : Opd
  fe : Option Nat
  deriving DecidableEq, Repr

/-- The registers a word reads and writes, apart from its guard. -/
structure Operands where
  srcs : List Src := []
  dsts : List Opd := []
  /-- Registers named whose fullness the word's own entry checks. -/
  names : List Opd := []
  deriving DecidableEq, Repr

/-- The register operand a field names, if it names one. -/
def opdOf (k : RK) (x : BitVec 8) : List Opd :=
  match k with
  | .v n => [.vec x.toNat n]
  | .vr n => [.vec x.toNat n]
  | .s n => [.scal x.toNat n]
  | .p => [.pred x.toNat]
  | _ => []

/-- A field as a source under an FE bit. -/
def srcOf (k : RK) (x : BitVec 8) (fe : Option Nat) : List Src := (opdOf k x).map fun o => ⟨o, fe⟩

/-- The register operands of a format-T word. -/
def operandsT (f : FmtT) (k : Shape) : Operands :=
  let kb := if f.bs then .s 1 else k.b
  let kc := if f.cs then .s 1 else k.c
  { srcs := srcOf k.a f.a (some 0) ++ srcOf kb f.b (some 1) ++ (if k.cSrc then srcOf kc f.c (if k.feC then some 2 else none) else [])
      ++ (if k.dSrc then srcOf k.d f.d none else [])
    dsts := (if k.dDst then opdOf k.d f.d else []) ++ (if k.cDst then opdOf kc f.c else []) }

/-- The offset register of a format-M word (R167). -/
def offSrc (f : FmtM) : List Src := if f.a == 0xFF#8 then [] else [⟨.vec f.a.toNat 1, some 0⟩]
/-- The scalar offset register of LDS and STS (R245). -/
def offSrcS (f : FmtM) : List Src := if f.a == 0xFF#8 then [] else [⟨.scal f.a.toNat 1, some 0⟩]
/-- The valid-count register of a format-X word (R170). -/
def vcSrc (f : FmtX) : List Src := if f.vc == 0xFF#8 then [] else [⟨.scal f.vc.toNat 1, some 1⟩]
/-- The register of a CSR transfer (R408). -/
def csrOpd (file : Nat) (r : BitVec 8) : Opd :=
  if file = 1 then .scal r.toNat 1 else if file = 2 then .vec r.toNat 2 else .vec r.toNat 1

/-- The register operands of every word (R162, R165 to R171). -/
def operandsOf (i : Instr) : Operands :=
  match i with
  | .smovi _ f => { srcs := if f.a == 2#8 then [⟨.scal f.d.toNat 1, none⟩] else [], dsts := [.scal f.d.toNat 1] }
  | .saddi _ f => { srcs := [⟨.scal f.a.toNat 1, some 0⟩], dsts := [.scal f.d.toNat 1] }
  | .brz _ f => { srcs := [⟨.scal f.a.toNat 1, some 0⟩] }
  | .brnz _ f => { srcs := [⟨.scal f.a.toNat 1, some 0⟩] }
  | .call _ f => { srcs := if f.a == 0xFF#8 then [] else [⟨.vec f.a.toNat 2, some 0⟩], dsts := [.vec f.d.toNat 2] }
  | .vmovi _ f => { dsts := [.vec f.d.toNat 1] }
  | .ld _ f => { srcs := offSrc f, dsts := [.vec f.d.toNat (vRegs f.w)] }
  | .st _ f => { srcs := offSrc f ++ [⟨.vec f.d.toNat (vRegs f.w), some 1⟩] }
  | .ldsp _ f => { srcs := offSrc f, dsts := [.vec f.d.toNat (vRegs f.w)] }
  | .stsp _ f => { srcs := offSrc f ++ [⟨.vec f.d.toNat (vRegs f.w), some 1⟩] }
  | .lds _ f => { srcs := offSrcS f, dsts := [.scal f.d.toNat (sRegs f.w)] }
  | .sts _ f => { srcs := offSrcS f ++ [⟨.scal f.d.toNat (sRegs f.w), some 1⟩] }
  | .ldc _ f => { srcs := offSrc f, dsts := [.vec f.d.toNat (vRegs f.w)] }
  | .atom _ f => { srcs := offSrc f ++ [⟨.vec f.d.toNat (vRegs f.w), some 1⟩], dsts := [.vec f.d.toNat (vRegs f.w)] }
  | .atomcas _ f => { srcs := offSrc f ++ [⟨.vec f.d.toNat (2 * vRegs f.w), some 1⟩], dsts := [.vec f.d.toNat (vRegs f.w)] }
  | .red _ f => { srcs := offSrc f ++ [⟨.vec f.d.toNat (vRegs f.w), some 1⟩] }
  | .waitv _ f => { srcs := offSrc f ++ [⟨.vec f.d.toNat (vRegs f.w), some 1⟩] }
  | .clnr _ f => { srcs := offSrc f }
  | .invr _ f => { srcs := offSrc f }
  | .mma _ f => { srcs := [⟨.scal f.as_.toNat 1, some 0⟩] ++ vcSrc f }
  | .mmat _ f => { srcs := [⟨.scal f.as_.toNat 1, some 0⟩] ++ vcSrc f }
  | .mld _ f => { srcs := [⟨.scal f.as_.toNat 2, some 0⟩] ++ vcSrc f }
  | .mzero _ f => { srcs := vcSrc f }
  | .csrr _ f => { dsts := [csrOpd f.imm.toNat f.d] }
  | .csrw _ f => { srcs := [⟨csrOpd f.imm.toNat f.a, some 0⟩] }
  | .csrrCtl _ f => { srcs := [⟨.scal f.a.toNat 1, some 0⟩], dsts := [.scal f.d.toNat 1] }
  | .csrwCtl _ f => { srcs := [⟨.scal f.a.toNat 1, some 0⟩, ⟨.scal f.d.toNat 1, none⟩] }
  | .timew _ f => { srcs := [⟨.scal f.a.toNat 1, some 0⟩] }
  -- The source A of a cross-lane word is checked lane by lane as it is read (R219), not here.
  | .xquad _ f => { dsts := [.vec f.d.toNat 1], names := [.vec f.a.toNat 1] }
  | .xlane _ f => { dsts := [.vec f.d.toNat 1], names := [.vec f.a.toNat 1] }
  | .xbcast _ f => { srcs := if modBit f.mod 7 then [⟨.scal f.b.toNat 1, some 1⟩] else [], dsts := [.vec f.d.toNat 1], names := [.vec f.a.toNat 1] }
  | .xread _ f => { srcs := [⟨if f.bs then .scal f.b.toNat 1 else .vec f.b.toNat 1, some 1⟩], dsts := [.vec f.d.toNat 1], names := [.vec f.a.toNat 1] }
  | .xred _ f => { dsts := [.vec f.d.toNat 1], names := [.vec f.a.toNat 1] }
  | .xscan _ f => { dsts := [.vec f.d.toNat 1], names := [.vec f.a.toNat 1] }
  | .xvote _ f => { dsts := [if modBits f.mod 0 2 = 2 then .scal f.d.toNat 1 else .pred f.d.toNat] }
  | .xmatch _ f => { dsts := [.vec f.d.toNat 1], names := [.vec f.a.toNat 1] }
  | i =>
    match shapeOf i with
    | some (_, f, k) => operandsT f k
    | none => {}

/-- The classes of R149 and R156. -/
inductive Class where
  | alu | mem | matrix | async | sys
  deriving DecidableEq, Repr

/-- The class of an opcode (R156); none for 0xE0 to 0xEF and for header marks. -/
def classOfOp (op : Nat) : Option Class :=
  if op < 0x80 then some .alu else if op < 0xA8 then some .mem else if op < 0xC0 then some .matrix
  else if op < 0xE0 then some .async else if 0xF0 ≤ op ∧ op < 0xF8 then some .sys else none

/-- The CLASS field of a header (R149). -/
def classOfBits (b : BitVec 3) : Option Class :=
  match b.toNat with
  | 0 => some .alu
  | 1 => some .mem
  | 2 => some .matrix
  | 3 => some .async
  | 4 => some .sys
  | _ => none

/-- The words whose whole effect R53 suppresses for helper lanes: for these a word raises no trap on a helper lane. -/
def suppressed : Instr → Bool
  | .st _ _ => true
  | .sts _ _ => true
  | .stsp _ _ => true
  | .atom _ _ => true
  | .atomcas _ _ => true
  | .red _ _ => true
  | .hborx _ _ => true
  | .hbors _ _ => true
  | .hborc _ _ => true
  | .hreb _ _ => true
  | .hsplit _ _ => true
  | .hmerge _ _ => true
  | .hret _ _ => true
  | .hgive _ _ => true
  | .qpush _ _ => true
  | .qpop _ _ => true
  | .acadd _ _ => true
  | .bara _ _ => true
  | .barw _ f => !modBit f.mod 0
  | .cpy _ _ => true
  | .cpyt _ _ => true
  | .msop _ _ => true
  | .msub _ _ => true
  | .amsend _ _ => true
  | .spawn _ _ => true
  | .xfer _ _ => true
  | .cred _ _ => true
  | .cbcast _ _ => true
  | .cgath _ _ => true
  | _ => false

/-- The control words of R157. -/
def isControl : Instr → Bool
  | .jmp _ _ => true
  | .brz _ _ => true
  | .brnz _ _ => true
  | .brv _ _ => true
  | .call _ _ => true
  | .ret _ _ => true
  | .rejoin _ _ => true
  | .exit _ _ => true
  | .yield _ _ => true
  | .trap _ _ => true
  | .rett _ _ => true
  | .bkpt _ _ => true
  | .haltg _ _ => true
  | .cpy _ f => modBit f.mod 0
  | .cpyt _ f => modBit f.mod 0
  | _ => false

end Sys2Proof.Machine
end

