-- ==== Sys2Proof/WellFormed.lean ====
section
/-! DEFINITION. Which instructions are words of Drelan 1.0: those in which no field holds a value that its entry reserves (R8, R172, R173). -/

namespace Sys2Proof

/-- No field of the word holds a reserved value; a step of the device is no word and so never well formed. -/
def wellFormed (i : Instr) : Bool := Machine.staticOk i

/-- The same as a proposition. -/
abbrev WellFormed (i : Instr) : Prop := wellFormed i = true

end Sys2Proof
end

