-- ==== Sys2Proof/Decode.lean ====
section
/-! DEFINITION. Decoding a code word (R148, R149, R164 to R177) and, after it, encoding an instruction. -/

namespace Sys2Proof

open Machine

/-- Why a word is no instruction, in the order of R159: a header stands there (R149), the opcode is unassigned or experimental (R176), a
field holds a value it reserves (R172, R173). -/
inductive DecodeError where
  | header | illegalOpcode | reservedField
  deriving DecidableEq, Repr

/-- The common fields below OP (R164). -/
def guardOf (w : W64) : Guard := ⟨w.extractLsb' 52 4, w.getLsbD 51, w.extractLsb' 48 3⟩
/-- Format T (R165). -/
def fmtTOf (w : W64) : FmtT :=
  ⟨w.extractLsb' 40 8, w.extractLsb' 32 8, w.extractLsb' 24 8, w.extractLsb' 16 8, w.getLsbD 15, w.getLsbD 14, w.extractLsb' 0 14⟩
/-- Format I (R166). -/
def fmtIOf (w : W64) : FmtI := ⟨w.extractLsb' 40 8, w.extractLsb' 32 8, w.extractLsb' 0 32⟩
/-- Format M (R167). -/
def fmtMOf (w : W64) : FmtM :=
  ⟨w.extractLsb' 40 8, w.extractLsb' 36 4, w.extractLsb' 33 3, w.getLsbD 32, w.extractLsb' 24 8, w.extractLsb' 0 24⟩
/-- Format B (R169). -/
def fmtBOf (w : W64) : FmtB := ⟨w.extractLsb' 44 4, w.extractLsb' 0 44⟩
/-- Format X (R170). -/
def fmtXOf (w : W64) : FmtX :=
  ⟨w.extractLsb' 43 5, w.extractLsb' 39 4, w.extractLsb' 36 3, w.extractLsb' 28 8, w.extractLsb' 20 8, w.extractLsb' 0 20⟩
/-- Format S (R171). -/
def fmtSOf (w : W64) : FmtS := ⟨w.extractLsb' 40 8, w.extractLsb' 32 8, w.extractLsb' 16 16, w.extractLsb' 0 16⟩

/-- Opcodes 0x00 to 0x0F, by the map of R175. -/
def decodeRow0 (w : W64) : Nat → Option Instr
  | 0 => some (.nop (guardOf w) (fmtTOf w))
  | 1 => some (.smov (guardOf w) (fmtTOf w))
  | 2 => some (.smovi (guardOf w) (fmtIOf w))
  | 3 => some (.sadd (guardOf w) (fmtTOf w))
  | 4 => some (.saddi (guardOf w) (fmtIOf w))
  | 5 => some (.ssub (guardOf w) (fmtTOf w))
  | 6 => some (.smul (guardOf w) (fmtTOf w))
  | 7 => some (.smulh (guardOf w) (fmtTOf w))
  | 8 => some (.sand (guardOf w) (fmtTOf w))
  | 9 => some (.sor (guardOf w) (fmtTOf w))
  | 10 => some (.sxor (guardOf w) (fmtTOf w))
  | 11 => some (.sshl (guardOf w) (fmtTOf w))
  | 12 => some (.sshr (guardOf w) (fmtTOf w))
  | 13 => some (.ssra (guardOf w) (fmtTOf w))
  | 14 => some (.smin (guardOf w) (fmtTOf w))
  | 15 => some (.smax (guardOf w) (fmtTOf w))
  | _ => none

/-- Opcodes 0x10 to 0x1F, by the map of R175. -/
def decodeRow1 (w : W64) : Nat → Option Instr
  | 0 => some (.sclz (guardOf w) (fmtTOf w))
  | 1 => some (.spopc (guardOf w) (fmtTOf w))
  | 2 => some (.scmp (guardOf w) (fmtTOf w))
  | 3 => some (.ssel (guardOf w) (fmtTOf w))
  | 4 => some (.sdiv (guardOf w) (fmtTOf w))
  | 5 => some (.jmp (guardOf w) (fmtBOf w))
  | 6 => some (.brz (guardOf w) (fmtIOf w))
  | 7 => some (.brnz (guardOf w) (fmtIOf w))
  | 8 => some (.brv (guardOf w) (fmtBOf w))
  | 9 => some (.call (guardOf w) (fmtIOf w))
  | 10 => some (.ret (guardOf w) (fmtTOf w))
  | 11 => some (.rejoin (guardOf w) (fmtBOf w))
  | 12 => some (if w.extractLsb' 0 2 = 1#2 then .jmadd (guardOf w) (fmtTOf w) else if w.extractLsb' 0 2 = 2#2 then .jmdel (guardOf w) (fmtTOf w) else .jmset (guardOf w) (fmtTOf w))
  | 13 => some (.jmqry (guardOf w) (fmtTOf w))
  | 14 => some (.exit (guardOf w) (fmtTOf w))
  | 15 => some (.yield (guardOf w) (fmtTOf w))
  | _ => none

/-- Opcodes 0x20 to 0x2F, by the map of R175. -/
def decodeRow2 (w : W64) : Nat → Option Instr
  | 0 => some (.vmov (guardOf w) (fmtTOf w))
  | 1 => some (.vmovi (guardOf w) (fmtIOf w))
  | 2 => some (.vadd (guardOf w) (fmtTOf w))
  | 3 => some (.vaddc (guardOf w) (fmtTOf w))
  | 4 => some (.vsub (guardOf w) (fmtTOf w))
  | 5 => some (.vsubb (guardOf w) (fmtTOf w))
  | 6 => some (.vmul (guardOf w) (fmtTOf w))
  | 7 => some (.vmulh (guardOf w) (fmtTOf w))
  | 8 => some (.vmad (guardOf w) (fmtTOf w))
  | 9 => some (.vmadw (guardOf w) (fmtTOf w))
  | 10 => some (.vand (guardOf w) (fmtTOf w))
  | 11 => some (.vor (guardOf w) (fmtTOf w))
  | 12 => some (.vxor (guardOf w) (fmtTOf w))
  | 13 => some (.vnot (guardOf w) (fmtTOf w))
  | 14 => some (.vandn (guardOf w) (fmtTOf w))
  | 15 => some (.vshl (guardOf w) (fmtTOf w))
  | _ => none

/-- Opcodes 0x30 to 0x3F, by the map of R175. -/
def decodeRow3 (w : W64) : Nat → Option Instr
  | 0 => some (.vshr (guardOf w) (fmtTOf w))
  | 1 => some (.vsra (guardOf w) (fmtTOf w))
  | 2 => some (.vrot (guardOf w) (fmtTOf w))
  | 3 => some (.vmin (guardOf w) (fmtTOf w))
  | 4 => some (.vmax (guardOf w) (fmtTOf w))
  | 5 => some (.vabs (guardOf w) (fmtTOf w))
  | 6 => some (.vneg (guardOf w) (fmtTOf w))
  | 7 => some (.vclz (guardOf w) (fmtTOf w))
  | 8 => some (.vpopc (guardOf w) (fmtTOf w))
  | 9 => some (.vbrev (guardOf w) (fmtTOf w))
  | 10 => some (.vbfe (guardOf w) (fmtTOf w))
  | 11 => some (.vbfi (guardOf w) (fmtTOf w))
  | 12 => some (.vperm4 (guardOf w) (fmtTOf w))
  | 13 => some (.vcmp (guardOf w) (fmtTOf w))
  | 14 => some (.vsel (guardOf w) (fmtTOf w))
  | _ => none

/-- Opcodes 0x40 to 0x4F, by the map of R175. -/
def decodeRow4 (w : W64) : Nat → Option Instr
  | 0 => some (.pand (guardOf w) (fmtTOf w))
  | 1 => some (.por (guardOf w) (fmtTOf w))
  | 2 => some (.pxor (guardOf w) (fmtTOf w))
  | 3 => some (.pnot (guardOf w) (fmtTOf w))
  | 4 => some (.xquad (guardOf w) (fmtTOf w))
  | 5 => some (.xlane (guardOf w) (fmtTOf w))
  | 6 => some (.xbcast (guardOf w) (fmtTOf w))
  | 7 => some (.xread (guardOf w) (fmtTOf w))
  | 8 => some (.xred (guardOf w) (fmtTOf w))
  | 9 => some (.xscan (guardOf w) (fmtTOf w))
  | 10 => some (.xvote (guardOf w) (fmtTOf w))
  | 11 => some (.xmatch (guardOf w) (fmtTOf w))
  | _ => none

/-- Opcodes 0x50 to 0x5F, by the map of R175. -/
def decodeRow5 (w : W64) : Nat → Option Instr
  | 0 => some (.fadd (guardOf w) (fmtTOf w))
  | 1 => some (.fsub (guardOf w) (fmtTOf w))
  | 2 => some (.fmul (guardOf w) (fmtTOf w))
  | 3 => some (.ffma (guardOf w) (fmtTOf w))
  | 4 => some (.fmin (guardOf w) (fmtTOf w))
  | 5 => some (.fmax (guardOf w) (fmtTOf w))
  | 6 => some (.fcmp (guardOf w) (fmtTOf w))
  | 7 => some (.frcp (guardOf w) (fmtTOf w))
  | 8 => some (.frsq (guardOf w) (fmtTOf w))
  | 9 => some (.fsqrt (guardOf w) (fmtTOf w))
  | 10 => some (.fdiv (guardOf w) (fmtTOf w))
  | 11 => some (.fexp2 (guardOf w) (fmtTOf w))
  | 12 => some (.flog2 (guardOf w) (fmtTOf w))
  | 13 => some (.fsin (guardOf w) (fmtTOf w))
  | 14 => some (.fcos (guardOf w) (fmtTOf w))
  | 15 => some (.ftanh (guardOf w) (fmtTOf w))
  | _ => none

/-- Opcodes 0x60 to 0x6F, by the map of R175. -/
def decodeRow6 (w : W64) : Nat → Option Instr
  | 0 => some (.ffrc (guardOf w) (fmtTOf w))
  | 1 => some (.frnd (guardOf w) (fmtTOf w))
  | 2 => some (.fclass (guardOf w) (fmtTOf w))
  | 3 => some (.fscale (guardOf w) (fmtTOf w))
  | 8 => some (.dadd (guardOf w) (fmtTOf w))
  | 9 => some (.dsub (guardOf w) (fmtTOf w))
  | 10 => some (.dmul (guardOf w) (fmtTOf w))
  | 11 => some (.dfma (guardOf w) (fmtTOf w))
  | 12 => some (.dmin (guardOf w) (fmtTOf w))
  | 13 => some (.dmax (guardOf w) (fmtTOf w))
  | 14 => some (.dcmp (guardOf w) (fmtTOf w))
  | 15 => some (.ddiv (guardOf w) (fmtTOf w))
  | _ => none

/-- Opcodes 0x70 to 0x7F, by the map of R175. -/
def decodeRow7 (w : W64) : Nat → Option Instr
  | 0 => some (.dsqrt (guardOf w) (fmtTOf w))
  | 1 => some (.hadd2 (guardOf w) (fmtTOf w))
  | 2 => some (.hmul2 (guardOf w) (fmtTOf w))
  | 3 => some (.hfma2 (guardOf w) (fmtTOf w))
  | 4 => some (.cvtff (guardOf w) (fmtTOf w))
  | 5 => some (.cvtfi (guardOf w) (fmtTOf w))
  | 6 => some (.cvtif (guardOf w) (fmtTOf w))
  | 7 => some (.cvtq (guardOf w) (fmtTOf w))
  | 8 => some (.cvtdq (guardOf w) (fmtTOf w))
  | _ => none

/-- Opcodes 0x80 to 0x8F, by the map of R175. -/
def decodeRow8 (w : W64) : Nat → Option Instr
  | 0 => some (.ld (guardOf w) (fmtMOf w))
  | 1 => some (.st (guardOf w) (fmtMOf w))
  | 2 => some (.lds (guardOf w) (fmtMOf w))
  | 3 => some (.sts (guardOf w) (fmtMOf w))
  | 4 => some (.ldsp (guardOf w) (fmtMOf w))
  | 5 => some (.stsp (guardOf w) (fmtMOf w))
  | 6 => some (.ldc (guardOf w) (fmtMOf w))
  | 8 => some (.hborx (guardOf w) (fmtTOf w))
  | 9 => some (.hbors (guardOf w) (fmtTOf w))
  | 10 => some (.hborc (guardOf w) (fmtTOf w))
  | 11 => some (.hreb (guardOf w) (fmtTOf w))
  | 12 => some (.hsplit (guardOf w) (fmtTOf w))
  | 13 => some (.hmerge (guardOf w) (fmtTOf w))
  | 14 => some (.hret (guardOf w) (fmtTOf w))
  | 15 => some (.hgive (guardOf w) (fmtTOf w))
  | _ => none

/-- Opcodes 0x90 to 0x9F, by the map of R175. -/
def decodeRow9 (w : W64) : Nat → Option Instr
  | 0 => some (.hqry (guardOf w) (fmtTOf w))
  | 1 => some (.atom (guardOf w) (fmtMOf w))
  | 2 => some (.atomcas (guardOf w) (fmtMOf w))
  | 3 => some (.red (guardOf w) (fmtMOf w))
  | 4 => some (.waitv (guardOf w) (fmtMOf w))
  | 5 => some (.fence (guardOf w) (fmtTOf w))
  | 6 => some (.clnr (guardOf w) (fmtMOf w))
  | 7 => some (.invr (guardOf w) (fmtMOf w))
  | 8 => some (.bara (guardOf w) (fmtTOf w))
  | 9 => some (.barw (guardOf w) (fmtTOf w))
  | 10 => some (.acset (guardOf w) (fmtTOf w))
  | 11 => some (.acadd (guardOf w) (fmtTOf w))
  | 12 => some (.acwait (guardOf w) (fmtTOf w))
  | 13 => some (.qdef (guardOf w) (fmtTOf w))
  | 14 => some (.qpush (guardOf w) (fmtTOf w))
  | 15 => some (.qpop (guardOf w) (fmtTOf w))
  | _ => none

/-- Opcodes 0xA0 to 0xAF, by the map of R175. -/
def decodeRowA (w : W64) : Nat → Option Instr
  | 0 => some (.qstat (guardOf w) (fmtTOf w))
  | 1 => some (.rqset (guardOf w) (fmtTOf w))
  | 2 => some (.rcfence (guardOf w) (fmtTOf w))
  | 8 => some (.mld (guardOf w) (fmtXOf w))
  | 9 => some (.mma (guardOf w) (fmtXOf w))
  | 10 => some (.mmat (guardOf w) (fmtXOf w))
  | 11 => some (.mzero (guardOf w) (fmtXOf w))
  | 12 => some (.mrd (guardOf w) (fmtTOf w))
  | 13 => some (.mwr (guardOf w) (fmtTOf w))
  | 14 => some (.mbatch (guardOf w) (fmtTOf w))
  | 15 => some (.mwait (guardOf w) (fmtTOf w))
  | _ => none

/-- Opcodes 0xB0 to 0xBF, by the map of R175. -/
def decodeRowB (w : W64) : Nat → Option Instr
  | 0 => some (.mstat (guardOf w) (fmtTOf w))
  | 1 => some (.mrel (guardOf w) (fmtTOf w))
  | _ => none

/-- Opcodes 0xC0 to 0xCF, by the map of R175. -/
def decodeRowC (w : W64) : Nat → Option Instr
  | 0 => some (.msub (guardOf w) (fmtTOf w))
  | 1 => some (.munsub (guardOf w) (fmtTOf w))
  | 2 => some (.msubq (guardOf w) (fmtTOf w))
  | 3 => some (.rstat (guardOf w) (fmtTOf w))
  | 4 => some (.cpy (guardOf w) (fmtTOf w))
  | 5 => some (.cpyt (guardOf w) (fmtTOf w))
  | 6 => some (.cpyq (guardOf w) (fmtTOf w))
  | 7 => some (.msop (guardOf w) (fmtTOf w))
  | 8 => some (.amsend (guardOf w) (fmtTOf w))
  | 9 => some (.spawn (guardOf w) (fmtTOf w))
  | 10 => some (.waitch (guardOf w) (fmtTOf w))
  | _ => none

/-- Opcodes 0xD0 to 0xDF, by the map of R175. -/
def decodeRowD (w : W64) : Nat → Option Instr
  | 0 => some (.xfer (guardOf w) (fmtTOf w))
  | 1 => some (.cred (guardOf w) (fmtTOf w))
  | 2 => some (.cbcast (guardOf w) (fmtTOf w))
  | 3 => some (.cgath (guardOf w) (fmtTOf w))
  | 4 => some (.cwait (guardOf w) (fmtTOf w))
  | 5 => some (.cqry (guardOf w) (fmtTOf w))
  | _ => none

/-- Opcodes 0xF0 to 0xFF, by the map of R175. -/
def decodeRowF (w : W64) : Nat → Option Instr
  | 0 => some (if (fmtSOf w).csrn = 0xFFFF#16 then .csrrCtl (guardOf w) (fmtSOf w) else .csrr (guardOf w) (fmtSOf w))
  | 1 => some (if (fmtSOf w).csrn = 0xFFFF#16 then .csrwCtl (guardOf w) (fmtSOf w) else .csrw (guardOf w) (fmtSOf w))
  | 2 => some (.trap (guardOf w) (fmtSOf w))
  | 3 => some (.rett (guardOf w) (fmtSOf w))
  | 4 => some (.bkpt (guardOf w) (fmtSOf w))
  | 5 => some (.haltg (guardOf w) (fmtSOf w))
  | 6 => some (.timew (guardOf w) (fmtSOf w))
  | _ => none

/-- The instruction a word's opcode names, its fields unchecked (R175, R177); none for an unassigned opcode. Opcode 0x1C with MOD[1:0] 11
reads as JMSET, and is refused as ill-formed. -/
def decodeOp (w : W64) : Option Instr :=
  match (w.extractLsb' 60 4).toNat with
  | 0 => decodeRow0 w (w.extractLsb' 56 4).toNat
  | 1 => decodeRow1 w (w.extractLsb' 56 4).toNat
  | 2 => decodeRow2 w (w.extractLsb' 56 4).toNat
  | 3 => decodeRow3 w (w.extractLsb' 56 4).toNat
  | 4 => decodeRow4 w (w.extractLsb' 56 4).toNat
  | 5 => decodeRow5 w (w.extractLsb' 56 4).toNat
  | 6 => decodeRow6 w (w.extractLsb' 56 4).toNat
  | 7 => decodeRow7 w (w.extractLsb' 56 4).toNat
  | 8 => decodeRow8 w (w.extractLsb' 56 4).toNat
  | 9 => decodeRow9 w (w.extractLsb' 56 4).toNat
  | 10 => decodeRowA w (w.extractLsb' 56 4).toNat
  | 11 => decodeRowB w (w.extractLsb' 56 4).toNat
  | 12 => decodeRowC w (w.extractLsb' 56 4).toNat
  | 13 => decodeRowD w (w.extractLsb' 56 4).toNat
  | 15 => decodeRowF w (w.extractLsb' 56 4).toNat
  | _ => none

/-- A code word read as an instruction word; total, and every refusal has its name. -/
def decode (w : W64) : Except DecodeError Instr :=
  if w.extractLsb' 59 5 = 31#5 then .error .header
  else match decodeOp w with
    | none => .error .illegalOpcode
    | some i => if wellFormed i then .ok i else .error .reservedField

/-- The host's question: the decoder's instruction from a word given as its number. Code words are 64 bits, stored little-endian (R148), so
the number is the word. -/
def decodeTableWord (nbits w : Nat) : Option Instr :=
  match decode (BitVec.ofNat 64 (w % 2 ^ nbits)) with
  | .ok i => some i
  | .error _ => none

/-- One bit as a word. -/
def boolBit (b : Bool) : BitVec 1 := if b then 1#1 else 0#1
/-- OP and the common fields (R164). -/
def encHead (op : BitVec 8) (g : Guard) : BitVec 16 := op ++ g.pred ++ boolBit g.pn ++ g.fe
/-- Format T (R165). -/
def encT (op : BitVec 8) (g : Guard) (f : FmtT) : W64 :=
  encHead op g ++ (f.d ++ f.a ++ f.b ++ f.c ++ boolBit f.bs ++ boolBit f.cs ++ f.mod : BitVec 48)
/-- Format I (R166). -/
def encI (op : BitVec 8) (g : Guard) (f : FmtI) : W64 := encHead op g ++ (f.d ++ f.a ++ f.imm : BitVec 48)
/-- Format M (R167). -/
def encM (op : BitVec 8) (g : Guard) (f : FmtM) : W64 :=
  encHead op g ++ (f.d ++ f.h ++ f.w ++ boolBit f.sx ++ f.a ++ f.imm : BitVec 48)
/-- Format B (R169). -/
def encB (op : BitVec 8) (g : Guard) (f : FmtB) : W64 := encHead op g ++ (f.j ++ f.off : BitVec 48)
/-- Format X (R170). -/
def encX (op : BitVec 8) (g : Guard) (f : FmtX) : W64 :=
  encHead op g ++ (f.acc ++ f.mac ++ f.fs ++ f.as_ ++ f.vc ++ f.mod : BitVec 48)
/-- Format S (R171). -/
def encS (op : BitVec 8) (g : Guard) (f : FmtS) : W64 := encHead op g ++ (f.d ++ f.a ++ f.csrn ++ f.imm : BitVec 48)

/-- The code word of an instruction, by the map of R175 and the formats of R177; none for a step of the device, which has no word. -/
def encode : Instr → Option W64
  | .nop g f => some (encT 0x00#8 g f)
  | .smov g f => some (encT 0x01#8 g f)
  | .smovi g f => some (encI 0x02#8 g f)
  | .sadd g f => some (encT 0x03#8 g f)
  | .saddi g f => some (encI 0x04#8 g f)
  | .ssub g f => some (encT 0x05#8 g f)
  | .smul g f => some (encT 0x06#8 g f)
  | .smulh g f => some (encT 0x07#8 g f)
  | .sand g f => some (encT 0x08#8 g f)
  | .sor g f => some (encT 0x09#8 g f)
  | .sxor g f => some (encT 0x0A#8 g f)
  | .sshl g f => some (encT 0x0B#8 g f)
  | .sshr g f => some (encT 0x0C#8 g f)
  | .ssra g f => some (encT 0x0D#8 g f)
  | .smin g f => some (encT 0x0E#8 g f)
  | .smax g f => some (encT 0x0F#8 g f)
  | .sclz g f => some (encT 0x10#8 g f)
  | .spopc g f => some (encT 0x11#8 g f)
  | .scmp g f => some (encT 0x12#8 g f)
  | .ssel g f => some (encT 0x13#8 g f)
  | .sdiv g f => some (encT 0x14#8 g f)
  | .jmp g f => some (encB 0x15#8 g f)
  | .brz g f => some (encI 0x16#8 g f)
  | .brnz g f => some (encI 0x17#8 g f)
  | .brv g f => some (encB 0x18#8 g f)
  | .call g f => some (encI 0x19#8 g f)
  | .ret g f => some (encT 0x1A#8 g f)
  | .rejoin g f => some (encB 0x1B#8 g f)
  | .jmset g f => some (encT 0x1C#8 g f)
  | .jmadd g f => some (encT 0x1C#8 g f)
  | .jmdel g f => some (encT 0x1C#8 g f)
  | .jmqry g f => some (encT 0x1D#8 g f)
  | .exit g f => some (encT 0x1E#8 g f)
  | .yield g f => some (encT 0x1F#8 g f)
  | .vmov g f => some (encT 0x20#8 g f)
  | .vmovi g f => some (encI 0x21#8 g f)
  | .vadd g f => some (encT 0x22#8 g f)
  | .vaddc g f => some (encT 0x23#8 g f)
  | .vsub g f => some (encT 0x24#8 g f)
  | .vsubb g f => some (encT 0x25#8 g f)
  | .vmul g f => some (encT 0x26#8 g f)
  | .vmulh g f => some (encT 0x27#8 g f)
  | .vmad g f => some (encT 0x28#8 g f)
  | .vmadw g f => some (encT 0x29#8 g f)
  | .vand g f => some (encT 0x2A#8 g f)
  | .vor g f => some (encT 0x2B#8 g f)
  | .vxor g f => some (encT 0x2C#8 g f)
  | .vnot g f => some (encT 0x2D#8 g f)
  | .vandn g f => some (encT 0x2E#8 g f)
  | .vshl g f => some (encT 0x2F#8 g f)
  | .vshr g f => some (encT 0x30#8 g f)
  | .vsra g f => some (encT 0x31#8 g f)
  | .vrot g f => some (encT 0x32#8 g f)
  | .vmin g f => some (encT 0x33#8 g f)
  | .vmax g f => some (encT 0x34#8 g f)
  | .vabs g f => some (encT 0x35#8 g f)
  | .vneg g f => some (encT 0x36#8 g f)
  | .vclz g f => some (encT 0x37#8 g f)
  | .vpopc g f => some (encT 0x38#8 g f)
  | .vbrev g f => some (encT 0x39#8 g f)
  | .vbfe g f => some (encT 0x3A#8 g f)
  | .vbfi g f => some (encT 0x3B#8 g f)
  | .vperm4 g f => some (encT 0x3C#8 g f)
  | .vcmp g f => some (encT 0x3D#8 g f)
  | .vsel g f => some (encT 0x3E#8 g f)
  | .pand g f => some (encT 0x40#8 g f)
  | .por g f => some (encT 0x41#8 g f)
  | .pxor g f => some (encT 0x42#8 g f)
  | .pnot g f => some (encT 0x43#8 g f)
  | .xquad g f => some (encT 0x44#8 g f)
  | .xlane g f => some (encT 0x45#8 g f)
  | .xbcast g f => some (encT 0x46#8 g f)
  | .xread g f => some (encT 0x47#8 g f)
  | .xred g f => some (encT 0x48#8 g f)
  | .xscan g f => some (encT 0x49#8 g f)
  | .xvote g f => some (encT 0x4A#8 g f)
  | .xmatch g f => some (encT 0x4B#8 g f)
  | .fadd g f => some (encT 0x50#8 g f)
  | .fsub g f => some (encT 0x51#8 g f)
  | .fmul g f => some (encT 0x52#8 g f)
  | .ffma g f => some (encT 0x53#8 g f)
  | .fmin g f => some (encT 0x54#8 g f)
  | .fmax g f => some (encT 0x55#8 g f)
  | .fcmp g f => some (encT 0x56#8 g f)
  | .frcp g f => some (encT 0x57#8 g f)
  | .frsq g f => some (encT 0x58#8 g f)
  | .fsqrt g f => some (encT 0x59#8 g f)
  | .fdiv g f => some (encT 0x5A#8 g f)
  | .fexp2 g f => some (encT 0x5B#8 g f)
  | .flog2 g f => some (encT 0x5C#8 g f)
  | .fsin g f => some (encT 0x5D#8 g f)
  | .fcos g f => some (encT 0x5E#8 g f)
  | .ftanh g f => some (encT 0x5F#8 g f)
  | .ffrc g f => some (encT 0x60#8 g f)
  | .frnd g f => some (encT 0x61#8 g f)
  | .fclass g f => some (encT 0x62#8 g f)
  | .fscale g f => some (encT 0x63#8 g f)
  | .dadd g f => some (encT 0x68#8 g f)
  | .dsub g f => some (encT 0x69#8 g f)
  | .dmul g f => some (encT 0x6A#8 g f)
  | .dfma g f => some (encT 0x6B#8 g f)
  | .dmin g f => some (encT 0x6C#8 g f)
  | .dmax g f => some (encT 0x6D#8 g f)
  | .dcmp g f => some (encT 0x6E#8 g f)
  | .ddiv g f => some (encT 0x6F#8 g f)
  | .dsqrt g f => some (encT 0x70#8 g f)
  | .hadd2 g f => some (encT 0x71#8 g f)
  | .hmul2 g f => some (encT 0x72#8 g f)
  | .hfma2 g f => some (encT 0x73#8 g f)
  | .cvtff g f => some (encT 0x74#8 g f)
  | .cvtfi g f => some (encT 0x75#8 g f)
  | .cvtif g f => some (encT 0x76#8 g f)
  | .cvtq g f => some (encT 0x77#8 g f)
  | .cvtdq g f => some (encT 0x78#8 g f)
  | .ld g f => some (encM 0x80#8 g f)
  | .st g f => some (encM 0x81#8 g f)
  | .lds g f => some (encM 0x82#8 g f)
  | .sts g f => some (encM 0x83#8 g f)
  | .ldsp g f => some (encM 0x84#8 g f)
  | .stsp g f => some (encM 0x85#8 g f)
  | .ldc g f => some (encM 0x86#8 g f)
  | .hborx g f => some (encT 0x88#8 g f)
  | .hbors g f => some (encT 0x89#8 g f)
  | .hborc g f => some (encT 0x8A#8 g f)
  | .hreb g f => some (encT 0x8B#8 g f)
  | .hsplit g f => some (encT 0x8C#8 g f)
  | .hmerge g f => some (encT 0x8D#8 g f)
  | .hret g f => some (encT 0x8E#8 g f)
  | .hgive g f => some (encT 0x8F#8 g f)
  | .hqry g f => some (encT 0x90#8 g f)
  | .atom g f => some (encM 0x91#8 g f)
  | .atomcas g f => some (encM 0x92#8 g f)
  | .red g f => some (encM 0x93#8 g f)
  | .waitv g f => some (encM 0x94#8 g f)
  | .fence g f => some (encT 0x95#8 g f)
  | .clnr g f => some (encM 0x96#8 g f)
  | .invr g f => some (encM 0x97#8 g f)
  | .bara g f => some (encT 0x98#8 g f)
  | .barw g f => some (encT 0x99#8 g f)
  | .acset g f => some (encT 0x9A#8 g f)
  | .acadd g f => some (encT 0x9B#8 g f)
  | .acwait g f => some (encT 0x9C#8 g f)
  | .qdef g f => some (encT 0x9D#8 g f)
  | .qpush g f => some (encT 0x9E#8 g f)
  | .qpop g f => some (encT 0x9F#8 g f)
  | .qstat g f => some (encT 0xA0#8 g f)
  | .rqset g f => some (encT 0xA1#8 g f)
  | .rcfence g f => some (encT 0xA2#8 g f)
  | .mld g f => some (encX 0xA8#8 g f)
  | .mma g f => some (encX 0xA9#8 g f)
  | .mmat g f => some (encX 0xAA#8 g f)
  | .mzero g f => some (encX 0xAB#8 g f)
  | .mrd g f => some (encT 0xAC#8 g f)
  | .mwr g f => some (encT 0xAD#8 g f)
  | .mbatch g f => some (encT 0xAE#8 g f)
  | .mwait g f => some (encT 0xAF#8 g f)
  | .mstat g f => some (encT 0xB0#8 g f)
  | .mrel g f => some (encT 0xB1#8 g f)
  | .msub g f => some (encT 0xC0#8 g f)
  | .munsub g f => some (encT 0xC1#8 g f)
  | .msubq g f => some (encT 0xC2#8 g f)
  | .rstat g f => some (encT 0xC3#8 g f)
  | .cpy g f => some (encT 0xC4#8 g f)
  | .cpyt g f => some (encT 0xC5#8 g f)
  | .cpyq g f => some (encT 0xC6#8 g f)
  | .msop g f => some (encT 0xC7#8 g f)
  | .amsend g f => some (encT 0xC8#8 g f)
  | .spawn g f => some (encT 0xC9#8 g f)
  | .waitch g f => some (encT 0xCA#8 g f)
  | .xfer g f => some (encT 0xD0#8 g f)
  | .cred g f => some (encT 0xD1#8 g f)
  | .cbcast g f => some (encT 0xD2#8 g f)
  | .cgath g f => some (encT 0xD3#8 g f)
  | .cwait g f => some (encT 0xD4#8 g f)
  | .cqry g f => some (encT 0xD5#8 g f)
  | .csrr g f => some (encS 0xF0#8 g f)
  | .csrw g f => some (encS 0xF1#8 g f)
  | .csrrCtl g f => some (encS 0xF0#8 g f)
  | .csrwCtl g f => some (encS 0xF1#8 g f)
  | .trap g f => some (encS 0xF2#8 g f)
  | .rett g f => some (encS 0xF3#8 g f)
  | .bkpt g f => some (encS 0xF4#8 g f)
  | .haltg g f => some (encS 0xF5#8 g f)
  | .timew g f => some (encS 0xF6#8 g f)
  | .hankOpDeferred _ => none
  | .rqsetComplete _ _ => none
  | .matrixCommandStart _ _ _ => none
  | .matrixCommandComplete _ _ => none
  | .mldComplete _ _ => none
  | .portIssueChoice _ _ => none
  | .clauseStart => none
  | .registerFill _ _ _ _ _ => none
  | .rejoinRelease _ _ => none
  | .yieldExpiry _ _ => none
  | .timewRelease _ _ => none
  | .workgroupEnd _ => none
  | .ticketSupplyDraw _ _ => none
  | .ownershipRequest _ => none
  | .runGrant _ => none
  | .ownershipReturn _ => none
  | .writebackAck _ => none
  | .collapseRequest _ => none
  | .collapseAck _ => none
  | .replicaEvictionNotice _ => none
  | .killWalkEnd _ _ => none
  | .revocationNotice _ => none
  | .storeBufferDrain _ _ _ _ => none
  | .accessAck _ _ => none
  | .memsideAtomic _ => none
  | .waitvPoll _ => none
  | .residencyRangeWrite _ _ => none
  | .frameInject => none
  | .frameArrival _ _ => none
  | .ringLoadComplete _ _ => none
  | .segmentFrameArrival _ => none
  | .stagingCopy _ => none
  | .rgctlWrite _ => none
  | .rgpatWrite _ => none
  | .rglenWrite _ => none
  | .rgerrWrite _ => none
  | .sliceSwitch => none
  | .slctlWrite _ => none
  | .copyPiece _ => none
  | .msopLine _ => none
  | .amAccept _ => none
  | .amReply _ => none
  | .workgroupPlace _ _ => none
  | .childEnd _ => none
  | .linkNotice _ _ _ => none
  | .planeResendTimeout _ => none
  | .flitReceive _ _ => none
  | .ackSend _ => none
  | .ackReceive _ _ _ => none
  | .linkLock _ _ _ => none
  | .lossOfLock _ => none
  | .trainingTimeout _ => none
  | .slotReservation _ _ => none
  | .starvationToken _ _ => none
  | .xferPacket _ => none
  | .xferAck _ _ => none
  | .xferResend _ => none
  | .collectivePacket _ => none
  | .epochExchange _ => none
  | .memberLostTimeout _ _ => none
  | .confirmationRound _ => none
  | .queueDoorbell _ _ => none
  | .launchStart _ => none
  | .launchComplete _ => none
  | .preemptionDecision _ _ => none
  | .drainTimeout _ => none
  | .skeinSave _ => none
  | .skeinRestore _ _ => none
  | .watchdogExpiry _ => none
  | .saveStallKill _ => none
  | .faultRecordWrite => none
  | .hcqctlWrite _ => none
  | .fqctlWrite _ => none
  | .fqheadWrite _ => none
  | .imgctlWrite _ => none
  | .controlSpaceWrite _ _ => none
  | .load => none
  | .unload => none
  | .replace => none
  | .ctxset => none
  | .hborrow => none
  | .hreturn => none
  | .kill => none
  | .wgterm => none
  | .resume => none
  | .skip => none
  | .fail => none
  | .fuseup => none
  | .fuseBlowComplete => none
  | .attest => none
  | .extmap => none
  | .extunmap => none
  | .extentTakeback _ => none
  | .poolFatalError _ => none
  | .cxlMemAccess _ => none
  | .securityAlarm => none
  | .thermalLimit _ => none
  | .reset => none
  | .portEnable _ => none
  | .ownershipRefusal _ => none
  | .ringBorrowReturn _ => none
  | .queueDescriptorWrite _ _ _ => none
  | .sliceTableWrite _ _ => none

end Sys2Proof
end

