-- ==== Sys2Proof/Config.lean ====
section
/-! DEFINITION. What the spec leaves open or to the part's own hardware: free values with no body, and the keys of the security block. Nothing can
evaluate them, so a statement that holds, holds whatever they are. -/

namespace Sys2Proof.Config

/-- A byte of device memory whose contents are undefined: stamp of the event that left it so, and its address (R3, R86, R436; log entry 2). -/
opaque freeByte : Nat → Nat → Byte
/-- A byte of host memory that nothing has written. -/
opaque freeHostByte : Nat → Byte
/-- The n-th undefined value of 32 bits (R3). -/
opaque free32 : Nat → W32
/-- The n-th undefined bit: a choice the spec leaves to the device. -/
opaque freeBit : Nat → Bool
/-- The n-th undefined count: a choice among several that the spec leaves to the device. -/
opaque freeNat : Nat → Nat

/-- The choice of transcendental results inside the bounds of R146 (log entry 8): by opcode and operand a place in the allowed interval, or by
opcode and value the input from which on a rising function is at least that value. -/
opaque transc : Nat → W32 → Nat

/-- The modules that the pod has: bridge port 3 of a module without a partner is unconnected (R361). -/
opaque podHas : Nat → Bool
/-- The code-signing keys present in the key store, as points of P-256 (R415, R418). -/
opaque keyStore : Nat → Option (Nat × Nat)
/-- The device's image key (R419). -/
opaque imageKey : BitVec 256
/-- The secret number of the device identity key, and the nonce of its signature over a digest (R425). -/
opaque identitySecret : Nat
opaque signNonce : BitVec 256 → Nat
/-- The size of a bolt, whose body is opaque (R403). -/
opaque boltSize : Nat → W64

end Sys2Proof.Config
end

