-- ==== Sys2Proof/Machine/Bits.lean ====
section
/-! DEFINITION. Bytes in little-endian order (R5), sign extension and bit-field helpers. -/

namespace Sys2Proof.Machine

/-- The value of bytes, the first least significant (R5). -/
def leNat : List Byte → Nat
  | [] => 0
  | b :: bs => b.toNat + 256 * leNat bs

/-- The n low bytes of a value, least significant first (R5). -/
def leBytes : Nat → Nat → List Byte
  | 0, _ => []
  | n + 1, x => BitVec.ofNat 8 x :: leBytes n (x / 256)

/-- Bits [lo + n - 1 : lo] of a natural number. -/
def bitsN (x lo n : Nat) : Nat := (x / 2 ^ lo) % 2 ^ n
/-- Bits [lo + n - 1 : lo] of a word. -/
def fld {w : Nat} (x : BitVec w) (lo n : Nat) : Nat := bitsN x.toNat lo n

/-- The signed value of the low n bits of a natural number. -/
def sextN (n x : Nat) : Int :=
  let y := x % 2 ^ n
  if y < 2 ^ (n - 1) then (y : Int) else (y : Int) - 2 ^ n

/-- A word of w bits holding an integer modulo 2 ^ w (R9). -/
def ofInt (w : Nat) (x : Int) : BitVec w := BitVec.ofInt w x

/-- The position of the highest set bit plus one, 0 for 0. -/
def bitLen (x : Nat) : Nat := if x = 0 then 0 else Nat.log2 x + 1

/-- The count of one bits among the low n bits. -/
def popN : Nat → Nat → Nat
  | 0, _ => 0
  | n + 1, x => x % 2 + popN n (x / 2)

/-- The low n bits in the opposite order. -/
def revN : Nat → Nat → Nat
  | 0, _ => 0
  | n + 1, x => (x % 2) * 2 ^ n + revN n (x / 2)

/-- The least natural number whose square exceeds x, less one, by n halving steps from the bit of weight 2 ^ (n - 1). -/
def isqrtAux (x : Nat) : Nat → Nat → Nat
  | 0, r => r
  | n + 1, r => let t := r + 2 ^ n; if t * t ≤ x then isqrtAux x n t else isqrtAux x n r

/-- The integer square root. -/
def isqrt (x : Nat) : Nat := isqrtAux x (bitLen x / 2 + 1) 0

/-- Ceiling of a quotient. -/
def cdiv (a b : Nat) : Nat := (a + b - 1) / b

/-- Half-open ranges that share an address. -/
def rangesMeet (a n b m : Nat) : Bool := a < b + m && b < a + n && n != 0 && m != 0
/-- A half-open range inside another. -/
def rangeIn (a n b m : Nat) : Bool := b ≤ a && a + n ≤ b + m

/-- The elements of a list in the order of a key, by insertion. -/
def insertBy {α : Type} (le : α → α → Bool) (x : α) : List α → List α
  | [] => [x]
  | y :: ys => if le x y then x :: y :: ys else y :: insertBy le x ys
def sortBy {α : Type} (le : α → α → Bool) : List α → List α
  | [] => []
  | x :: xs => insertBy le x (sortBy le xs)

/-- CRC-32C (Castagnoli), bit by bit from the least (R308). -/
def crcBits : Nat → W32 → W32
  | 0, c => c
  | n + 1, c => crcBits n (if c.getLsbD 0 then (c >>> 1) ^^^ 0x82F63B78#32 else c >>> 1)
/-- CRC-32C of some bytes. -/
def crc32c (bs : List Byte) : W32 := ~~~(bs.foldl (fun c b => crcBits 8 (c ^^^ b.zeroExtend 32)) 0xFFFFFFFF#32)

end Sys2Proof.Machine
end

