-- ==== Sys2Proof/Machine/Tab.lean ====
section
/-! DEFINITION. Small tables with a default: a register file or another fixed number of like things, held as a list whose missing
places read as the default. -/

namespace Sys2Proof.Machine

/-- What place n of a table holds. -/
def tget {α : Type} (d : α) : List α → Nat → α
  | [], _ => d
  | x :: _, 0 => x
  | _ :: xs, n + 1 => tget d xs n

/-- The table with place n replaced. -/
def tset {α : Type} (d : α) : List α → Nat → α → List α
  | [], 0, v => [v]
  | [], n + 1, v => d :: tset d [] n v
  | _ :: xs, 0, v => v :: xs
  | x :: xs, n + 1, v => x :: tset d xs n v

/-- The first element of a list that a test accepts, replaced. -/
def updFirst {α : Type} (p : α → Bool) (f : α → α) : List α → List α
  | [] => []
  | x :: xs => if p x then f x :: xs else x :: updFirst p f xs

/-- A list without its n-th element. -/
def dropNth {α : Type} : List α → Nat → List α
  | [], _ => []
  | _ :: xs, 0 => xs
  | x :: xs, n + 1 => x :: dropNth xs n

/-- The set bits of a mask of n bits, lowest first. -/
def bitsOf {w : Nat} (m : BitVec w) : List Nat :=
  (List.range w).filter fun n => m.getLsbD n

/-- The mask of the lanes a test accepts. -/
def maskOf (p : Nat → Bool) : LaneMask :=
  (List.range 32).foldl (fun m n => if p n then m ||| (1#32 <<< n) else m) 0#32

end Sys2Proof.Machine
end

