-- ==== Sys2Proof/Machine/State.lean ====
section
/-! DEFINITION. The state of one Potar module (LZP-4800): five dies, their cores, memories, caches, ownership tables, engines, ring, links
and host queues, all as plain data, with the state right after reset. -/

namespace Sys2Proof.Machine

/-- A hank register (R68). FROZEN and BUSY are read off REBS and ENG. `pending` is the destination of a borrow request in flight (R260) or a
hank lent with SPAWN (R356). -/
structure Hank where
  base : BitVec 44 := 0
  len : BitVec 32 := 0
  kind : BitVec 2 := 0
  revoked : Bool := false
  lent : Bool := false
  rebs : BitVec 4 := 0
  eng : BitVec 6 := 0
  pgang : BitVec 4 := 0
  phank : BitVec 5 := 0
  ticket : BitVec 16 := 0
  pending : Bool := false
  deriving DecidableEq, Repr

/-- The unit that takes a word's command: the cluster's copy and memory-side engine, the collective engine, or one that always has a place. -/
inductive EngUnit where
  | copy | coll | any
  deriving DecidableEq, Repr

/-- What a word that cannot issue yet needs (R72, R108, R114, R255, R298, R333, R409). -/
inductive Want where
  /-- The accesses that its operation on the scratchpad must follow have performed: of these lanes, a write or not, a release or not, at a scope. -/
  | order (lanes : LaneMask) (write rel : Bool) (scope : BitVec 3)
  /-- So many entries have a place in the store buffer. -/
  | entries (n : Nat)
  /-- So many more fit below 1,024 in the unacknowledged counter. -/
  | acks (n : Nat)
  /-- No store-buffer entry lies in these physical ranges. -/
  | clear (ranges : List (Nat × Nat))
  /-- ENG of these hanks is below 63, and the unit the word gives a command has a place: the cluster's engine, the collective engine, or none. -/
  | engine (hanks : List Nat) (unit : EngUnit)
  /-- The gang has fewer than 64 matrix commands in flight. -/
  | matrix
  /-- A FENCE.seq of these lanes has nothing more to wait for. -/
  | fence (lanes : LaneMask)
  /-- The gang's earlier HGIVE and HREB have taken effect (R278). -/
  | given
  /-- No access through the core of any gang of the workgroup is pending in these physical ranges (R117). -/
  | drained (ranges : List (Nat × Nat))
  deriving DecidableEq, Repr

/-- What a lane that waits on operands waits for; `quads` are those whose scalar register receives the word (R38, R72, R114, R162, R206, R285,
R300, R322, R333, R358, R380, R382). -/
inductive Wait where
  /-- The word at the lane's PC has an empty source or destination (R163). -/
  | word
  /-- Something of the gang, the engine, the hank or the store buffer must end before the word can issue. -/
  | room (want : Want)
  /-- YIELD's delay, until this cycle (R206). -/
  | cycles (until_ : Nat)
  /-- MWAIT on a batch, whose status goes to a scalar register (R300). -/
  | batch (b d : Nat)
  /-- MSUBQ.wait on a subscription (R322). -/
  | sub (handle d : Nat) (quads : BitVec 8)
  /-- WAITCH: the slots named, and whether the form is .one (R358). -/
  | child (slots : BitVec 16) (one : Bool) (d : Nat) (quads : BitVec 8)
  /-- CWAIT on a collective (R382). -/
  | coll (handle d : Nat) (quads : BitVec 8)
  deriving DecidableEq, Repr

/-- Why a lane is blocked (R38). -/
inductive Block where
  /-- At a REJOIN site, naming a mask (R48). -/
  | rejoin (addr : W64) (j : Nat)
  /-- At a barrier or ACWAIT on the counter or skein barrier named; `d` receives the word for ACWAIT in the quads `dst`, and `stand` are the
  quads the wait stands for (R267, R268). -/
  | counter (c : W64) (d : Option Nat) (stand dst : BitVec 8)
  /-- On QPUSH with no allowance, or QPOP on an empty queue (R273). -/
  | queue (q : Nat)
  /-- In a borrow wait, of the request numbered (R77, R80). -/
  | borrow (req : Nat)
  /-- A hank operation held until ENG is zero (R72), or a return waiting for its acknowledgements (R80). -/
  | hankOp
  /-- In a value wait (R253). -/
  | value
  /-- At TIMEW, until this instant (R412). -/
  | time (t : W64)
  /-- On the engine command a .yield form issued (R345). -/
  | engine (cmd : Nat)
  /-- On RQSET, until the registers it removes are full (R61). -/
  | rqset
  deriving DecidableEq, Repr

/-- The state a lane is in (R38); `ready` is runnable unless its next clause's wait slots do not hold. -/
inductive LaneSt where
  | absent | ready | waiting (w : Wait) | blocked (b : Block) | parked | exited
  deriving DecidableEq, Repr

/-- A lane (R38, R39, R160, R407). A set bit of ve or pe marks an EMPTY register. -/
structure Lane where
  v : List W32 := []
  ve : BitVec 256 := 0
  p : BitVec 16 := 0
  pe : BitVec 16 := 0
  pc : W64 := 0
  /-- The clause base kept while the PC lies inside a clause (R46). -/
  cbase : Option W64 := none
  /-- The register limit of the clause the lane is in (R61). -/
  climit : Nat := 0
  st : LaneSt := .absent
  hact : Bool := false
  fcode : BitVec 8 := 0
  tpc : W64 := 0
  tbase : Option W64 := none
  /-- The register limit of the clause TRAPPC lies in (R61). -/
  tlimit : Nat := 0
  tinfo : W64 := 0
  /-- A HALTG that found the lane blocked: it parks when its block releases it (R410). -/
  halt : Option (BitVec 16) := none
  /-- A poisoned fill: the hank-revoked trap at the lane's next issue, with this INFO (R431). -/
  poison : Option W64 := none
  /-- The cycle at which the lane became runnable (R393). -/
  since : Nat := 0
  deriving DecidableEq, Repr

/-- A quad's scalar registers, their empty bits and its round-robin pointer (R41, R44, R160). -/
structure Quad where
  s : List W64 := []
  se : BitVec 64 := 0
  ptr : Nat := 0
  deriving DecidableEq, Repr

/-- Where an access performs (R99). -/
inductive Place where
  | core | home (h : Nat) | remote (module : Nat) | scratch
  deriving DecidableEq, Repr

/-- What a pending access of a gang is (R99, R108, R114, R161). -/
inductive AKind where
  | load | store | red | atom | cas | ldc | waitv
  /-- A scratchpad store (R248); a scratchpad load is a load whose place is the scratchpad. -/
  | stsp
  /-- An operation on a counter or queue, as the orders see it at its issue (R108). -/
  | sync
  | fence
  /-- A line write-back of CLNR or INVR not yet acknowledged (R254, R255). -/
  | clean
  /-- An atomic without return that performed in another module's memory and is not yet acknowledged (R364). -/
  | posted
  /-- A borrow request in fail mode not yet ended: later accesses of the gang wait for it (R112). -/
  | take
  /-- A result on its way to its registers, already read. -/
  | reply
  /-- A cross-lane read that may be made up to its fill (R219, R220). -/
  | cross
  deriving DecidableEq, Repr

/-- One lane's part of an access: operand, second operand (ATOMCAS), and the value returned. -/
structure Part where
  lane : Nat
  x : W64 := 0
  y : W64 := 0
  ret : List Byte := []
  deriving DecidableEq, Repr

/-- A register destination of an access. -/
inductive Dst where
  | none_
  | vec (d n : Nat)
  | scal (d n : Nat) (quads : BitVec 8)
  | pred (d : Nat)
  deriving DecidableEq, Repr

/-- A pending access, a fence, or a store-buffer entry of a gang, in the order of issue (R106, R109, R114). -/
structure Access where
  /-- Place in the order of issue, and the store-buffer entry, or word, it is an element of. -/
  seq : Nat
  grp : Nat := 0
  kind : AKind
  /-- Lanes whose program order the access belongs to. -/
  lanes : LaneMask
  parts : List Part := []
  /-- Virtual and physical address, width in bytes. -/
  va : W64 := 0
  pa : Nat := 0
  bytes : Nat := 0
  sx : Bool := false
  /-- Result extended to this many bytes. -/
  full : Nat := 0
  data : List Byte := []
  op : BitVec 4 := 0
  /-- Ordering: acquire, release, both, or seq (R108). -/
  acq : Bool := false
  rel : Bool := false
  sc : Bool := false
  scope : BitVec 3 := 0
  place : Place := .core
  dst : Dst := .none_
  /-- The ticket of the hank it went through, to find it on revocation. -/
  ticket : BitVec 16 := 0
  /-- The fill must not be installed in L1: its hank was returned meanwhile (R119). -/
  noInstall : Bool := false
  /-- It has left the buffer, or is on its way, and waits for its place (R114). -/
  sent : Bool := false
  /-- A WAITV holds one of the home's watch entries (R253). -/
  watch : Bool := false
  /-- The read met poison (R431). -/
  poison : Bool := false
  /-- For a cross-lane read: the word, to read its sources at the fill. -/
  word : Option Instr := none
  /-- The first register and the number of registers of the whole destination that the elements of one access share (R246). -/
  span : Nat × Nat := (0, 0)
  /-- The address of the word that made it, that of a word merged into it, and the quad of their issue: the requests of a word's quads perform in
  quad order (R116, R121). -/
  pc : W64 := 0
  pc2 : Option W64 := none
  quad : Option Nat := none
  /-- A release or acq_rel form: an exchange of it may take a later store up, and a compare-and-swap of it that fails is only a read (R116, R251). -/
  relForm : Bool := false
  /-- It came back with its buffer at a restore, to perform in the buffer's order (R115). -/
  ord : Bool := false
  /-- The traffic plane a request to another module was sent on (R363, R364). -/
  plane : Option Nat := none
  deriving DecidableEq, Repr

/-- A batch of a gang (R298, R301). -/
structure Batch where
  cmds : List Nat := []
  /-- Its failed commands with their codes (R290). -/
  fails : List (Nat × Nat) := []
  /-- Every batched command of the gang numbered below this belongs to it or to a batch closed earlier. -/
  upto : Nat := 0
  deriving DecidableEq, Repr

/-- A gang (R33, R47, R60, R67, R114, R136, R142, R298). -/
structure Gang where
  lanes : List Lane := []
  quads : List Quad := []
  h : List Hank := []
  j : List W32 := []
  mflags : BitVec 4 := 0
  fpctl : BitVec 5 := 0
  /-- The lanes that had exited, and those parked, at the start of the cycle (R201). -/
  seenExit : LaneMask := 0
  seenPark : LaneMask := 0
  /-- Register quota in units of 16 (R60), and the cycle of the last gain with the units gained in it (R61). -/
  quota : Nat := 0
  gained : Nat × Nat := (0, 0)
  pend : List Access := []
  /-- The store buffer's unacknowledged counter (R114). -/
  unacked : Nat := 0
  nextBatch : Nat := 0
  closures : Nat := 0
  /-- Batched commands not yet closed, in issue order. -/
  unclosed : List Nat := []
  /-- Failed commands not yet closed: the command and its code (R290). -/
  unclosedFail : List (Nat × Nat) := []
  batches : List Batch := []
  deriving DecidableEq, Repr

/-- The program states of a macro (R281). -/
inductive MacSt where
  | free | pending | resident | bad
  deriving DecidableEq, Repr

/-- A compute-in-memory macro of a workgroup (R280 to R282, R296). -/
structure Mac where
  st : MacSt := .free
  /-- SRC of R282: 0 none, 1 ring, 2 MLD. -/
  src : BitVec 2 := 0
  tile : W32 := 0
  gen : W32 := 0
  bfmt : BitVec 4 := 0
  bsc : BitVec 2 := 0
  /-- Commands numbered below this were received before the macro last entered its program state (R296). -/
  upto : Nat := 0
  /-- The tile that stands in the array: present, its source, format, scale mode and scale. -/
  inside : Bool := false
  psrc : BitVec 2 := 0
  pfmt : BitVec 4 := 0
  pbsc : BitVec 2 := 0
  scale : W32 := 0
  /-- Elements of B at index 128 k + n, and the 512 scale bytes. -/
  cells : List (BitVec 16) := []
  scales : List Byte := []
  /-- A restored ring tile awaits its identity at this generation or above (R330). -/
  reload : Option (W32 × W32) := none
  /-- The cycle from which the reload may match, and the frame it is taking with the cycle its last byte passes (R316, R318). -/
  reloadAt : Nat := 0
  taking : Option (Frame × Nat) := none
  deriving DecidableEq, Repr

/-- The matrix commands (R284). -/
inductive MKind where
  | mma (a : Nat) (fs : Nat) (off rows : Nat) (transposed : Bool)
  | mld (fs : Nat) (hank : Nat) (ea stride : Nat) (groups : Nat) (transposed : Bool) (scale : W32)
  | mzero (a rows : Nat)
  | mrd (a col n d : Nat) (lanes : LaneMask)
  | mwr (a col n : Nat) (lanes : LaneMask) (vals : List (Nat × List W32))
  | mrel
  deriving DecidableEq, Repr

/-- A command the matrix unit has received and not completed (R284). -/
structure MCmd where
  id : Nat
  gang : Nat
  mac : Option Nat
  kind : MKind
  /-- Accesses of the gang that precede it in program order must perform first (R117). -/
  seq : Nat
  lanes : LaneMask
  started : Bool := false
  /-- The A block and its scales as read so far: read once, at the start (R289). -/
  aBytes : List Byte := []
  /-- The code with which it fails when its turn at the macro comes (R290, R297); 0 for none. -/
  fail : Nat := 0
  /-- The address of its word, and the fault record that suspends an MLD at a page it cannot translate (R344, R359). -/
  pc : W64 := 0
  suspended : Option Nat := none
  deriving DecidableEq, Repr

/-- The states of a subscription (R315). -/
inductive SubSt where
  | free | queued | armed | loading | held | done
  deriving DecidableEq, Repr

/-- A subscription to a ring tile (R314, R322). -/
structure Sub where
  st : SubSt := .free
  tile : W32 := 0
  minGen : W32 := 0
  pers : Bool := false
  counter : W64 := 0
  loads : Nat := 0
  miss : Nat := 0
  gen : W32 := 0
  /-- Place in the order in which the macro's subscriptions were made. -/
  order : Nat := 0
  /-- The cycle of the event that armed it (R316). -/
  armedAt : Nat := 0
  /-- MREL, or MUNSUB, arrived while LOADING (R315). -/
  relAfter : Bool := false
  unsubAfter : Bool := false
  /-- The accepted frame while LOADING, and the cycle in which its last byte passes the stop. -/
  frame : Option Frame := none
  due : Nat := 0
  /-- Where it forked: the gang, its lanes, and the number below which accesses precede it (R117, R320). -/
  gang : Nat := 0
  lanes : LaneMask := 0
  seq : Nat := 0
  deriving DecidableEq, Repr

/-- How a child of a workgroup stands (R357, R358). -/
inductive ChildSt where
  | free | running (wg : Nat) | done | faulted (record : Nat) | killed (record : Nat)
  deriving DecidableEq, Repr

/-- A blocked push or pop of a queue, in the order of blocking (R273). -/
structure QWait where
  gang : Nat
  quads : BitVec 8
  lanes : LaneMask
  q : Nat
  /-- The entry pushed, or the register popped into. -/
  push : Option W64
  d : Nat
  deriving DecidableEq, Repr

/-- What a workgroup was started as (R354, R355, R392). -/
inductive WgKind where
  | grid (launch index : Nat)
  | child (parent slot : Nat)
  | handler
  deriving DecidableEq, Repr

/-- Where a workgroup stands. -/
inductive WgSt where
  | resident (core : Nat) | saved | ended
  deriving DecidableEq, Repr

/-- A workgroup (R33, R35, R37, R60, R67, R280, R306, R407). -/
structure Wg where
  tag : Nat
  kind : WgKind
  st : WgSt
  ctx : Nat
  tenant : Nat
  pri : Nat
  sys : Bool := false
  idem : Bool := false
  expins : Nat := 0
  wdog : Nat := 2000
  parkt : Nat := 0
  skein : Nat
  wgid : Nat := 0
  skeinid : Nat := 0
  grid : Nat × Nat × Nat := (0, 0, 0)
  gdim : Nat × Nat × Nat := (1, 1, 1)
  lanes : Nat := 32
  ngangs : Nat := 1
  /-- The gang slots of its core that its gangs take (R393). -/
  slots : List Nat := []
  gangs : List Gang := []
  w : List Hank := []
  scratchSize : Nat := 0
  scratch : List Host.Cell := []
  queues : List (Option Nat) := []
  /-- Offsets of the counter words that an instruction has named: exits visit those whose bits say barrier (R262, R269). -/
  bars : List Nat := []
  qwait : List QWait := []
  nmacs : Nat := 0
  naccs : Nat := 0
  macs : List Mac := []
  accs : List (List W32) := []
  mq : List MCmd := []
  subs : List Sub := []
  miss : Nat := 0
  children : List ChildSt := []
  colls : List (Option Nat) := []
  fslots : List W64 := []
  trapvec : W64 := 0
  /-- Directory number of the image the workgroup runs (R424). -/
  image : Nat := 0
  /-- Words retired, resident time in cycles, cycles since a clause retired, non-idempotent effects (R395, R401). -/
  retired : Nat := 0
  resident : Nat := 0
  idle : Nat := 0
  nonIdem : Bool := false
  /-- Tensor shape records the core's cache holds (R343). -/
  records : List (Nat × List Byte) := []
  /-- One of its faults was declared unserviceable, or the host terminated it (R390). -/
  faulted : Bool := false
  killed : Bool := false
  /-- Fault record index kept for its parent (R357). -/
  record : Nat := 0
  /-- Hanks it was lent by SPAWN, as a mask of w0 to w7 (R356). -/
  lent : BitVec 8 := 0
  /-- Its bolt while it is saved: the slot, and the save it stems from (R403). -/
  bolt : Option (Nat × Nat) := none
  deriving DecidableEq, Repr

/-- The operations on a rejoin mask (R195, R200). -/
inductive JKind where
  | set | add | del
  deriving DecidableEq, Repr

/-- A write to a rejoin mask that takes effect at the end of its issue (R202). -/
structure JOp where
  kind : JKind
  j : Nat
  m : LaneMask
  deriving DecidableEq, Repr

/-- What a word leaves to the end of its issue: a write to FPCTL or MFLAGS, or a subscription (R230, R320). -/
inductive FOp where
  | raise (fp : BitVec 5) (mf : BitVec 4)
  | setFp (x : BitVec 5)
  | setMf (x : BitVec 4)
  /-- A subscription that the end of the issue makes: its handle, MSUB's words B and C, persistence, and the lanes that forked it (R320). -/
  | sub (h : Nat) (b c : W64) (pers : Bool) (lanes : LaneMask)
  /-- Atomics through a C hank that some lanes issued from a number on: they count as effects, and reach their homes, once the issue has ended
  (R395, R413). -/
  | effect (seq : Nat) (lanes : LaneMask)
  deriving DecidableEq, Repr

/-- An issue in flight: one PC group of one quad, or a ganged issue (R40, R42). -/
structure Issue where
  wg : Nat
  gang : Nat
  quad : Option Nat
  lanes : LaneMask
  /-- The clause's header, the word that executes next, and the clause's last word. -/
  base : W64
  at_ : W64
  last : W64
  /-- The header has been checked and the clause has started. -/
  started : Bool
  /-- The word its execution began at: the issues of one port go on word by word from there (R43, R438). -/
  first : W64 := 0
  jops : List JOp := []
  fops : List FOp := []
  /-- TRAPVEC as it stood when the issue began: a CSRW of it acts on traps raised in later issues (R408). -/
  tvec : W64 := 0
  /-- Its next word was packed into the slot that a word of an earlier quad took (R43, R438). -/
  packed : Bool := false
  /-- The lanes of its gang as it began: what a cross-lane word may still read of other quads (R220). -/
  began : List Lane := []
  deriving DecidableEq, Repr

/-- A physically contiguous range of grains with one home (R76, R93). -/
structure Run where
  home : Nat
  pbase : Nat
  grains : Nat
  deriving DecidableEq, Repr

/-- Who takes a borrow (R83, R87, R92, R324, R325). -/
inductive Taker where
  | gang (wg g : Nat) (lanes : LaneMask) (quads : BitVec 8) (hank d : Nat)
  | grid (launch arg : Nat)
  | host (complAddr : Nat) (tag : Nat)
  | frame (entry : Nat)
  | staging (entry : Nat)
  deriving DecidableEq, Repr

/-- A borrow request (R76, R77). -/
structure Req where
  id : Nat
  taker : Taker
  ctx : Nat
  kind : BitVec 2
  vbase : Nat
  grains : Nat
  runs : List Run
  /-- Runs granted so far. -/
  done : Nat := 0
  ticket : Nat
  wait : Bool
  /-- The current run is queued at its home. -/
  queued : Bool := false
  /-- Runs that homes have granted it and that it has not given back (R76, R77). -/
  held : List Run := []
  /-- The status with which it ends once the runs it held are back (R77). -/
  failing : Option Nat := none
  /-- A run of it was revoked: so is the hank that it fills (R431). -/
  revoked : Bool := false
  /-- The physical extents of its range as it was asked for, in virtual order (R76). -/
  exts : List (Nat × Nat) := []
  deriving DecidableEq, Repr

/-- A grant in force: the entries bearing its ticket, and who took it (R80, R436). -/
structure Grant where
  ctx : Nat
  ticket : Nat
  kind : BitVec 2
  taker : Taker
  vbase : Nat
  grains : Nat
  runs : List Run
  /-- A run of it was revoked: so is every hank made of it from then on (R431). -/
  revoked : Bool := false
  /-- The physical extents of its range, in virtual order (R76). -/
  exts : List (Nat × Nat) := []
  /-- Ranges that its owner has written through it, and those where transfers landed for counters not yet awaited: workgroup, counter offset (2 ^ 64
  for none), range (R371). -/
  wrote : List (Nat × Nat) := []
  landed : List (Nat × Nat × Nat × Nat) := []
  deriving DecidableEq, Repr

/-- An ownership-table entry (R73). -/
structure OwnEntry where
  home : Nat
  pbase : Nat
  grains : Nat
  kind : BitVec 2
  grid : Bool
  wait : Bool := false
  xret : Bool := false
  coll : Bool := false
  boost : Bool := false
  ctx : Nat
  wgtag : Nat
  gang : Nat
  scount : Nat
  ticket : Nat
  /-- The requests of the waiters for which BOOST was set (R58, R85). -/
  boosters : List Nat := []
  deriving DecidableEq, Repr

/-- A queued waiter of a home, in arrival order (R78, R79). -/
structure Waiter where
  home : Nat
  req : Nat
  kind : BitVec 2
  ctx : Nat
  wgtag : Nat
  launch : Option Nat
  pbase : Nat
  grains : Nat
  deriving DecidableEq, Repr

/-- A message in flight inside the module. -/
inductive Msg where
  | ownReq (req : Nat)
  | runGrant (req : Nat)
  | refusal (req status : Nat)
  /-- A return of one run to its home; an X return waits for the write-back's acknowledgement. -/
  | ret (ctx ticket : Nat) (kind : BitVec 2) (run : Run) (wg gang : Nat)
  | wbAck (ctx ticket : Nat) (run : Run) (wg gang : Nat)
  /-- A run that a request was granted goes home, for the request ends without its borrow (R77). -/
  | retRun (req : Nat) (run : Run)
  /-- To a cluster that replicates a page of a run, and its acknowledgement (R91). -/
  | collapseReq (page seq die cluster : Nat) (run : Run)
  | collapseAck (page seq die cluster : Nat) (run : Run)
  | evictNotice (page seq die cluster : Nat)
  | revoke (wg : Nat) (ctx ticket : Nat)
  /-- A common-region request on its way to its home: the gang's access numbered. -/
  | memReq (wg gang seq : Nat)
  /-- An active message to a core of this module, from a core and module. -/
  | am (core : Nat) (handler : Nat) (payload : List Byte) (fromCore fromModule fromCtx : Nat) (urgent : Bool) (wg gang d : Nat) (quads : BitVec 8)
  | amReply (wg gang d : Nat) (quads : BitVec 8) (status : Nat)
  deriving DecidableEq, Repr

/-- A 64-byte sector of a cache: `owner` is the core of an L1, and 0 for a home slice (R13, R15). A cache's list runs from the line filled or
written last to the one least so (R98). -/
structure Sector where
  owner : Nat
  pa : Nat
  dirty : Bool
  data : List Byte
  /-- In a slice: 0 for an ordinary line, n + 1 for one retained by residency register n (R98). -/
  cls : Nat := 0
  deriving DecidableEq, Repr

/-- A replica-directory entry (R89): each cluster of the set with the number its replica bears (R91). -/
structure Rep where
  page : Nat
  set : List (Nat × Nat × Nat)
  seq : Nat
  deriving DecidableEq, Repr

/-- What an engine command does (R337, R342, R348). -/
inductive EKind where
  | cpy (dst src : Nat) (soff doff len valid : Nat)
  | cpyt (dst src : Nat) (record : List Byte) (count : Nat)
  | msop (dst x y : Nat) (doff xoff yoff : Nat) (scale : W32) (n valid : Nat) (op : BitVec 2) (bf16 : Bool)
  deriving DecidableEq, Repr

/-- A command of a cluster's copy engine (R333, R344 to R346). -/
structure EngCmd where
  id : Nat
  cluster : Nat
  wg : Nat
  gang : Nat
  kind : EKind
  /-- Base virtual addresses of the destination, first and second source at issue; none for the scratchpad. -/
  dbase : Option Nat
  abase : Option Nat
  bbase : Option Nat
  hanks : List Nat
  counter : W64
  next : Nat := 0
  pc : W64
  seq : Nat
  lanes : LaneMask
  /-- Suspended on the fault record numbered (R344). -/
  suspended : Option Nat := none
  deriving DecidableEq, Repr

/-- An XFER in flight (R371, R372). -/
structure Xfer where
  id : Nat
  wg : Nat
  gang : Nat
  quads : BitVec 8
  d : Nat
  hank : Nat
  sbase : Nat
  soff : Nat
  len : Nat
  valid : Nat
  remote : W64
  module : Nat
  ticket : Nat
  rcounter : W64
  lcounter : W64
  /-- Packets not yet answered, and the statuses of those answered with a non-zero status. -/
  left : List Nat
  bad : List (Nat × Nat) := []
  /-- Packets sent, with their bytes as read from the source, once (R371). -/
  sent : List (Nat × List Byte) := []
  seq : Nat
  lanes : LaneMask
  deriving DecidableEq, Repr

/-- What a collective does (R380). -/
inductive CollOp where
  | red (op : BitVec 2) (bf16 all : Bool) | bcast | gath
  deriving DecidableEq, Repr

/-- A collective at this module (R373 to R385). -/
structure Coll where
  id : Nat
  wg : Nat
  gang : Nat
  group : Nat
  number : Nat
  op : CollOp
  n : Nat
  rank : Nat
  members : List Nat
  target : Nat
  count : Nat
  chunk : Nat
  inVa : Option Nat
  outVa : Option Nat
  recVa : Nat
  hanks : List Nat
  epoch : Nat := 0
  trees : List Nat
  /-- Marks of the chunks: 0 NONE, 1 REDUCED, 2 DONE. -/
  marks : List Nat
  /-- Contributions received: chunk, rank, data. -/
  contrib : List (Nat × Nat × List Byte) := []
  /-- Packets of a higher epoch, held (R385). -/
  held : List CollPacket := []
  /-- Members that have reported every chunk DONE (R381). -/
  confirmed : List Nat := []
  recomp : Nat := 0
  code : Nat := 1
  params : List Nat
  seq : Nat
  lanes : LaneMask
  /-- The accesses before its word have performed, so its own have begun (R117). -/
  begun : Bool := true
  /-- Module and port of every link and bridge that its tree set uses (R374, R378). -/
  links : List (Nat × Nat) := []
  /-- Chunks whose mark the kernel changed: their output is undefined (R377). -/
  spoiled : List Nat := []
  /-- TIME1588 at its issue, and at the last message from each member that has sent one (R379). -/
  since : W64 := 0#64
  heard : List (Nat × W64) := []
  /-- Members whose first exchange has come and agrees (R373). -/
  met : List Nat := []
  /-- Chunks whose input this member has read and contributed in the present attempt (R381). -/
  given : List Nat := []
  deriving DecidableEq, Repr

/-- A link end of this module (R366, R367). -/
structure Link where
  st : LinkSt := .down
  version : Nat := 0
  txNext : BitVec 12 := 0
  unacked : List Flit := []
  resends : List (BitVec 12 × Nat) := []
  rxNext : BitVec 12 := 0
  rxBuf : List Flit := []
  attempts : Nat := 0
  /-- Flits delivered of a packet not yet complete in the crossing buffer (R369). -/
  crossing : List (List Byte) := []
  /-- Packets sent on, in order. -/
  delivered : Nat := 0
  /-- Flits received since the last acknowledgement, and that acknowledgement: the lowest unreceived number and the bitmap after it (R366). -/
  acks : Nat := 0
  ackOut : Option (BitVec 12 × W64) := none
  /-- Packets that wait for the link, or for room below 512 unacknowledged flits (R366, R367). -/
  outbox : List (List Byte) := []
  deriving DecidableEq, Repr

/-- A change of the list of traffic planes with requests still out under the old one (R364): the plane that left, or none where one came back; the
list before; the instant of TIME1588; requests numbered below `upto` were sent before. -/
structure Remap where
  dead : Option Nat
  old : List Nat
  since : W64
  upto : Nat
  deriving DecidableEq, Repr

/-- What a target module keeps of a request of this module: its tag and response (R364). -/
structure Answer where
  target : Nat
  tag : Nat
  rets : List (List Byte)
  bad : Bool
  deriving DecidableEq, Repr

/-- A frame on the ring (R309, R311, R332, R439). -/
structure RingFrame where
  frame : Frame
  rev : Nat
  /-- The stop that injects it, and how many of the stops 0 to 100 it has reached. -/
  src : Nat
  reached : Nat := 0
  /-- The engine's shared borrow of the image stands: its ticket and runs. -/
  borrow : Option (Nat × List Run) := none
  /-- The cycles in which its first byte reaches stop 0 and its last byte passes it; stop k follows k cycles later. -/
  first : Nat := 0
  last : Nat := 0
  /-- The first frame of a pattern newly in force (R323). -/
  start : Bool := false
  deriving DecidableEq, Repr

/-- A frame decided before an earlier one of the pattern, whose engine stands further on (R332, R437): its pattern, revolution and entry. -/
structure Early where
  base : Nat
  len : Nat
  rev : Nat
  pos : Nat
  src : Nat
  frame : Frame
  bytes : Nat
  borrow : Option (Nat × List Run) := none
  deriving DecidableEq, Repr

/-- A copy of a pool image to its staging range under way: entry, revolution, and the X borrow it holds (R325). -/
structure Staging where
  entry : Nat
  rev : Nat
  runs : List Run
  deriving DecidableEq, Repr

/-- The ring of the module (R312, R331). -/
structure Ring where
  running : Bool := false
  /-- The pattern in force: the address of entry 0, and its entries. -/
  base : Nat := 0
  len : Nat := 0
  /-- The entry and revolution placed next. -/
  pos : Nat := 0
  rev : Nat := 0
  frames : List RingFrame := []
  /-- The cycle at which the revolution being decided begins at stop 0, and the bytes of its frames so far; before the first decision, the
  cycle of the start. -/
  revStart : Nat := 0
  bytes : Nat := 0
  /-- Revolutions that have begun at the IOD stop since the pattern started, the cycle and 1588 time of the last, and its holes so far. -/
  turns : Nat := 0
  turnNs : Nat := 0
  holes : Nat := 0
  /-- Holes and length in ns of the last completed revolution. -/
  lastHoles : Nat := 0
  lastNs : Nat := 0
  /-- Frames decided and not yet placed in pattern order. -/
  early : List Early := []
  /-- Entries staged, and the revolution each is staged for; those whose copy failed in theirs (R325); copies under way. -/
  staged : List (Nat × Nat) := []
  failed : List (Nat × Nat) := []
  staging : List Staging := []
  /-- Entry number of the last frame to reach each stop. -/
  last : List (Nat × Nat) := []
  /-- Expected frame length of each entry: that of its last frame (R313). -/
  expect : List (Nat × Nat) := []
  deriving DecidableEq, Repr

/-- How a launch stands (R87, R390 to R392). -/
inductive LaunchSt where
  | borrowing | running | ending (status : Nat) | ended
  deriving DecidableEq, Repr

/-- An argument region of a launch (R87): kind, hank, base grain, grains, partition, and the ticket once granted. -/
structure LArg where
  kind : BitVec 2
  hank : Nat
  base : Nat
  grains : Nat
  part : Nat
  ticket : Option Nat := none
  deriving DecidableEq, Repr

/-- A launch (R387 to R392, R424). -/
structure Launch where
  id : Nat
  queue : Nat
  seqno : Nat
  ctx : Nat
  tenant : Nat
  pri : Nat
  sys : Bool
  idem : Bool
  parkt : Nat
  wdog : Nat
  expins : Nat
  gdim : Nat × Nat × Nat
  wglanes : Nat
  skeinSize : Nat
  quota : Nat
  scratch : Nat
  nmacs : Nat
  naccs : Nat
  fslots : List W64
  args : List LArg
  image : Nat
  entry : W64
  doneAddr : W64
  st : LaunchSt
  nextSkein : Nat := 0
  /-- Workgroups ended, and of these ended faulted or terminated. -/
  endedWgs : Nat := 0
  badWgs : Nat := 0
  /-- Skeins flushed, to be placed again first: number, and place in the order of saves (R392, R396). -/
  again : List (Nat × Nat) := []
  deriving DecidableEq, Repr

/-- A queue entry that was checked as it reached HEAD: its launch, the indirection entry it names, and its dependences (R391). -/
structure Head where
  launch : Launch
  kidx : Nat
  deps : List (Nat × Nat)
  deriving DecidableEq, Repr

/-- How a skein stands. -/
inductive SkeinSt where
  | running
  /-- It runs on until its workgroups exit, since this instant of TIME1588 (R396). -/
  | draining (since : Nat)
  /-- A save was decided at an instant of TIME1588, and has not ended (R396, R399, R401). -/
  | saving (hung : Bool) (since : Nat)
  | saved (order : Nat) (slots : List Nat)
  deriving DecidableEq, Repr

/-- A barrier word with its mask and arrivals (R262, R270). -/
structure SkeinBar where
  word : W64 := 0
  mask : BitVec 128 := 0
  arr : BitVec 128 := 0
  deriving DecidableEq, Repr

/-- A skein (R36, R270, R357). -/
structure Skein where
  id : Nat
  launch : Option Nat
  number : Nat
  wgs : List Nat
  /-- The workgroups it was made of, and the gangs of each, which its barriers' masks may name even once one has ended (R270). -/
  size : Nat := 1
  ngangs : Nat := 1
  st : SkeinSt := .running
  bars : List SkeinBar := []
  /-- Fault records that must be answered before it is restored (R399, R414). -/
  waitFor : List Nat := []
  /-- The cycle in which its faults had it saved (R399, R414). -/
  causeAt : Option Nat := none
  deriving DecidableEq, Repr

/-- A fault record (R398). -/
structure FaultRec where
  no : Nat
  wgsave : Bool
  nest : Bool
  code : BitVec 8
  gang : Nat
  wgtag : Nat
  ctx : Nat
  lanes : LaneMask
  pc : W64
  info : W64
  written : Bool := false
  answered : Bool := false
  /-- The engine command it suspends (R344). -/
  cmd : Option Nat := none
  /-- Sent in this cycle: the test at its end may set WGSAVE (R414). -/
  fresh : Bool := false
  deriving DecidableEq, Repr

/-- A context as the device keeps it beside its table entry (R70, R86, R401). -/
structure CtxSt where
  num : Nat
  lastTicket : Nat := 0
  /-- Each core's supply of tickets, oldest first. -/
  supplies : List (Nat × List Nat) := []
  hung : Bool := false
  killed : Bool := false
  /-- Homes whose kill walk has not ended (R86). -/
  walks : List Nat := []
  /-- Save-area slots in use. -/
  slotsUsed : List Nat := []
  deriving DecidableEq, Repr

/-- A resident image (R417, R419, R421). -/
structure Image where
  num : Nat
  digest : BitVec 256
  secver : Nat
  /-- Image-area offsets and sizes of the clause section, constant section and descriptors; its tag is over their bytes. -/
  code : Nat × Nat
  const : Nat × Nat
  desc : Nat × Nat
  uses : Nat := 0
  /-- The tag it was sealed with (R419). -/
  tagged : BitVec 256 := 0
  /-- To be evicted once its use count is 0 (R422). -/
  doomed : Bool := false
  deriving DecidableEq, Repr

/-- A child waiting to be placed (R355, R357). -/
structure ChildReq where
  id : Nat
  parent : Nat
  slot : Nat
  image : Nat
  desc : Nat
  entry : W64
  args : List Byte
  hanks : List (Nat × Hank)
  lend : BitVec 8
  deriving DecidableEq, Repr

/-- An accepted active message waiting for resources (R354). -/
structure AmWait where
  core : Nat
  urgent : Bool
  ctx : Nat
  pri : Nat
  image : Nat
  desc : Nat
  entry : W64
  payload : List Byte
  sender : W64
  deriving DecidableEq, Repr

/-- A hank operation held in a borrow wait until ENG is zero (R72). -/
structure Deferred where
  wg : Nat
  gang : Nat
  quad : Option Nat
  lanes : LaneMask
  /-- The lanes among them whose guard is true and that are no helpers: only these trap (R45, R53). -/
  tru : LaneMask
  word : Instr
  /-- The word's scalar operands as read at issue. -/
  x : W64
  hank : Nat
  y : W64 := 0
  deriving DecidableEq, Repr

/-- A return of a hank on its way: it waits for the accesses, fills and write-back that it must follow, then for its homes (R80, R82, R112,
R119). -/
structure RetOp where
  wg : Nat
  gang : Nat
  /-- The lanes blocked until every home acknowledges. -/
  lanes : LaneMask
  ctx : Nat
  ticket : Nat
  kind : BitVec 2
  /-- Physical ranges written back, the virtual range, and the runs to return; none for a part. -/
  extents : List (Nat × Nat)
  vlo : Nat
  vbytes : Nat
  runs : List Run
  /-- Accesses of the gang below this number are earlier in program order. -/
  seq : Nat
  sent : Bool := false
  /-- The addresses in other modules that it wrote back, each with the traffic plane taken, and its place among the requests (R364). -/
  planes : List (Nat × Nat) := []
  stamp : Nat := 0
  /-- Homes that have not yet acknowledged. -/
  left : Nat := 0
  deriving DecidableEq, Repr

/-- An RQSET that waits for the registers it removes to fill (R61). -/
structure RqWait where
  wg : Nat
  gang : Nat
  lanes : LaneMask
  /-- The lanes among them whose guard is true: only these trap (R45). -/
  tru : LaneMask
  target : Nat
  units : Nat
  deriving DecidableEq, Repr

/-- A word that took a slot of its port in this cycle, or an FP64 word whose second slot follows (R438): its gang and quad, its opcode and
register numbers, and the cycles for which the port is still taken. -/
structure Turn where
  core : Nat
  port : Nat
  wg : Nat
  gang : Nat
  quad : Nat
  key : W64
  fresh : Bool := true
  left : Nat
  deriving DecidableEq, Repr

/-- A Y = 0 continuation owed by a port: to which lanes of which gang, and how many in a row with it (R154). -/
structure Cont where
  core : Nat
  port : Nat
  wg : Nat
  gang : Nat
  lanes : LaneMask
  count : Nat
  deriving DecidableEq, Repr

/-- One entry of the agenda: time that passes, then what moves (a field of the model, log entry 3). -/
inductive Move where
  /-- A step of the device or of the outside world. -/
  | event (i : Instr)
  /-- The n-th issue in flight executes its next word. -/
  | word (n : Nat)
  deriving DecidableEq, Repr

/-- Time that passes, then what moves. -/
structure Tick where
  cycles : Nat
  ns : Nat
  move : Move
  deriving DecidableEq, Repr

/-- The whole module. -/
structure State where
  /-- What moves next, and when (the model's own field). -/
  agenda : List Tick
  /-- Arithmetic-clock cycles, the 1588 clock (R412), the arithmetic clock in MHz (R434). -/
  cycle : Nat
  time1588 : W64
  clockMHz : Nat
  /-- Module number of this module in its pod (R22). -/
  module : Nat
  /-- Next value of the free-value counter, of the order of issue, of message and command numbers (the model's own). -/
  freeCtr : Nat
  seq : Nat
  /-- Device memory: DRAM and vault memory by physical address; pool extents (R23). -/
  mem : List Host.Cell
  /-- Ranges whose contents became undefined: from, bytes, stamp (R86, R436). -/
  smears : List (Nat × Nat × Nat)
  l1 : List Sector
  slices : List Sector
  reps : List Rep
  /-- Lines of replicas in the slices: the slice's cluster, counted over the package, and the line's address (R13, R14, R89). -/
  repLines : List (Nat × Nat)
  /-- Sampling accumulators of the residency ranges: cluster and register (R98). -/
  rrAcc : List (Nat × Nat × Nat)
  pages : List PageMap
  /-- Translations that a TLB still holds of pages that the walker no longer takes as present (R15, R16, R419). -/
  tlb : List PageMap
  own : List OwnEntry
  waiters : List Waiter
  reqs : List Req
  grants : List Grant
  msgs : List Msg
  ctxs : List CtxSt
  wgs : List Wg
  issues : List Issue
  /-- The words that have taken slots in this cycle (R438). -/
  turns : List Turn
  /-- Nothing but releases at REJOIN sites has happened yet in this cycle: sites are evaluated on the states at its start (R48). -/
  dawn : Bool
  skeins : List Skein
  launches : List Launch
  childReqs : List ChildReq
  amWaits : List AmWait
  deferred : List Deferred
  rets : List RetOp
  rqWaits : List RqWait
  eng : List EngCmd
  xfers : List Xfer
  colls : List Coll
  /-- Collectives issued so far on each group at this module (R373). -/
  collNo : List (Nat × Nat)
  /-- Packets and exchanges of collectives that this module has not issued yet. -/
  collPkts : List CollPacket
  collExs : List CollExchange
  /-- What this module's collectives have sent, each with the module it goes to: packets (R375), and class-0 exchanges (R373, R378, R379, R381). -/
  collSent : List (Nat × CollPacket)
  collTold : List (Nat × CollExchange)
  ring : Ring
  /-- Words of device control space that differ from 0 (R23, R409). -/
  ctl : List (Nat × W64)
  /-- Y = 0 continuations owed by ports (R154). -/
  cont : List Cont
  faults : List FaultRec
  images : List Image
  loadDone : Bool
  links : List Link
  /-- The pod's live link table: module and its UP ports, bridges above bit 36 (R367, R374). -/
  live : List (Nat × BitVec 40)
  /-- Changes of the traffic list with requests still unanswered on the planes before (R364), oldest first. -/
  deadPlanes : List Remap
  /-- The last 4,096 tags and responses that each target keeps for this module, oldest first (R364). -/
  answers : List Answer
  slotRes : List (Nat × Nat)
  tokens : List (Nat × Nat)
  /-- Credits to workgroups that are not resident, held at the IOD (R371). -/
  heldCredits : List (Nat × W64 × Nat)
  hostMem : List Host.Cell
  /-- Interrupts raised to the host, host notices sent, and clock steps reported on the sideband (R426, R427, R431, R434). -/
  interrupts : Nat
  notices : Nat
  sideband : Nat
  /-- Writes to each revoked extent that were dropped (R431). -/
  drops : List (Nat × Nat)
  /-- Pool extents granted: extent, window slot, pool device, revoked (R430). -/
  extents : List (Nat × Nat × Nat × Bool)
  /-- Ranges of pool extents that a failed rebuild lost (R432). -/
  lost : List PoolRange
  fuse : Nat
  fuseBusy : Option Nat
  /-- TIME1588 by which the fuses are blown (R422). -/
  fuseBy : Nat
  /-- Queue entries that were checked as they reached HEAD and await their dependences (R391). -/
  heads : List Head
  /-- Indirection entries that launches bound in this cycle (R435). -/
  startedNow : List Nat
  /-- The HBORROW request that holds the command ring until a run is queued or it ends, and the context whose kill the ring waits for (R428). -/
  hcqHeld : Option Nat
  killing : Option Nat
  /-- The entry of the slice table in force (64 before the first begins), and the queue whose turn of the round robin comes next (R392, R394). -/
  slice : Nat
  nextQueue : Nat
  deriving DecidableEq, Repr

/-- Reset values of the control-space words that are not 0: GSIZE 1 of RGCTL, LEAD 64 of RGLEAD (R312), VER 1 of PLVER (R362). -/
def resetCtl : List (Nat × W64) :=
  [(0x7F0000200000, 0x8000#64), (0x7F0000200018, 64#64), (0x7F0000600008, 1#64)]

/-- The module right after reset: nothing resident, every table empty, every link DOWN about to train. -/
def State.reset : State where
  agenda := []
  cycle := 0
  time1588 := 0#64
  clockMHz := 1750
  module := 0
  freeCtr := 0
  seq := 0
  mem := []
  smears := []
  l1 := []
  slices := []
  reps := []
  repLines := []
  rrAcc := []
  pages := []
  tlb := []
  own := []
  waiters := []
  reqs := []
  grants := []
  msgs := []
  ctxs := []
  wgs := []
  issues := []
  turns := []
  dawn := true
  skeins := []
  launches := []
  childReqs := []
  amWaits := []
  deferred := []
  rets := []
  rqWaits := []
  eng := []
  xfers := []
  colls := []
  collNo := []
  collPkts := []
  collExs := []
  collSent := []
  collTold := []
  ring := {}
  ctl := resetCtl
  cont := []
  faults := []
  images := []
  loadDone := false
  links := List.replicate 48 {}
  live := []
  deadPlanes := []
  answers := []
  slotRes := []
  tokens := []
  heldCredits := []
  hostMem := []
  interrupts := 0
  notices := 0
  sideband := 0
  drops := []
  extents := []
  lost := []
  fuse := 0
  fuseBusy := none
  fuseBy := 0
  heads := []
  startedNow := []
  hcqHeld := none
  killing := none
  slice := 0
  nextQueue := 0

/-- Why a step stops the model with a fault. Each constructor says who raises it. -/
inductive Fault where
  /-- A step of the opcode table was asked for that the state does not offer: no such message, command, workgroup or condition stands.
  Raised by the events; safe, since the device takes the step only when its condition stands. -/
  | notEnabled
  /-- An instruction word was executed with no issue in flight. Raised by every instruction meaning; safe, `step` never does it. -/
  | noIssue
  deriving DecidableEq, Repr

/-- Why a step has no meaning. -/
inductive Refusal where
  /-- The instruction's arm has no meaning yet. Raised by Dispatch alone; safe. -/
  | notModelled (mnemonic : String)
  deriving DecidableEq, Repr

end Sys2Proof.Machine
end

