-- ==== Sys2Proof/Machine/Mem.lean ====
section
/-! DEFINITION. Memory as a canonical list of bytes, the physical address map, and the caches over it (R13, R14, R23, R94). -/

namespace Sys2Proof.Machine

/-- Bytes by address, strictly rising: an address not listed has no value. -/
abbrev Memory := List Host.Cell

/-- The byte listed at an address. -/
def memGet : Memory → Nat → Option Byte
  | [], _ => none
  | (a, b) :: m, x => if a = x then some b else memGet m x

/-- The memory with one byte written. -/
def memPut : Memory → Nat → Byte → Memory
  | [], x, v => [(x, v)]
  | (a, b) :: m, x, v => if x < a then (x, v) :: (a, b) :: m else if x = a then (a, v) :: m else (a, b) :: memPut m x v

/-- The memory with one address no longer listed. -/
def memDel : Memory → Nat → Memory
  | [], _ => []
  | (a, b) :: m, x => if a = x then m else (a, b) :: memDel m x

/-- Addresses strictly rising from a lower bound. -/
def memRising : Nat → Memory → Bool
  | _, [] => true
  | lo, (a, _) :: m => lo ≤ a && memRising (a + 1) m

/-- The canonical form: addresses strictly rising. -/
def Memory.wf (m : Memory) : Bool := memRising 0 m

/-- The canonical form of a memory whose unlisted bytes read 0 (R306): rising, and no byte 0 listed. -/
def Memory.wf0 (m : Memory) : Bool := memRising 0 m && m.all fun c => c.2 != 0#8

/-- Bytes written from an address on. -/
def memPuts : Memory → Nat → List Byte → Memory
  | m, _, [] => m
  | m, x, b :: bs => memPuts (memPut m x b) (x + 1) bs

/-- The memory without the addresses of a range. -/
def memClear (m : Memory) (lo n : Nat) : Memory := m.filter fun c => !(lo ≤ c.1 && c.1 < lo + n)

/-- A byte of a memory whose unlisted bytes read 0. -/
def get0 (m : Memory) (x : Nat) : Byte := (memGet m x).getD 0#8
/-- One byte written where unlisted bytes read 0: writing 0 removes the entry. -/
def put0 (m : Memory) (x : Nat) (v : Byte) : Memory := if v = 0#8 then memDel m x else memPut m x v
/-- n bytes from an address on. -/
def gets0 (m : Memory) (x n : Nat) : List Byte := (List.range n).map fun i => get0 m (x + i)
/-- Bytes written where unlisted bytes read 0. -/
def puts0 : Memory → Nat → List Byte → Memory
  | m, _, [] => m
  | m, x, b :: bs => puts0 (put0 m x b) (x + 1) bs

/-- The stamp of the latest event that left a byte undefined; 0 for none. -/
def smearAt : List (Nat × Nat × Nat) → Nat → Nat
  | [], _ => 0
  | (lo, n, k) :: r, x => if lo ≤ x && x < lo + n then k + 1 else smearAt r x

/-- A byte of device memory; one that nothing has written, or that became undefined, is a free value (log entry 2). -/
def devByte (s : State) (x : Nat) : Byte := (memGet s.mem x).getD (Config.freeByte (smearAt s.smears x) x)
/-- n bytes of device memory. -/
def devBytes (s : State) (x n : Nat) : List Byte := (List.range n).map fun i => devByte s (x + i)
/-- Device memory with bytes written. -/
def devPut (s : State) (x : Nat) (bs : List Byte) : State := { s with mem := memPuts s.mem x bs }
/-- A range of device memory becomes undefined (R3). -/
def smear (s : State) (x n : Nat) : State :=
  { s with mem := memClear s.mem x n, smears := (x, n, s.freeCtr) :: s.smears, freeCtr := s.freeCtr + 1 }

/-- A byte of host memory. -/
def hostByte (s : State) (x : Nat) : Byte := (memGet s.hostMem x).getD (Config.freeHostByte x)
/-- A 64-bit word of host memory. -/
def hostWord (s : State) (x : Nat) : W64 := BitVec.ofNat 64 (leNat ((List.range 8).map fun i => hostByte s (x + i)))
/-- n bytes of host memory. -/
def hostBytes (s : State) (x n : Nat) : List Byte := (List.range n).map fun i => hostByte s (x + i)
/-- Host memory with bytes written. -/
def hostPut (s : State) (x : Nat) (bs : List Byte) : State := { s with hostMem := memPuts s.hostMem x bs }

/-! The physical address map of R23. Addresses of this module's package are below 2 ^ 48; memory of another module m stands at
(m + 1) × 2 ^ 48 + pa (log entry 4). -/

def dieBytes : Nat := 0x1800000000
def dramTop : Nat := 0x6000000000
def vaultBase : Nat := 0x600000000000
def ctlBase : Nat := 0x7F0000000000
def poolBase : Nat := 0x800000000000
def windowBase : Nat := 0xFFFFC00000000
def windowBytes : Nat := 0x400000000

/-- The key of a physical address of a module. -/
def paKey (s : State) (module pa : Nat) : Nat := if module = s.module then pa else (module + 1) * 2 ^ 48 + pa
/-- The physical address within its module. -/
def paOf (k : Nat) : Nat := k % 2 ^ 48
/-- The module of a key, none for this one. -/
def moduleOf (k : Nat) : Option Nat := if k < 2 ^ 48 then none else some (k / 2 ^ 48 - 1)

/-- DRAM of R23. -/
def isDram (pa : Nat) : Bool := pa < dramTop
/-- Vault memory of R23: its cluster and die. -/
def vaultOf (pa : Nat) : Option (Nat × Nat) :=
  if pa < vaultBase then none
  else
    let o := pa - vaultBase
    let d := o / 0x10000000
    let c := o % 0x10000000 / 0x800000
    if d < 4 ∧ c < 24 ∧ o % 0x800000 < 0x600000 then some (d, c) else none
/-- A pool window. -/
def isPool (pa : Nat) : Bool := poolBase ≤ pa && pa < 2 ^ 48
/-- Device control space. -/
def isCtl (pa : Nat) : Bool := ctlBase ≤ pa && pa < poolBase
/-- An address that some memory backs. -/
def isBacked (pa : Nat) : Bool := isDram pa || (vaultOf pa).isSome || isPool pa

/-- The home of an address: dies 0 to 3, the IOD 4, of this module; 8 × (m + 1) more for module m (R10, R23). -/
def homeOf (k : Nat) : Nat :=
  let pa := paOf k
  let h := if isDram pa then pa / dieBytes else match vaultOf pa with
    | some (d, _) => d
    | none => 4
  8 * (k / 2 ^ 48) + h

/-- The cluster whose slice caches a DRAM line of its die (R14). -/
def sliceCluster (pa : Nat) : Nat := (pa % dieBytes) / 256 % 24
/-- The line that holds an address (R27). -/
def lineBase (x : Nat) : Nat := x / 256 * 256
/-- The number over the package of the cluster whose slice caches a DRAM line (R12, R14). -/
def sliceNo (pa : Nat) : Nat := 24 * (pa / dieBytes) + sliceCluster pa
/-- The pseudo-channel of its die that a DRAM line lies in, and the stack that holds it (R24). -/
def pseudoChannel (pa : Nat) : Nat :=
  let o := pa % dieBytes
  (o / 2 ^ 8 % 128) ^^^ (o / 2 ^ 15 % 128) ^^^ (o / 2 ^ 22 % 128) ^^^ (o / 2 ^ 29 % 128)
def stackOf (pa : Nat) : Nat := pseudoChannel pa / 64
/-- A line that a home slice of this module may cache: DRAM only (R13). -/
def hasSlice (k : Nat) : Bool := isDram k

/-- Core, cluster and die of a core number (R12). -/
def dieOfCore (c : Nat) : Nat := c / 192
def clusterOfCore (c : Nat) : Nat := c % 192 / 8

/-- A word of a list of control-space words; those not listed are 0. -/
def ctlGetW (ctl : List (Nat × W64)) (a : Nat) : W64 :=
  match ctl.find? fun c => c.1 == a with
  | some c => c.2
  | none => 0#64

/-- The sector that holds a byte. -/
def secBase (x : Nat) : Nat := x / 64 * 64

/-- A core's L1 copy of a sector. -/
def l1Find (s : State) (core x : Nat) : Option Sector := s.l1.find? fun c => c.owner == core && c.pa == secBase x
/-- The home slice's copy of a sector. -/
def sliceFind (s : State) (x : Nat) : Option Sector := s.slices.find? fun c => c.pa == secBase x

/-- The 64 bytes of a sector as its home holds them: the slice's copy, or memory behind it. -/
def homeSector (s : State) (x : Nat) : List Byte :=
  match sliceFind s x with
  | some c => c.data
  | none => devBytes s (secBase x) 64

/-- A byte as the home holds it. -/
def homeByte (s : State) (x : Nat) : Byte :=
  match sliceFind s x with
  | some c => c.data.getD (x % 64) 0#8
  | none => devByte s x
/-- n bytes as the home holds them. -/
def homeBytes (s : State) (x n : Nat) : List Byte := (List.range n).map fun i => homeByte s (x + i)

/-- A byte as a core sees it: its own L1 copy first. -/
def coreByte (s : State) (core x : Nat) : Byte :=
  match l1Find s core x with
  | some c => c.data.getD (x % 64) 0#8
  | none => homeByte s x
/-- n bytes as a core sees them. -/
def coreBytes (s : State) (core x n : Nat) : List Byte := (List.range n).map fun i => coreByte s core (x + i)

/-- Bytes replaced within a sector's data from a place on. -/
def patch : List Byte → Nat → List Byte → List Byte
  | [], _, _ => []
  | x :: xs, 0, [] => x :: xs
  | _ :: xs, 0, b :: bs => b :: patch xs 0 bs
  | x :: xs, n + 1, bs => x :: patch xs n bs

/-- The residency register of a die that takes an address: the lowest enabled one whose range holds it (R98). -/
def rrReg (s : State) (x : Nat) : Option Nat :=
  let base (n : Nat) : Nat := 0x7F0000100000 + 0x10000 * (x / dieBytes) + 0x20 * n
  (List.range 8).find? fun n =>
    (ctlGetW s.ctl (base n + 0x10)).getLsbD 0 && fld (ctlGetW s.ctl (base n)) 8 40 ≤ x / 256 && x / 256 ≤ fld (ctlGetW s.ctl (base n + 8)) 8 40
/-- A byte of a line of an extent that its pool device has lost (R27, R432). -/
def lostByte (s : State) (extent o : Nat) : Bool := s.lost.any fun x => x.extent == extent && rangesMeet x.offset x.bytes (lineBase o) 256
/-- A pool window slot with no extent, or whose extent was revoked (R430, R431). -/
def slotDead (s : State) (k : Nat) : Bool := k < 2 ^ 48 && isPool k && !s.extents.any fun e => e.2.1 == (k - poolBase) / 2 ^ 30 && !e.2.2.2
/-- A slot so, and a lost line: reads return poison and writes are dropped (R430 to R432). -/
def poolDead (s : State) (k : Nat) : Bool :=
  k < 2 ^ 48 && isPool k && !s.extents.any fun e => e.2.1 == (k - poolBase) / 2 ^ 30 && !e.2.2.2 && !lostByte s e.1 ((k - poolBase) % 2 ^ 30)
/-- Some line of a range returns poison. -/
def deadIn (s : State) (k n : Nat) : Bool :=
  k < 2 ^ 48 && isPool k && (List.range (cdiv (k % 256 + n) 256)).any fun i => poolDead s (lineBase k + 256 * i)
/-- Where IMGCTL places the image area: base and bytes, when EN is 1 (R419, R427). -/
def imgCtlAddr : Nat := 0x7F0004000020
def imgArea (s : State) : Option (Nat × Nat) :=
  let c := ctlGetW s.ctl imgCtlAddr
  if c.getLsbD 3 then some (fld c 34 27 * 2 ^ 21, 2 ^ 30 * 2 ^ fld c 0 3) else none
/-- A range meets the image area. -/
def meetsImages (s : State) (x n : Nat) : Bool := match imgArea s with
  | some (b, m) => rangesMeet x n b m
  | none => false
/-- A write that a revoked extent drops is counted in a host notice for the extent (R431); one to a slot that bears no extent, or to a lost line, in
none (R430, R432). -/
def dropWrite (s : State) (k : Nat) : State :=
  if !slotDead s k then s else match s.extents.find? fun e => e.2.1 == (k - poolBase) / 2 ^ 30 with
  | some e =>
    let old := match s.drops.find? fun d => d.1 == e.1 with
      | some d => d.2
      | none => 0
    { s with notices := s.notices + 1, drops := (e.1, old + 1) :: s.drops.filter fun d => d.1 != e.1 }
  | none => s
/-- An allocating access steps the sampling accumulator of its slice and register: whether it is retained, and by which register (R98). -/
def rrStep (s : State) (x : Nat) : State × Nat :=
  match rrReg s x with
  | none => (s, 0)
  | some n =>
    let c := sliceNo x
    let ratio := fld (ctlGetW s.ctl (0x7F0000100010 + 0x10000 * (x / dieBytes) + 0x20 * n)) 8 9
    let old := match s.rrAcc.find? fun a => a.1 == c && a.2.1 == n with
      | some a => a.2.2
      | none => 0
    ({ s with rrAcc := (c, n, (old + ratio) % 256) :: s.rrAcc.filter fun a => !(a.1 == c && a.2.1 == n) }, if 256 ≤ old + ratio then n + 1 else 0)

/-! The ways of a slice (R13, R96 to R98). Which set a line falls in, and which ordinary line leaves a full set where no step names one, are the
model's choice (log 115). -/

/-- The ways that a residency register of a die reserves. -/
def rrWays (s : State) (die n : Nat) : Nat :=
  let w := ctlGetW s.ctl (0x7F0000100010 + 0x10000 * die + 0x20 * n)
  if w.getLsbD 0 then fld w 4 4 else 0
/-- The ways open to a class of lines in a slice of a die. -/
def classWays (s : State) (die : Nat) : Nat → Nat
  | 0 => 16 - ((List.range 8).map (rrWays s die)).sum
  | n + 1 => rrWays s die n
/-- The class under which a line is replaced now: one whose register reserves nothing any more is ordinary (R97). -/
def nowClass (s : State) (die cls : Nat) : Nat := if classWays s die cls = 0 then 0 else cls
/-- The set of a slice that a line falls in. -/
def setOf (x : Nat) : Nat := x / 256 / 24 % 512
/-- The lines of a set of a slice, those used last first: address, class, and whether it is a replica's. -/
def setLines (s : State) (c k : Nat) : List (Nat × Nat × Bool) :=
  ((s.slices.filter fun y => sliceNo y.pa == c && setOf y.pa == k).map fun y => (lineBase y.pa, y.cls, false)).dedup
    ++ (s.repLines.filter fun y => y.1 == c && setOf y.2 == k).map fun y => (y.2, 0, true)
/-- The line that leaves a set for a new one of a class: the last of its class where its ways are full, or in a full set the last line of a class
that has more than its ways. -/
def victimOf (s : State) (c k cls : Nat) : Option (Nat × Nat × Bool) :=
  let die := c / 24
  let all := setLines s c k
  let of_ (z : Nat) : List (Nat × Nat × Bool) := all.filter fun y => nowClass s die y.2.1 == z
  if classWays s die cls ≤ (of_ cls).length then (of_ cls).getLast?
  else if 16 ≤ all.length then (all.filter fun y => classWays s die (nowClass s die y.2.1) < (of_ (nowClass s die y.2.1)).length).getLast?
  else none
/-- The slice's dirty copy of a sector goes to DRAM and is clean (R255). -/
def sliceClean (s : State) (x : Nat) : State :=
  match sliceFind s x with
  | some c =>
    if c.dirty then
      let s := devPut s c.pa c.data
      { s with slices := updFirst (fun d => d.pa == c.pa) (fun d => { d with dirty := false }) s.slices }
    else s
  | none => s
/-- The slice's copies of the sectors of a range go to DRAM. -/
def sliceCleanRange (s : State) (x n : Nat) : State :=
  (s.slices.filter fun c => rangesMeet c.pa 64 x n).foldl (fun s c => sliceClean s c.pa) s
/-- The slice's copies of a range are dropped. -/
def sliceDrop (s : State) (x n : Nat) : State := { s with slices := s.slices.filter fun c => !rangesMeet c.pa 64 x n }
/-- A slice no longer holds any line of a page's replica: it sends the home a notice with the number that the replica bears (R90). -/
def replicaGone (s : State) (c page : Nat) : State :=
  let me := (c / 24, c % 24)
  let notes := (s.reps.filter fun p => p.page == page).flatMap fun p =>
    (p.set.filter fun y => (y.1, y.2.1) == me).map fun y => Msg.evictNotice p.page y.2.2 me.1 me.2
  { s with repLines := s.repLines.filter fun y => !(y.1 == c && y.2 / 65536 == page), msgs := s.msgs ++ notes }
/-- A line of a replica leaves its slice, and with its last line the replica. -/
def repLineDrop (s : State) (c line : Nat) : State :=
  let s := { s with repLines := s.repLines.filter fun y => y != (c, line) }
  if s.repLines.any fun y => y.1 == c && y.2 / 65536 == line / 65536 then s else replicaGone s c (line / 65536)
/-- A slice makes room in a set for a line of a class. -/
def sliceRoom (s : State) (c k cls : Nat) : State := match victimOf s c k cls with
  | some (line, _, true) => repLineDrop s c line
  | some (line, _, false) => sliceDrop (sliceCleanRange s line 256) line 256
  | none => s
/-- The class of the line that holds an address, allocated where the slice has it not (R98). -/
def sliceAlloc (s : State) (x : Nat) : State × Nat :=
  match s.slices.find? fun c => lineBase c.pa == lineBase x with
  | some c => (s, c.cls)
  | none =>
    let r := rrStep s x
    let cls := nowClass r.1 (x / dieBytes) r.2
    (sliceRoom r.1 (sliceNo x) (setOf x) cls, cls)
/-- The line that holds an address is the one used last. -/
def sliceTouch (s : State) (x : Nat) : State :=
  let hit (c : Sector) : Bool := lineBase c.pa == lineBase x
  { s with slices := s.slices.filter hit ++ s.slices.filter fun c => !hit c }
/-- A fill passes through the home slice, which keeps the sector (R14, R98). -/
def sliceInstall (s : State) (x : Nat) : State :=
  if !hasSlice x then s
  else if (sliceFind s x).isSome then sliceTouch s x
  else
    let r := sliceAlloc s x
    sliceTouch { r.1 with slices := ⟨0, secBase x, false, devBytes r.1 (secBase x) 64, r.2⟩ :: r.1.slices } x

/-- A whole sector arrives at its home: in the slice for DRAM, in memory otherwise (R82). What an access left over from before the image area was
named writes into it is undefined (R3, R419). -/
def homeSectorPut (s : State) (x : Nat) (data : List Byte) : State :=
  if poolDead s x then dropWrite s x
  else if meetsImages s (secBase x) 64 then smear s (secBase x) 64
  else if hasSlice x then
    let r := sliceAlloc s x
    sliceTouch { r.1 with slices := ⟨0, secBase x, true, data, r.2⟩ :: r.1.slices.filter fun c => c.pa != secBase x } x
  else devPut s (secBase x) data

/-! L1 (R15). -/

/-- A dirty sector of a core's L1 goes to its home and is clean (R82, R118). -/
def writeBackSector (s : State) (c : Sector) : State :=
  if c.dirty then
    let s := homeSectorPut s c.pa c.data
    { s with l1 := updFirst (fun d => d.owner == c.owner && d.pa == c.pa) (fun d => { d with dirty := false }) s.l1 }
  else s
/-- The sectors of a core's L1 that meet a range. -/
def l1In (s : State) (core x n : Nat) : List Sector := s.l1.filter fun c => c.owner == core && rangesMeet c.pa 64 x n
/-- Every dirty sector of a range in a core's L1 goes home (R82, R118, R255). -/
def writeBack (s : State) (core x n : Nat) : State := (l1In s core x n).foldl writeBackSector s
/-- A core's L1 copies of a range are dropped, dirty or not (R81, R118, R256). -/
def l1Drop (s : State) (core x n : Nat) : State :=
  { s with l1 := s.l1.filter fun c => !(c.owner == core && rangesMeet c.pa 64 x n) }
/-- The lines of a core's L1, the one filled last first. -/
def l1Lines (s : State) (core : Nat) : List Nat := ((s.l1.filter fun c => c.owner == core).map fun c => lineBase c.pa).dedup
/-- A core's L1, of 512 lines, has room for a line: where none has left, the one filled first goes (R15, log 115). -/
def l1Room (s : State) (core x : Nat) : State :=
  let ls := l1Lines s core
  if ls.contains (lineBase x) || ls.length < 512 then s
  else match ls.getLast? with
    | some y => l1Drop (writeBack s core y 256) core y 256
    | none => s
/-- A core's L1 fills a sector from a copy of its home's. -/
def l1Put (s : State) (core x : Nat) : State :=
  let s := l1Room s core x
  { s with l1 := ⟨core, secBase x, false, homeSector s x, 0⟩ :: s.l1 }
/-- A core's L1 fills a sector from its home. -/
def l1Install (s : State) (core x : Nat) : State :=
  if (l1Find s core x).isSome then s else l1Put (sliceInstall s x) core x
/-- Bytes written in a core's L1, within one sector: the sector fills first and turns dirty (R99). -/
def l1Write (s : State) (core x : Nat) (bs : List Byte) : State :=
  let s := l1Install s core x
  let hit (c : Sector) : Bool := c.owner == core && c.pa == secBase x
  { s with l1 := updFirst hit (fun c => { c with dirty := true, data := patch c.data (x % 64) bs }) s.l1 }
/-- Bytes written at the home, within one sector: in the slice's copy where it holds one, else in memory (R99); a revoked extent and a lost line
drop them (R431, R432), and what they leave in the image area is undefined (R419). -/
def homeWrite (s : State) (x : Nat) (bs : List Byte) : State :=
  if poolDead s x then s
  else if meetsImages s x bs.length then smear (sliceDrop (sliceClean s x) (secBase x) 64) x bs.length
  else
  match sliceFind s x with
  | some _ =>
    let dirtied (c : Sector) : Sector := { c with dirty := true, data := patch c.data (x % 64) bs }
    { s with slices := updFirst (fun c => c.pa == secBase x) dirtied s.slices }
  | none => devPut s x bs
/-- Bytes written at the home, one by one. -/
def homePuts : State → Nat → List Byte → State
  | s, _, [] => s
  | s, x, b :: bs => homePuts (homeWrite s x [b]) (x + 1) bs
/-- One write at the home, over any range: where a revoked extent drops it, it counts once (R431). -/
def homeWrites (s : State) (x : Nat) (bs : List Byte) : State := homePuts (dropWrite s x) x bs

/-- Cache contents leave to make room: dirty sectors are written back first (R90; which leave is the device's choice). -/
def evict (s : State) (core : Nat) (l1 slice : List Nat) : State :=
  let s := l1.foldl (fun s x => l1Drop (writeBack s core (secBase x) 64) core (secBase x) 64) s
  slice.foldl (fun s x => sliceDrop (sliceClean s x) (secBase x) 64) s

/-! Device control space (R23, R409). -/

/-- A word of device control space as stored. -/
def ctlGet (s : State) (a : Nat) : W64 := ctlGetW s.ctl a
/-- A word of control space written; words of value 0 are not listed. -/
def ctlInsert : List (Nat × W64) → Nat → W64 → List (Nat × W64)
  | [], a, v => if v = 0#64 then [] else [(a, v)]
  | (b, x) :: r, a, v =>
    if a < b then (if v = 0#64 then (b, x) :: r else (a, v) :: (b, x) :: r)
    else if a = b then (if v = 0#64 then r else (a, v) :: r)
    else (b, x) :: ctlInsert r a v
/-- The state with a word of control space written. -/
def ctlPut (s : State) (a : Nat) (v : W64) : State := { s with ctl := ctlInsert s.ctl a v }

/-- A bit or field of a control word replaced. -/
def setFld (x : W64) (lo n v : Nat) : W64 :=
  BitVec.ofNat 64 (x.toNat - fld x lo n * 2 ^ lo + v % 2 ^ n * 2 ^ lo)

end Sys2Proof.Machine
end

