-- ==== Sys2Proof/Machine/Ops.lean ====
section
/-! DEFINITION. The named operations every meaning shares: finding and replacing workgroups, gangs, lanes and registers, translation and
fetch, taking a trap and returning from one, parking, and the park threshold. -/

namespace Sys2Proof.Machine

/-! Registers. -/

/-- One bit of a word replaced. -/
def putBit {w : Nat} (m : BitVec w) (n : Nat) (b : Bool) : BitVec w := if b then m ||| (1#w <<< n) else m &&& ~~~(1#w <<< n)

/-- A vector register of a lane (R172). -/
def vreg (l : Lane) (r : Nat) : W32 := tget 0#32 l.v r
/-- n consecutive vector registers as one value, the first least significant (R168). -/
def vregs (l : Lane) : Nat → Nat → Nat
  | _, 0 => 0
  | r, n + 1 => (vreg l r).toNat + 2 ^ 32 * vregs l (r + 1) n
/-- An empty vector register (R160). -/
def vempty (l : Lane) (r : Nat) : Bool := l.ve.getLsbD r
/-- A vector register written, full. -/
def vput (l : Lane) (r : Nat) (x : W32) : Lane := { l with v := tset 0#32 l.v r x, ve := putBit l.ve r false }
/-- n consecutive vector registers written from one value, full. -/
def vputs (l : Lane) (r : Nat) : Nat → Nat → Lane
  | 0, _ => l
  | n + 1, x => vputs (vput l r (BitVec.ofNat 32 x)) (r + 1) n (x / 2 ^ 32)
/-- n consecutive vector registers marked empty (R161). -/
def vmark (l : Lane) (r n : Nat) : Lane := { l with ve := (List.range n).foldl (fun m i => putBit m (r + i) true) l.ve }
/-- A predicate of a lane; p0 reads 1 (R160). -/
def preg (l : Lane) (n : Nat) : Bool := n == 0 || l.p.getLsbD n
/-- An empty predicate; p0 is always full (R160). -/
def pempty (l : Lane) (n : Nat) : Bool := n != 0 && l.pe.getLsbD n
/-- A predicate written, full; p0 discards writes (R160). -/
def pput (l : Lane) (n : Nat) (b : Bool) : Lane := if n = 0 then l else { l with p := putBit l.p n b, pe := putBit l.pe n false }
/-- A predicate marked empty; p0 stays full. -/
def pmark (l : Lane) (n : Nat) : Lane := if n = 0 then l else { l with pe := putBit l.pe n true }
/-- A scalar register of a quad. -/
def sreg (q : Quad) (r : Nat) : W64 := tget 0#64 q.s r
/-- An empty scalar register. -/
def sempty (q : Quad) (r : Nat) : Bool := q.se.getLsbD r
/-- A scalar register written, full. -/
def sput (q : Quad) (r : Nat) (x : W64) : Quad := { q with s := tset 0#64 q.s r x, se := putBit q.se r false }
/-- A scalar register marked empty. -/
def smark (q : Quad) (r : Nat) : Quad := { q with se := putBit q.se r true }

/-- A lane of a gang. -/
def laneOf (g : Gang) (n : Nat) : Lane := tget {} g.lanes n
/-- A quad of a gang. -/
def quadOf (g : Gang) (q : Nat) : Quad := tget {} g.quads q
/-- A hank h0 to h15 of a gang. -/
def hankOf (g : Gang) (n : Nat) : Hank := tget {} g.h n
/-- The lanes of a set changed. -/
def mapLanes (m : LaneMask) (f : Nat → Lane → Lane) (g : Gang) : Gang :=
  { g with lanes := (List.range 32).map fun n => if m.getLsbD n then f n (laneOf g n) else laneOf g n }
/-- The quads of a set changed. -/
def mapQuads (m : BitVec 8) (f : Quad → Quad) (g : Gang) : Gang :=
  { g with quads := (List.range 8).map fun q => if m.getLsbD q then f (quadOf g q) else quadOf g q }

/-- A workgroup by its tag. -/
def findWg (s : State) (tag : Nat) : Option Wg := s.wgs.find? fun w => w.tag == tag
/-- A workgroup replaced. -/
def putWg (s : State) (w : Wg) : State := { s with wgs := updFirst (fun x => x.tag == w.tag) (fun _ => w) s.wgs }
/-- A gang of a workgroup. -/
def gangOf (w : Wg) (g : Nat) : Gang := tget {} w.gangs g
/-- A workgroup with a gang replaced. -/
def setGang (w : Wg) (g : Nat) (x : Gang) : Wg := { w with gangs := tset {} w.gangs g x }
/-- A gang of the state changed. -/
def updGang (s : State) (tag g : Nat) (f : Gang → Gang) : State :=
  match findWg s tag with
  | some w => putWg s (setGang w g (f (gangOf w g)))
  | none => s
/-- A workgroup of the state changed. -/
def updWg (s : State) (tag : Nat) (f : Wg → Wg) : State :=
  match findWg s tag with
  | some w => putWg s (f w)
  | none => s

/-- A lane that the workgroup runs (R35). -/
def isPresent (w : Wg) (g n : Nat) : Bool := 32 * g + n < w.lanes
/-- A helper lane (R35). -/
def isHelper (w : Wg) (g n : Nat) : Bool := w.lanes ≤ 32 * g + n && 32 * g + n < (w.lanes + 3) / 4 * 4
/-- The present lanes of a gang. -/
def presentMask (w : Wg) (g : Nat) : LaneMask := maskOf (isPresent w g)
/-- The lanes of a gang in a state. -/
def lanesIn (g : Gang) (p : LaneSt → Bool) : LaneMask := maskOf fun n => p (laneOf g n).st
/-- A lane that has exited or never was. -/
def isGone : LaneSt → Bool
  | .absent => true
  | .exited => true
  | _ => false
/-- A lane that neither exited nor parked. -/
def isLive : LaneSt → Bool
  | .absent => false
  | .exited => false
  | .parked => false
  | _ => true
/-- A blocked lane (R38). -/
def isBlocked : LaneSt → Bool
  | .blocked _ => true
  | _ => false
/-- The quads that hold a lane of a set. -/
def quadsOf (m : LaneMask) : BitVec 8 :=
  (List.range 8).foldl (fun q n => if m.extractLsb' (4 * n) 4 != 0#4 then q ||| (1#8 <<< n) else q) 0#8
/-- The lowest lane of a set; 32 for none. -/
def lowest (m : LaneMask) : Nat := (bitsOf m).headD 32
/-- The core a workgroup is resident on. -/
def coreOf (w : Wg) : Option Nat := match w.st with
  | .resident c => some c
  | _ => none

/-! Translation and fetch (R16, R25, R420). -/

/-- Bytes of a page. -/
def pageBytes : PageSize → Nat
  | .k64 => 2 ^ 16
  | .m2 => 2 ^ 21
  | .g1 => 2 ^ 30
/-- A range wholly inside one range of R23; one in device control space translates, and cannot be borrowed (R77). -/
def inOneRange (pa n : Nat) : Bool :=
  if isCtl pa then isCtl (pa + n - 1)
  else if isDram pa then pa / dieBytes == (pa + n - 1) / dieBytes && pa + n ≤ dramTop
  else match vaultOf pa with
    | some d => vaultOf (pa + n - 1) == some d
    | none => isPool pa && pa + n ≤ 2 ^ 48
/-- A page-table entry that the walker takes as present (R25, R419). -/
def pageOk (s : State) (p : PageMap) : Bool :=
  let n := pageBytes p.size
  p.present && p.va % n == 0 && p.pa % n == 0 && inOneRange p.pa n && (p.module != s.module || !meetsImages s p.pa n)
/-- A walk reaches the entry in tables of device DRAM only, and takes it as present (R16). -/
def walks (s : State) (p : PageMap) : Bool := pageOk s p && p.walk.all isDram
/-- The key of the byte a context's virtual address names; none when the access takes the page-fault trap: a translation comes from a TLB that
still holds it, or from a walk (R15, R16, R419). -/
def translate (s : State) (ctx va : Nat) : Option Nat :=
  if windowBase ≤ va ∧ va < windowBase + windowBytes then
    match imgArea s with
    | some (b, n) => if va - windowBase < n then some (b + (va - windowBase)) else none
    | none => none
  else
    match s.pages.find? fun p => p.ctx == ctx && p.va ≤ va && va < p.va + pageBytes p.size with
    | some p => if walks s p || s.tlb.contains p then some (paKey s p.module (p.pa + (va - p.va))) else none
    | none => none

/-- An image-area byte offset lies in one of the sections of an image (R420). -/
def inImage (im : Image) (o : Nat) : Bool :=
  rangeIn o 8 im.code.1 im.code.2 || rangeIn o 8 im.const.1 im.const.2 || rangeIn o 8 im.desc.1 im.desc.2
/-- The resident image of a directory number. -/
def imageOf (s : State) (n : Nat) : Option Image := s.images.find? fun im => im.num == n
/-- The code word at a PC of a workgroup; none raises the fetch-fault trap (R158, R420). -/
def fetch (s : State) (w : Wg) (pc : W64) : Option W64 :=
  let a := pc.toNat
  if a % 8 ≠ 0 ∨ a < windowBase ∨ windowBase + windowBytes ≤ a then none
  else
    match imageOf s w.image, imgArea s with
    | some im, some (b, _) =>
      if inImage im (a - windowBase) then some (BitVec.ofNat 64 (leNat (devBytes s (b + (a - windowBase)) 8))) else none
    | _, _ => none

/-- A header word (R149). -/
def isHeader (x : W64) : Bool := x.extractLsb' 59 5 == 31#5
/-- The address after a clause, from its base and header (R148). -/
def clauseNext (base hdr : W64) : W64 := base + 8#64 * BitVec.ofNat 64 (fld hdr 52 4 + 2)
/-- The last word of a clause. -/
def clauseLast (base hdr : W64) : W64 := base + 8#64 * BitVec.ofNat 64 (fld hdr 52 4 + 1)

/-! Traps (R398 to R400, R405, R406). -/

/-- The traps of R405. -/
inductive Trap where
  | illegalOpcode | reservedField | headerClass | illegalConvergence | privilege | emptyRead | quota | alignment | hankEmpty
  | hankRevoked | hankKind | hankRange | borrowChildren | scratchRange | barrierOverrun | queueMisuse | formatSlot | matrixOperand
  | macroState | engineOperand | fabricError | pageFault | fetchFault | breakpoint | gangHalt
  | software (n : BitVec 6)
  deriving DecidableEq, Repr

/-- Trap codes (R405). -/
def trapCode : Trap → BitVec 8
  | .illegalOpcode => 0x01
  | .reservedField => 0x02
  | .headerClass => 0x03
  | .illegalConvergence => 0x04
  | .privilege => 0x05
  | .emptyRead => 0x06
  | .quota => 0x07
  | .alignment => 0x08
  | .hankEmpty => 0x09
  | .hankRevoked => 0x0A
  | .hankKind => 0x0B
  | .hankRange => 0x0C
  | .borrowChildren => 0x0D
  | .scratchRange => 0x0E
  | .barrierOverrun => 0x0F
  | .queueMisuse => 0x10
  | .formatSlot => 0x11
  | .matrixOperand => 0x12
  | .macroState => 0x13
  | .engineOperand => 0x14
  | .fabricError => 0x15
  | .pageFault => 0x20
  | .fetchFault => 0x21
  | .breakpoint => 0x30
  | .gangHalt => 0x31
  | .software n => 0x40 + n.zeroExtend 8

/-- Traps that go to the host, never to the handler (R405). -/
def toHost : Trap → Bool
  | .pageFault => true
  | .fetchFault => true
  | .breakpoint => true
  | .gangHalt => true
  | _ => false

/-- A trap of some lanes, each with its INFO. -/
structure TrapOf where
  trap : Trap
  lanes : List (Nat × W64)

/-- The lanes of a trap. -/
def trapMask (t : TrapOf) : LaneMask := maskOf fun n => t.lanes.any fun x => x.1 == n
/-- One trap on a set of lanes with one INFO. -/
def trapAll (t : Trap) (m : LaneMask) (info : W64) : TrapOf := ⟨t, (bitsOf m).map fun n => (n, info)⟩

/-- A trap of this kind goes to the handler on this lane (R406). -/
def handled (w : Wg) (t : Trap) (l : Lane) : Bool := !toHost t && w.trapvec.getLsbD 0 && !l.hact
/-- A lane enters its trap handler (R406). -/
def enterHandler (w : Wg) (t : Trap) (info pc : W64) (base : Option W64) (l : Lane) : Lane :=
  { l with tpc := pc, tbase := base, tlimit := l.climit, fcode := trapCode t, hact := true, tinfo := info,
           pc := w.trapvec &&& 0xFFFFFFFFFFFF8#64, cbase := none, st := .ready }
/-- A lane parks at a PC (R398). -/
def parkLane (pc : W64) (base : Option W64) (l : Lane) : Lane := { l with pc := pc, cbase := base, st := .parked, halt := none }

/-- Parked lanes of a workgroup. -/
def parkedCount (w : Wg) : Nat :=
  (w.gangs.map fun g => (g.lanes.filter fun l => l.st == .parked).length).foldl (· + ·) 0
/-- The test of R399 on a workgroup. -/
def overThreshold (w : Wg) : Bool := 16 * parkedCount w > w.parkt * w.lanes
/-- A skein by its identity. -/
def findSkein (s : State) (k : Nat) : Option Skein := s.skeins.find? fun x => x.id == k
/-- A skein changed. -/
def updSkein (s : State) (k : Nat) (f : Skein → Skein) : State := { s with skeins := updFirst (fun x => x.id == k) f s.skeins }
/-- A record of a workgroup's lanes or engine commands, not of the watchdog. -/
def ofWg (tag : Nat) (r : FaultRec) : Bool := r.wgtag == tag && r.code != 0xF0#8
/-- The unanswered records of a workgroup. -/
def openRecords (s : State) (tag : Nat) : List Nat := (s.faults.filter fun r => ofWg tag r && !r.answered).map fun r => r.no
/-- The records of a workgroup need no answer any more. -/
def closeRecords (s : State) (tag : Nat) : State := { s with faults := s.faults.map fun r => if ofWg tag r then { r with answered := true } else r }
/-- The skein of a workgroup is to be saved whole, for its records still open (R399, R414). -/
def saveForFaults (s : State) (w : Wg) : State :=
  updSkein s w.skein fun k => match k.st with
    | .running => { k with st := .saving false s.time1588.toNat, waitFor := openRecords s w.tag, causeAt := some s.cycle }
    | .draining _ => { k with st := .saving false s.time1588.toNat, waitFor := openRecords s w.tag, causeAt := some s.cycle }
    | .saving h t => { k with st := .saving h t, waitFor := (openRecords s w.tag ++ k.waitFor).dedup, causeAt := some s.cycle }
    | .saved _ _ => k
/-- The faults of this cycle may have the skein saved: no fault of an earlier one has (R414). -/
def mayCause (s : State) (w : Wg) : Bool := match findSkein s w.skein with
  | some k => k.causeAt.isNone || k.causeAt == some s.cycle
  | none => false
/-- The test of R399 at the end of a cycle (R414): a workgroup past its threshold, or with a fetch fault in this cycle, has its skein saved, and
the records of lanes that it sent in this cycle carry WGSAVE; an engine's does not (R344). -/
def thresholdTest (s : State) (w : Wg) : State :=
  let mine (r : FaultRec) : Bool := r.fresh && ofWg w.tag r && r.cmd.isNone
  if (coreOf w).isSome && mayCause s w && (overThreshold w || s.faults.any fun r => mine r && r.code == 0x21#8) then
    saveForFaults { s with faults := s.faults.map fun r => if mine r then { r with wgsave := true } else r } w
  else s
/-- The end of a cycle: the test for every workgroup, after which its records may go to the fault ring. -/
def cycleEnd (s : State) : State :=
  let s := s.wgs.foldl thresholdTest s
  { s with faults := s.faults.map fun r => { r with fresh := false } }

/-- A fault record sent (R398): its number is its place in the order of records (R427). -/
def sendRecord (s : State) (w : Wg) (gang : Nat) (code : BitVec 8) (nest : Bool) (lanes : LaneMask) (pc info : W64) (wgsave : Bool)
    (cmd : Option Nat) : State :=
  let r : FaultRec := { no := s.faults.length, wgsave := wgsave, nest := nest, code := code, gang := gang, wgtag := w.tag,
                        ctx := w.ctx, lanes := lanes, pc := pc, info := info, cmd := cmd, fresh := true }
  { s with faults := s.faults ++ [r] }

/-- The INFO of a record shared by several lanes: that of one of them, which one the spec leaves open (R398; log entry 12). -/
def sharedInfo (s : State) (xs : List (Nat × W64)) : W64 := (tget (0, 0#64) xs (Config.freeNat s.freeCtr % xs.length)).2

/-- Records of the lanes that parked for one code: one with NEST 0 and one with NEST 1 where both occur (R398, R406). -/
def recordPark (s : State) (w : Wg) (gang : Nat) (code : BitVec 8) (pc : W64) (wgsave : Bool) (xs : List (Nat × W64)) (nest : Bool) : State :=
  match xs with
  | [] => s
  | [x] => sendRecord s w gang code nest (maskOf fun n => n == x.1) pc x.2 wgsave none
  | _ =>
    let info := sharedInfo s xs
    sendRecord { s with freeCtr := s.freeCtr + 1 } w gang code nest (maskOf fun n => xs.any fun x => x.1 == n) pc info wgsave none

/-- TAKING A TRAP (R406, R398, R399) under a value of TRAPVEC: each lane enters its handler, or parks with a record; a fetch fault saves the skein
at once. -/
def takeTrapV (vec : W64) (s : State) (tag gang : Nat) (pc : W64) (base : Option W64) (t : TrapOf) : State :=
  match findWg s tag with
  | none => s
  | some w =>
    let g := gangOf w gang
    let v := { w with trapvec := vec }
    let infoOf (n : Nat) : W64 := match t.lanes.find? fun x => x.1 == n with
      | some x => x.2
      | none => 0#64
    let g' := mapLanes (trapMask t) (fun n l =>
      if handled v t.trap l then enterHandler v t.trap (infoOf n) pc base l else parkLane pc base l) g
    let w' := setGang w gang g'
    let s := putWg s w'
    let parked := t.lanes.filter fun x => !handled v t.trap (laneOf g x.1)
    if parked.isEmpty then s
    else
      let past := t.trap == .fetchFault
      let s := recordPark s w gang (trapCode t.trap) pc past (parked.filter fun x => !(laneOf g x.1).hact) false
      let s := recordPark s w gang (trapCode t.trap) pc past (parked.filter fun x => (laneOf g x.1).hact) true
      if past then saveForFaults s w' else s
/-- The same under the workgroup's TRAPVEC as it stands. -/
def takeTrap (s : State) (tag gang : Nat) (pc : W64) (base : Option W64) (t : TrapOf) : State :=
  match findWg s tag with
  | none => s
  | some w => takeTrapV w.trapvec s tag gang pc base t

/-- A trap joins those of its word: lanes that trap with one code are taken together, since those that park share a record (R398). -/
def addTrap (xs : List TrapOf) (t : TrapOf) : List TrapOf :=
  if t.lanes.isEmpty then xs
  else if xs.any fun x => x.trap == t.trap then updFirst (fun x => x.trap == t.trap) (fun x => { x with lanes := x.lanes ++ t.lanes }) xs
  else xs ++ [t]
/-- The traps of one word, in the order of their kinds. -/
def takeTraps (vec : W64) (s : State) (tag gang : Nat) (pc : W64) (base : Option W64) (ts : List TrapOf) : State :=
  (ts.foldl addTrap []).foldl (fun s t => takeTrapV vec s tag gang pc base t) s

/-- The address after a word: the next word of its clause, or the next clause (R148), when its clause is known. -/
def afterWord (s : State) (w : Wg) (pc base : W64) : W64 × Option W64 :=
  match fetch s w base with
  | some hdr => if pc == clauseLast base hdr then (clauseNext base hdr, none) else (pc + 8#64, some base)
  | none => (pc + 8#64, some base)

/-- A lane that something may release: blocked or waiting, neither parked nor exited meanwhile. -/
def holds : LaneSt → Bool
  | .waiting _ => true
  | .blocked _ => true
  | _ => false
/-- Blocked or waiting lanes are released: each resumes after the word it stands at; one that a HALTG found blocked parks there instead
(R38, R253, R410). A lane whose word was its clause's last has retired the clause (R401). -/
def releaseLanes (s : State) (tag gang : Nat) (m : LaneMask) : State :=
  match findWg s tag with
  | none => s
  | some w =>
    let g := gangOf w gang
    let m := m &&& lanesIn g holds
    let go (l : Lane) : W64 × Option W64 := match l.cbase with
      | some b => afterWord s w l.pc b
      | none => (l.pc, none)
    let now := s.cycle
    let s := updGang s tag gang (mapLanes m fun _ l => { l with pc := (go l).1, cbase := (go l).2, st := .ready, since := now })
    let retires := (bitsOf m).any fun n => (laneOf g n).cbase.isSome && (go (laneOf g n)).2.isNone
    let s := updWg s tag fun w => { w with idle := if retires then 0 else w.idle }
    let halted := (bitsOf m).filter fun n => (laneOf g n).halt.isSome
    let leads := halted.filter fun n => !halted.any fun k => k < n && go (laneOf g k) == go (laneOf g n)
    leads.foldl (fun s n =>
      let same := halted.filter fun k => go (laneOf g k) == go (laneOf g n)
      let p := go (laneOf g n)
      takeTrap s tag gang p.1 p.2 ⟨.gangHalt, same.map fun k => (k, (((laneOf g k).halt).getD 0#16).zeroExtend 64)⟩) s

/-- RETURN FROM A TRAP (R411) for one lane: HACT clears; without skip it resumes at TRAPPC, with skip after it. -/
def returnFromTrap (s : State) (w : Wg) (skip : Bool) (l : Lane) : Lane :=
  let at_ : W64 × Option W64 :=
    if skip then
      match l.tbase with
      | some b => afterWord s w l.tpc b
      | none => match fetch s w l.tpc with
        | some hdr => if isHeader hdr then (clauseNext l.tpc hdr, none) else (l.tpc, none)
        | none => (l.tpc, none)
    else (l.tpc, l.tbase)
  { l with hact := false, pc := at_.1, cbase := at_.2, climit := if at_.2.isSome then l.tlimit else l.climit }

/-! Macros and subscriptions of a workgroup (R281, R314, R315). -/

/-- A macro of a workgroup. -/
def macOf (w : Wg) (m : Nat) : Mac := tget {} w.macs m
/-- A macro changed. -/
def updMac (w : Wg) (m : Nat) (f : Mac → Mac) : Wg := { w with macs := tset {} w.macs m (f (macOf w m)) }
/-- A subscription by handle (R314). -/
def subOf (w : Wg) (h : Nat) : Sub := tget {} w.subs h
/-- A subscription changed. -/
def updSub (w : Wg) (h : Nat) (f : Sub → Sub) : Wg := { w with subs := tset {} w.subs h (f (subOf w h)) }
/-- A subscription that stands in its macro's queue. -/
def inQueue (st : SubSt) : Bool := st == .queued || st == .armed || st == .loading || st == .held
/-- The handles of a macro's queue (R314). -/
def queueOf (w : Wg) (m : Nat) : List Nat := ((List.range 4).map fun s => 4 * m + s).filter fun h => inQueue (subOf w h).st
/-- The head of a macro's queue: the subscription made first. -/
def headOf (w : Wg) (m : Nat) : Option Nat :=
  (queueOf w m).find? fun h => (queueOf w m).all fun k => (subOf w h).order ≤ (subOf w k).order
/-- A subscription arms: its macro turns PENDING with SRC 01 (R281, R315, R316). -/
def armSub (now below : Nat) (w : Wg) (h : Nat) : Wg :=
  updMac (updSub w h fun x => { x with st := .armed, armedAt := now }) (h / 4) fun m => { m with st := .pending, src := 1#2, upto := below }
/-- MREL's row of R315: the head, QUEUED or HELD, arms; with no subscription the macro turns FREE. -/
def relHead (now below : Nat) (w : Wg) (m : Nat) : Wg :=
  match headOf w m with
  | some h => armSub now below w h
  | none => updMac w m fun x => { x with st := .free, src := 0#2, upto := below }

/-- A subscription made (R315, R320). -/
def makeSub (now seq gang : Nat) (w : Wg) (h : Nat) (b c : W64) (pers : Bool) (lanes : LaneMask) : Wg :=
  let m := h / 4
  let arms := (macOf w m).st == .free && (headOf w m).isNone
  let x : Sub := { st := .queued, tile := b.extractLsb' 0 32, minGen := b.extractLsb' 32 32, pers := pers, counter := c, order := seq,
                   gang := gang, lanes := lanes, seq := seq }
  let w := updSub w h fun _ => x
  if arms then armSub now seq w h else w

end Sys2Proof.Machine
end

