-- ==== Sys2Proof/Machine/Operands.lean ====
section
/-! DEFINITION. Where a word executes, its guard, its register operands, and the checks made on them before it takes effect
(R45, R60, R159 to R162, R188). -/

namespace Sys2Proof.Machine

/-- The issue at the head of the issues in flight, with its workgroup, core and gang. -/
structure Here where
  iss : Issue
  w : Wg
  core : Nat
  g : Gang
  /-- The leading quad: the issuing quad, or the lowest with a participating lane as the word begins; lanes that the word's own checks take
  out leave it as it is (R188; log entry 101). -/
  lead : Nat

/-- The quad that leads an issue (R188). -/
def leadOf (i : Issue) : Nat := match i.quad with
  | some q => q
  | none => lowest i.lanes / 4
/-- Where the next word executes: the first issue in flight. -/
def here (s : State) : Option Here :=
  match s.issues with
  | [] => none
  | i :: _ => match findWg s i.wg with
    | none => none
    | some w => match coreOf w with
      | none => none
      | some c => some ⟨i, w, c, gangOf w i.gang, leadOf i⟩

/-- The same place with only some of its active lanes. -/
def Here.only (h : Here) (m : LaneMask) : Here := { h with iss := { h.iss with lanes := m } }

/-- The quad whose scalar registers an issue reads: the issuing quad, or the leading quad of a ganged issue (R188). -/
def leadQuad (h : Here) : Nat := h.lead
/-- The quads whose scalar registers an issue writes (R187, R188). -/
def dstQuads (h : Here) : BitVec 8 := match h.iss.quad with
  | some q => 1#8 <<< q
  | none => 0xFF#8
/-- A scalar source (R188). -/
def srcS (h : Here) (r : Nat) : W64 := sreg (quadOf h.g (leadQuad h)) r
/-- A ganged issue (R42). -/
def isGanged (h : Here) : Bool := h.iss.quad.isNone
/-- The helper lanes of a gang (R35). -/
def helperMask (h : Here) : LaneMask := maskOf (isHelper h.w h.iss.gang)

/-- The lanes of a set that are not helpers: only these take the trap of an operation suppressed for helper lanes (R53). -/
def mains (h : Here) (m : LaneMask) : LaneMask := m &&& ~~~helperMask h

/-- A lane's guard is true (R45, R164). -/
def guardOn (gd : Guard) (l : Lane) : Bool := preg l gd.pred.toNat != gd.pn
/-- The active lanes whose guard is true. -/
def trueMask (h : Here) (gd : Guard) : LaneMask := maskOf fun n => h.iss.lanes.getLsbD n && guardOn gd (laneOf h.g n)
/-- The guard predicate is empty in some active lane: read under the rule for FE bit 0 (R162). -/
def guardEmpty (h : Here) (gd : Guard) : Bool := (bitsOf h.iss.lanes).any fun n => pempty (laneOf h.g n) gd.pred.toNat

/-- An operand names a vector register at or above a limit (R60, R172). -/
def opdOver (limit : Nat) : Opd → Bool
  | .vec r n => limit < r + n
  | _ => false
/-- The lanes on which a word raises the quota trap (R60, R172). -/
def quotaMask (h : Here) (o : Operands) (m : LaneMask) : LaneMask :=
  maskOf fun n => m.getLsbD n && (o.srcs.any (fun x => opdOver (laneOf h.g n).climit x.opd)
    || (o.dsts ++ o.names).any (opdOver (laneOf h.g n).climit))

/-- A vector or predicate operand is empty in a lane. -/
def opdEmpty (l : Lane) : Opd → Bool
  | .vec r n => (List.range n).any fun i => vempty l (r + i)
  | .pred r => pempty l r
  | .scal _ _ => false
/-- A scalar operand is empty in a quad. -/
def opdEmptyQ (q : Quad) : Opd → Bool
  | .scal r n => (List.range n).any fun i => sempty q (r + i)
  | _ => false
/-- A source is read under FE bit 1 (R162). -/
def feOne (gd : Guard) (x : Src) : Bool := match x.fe with
  | some b => gd.fe.getLsbD b
  | none => false
/-- The word is held: a source under FE bit 0, or a destination, is empty in some active lane (R162, R188). A ganged word writes its scalar
destination in all eight quads, and the bit of each of them holds it (log entry 102). An empty destination holds the word whatever its FE bits
say, so VADDC with FE[50] = 1 and an empty pC is held (log entry 103). -/
def holdsWord (h : Here) (gd : Guard) (o : Operands) : Bool :=
  let lanes := bitsOf h.iss.lanes
  o.srcs.any (fun x => !feOne gd x && (lanes.any (fun n => opdEmpty (laneOf h.g n) x.opd) || opdEmptyQ (quadOf h.g (leadQuad h)) x.opd))
    || o.dsts.any fun x => lanes.any (fun n => opdEmpty (laneOf h.g n) x)
        || (bitsOf (dstQuads h)).any fun q => opdEmptyQ (quadOf h.g q) x
/-- The lanes on which an empty source under FE bit 1 raises the empty-read trap (R162). -/
def emptyMask (h : Here) (gd : Guard) (o : Operands) (m : LaneMask) : LaneMask :=
  maskOf fun n => m.getLsbD n && o.srcs.any fun x => feOne gd x &&
    (opdEmpty (laneOf h.g n) x.opd || opdEmptyQ (quadOf h.g (leadQuad h)) x.opd)

/-- A vector source of n registers, or a scalar one in its place (R165, R208, R228): its low 32 n bits. -/
def srcV (h : Here) (l : Lane) (scal : Bool) (r : BitVec 8) (n : Nat) : Nat :=
  if scal then (srcS h r.toNat).toNat % 2 ^ (32 * n) else vregs l r.toNat n

/-- A scalar destination written in every quad the issue stands for (R187). -/
def putS (h : Here) (r : Nat) (x : W64) (g : Gang) : Gang := mapQuads (dstQuads h) (fun q => sput q r x) g
/-- A scalar destination marked empty in every quad the issue stands for (R161). -/
def markS (h : Here) (r : Nat) (g : Gang) : Gang := mapQuads (dstQuads h) (fun q => smark q r) g
/-- n consecutive scalar registers as one value. -/
def srcSs (h : Here) : Nat → Nat → Nat
  | _, 0 => 0
  | r, n + 1 => (srcS h r).toNat + 2 ^ 64 * srcSs h (r + 1) n

/-- The word an instruction is: INFO of most traps (R405). -/
def wordOf (i : Instr) : W64 := (encode i).getD 0#64

end Sys2Proof.Machine
end

