-- ==== Sys2Proof/Machine/CrossSrc.lean ====
section
/-! DEFINITION. The source lanes and registers of the cross-lane instructions, and when an empty one ends the issue before the word (R162, R219
to R227). -/

namespace Sys2Proof.Machine

/-! Words that read one source lane: XQUAD, XLANE, XBCAST and XREAD. -/

/-- XQUAD's source lane (R221). -/
def xquadSrc (m : BitVec 14) (n : Nat) : Nat :=
  let q := n % 4
  4 * (n / 4) + (match modBits m 0 3 with
    | 0 => q ^^^ 1
    | 1 => q ^^^ 2
    | 2 => q ^^^ 3
    | _ => modBits m 3 2)
/-- XLANE's source lane (R222). -/
def xlaneSrc (m : BitVec 14) (n : Nat) : Nat :=
  let d := if modBit m 2 then 32 / 2 ^ modBits m 3 3 else modBits m 3 7
  match modBits m 0 2 with
  | 0 => if n ^^^ d < 32 then n ^^^ d else n
  | 1 => if d ≤ n then n - d else n
  | 2 => if n + d < 32 then n + d else n
  | _ => (n + d) % 32

/-- How a source register of another lane reads at issue (R219): a value, a clause break, a wait for the register to fill, or an empty
source under FE 1. -/
inductive Rd where
  | val (x : W32) | brk | late | empty
  deriving DecidableEq, Repr

/-- A source register of a lane (R219). -/
def rdLane (h : Here) (gd : Guard) (ctr src r : Nat) : Rd :=
  let l := laneOf h.g src
  match l.st with
  | .absent => .val 0#32
  | .exited => .val (if vempty l r then Config.free32 (ctr + src) else vreg l r)
  | .parked => .val (if vempty l r then Config.free32 (ctr + src) else vreg l r)
  | _ =>
    if !vempty l r then .val (vreg l r)
    else if gd.fe.getLsbD 0 then .empty
    else if h.iss.lanes.getLsbD src then .brk
    else .late

/-- The lane XBCAST names (R223). -/
def xbcastSrc (f : FmtT) (h : Here) (_ : Nat) : Nat := (if modBit f.mod 7 then fld (srcS h f.b.toNat) 0 7 else modBits f.mod 0 7) % 32
/-- The lane XREAD names (R223). -/
def xreadSrc (f : FmtT) (h : Here) (n : Nat) : Nat := srcV h (laneOf h.g n) f.bs f.b 1 % 32
/-- log2 of the segment width (R224): max(GANGW >> k, 1). -/
def segLog (k : Nat) : Nat := 5 - k
/-- The first lane of a lane's segment. -/
def segBase (k n : Nat) : Nat := n / 2 ^ segLog k * 2 ^ segLog k

/-- The lanes whose A (or pA) a receiving lane of a combining word reads (R219, R224 to R227). -/
def xReads (i : Instr) (contrib : LaneMask) (n : Nat) : LaneMask :=
  match i with
  | .xred _ f => maskOf fun m => contrib.getLsbD m && segBase (modBits f.mod 4 3) m == segBase (modBits f.mod 4 3) n
  | .xscan _ f => maskOf fun m => contrib.getLsbD m && segBase (modBits f.mod 4 3) m == segBase (modBits f.mod 4 3) n
      && (if modBit f.mod 7 then m < n else m ≤ n)
  | .xmatch _ _ => contrib ||| (1#32 <<< n)
  | _ => contrib
/-- The source of a cross-lane word in a lane, and whether it is empty. -/
def xSource (i : Instr) (l : Lane) : W32 × Bool :=
  match i with
  | .xvote _ f => (if preg l f.a.toNat then 1#32 else 0#32, pempty l f.a.toNat)
  | .xred _ f => (vreg l f.a.toNat, vempty l f.a.toNat)
  | .xscan _ f => (vreg l f.a.toNat, vempty l f.a.toNat)
  | .xmatch _ f => (vreg l f.a.toNat, vempty l f.a.toNat)
  | .xquad _ f => (vreg l f.a.toNat, vempty l f.a.toNat)
  | .xlane _ f => (vreg l f.a.toNat, vempty l f.a.toNat)
  | .xbcast _ f => (vreg l f.a.toNat, vempty l f.a.toNat)
  | .xread _ f => (vreg l f.a.toNat, vempty l f.a.toNat)
  | _ => (0#32, false)
/-- The word and the source lane of each lane, for a word that reads one lane. -/
def readerOf : Instr → Option (FmtT × (Here → Nat → Nat))
  | .xquad _ f => some (f, fun _ n => xquadSrc f.mod n)
  | .xlane _ f => some (f, fun _ n => xlaneSrc f.mod n)
  | .xbcast _ f => some (f, xbcastSrc f)
  | .xread _ f => some (f, xreadSrc f)
  | _ => none
/-- A word that combines lanes (R219). -/
def combines : Instr → Bool
  | .xred _ _ => true
  | .xscan _ _ => true
  | .xvote _ _ => true
  | .xmatch _ _ => true
  | _ => false
/-- The lanes of a combining word that read an empty source (R162, R219). -/
def xShort (i : Instr) (h : Here) (tru : LaneMask) : LaneMask :=
  maskOf fun n => tru.getLsbD n && (bitsOf (xReads i (tru &&& ~~~helperMask h) n)).any fun m => (xSource i (laneOf h.g m)).2
/-- An empty source A ends the issue before a cross-lane word, for the lanes whose guard is true (R162, R219). -/
def xBreaks (i : Instr) (gd : Guard) (h : Here) (tru : LaneMask) : Bool :=
  match readerOf i with
  | some (f, src) => (bitsOf tru).any fun n => rdLane h gd 0 (src h n) f.a.toNat == .brk
  | none => combines i && !gd.fe.getLsbD 0 && xShort i h tru != 0#32

end Sys2Proof.Machine
end

