-- ==== Sys2Proof/Machine/Frame.lean ====
section
/-! DEFINITION. How every instruction word executes around its own entry: guard, privilege, quota and empty checks in the order of R159,
traps, clause breaks, and the advance to the next word or clause (R40, R46, R148, R159 to R163). -/

namespace Sys2Proof.Machine

/-- What a word's own entry did: the state after its effects, the lanes that it took out of the issue (blocked, moved, exited or parked by
itself), the traps it raises, and a reason to end the issue before the word instead (R162, R114). -/
structure Fx where
  s : State
  gone : LaneMask := 0#32
  traps : List TrapOf := []
  hold : Option Wait := none
  /-- A write to a rejoin mask, for the end of the issue (R202). -/
  jop : Option JOp := none
  /-- Writes to rejoin masks of issues of later quads that end with this one (R202). -/
  jops : List JOp := []
  /-- Writes to FPCTL and MFLAGS, for the end of the issue (R230). -/
  fops : List FOp := []
  /-- The port may carry the group into its next clause (R154, R206). -/
  carry : Bool := true

/-- The lanes a list of traps takes. -/
def trapsMask (ts : List TrapOf) : LaneMask := ts.foldl (fun m t => m ||| trapMask t) 0#32

/-- The word executing is its clause's last. -/
def atLast (h : Here) : Bool := h.iss.at_ == h.iss.last
/-- The PC after this word, with the clause base to keep (R46). -/
def nextPc (h : Here) : W64 × Option W64 := if atLast h then (h.iss.at_ + 8#64, none) else (h.iss.at_ + 8#64, some h.iss.base)

/-- The head of the issues in flight replaced, or dropped. -/
def setHead (s : State) (i : Option Issue) : State := { s with issues := i.toList ++ s.issues.tail }

/-- Lanes of the issue's gang changed. -/
def updLanes (h : Here) (m : LaneMask) (f : Nat → Lane → Lane) (s : State) : State := updGang s h.iss.wg h.iss.gang (mapLanes m f)

/-- A rejoin mask after one operation (R200). -/
def jApply (g : Gang) (o : JOp) : Gang :=
  let old := tget 0#32 g.j o.j
  let new := match o.kind with
    | .set => o.m
    | .add => old ||| o.m
    | .del => old &&& ~~~o.m
  { g with j := tset 0#32 g.j o.j new }
/-- The gang's flag registers after one write to them (R230). -/
def fApply (g : Gang) (o : FOp) : Gang := match o with
  | .raise fp mf => { g with fpctl := g.fpctl ||| fp, mflags := g.mflags ||| mf }
  | .setFp x => { g with fpctl := x }
  | .setMf x => { g with mflags := x }
  | .sub _ _ _ _ _ => g
  | .effect _ _ => g
/-- The writes of an issue that has ended, in the order of its words (R202, R230). -/
def endWrites (jops : List JOp) (fops : List FOp) (g : Gang) : Gang := fops.foldl fApply (jops.foldl jApply g)
/-- A non-idempotent effect (R395). -/
def markEffect (tag : Nat) (s : State) : State := updWg s tag fun w => { w with nonIdem := true }
/-- A subscription or an effect that the end of an issue makes (R320, R413). -/
def subApply (tag gang : Nat) (s : State) (o : FOp) : State := match o with
  | .sub h b c pers lanes =>
    let now := s.cycle
    let seq := s.seq
    updWg { s with seq := seq + 1 } tag fun w => makeSub now seq gang w h b c pers lanes
  | .effect _ _ => markEffect tag s
  | _ => s
/-- The subscriptions and effects of an issue that has ended. -/
def endSubs (tag gang : Nat) (fops : List FOp) (s : State) : State := fops.foldl (subApply tag gang) s
/-- The issue ends: its writes to masks and flags take effect, and its subscriptions are made (R202, R230, R320). -/
def endIssue (h : Here) (jops : List JOp) (fops : List FOp) (s : State) : State :=
  endSubs h.iss.wg h.iss.gang fops (setHead (updGang s h.iss.wg h.iss.gang (endWrites jops fops)) none)

/-- The port of a place (R393). -/
def portOf (h : Here) : Nat := tget 0 h.w.slots h.iss.gang % 4
/-- The continuation a port owes (R154), or none. -/
def oweNext (h : Here) (c : Option Cont) (s : State) : State :=
  { s with cont := c.toList ++ s.cont.filter fun c => !(c.core == h.core && c.port == portOf h) }
/-- Y = 0 continuations that the port has honoured in a row for the issue's gang and quad, this issue among them. -/
def honoured (h : Here) (s : State) : Nat :=
  match s.cont.find? fun c => c.core == h.core && c.port == portOf h with
  | some c => if c.wg == h.iss.wg && c.gang == h.iss.gang && (c.lanes &&& h.iss.lanes) != 0#32 then c.count else 0
  | none => 0
/-- The Y = 0 continuation a port owes at a clause's end, wherever its lanes go (R154): at most seven in a row. -/
def continued (h : Here) (m : LaneMask) (s : State) : Option Cont :=
  match fetch s h.w h.iss.base with
  | some hdr =>
    if !hdr.getLsbD 51 && honoured h s < 7 then some ⟨h.core, portOf h, h.iss.wg, h.iss.gang, m, honoured h s + 1⟩ else none
  | none => none

/-- A clause break: the lanes keep their PC at the word and wait on operands; the port owes nothing (R154, R163). -/
def breakIssue (h : Here) (why : Wait) (s : State) : State :=
  oweNext h none (endIssue h h.iss.jops h.iss.fops (updLanes h h.iss.lanes (fun _ l => { l with st := .waiting why }) s))

/-- The word is done: traps are taken, the other lanes move on, and at the clause's end the issue ends (R148, R159, R395, R401). -/
def finishWord (h : Here) (ctl : Bool) (fx : Fx) : State :=
  let left := h.iss.lanes &&& ~~~fx.gone &&& ~~~trapsMask fx.traps
  let s := takeTraps h.iss.tvec fx.s h.iss.wg h.iss.gang h.iss.at_ (some h.iss.base) fx.traps
  let pc := nextPc h
  let now := s.cycle
  let s := updLanes h left (fun _ l => { l with pc := pc.1, cbase := pc.2, since := if atLast h then now else l.since }) s
  let s := updWg s h.iss.wg fun w =>
    { w with retired := w.retired + 1, idle := if atLast h && (left != 0#32 || ctl) then 0 else w.idle }
  let jops := h.iss.jops ++ fx.jop.toList ++ fx.jops
  let fops := h.iss.fops ++ fx.fops
  if left == 0#32 || atLast h then
    oweNext h (if fx.carry && atLast h then continued h (h.iss.lanes &&& ~~~trapsMask fx.traps) s else none) (endIssue h jops fops s)
  else setHead s (some { h.iss with lanes := left, at_ := h.iss.at_ + 8#64, jops := jops, fops := fops })

/-- CSR words on which a lane raises the privilege trap (R407, R409, R411), checked first (R159). -/
def privMask (i : Instr) (h : Here) (m : LaneMask) : LaneMask :=
  match i with
  | .csrw _ f =>
    if csrReadOnly f.csrn.toNat then m
    else if f.csrn = 0x23#16 then maskOf fun n => m.getLsbD n && !(laneOf h.g n).hact else 0#32
  | .csrrCtl _ _ => if h.w.sys then 0#32 else m
  | .csrwCtl _ _ => if h.w.sys then 0#32 else m
  | .rett _ _ => maskOf fun n => m.getLsbD n && !(laneOf h.g n).hact
  | _ => 0#32

/-- A word names a macro or tile at or above its workgroup's count (R280). -/
def macOver (w : Wg) : Instr → Bool
  | .mma _ f => w.nmacs ≤ f.mac.toNat || w.naccs ≤ f.acc.toNat
  | .mmat _ f => w.nmacs ≤ f.mac.toNat || w.naccs ≤ f.acc.toNat
  | .mld _ f => w.nmacs ≤ f.mac.toNat
  | .mzero _ f => w.naccs ≤ f.acc.toNat
  | .mrd _ f => w.naccs ≤ f.a.toNat
  | .mwr _ f => w.naccs ≤ f.a.toNat
  | .mstat _ f => modBits f.mod 0 2 == 0 && w.nmacs ≤ f.a.toNat
  | .mrel _ f => w.nmacs ≤ f.a.toNat
  | .msub _ f => w.nmacs ≤ f.a.toNat
  | _ => false
/-- The lanes of the quota trap for a macro or tile number: those whose guard is true (R45, R280), and for MSUB those it acts for (R319). -/
def macQuota (i : Instr) (h : Here) (tru : LaneMask) : LaneMask :=
  if !macOver h.w i then 0#32
  else match i with
    | .msub _ _ => mains h tru
    | _ => tru

/-- The lanes on which a word's own checks are made: those whose guard is true, but no helper of a word whose effect is suppressed for
helpers (R45, R53). -/
def checked (i : Instr) (h : Here) (tru : LaneMask) : LaneMask := if suppressed i then mains h tru else tru

/-- An HGIVE or HREB of the gang waits for ENG: no later gang operation of the gang takes effect before it (R278). -/
def givePending (s : State) (tag gang : Nat) : Bool :=
  s.deferred.any fun d => d.wg == tag && d.gang == gang && (match d.word with
    | .hgive _ _ => true
    | .hreb _ _ => true
    | _ => false)
/-- The gang operations (R257, R319, R334, R370, R380, R408). -/
def isGangOp (i : Instr) : Bool :=
  let op := fld (wordOf i) 56 8
  (0x88 ≤ op && op ≤ 0x90) || (0x98 ≤ op && op ≤ 0xA2) || (0xC0 ≤ op && op ≤ 0xDF)
/-- The lanes of a word that take the privilege or the quota trap (R159). -/
def earlyMask (i : Instr) (h : Here) (tru : LaneMask) : LaneMask :=
  let pv := privMask i h tru
  pv ||| quotaMask h (operandsOf i) (checked i h (tru &&& ~~~pv)) ||| macQuota i h (tru &&& ~~~pv)

/-- One instruction word in the issue at the head: the dynamic checks in the order of R159, then the word's own entry. -/
def wordStep (i : Instr) (gd : Guard) (body : Here → LaneMask → State → Fx) (h : Here) (s : State) : State :=
  if gd.pred = 0#4 ∧ gd.pn = true then finishWord h (isControl i) { s := s }
  else if guardEmpty h gd then breakIssue h .word s
  else
    let tru := trueMask h gd
    let pv := privMask i h tru
    let qt := quotaMask h (operandsOf i) (checked i h (tru &&& ~~~pv)) ||| macQuota i h (tru &&& ~~~pv)
    let early := [trapAll .privilege pv (wordOf i), trapAll .quota qt (wordOf i)]
    let h2 := h.only (h.iss.lanes &&& ~~~pv &&& ~~~qt)
    if holdsWord h2 gd (operandsOf i) then
      breakIssue h2 .word (takeTraps h.iss.tvec s h.iss.wg h.iss.gang h.iss.at_ (some h.iss.base) early)
    else
      let et := emptyMask h2 gd (operandsOf i) (checked i h (tru &&& ~~~pv &&& ~~~qt))
      let early := early ++ [trapAll .emptyRead et (wordOf i)]
      let h3 := h2.only (h2.iss.lanes &&& ~~~et)
      let fx := if isGangOp i && givePending s h.iss.wg h.iss.gang then { s := s, hold := some (.room .given) }
        else body h3 (tru &&& ~~~pv &&& ~~~qt &&& ~~~et) s
      match fx.hold with
      | some why => breakIssue h3 why (takeTraps h.iss.tvec fx.s h.iss.wg h.iss.gang h.iss.at_ (some h.iss.base) early)
      | none => finishWord h (isControl i) { fx with traps := early ++ fx.traps }

/-- The meaning of an instruction word: its step in the issue at the head of the issues in flight. -/
def runWord (i : Instr) (gd : Guard) (body : Here → LaneMask → State → Fx) (s : State) : Host.Outcome State Fault Refusal :=
  match here s with
  | some h => .next (wordStep i gd body h s)
  | none => .fault .noIssue

/-- The gang of the issue changed. -/
def onGang (h : Here) (f : Gang → Gang) (s : State) : State := updGang s h.iss.wg h.iss.gang f

/-- What one lane's part of a vector word writes: vector registers, a predicate, floating-point flags, or the trap it raises instead. -/
structure LaneOut where
  /-- First register, count, value. -/
  v : Option (Nat × Nat × Nat) := none
  p : Option (Nat × Bool) := none
  flags : BitVec 5 := 0#5
  mflags : BitVec 4 := 0#4
  trap : Option Trap := none

/-- A lane with its results written. -/
def laneWrite (o : LaneOut) (l : Lane) : Lane :=
  let l := match o.v with
    | some (r, n, x) => vputs l r n x
    | none => l
  match o.p with
  | some (r, b) => pput l r b
  | none => l

/-- The write that ORs flags into FPCTL and MFLAGS, where there are any. -/
def raises (fp : BitVec 5) (mf : BitVec 4) : List FOp := if fp = 0#5 ∧ mf = 0#4 then [] else [.raise fp mf]

/-- A vector word: each lane whose guard is true computes from its own registers and the issue's scalars, and writes its own registers
full; the flags of those that are not helpers are ORed into FPCTL and MFLAGS as the issue ends (R138, R207, R228, R230). -/
def vecBody (word : W64) (sem : Here → Lane → LaneOut) (h : Here) (tru : LaneMask) (s : State) : Fx :=
  let out (n : Nat) : LaneOut := sem h (laneOf h.g n)
  let bad := maskOf fun n => tru.getLsbD n && (out n).trap.isSome
  let good := tru &&& ~~~bad
  let seen := (bitsOf good).filter fun n => !isHelper h.w h.iss.gang n
  let fp := seen.foldl (fun m n => m ||| (out n).flags) 0#5
  let mf := seen.foldl (fun m n => m ||| (out n).mflags) 0#4
  let s := onGang h (mapLanes good fun n l => laneWrite (out n) l) s
  { s := s, fops := raises fp mf, traps := (bitsOf bad).map fun n => ⟨((out n).trap).getD .reservedField, [(n, word)]⟩ }

/-- A scalar word: it takes effect when the guard is true in some active lane, and its destination is written full (R187, R188). -/
def scalBody (d : Nat) (sem : Here → W64) (h : Here) (tru : LaneMask) (s : State) : Fx :=
  if tru = 0#32 then { s := s } else { s := onGang h (putS h d (sem h)) s }

end Sys2Proof.Machine
end

