-- ==== Sys2Proof/Machine/Counter.lean ====
section
/-! DEFINITION. Counters, barriers, queues and batches as words and waits read them (R109, R262, R265 to R271, R299). -/

namespace Sys2Proof.Machine

/-! Orderings at issue. -/

/-- An access that waits to perform, as against a fence, a reply or a write-back (R109). -/
def isAccess : AKind → Bool
  | .fence => false
  | .take => false
  | .clean => false
  | .posted => false
  | .reply => false
  | .cross => false
  | _ => true
/-- An access's place lies in the region of a scope for a core (R107). -/
def inRegion (scope : BitVec 3) (core : Nat) (a : Access) : Bool :=
  match a.place with
  | .core => true
  | .scratch => true
  | .home h =>
    let sc := scope.toNat
    if sc ≤ 3 then false
    else if sc = 4 then vaultOf a.pa == some (dieOfCore core, clusterOfCore core)
    else if sc = 5 then h == dieOfCore core
    else true
  | .remote _ => scope.toNat == 7
/-- Reads of R109: loads, LDC, WAITV and atomics with return. -/
def isRead : AKind → Bool
  | .load => true
  | .ldc => true
  | .waitv => true
  | .atom => true
  | .cas => true
  | _ => false
/-- Writes of R109: stores and all atomics, and the operations on counters and queues that write. -/
def isWrite : AKind → Bool
  | .store => true
  | .stsp => true
  | .sync => true
  | .red => true
  | .atom => true
  | .cas => true
  | _ => false
/-- A store-buffer entry. -/
def isEntry : AKind → Bool
  | .store => true
  | .red => true
  | _ => false
/-- Accesses of one lane in common. -/
def sharesLane (a b : Access) : Bool := (a.lanes &&& b.lanes) != 0#32
/-- Overlapping bytes of one memory. -/
def sameBytes (a b : Access) : Bool := rangesMeet a.pa a.bytes b.pa b.bytes
/-- An operation that carries acquire, not yet performed (R108, R112). -/
def isAcquire (a : Access) : Bool := a.acq && (isAccess a.kind || a.kind == .take)

/-- The addresses of the words whose request an access is. -/
def wordsIn (a : Access) : List W64 := a.pc :: a.pc2.toList
/-- Requests of one word from the issues of two quads: the lower quad's performs first (R121, log 114). -/
def oneWord (b a : Access) : Bool :=
  let atomic (x : Access) : Bool := x.kind == .atom || x.kind == .red || x.kind == .cas
  atomic b && atomic a && (wordsIn b).any (wordsIn a).contains && match b.quad, a.quad with
    | some p, some q => p < q
    | _, _ => false
/-- An earlier pending access must perform before a later one, fences apart (R103, R106, R109); scratchpad accesses of a lane perform in
program order (R248), requests of one word in quad order (R121), and the entries of a restored buffer in its order (R115). -/
def precedes (core : Nat) (b a : Access) : Bool :=
  sharesLane a b && (
    (isAccess b.kind && (sameBytes a b || (b.place == .scratch && a.place == .scratch)))
    || (isWrite a.kind && a.kind != .sync && (b.kind == .load || b.kind == .ldc))
    || (isAcquire b && inRegion b.scope core a)
    || (a.rel && isAccess b.kind && inRegion a.scope core b))
  || (b.kind == .cas && a.kind == .cas && a.grp == b.grp)
  || oneWord b a || (b.ord && a.ord)
/-- A fence still has earlier accesses, or acknowledgements of CLNR, of a lane to wait for, as regards a later access of that lane, which is a
write or not (R109, R254). -/
def fenceHolds (core : Nat) (pend : List Access) (f a : Access) (write : Bool) : Bool :=
  f.kind == .fence && inRegion f.scope core a && pend.any fun r =>
    r.seq < f.seq && (r.lanes &&& f.lanes &&& a.lanes) != 0#32 && inRegion f.scope core r && (
      (f.sc && (isAccess r.kind || r.kind == .clean))
      || (f.acq && isRead r.kind)
      || (f.rel && write && (isAccess r.kind || r.kind == .clean)))
/-- What stands before an access. -/
def heldBy (core : Nat) (pend : List Access) (write : Bool) (a : Access) : Bool :=
  pend.any fun b => b.seq < a.seq && (precedes core b a || fenceHolds core pend b a write)
/-- An access of the gang may perform now (R105 to R109). -/
def mayPerform (core : Nat) (g : Gang) (a : Access) : Bool := !heldBy core g.pend (isWrite a.kind) a
/-- An access that ends without a write may perform now: a compare-and-swap of release form that fails is only a read (R251). -/
def mayFail (core : Nat) (g : Gang) (a : Access) : Bool := a.relForm && !heldBy core g.pend false a
/-- An access that would perform at issue must wait: an operation on the scratchpad, or of engines (R109). -/
def mustWait (core : Nat) (g : Gang) (a : Access) : Bool := heldBy core g.pend (isWrite a.kind) a

/-- An operation on counters or queues as the orders see it waits at issue: a release is a write of the core, any other a read (R108, R109, R112). -/
def opMust (s : State) (core : Nat) (g : Gang) (m : LaneMask) (write rel : Bool) (scope : BitVec 3) : Bool :=
  mustWait core g { seq := s.seq, kind := if write then .sync else .waitv, lanes := m, place := .scratch, rel := rel, scope := scope }
/-- The same for a word about to execute. -/
def opWaits (h : Here) (m : LaneMask) (write rel : Bool) (scope : BitVec 3) (s : State) : Bool := opMust s h.core h.g m write rel scope
/-- A word that cannot issue before something it needs has come: the issue ends before it (R162, R163). -/
def wantFx (n : Want) (s : State) : Fx := { s := s, hold := some (.room n) }

/-! Counters and barriers. -/

/-- What a counter operand names (R263, R270): a scratchpad offset or a skein barrier. -/
inductive CRef where
  | scr (off : Nat)
  | sb (k : Nat)
  deriving DecidableEq, Repr

/-- A counter operand read; none when a set bit among [62:4] of a skein barrier's number raises the queue-misuse trap (R270). -/
def cRef (c : W64) : Option CRef :=
  if c.getLsbD 63 then (if fld c 4 59 = 0 then some (.sb (fld c 0 4)) else none) else some (.scr c.toNat)

/-- A counter word (R262). -/
structure CWord where
  err : Bool
  past : Bool
  phase : Bool
  kind : Nat
  target : Nat
  count : Nat
  deriving DecidableEq, Repr

/-- A counter word's fields. -/
def cWord (x : W64) : CWord := ⟨x.getLsbD 63, x.getLsbD 62, x.getLsbD 61, fld x 59 2, fld x 30 29, fld x 0 30⟩
/-- A counter word from its fields. -/
def cBits (c : CWord) : W64 :=
  BitVec.ofNat 64 (c.err.toNat * 2 ^ 63 + c.past.toNat * 2 ^ 62 + c.phase.toNat * 2 ^ 61 + c.kind % 4 * 2 ^ 59 + c.target % 2 ^ 29 * 2 ^ 30
    + c.count % 2 ^ 30)

/-- A counter or barrier with its mask and arrivals. -/
structure Bar where
  word : CWord
  mask : Nat
  arr : Nat
  deriving DecidableEq, Repr

/-- A 64-bit scratchpad word. -/
def scrWord (w : Wg) (off : Nat) : W64 := BitVec.ofNat 64 (leNat (gets0 w.scratch off 8))
/-- A 64-bit scratchpad word written. -/
def putScr (w : Wg) (off : Nat) (x : W64) : Wg := { w with scratch := puts0 w.scratch off (leBytes 8 x.toNat) }
/-- The counter or barrier a reference names. -/
def readBar (s : State) (w : Wg) : CRef → Bar
  | .scr off => ⟨cWord (scrWord w off), (scrWord w (off + 8)).toNat, (scrWord w (off + 16)).toNat⟩
  | .sb k => match findSkein s w.skein with
    | some sk => let b := tget {} sk.bars k; ⟨cWord b.word, b.mask.toNat, b.arr.toNat⟩
    | none => ⟨cWord 0#64, 0, 0⟩
/-- A counter, or a barrier with its mask and arrivals, written. -/
def writeBar (s : State) (tag : Nat) (r : CRef) (b : Bar) : State :=
  match r with
  | .scr off => updWg s tag fun w =>
      let w := putScr w off (cBits b.word)
      if b.word.kind = 0 then w else putScr (putScr w (off + 8) (BitVec.ofNat 64 b.mask)) (off + 16) (BitVec.ofNat 64 b.arr)
  | .sb k => match findWg s tag with
    | some w => updSkein s w.skein fun sk =>
        { sk with bars := tset {} sk.bars k ⟨cBits b.word, BitVec.ofNat 128 b.mask, BitVec.ofNat 128 b.arr⟩ }
    | none => s

/-- The participant number of a gang at a barrier of gangs or a skein barrier (R262, R270). -/
def gangPart (w : Wg) (gang : Nat) : CRef → Nat
  | .scr _ => gang
  | .sb _ => 16 * w.wgid + gang
/-- A counter is reached (R266). -/
def reached (c : CWord) : Bool := c.target ≤ c.count || c.err
/-- ACWAIT by a group standing for the quads given would not block (R152, R267). -/
def waitDone (s : State) (w : Wg) (gang : Nat) (stand : BitVec 8) (r : CRef) : Bool :=
  let b := readBar s w r
  let kind := match r with
    | .sb _ => 1
    | .scr _ => b.word.kind
  if kind = 0 then reached b.word
  else if kind = 1 then !b.arr.testBit (gangPart w gang r)
  else if kind = 2 then (bitsOf stand).all fun q => 8 ≤ gang || !b.arr.testBit (8 * gang + q)
  else false

/-- A blocked counter wait: what it waits on, its status register, its quads. -/
def counterWait (l : Lane) : Option (W64 × Option Nat × BitVec 8 × BitVec 8) :=
  match l.st with
  | .blocked (.counter c d stand dst) => some (c, d, stand, dst)
  | _ => none
/-- An ACWAIT on a counter is over: what transfers landed for it is the kernel's own to write from now on (R371). -/
def clearLanded (s : State) (tag : Nat) (r : CRef) : State := match r with
  | .scr off => { s with grants := s.grants.map fun g => { g with landed := g.landed.filter fun x => !(x.1 == tag && x.2.1 == off) } }
  | .sb _ => s
/-- If the wait of one lane is over, its whole group is released; ACWAIT receives the word as it stands (R267). -/
def wakeCounterAt (tag gang : Nat) (s : State) (n : Nat) : State :=
  match findWg s tag with
  | none => s
  | some w =>
    let g := gangOf w gang
    let l := laneOf g n
    match counterWait l with
    | none => s
    | some (c, d, stand, dst) =>
      match cRef c with
      | none => s
      | some r =>
        if waitDone s w gang stand r then
          let m := maskOf fun k => (laneOf g k).st == l.st && (laneOf g k).pc == l.pc
          let s := match d with
            | some d => updGang (clearLanded s tag r) tag gang (mapQuads dst fun q => sput q d (cBits (readBar s w r).word))
            | none => s
          releaseLanes s tag gang m
        else s
/-- Lanes waiting on counters of a workgroup re-evaluate their conditions (R265). -/
def wakeCounters (s : State) (tag : Nat) : State :=
  (List.range 16).foldl (fun s g => (List.range 32).foldl (wakeCounterAt tag g) s) s
/-- The same for every workgroup of a skein. -/
def wakeSkein (s : State) (k : Nat) : State :=
  match findSkein s k with
  | some sk => sk.wgs.foldl wakeCounters s
  | none => s
/-- Lanes that a counter or barrier may have released re-evaluate. -/
def wakeBar (s : State) (tag : Nat) : CRef → State
  | .scr _ => wakeCounters s tag
  | .sb _ => match findWg s tag with
    | some w => wakeSkein s w.skein
    | none => s

/-- A barrier whose COUNT has reached TARGET completes its phase (R269). -/
def completeBar (b : Bar) : Bar :=
  if b.word.target ≤ b.word.count then ⟨{ b.word with phase := !b.word.phase, count := 0 }, b.mask, 0⟩ else b
/-- A participant arrives (R268, R269). -/
def arrive (b : Bar) (p : Nat) : Bar :=
  completeBar ⟨{ b.word with count := b.word.count + 1 }, b.mask, b.arr ||| 2 ^ p⟩
/-- A participant leaves a barrier for good (R269). -/
def leave (b : Bar) (p : Nat) : Bar :=
  if b.mask.testBit p then completeBar ⟨{ b.word with target := b.word.target - 1 }, b.mask ^^^ 2 ^ p, b.arr⟩ else b

/-- An addition to COUNT (R262, R266). -/
def addCount (c : CWord) (n : Nat) : CWord :=
  let sum := c.count + n
  { c with count := min sum (2 ^ 30 - 1), past := c.past || c.target < sum }
/-- An engine, transfer or ring load credits a counter of its workgroup, and its waiters re-evaluate (R95, R266). -/
def credit (s : State) (tag : Nat) (off : Nat) (n : Nat) : State :=
  match findWg s tag with
  | some w => wakeCounters (putWg s (putScr w off (cBits (addCount (cWord (scrWord w off)) n)))) tag
  | none => s
/-- The same with ERR set (R262). -/
def creditErr (s : State) (tag : Nat) (off : Nat) : State :=
  match findWg s tag with
  | some w => wakeCounters (putWg s (putScr w off (cBits { cWord (scrWord w off) with err := true }))) tag
  | none => s

/-! Queues (R271, R273). -/

/-- A queue's header (R271). -/
structure QHdr where
  allow : Nat
  count : Nat
  cap : Nat
  tail : Nat
  head : Nat
  deriving DecidableEq, Repr

/-- A header's fields. -/
def qHdr (x : W64) : QHdr := ⟨fld x 35 9, fld x 26 9, fld x 17 9, fld x 8 8, fld x 0 8⟩
/-- A header from its fields. -/
def qBits (q : QHdr) : W64 :=
  BitVec.ofNat 64 (q.allow % 512 * 2 ^ 35 + q.count % 512 * 2 ^ 26 + q.cap % 512 * 2 ^ 17 + q.tail % 256 * 2 ^ 8 + q.head % 256)
/-- A header that keeps the rules of R271. -/
def qOk (x : W64) : Bool :=
  let q := qHdr x
  fld x 44 20 == 0 && !x.getLsbD 16 && q.count + q.allow ≤ q.cap && q.head < q.cap && q.tail < q.cap
/-- The offset a queue is mapped to. -/
def qOffset (w : Wg) (q : Nat) : Option Nat := tget none w.queues q

/-- An entry pushed (R273). -/
def qPush (w : Wg) (off : Nat) (x : W64) : Wg :=
  let q := qHdr (scrWord w off)
  putScr (putScr w (off + 8 + 8 * q.tail) x) off
    (qBits { q with tail := (q.tail + 1) % q.cap, count := q.count + 1, allow := q.allow - 1 })
/-- An entry popped (R273). -/
def qPop (w : Wg) (off : Nat) : W64 × Wg :=
  let q := qHdr (scrWord w off)
  (scrWord w (off + 8 + 8 * q.head),
    putScr w off (qBits { q with head := (q.head + 1) % q.cap, count := q.count - 1, allow := q.allow + 1 }))

/-! Batches (R298 to R301). -/

/-- A batched command (R284). -/
def isBatched : MKind → Bool
  | .mma _ _ _ _ _ => true
  | .mld _ _ _ _ _ _ _ => true
  | .mzero _ _ => true
  | _ => false
/-- Batched commands of a gang in flight. -/
def inFlight (w : Wg) (gang : Nat) : List MCmd := w.mq.filter fun c => c.gang == gang && isBatched c.kind
/-- The latest closure of a batch number. -/
def batchOf (g : Gang) (b : Nat) : Batch := tget {} g.batches b
/-- A batch is complete: with it every command of the gang closed no later (R299). -/
def batchDone (w : Wg) (gang b : Nat) : Bool := !(inFlight w gang).any fun c => c.id < (batchOf (gangOf w gang) b).upto

end Sys2Proof.Machine
end

