-- ==== Sys2Proof/Machine/Want.lean ====
section
/-! DEFINITION. What a word that cannot issue yet waits for: room in the store buffer, the unacknowledged counter, an engine, a hank or the
matrix unit, or the accesses that it must follow (R72, R108, R114, R254, R255, R285, R333, R373, R409). -/

namespace Sys2Proof.Machine

/-- Hank n of a gang: h0 to h15, then w0 to w7 of its workgroup (R67). -/
def getHank (w : Wg) (gang n : Nat) : Hank := if n < 16 then hankOf (gangOf w gang) n else tget {} w.w (n - 16)
/-- Entries of the gang's store buffer (R114). -/
def bufferUse (g : Gang) : Nat := ((g.pend.filter fun a => isEntry a.kind).map fun a => a.grp).dedup.length
/-- The gang's store-buffer entries that lie in one of the ranges. -/
def entriesIn (g : Gang) (xs : List (Nat × Nat)) : Bool :=
  g.pend.any fun a => isEntry a.kind && xs.any fun x => rangesMeet a.pa a.bytes x.1 x.2
/-- Room for so many entries (R114). -/
def hasEntries (g : Gang) (n : Nat) : Bool := bufferUse g + n ≤ 64
/-- Room for so many more in the unacknowledged counter (R114). -/
def hasAcks (g : Gang) (n : Nat) : Bool := g.unacked + n ≤ 1023
/-- Room for one more command of the gang in the matrix unit (R285). -/
def hasMatrix (w : Wg) (gang : Nat) : Bool := (inFlight w gang).length < 64
/-- Fences that wait for nothing more leave the list. -/
def pruneFences (g : Gang) : Gang :=
  { g with pend := g.pend.filter fun f => f.kind != .fence || g.pend.any fun r =>
      r.seq < f.seq && sharesLane r f && (isAccess r.kind || r.kind == .clean) }
/-- A FENCE.seq at package or pod scope still orders accesses before a control-space access of its lanes (R409). -/
def ctlFenced (g : Gang) (m : LaneMask) : Bool :=
  (pruneFences g).pend.any fun f => f.kind == .fence && f.sc && 6 ≤ f.scope.toNat && (f.lanes &&& m) != 0#32
/-- The cluster of a core in the module, 0 to 95; 96 stands for a bolt, which keeps the commands of a saved workgroup (R346). -/
def clusterNo (core : Nat) : Nat := core / 8
def boltCluster : Nat := 96
/-- The cluster a command is queued at, or is to be reissued to as soon as its queue has room (R346). -/
def engAt (s : State) (c : EngCmd) : Nat :=
  if c.cluster ≠ boltCluster then c.cluster
  else match (findWg s c.wg).bind coreOf with
    | some core => clusterNo core
    | none => boltCluster
/-- Commands in a cluster's queue, with those that restored workgroups have still to bring to it. -/
def queueLen (s : State) (cluster : Nat) : Nat := (s.eng.filter fun c => engAt s c == cluster).length
/-- Commands in a cluster's queue. -/
def queued (s : State) (cluster : Nat) : Nat := (s.eng.filter fun c => c.cluster == cluster).length
/-- Commands of restored workgroups join the queue of their cluster, in their saved order, behind its own and while it has room (R346). -/
def reissue (s : State) : State :=
  (s.eng.filter fun c => c.cluster == boltCluster).foldl (fun s (c : EngCmd) =>
    let k := engAt s c
    if k = boltCluster ∨ 64 ≤ queued s k then s
    else { s with eng := (s.eng.filter fun x => x.id != c.id) ++ [{ c with cluster := k }] }) s
/-- The collective engine is full: sixteen commands (R380). -/
def collFull (s : State) : Bool := 16 ≤ (s.colls.filter fun c => c.code == 1).length
/-- ENG of the hanks that a word names, and the unit that takes its command, have room (R72, R333, R380). -/
def hasEngine (s : State) (w : Wg) (core gang : Nat) (hanks : List Nat) (u : EngUnit) : Bool :=
  (match u with
    | .copy => queueLen s (clusterNo core) < 64
    | .coll => !collFull s
    | .any => true) && hanks.all fun n => (getHank w gang n).eng != 63#6

/-- An access at the core of some gang of the workgroup is pending in one of the ranges. -/
def coreAccess (w : Wg) (xs : List (Nat × Nat)) : Bool :=
  w.gangs.any fun g => g.pend.any fun a => isAccess a.kind && a.place == .core && xs.any fun x => rangesMeet a.pa a.bytes x.1 x.2

/-- What a word of a gang waits for has come. -/
def wantMet (s : State) (w : Wg) (core gang : Nat) : Want → Bool
  | .order m write rel scope => !opMust s core (gangOf w gang) m write rel scope
  | .entries n => hasEntries (gangOf w gang) n
  | .acks n => hasAcks (gangOf w gang) n
  | .clear xs => !entriesIn (gangOf w gang) xs
  | .engine hanks u => hasEngine s w core gang hanks u
  | .matrix => hasMatrix w gang
  | .fence m => !ctlFenced (gangOf w gang) m
  | .given => !givePending s w.tag gang
  | .drained xs => !coreAccess w xs

end Sys2Proof.Machine
end

