-- ==== Sys2Proof/Machine/Ready.lean ====
section
/-! DEFINITION. Which lanes are runnable: headers, wait slots, and the groups that stand at one place (R38, R39, R149 to R153, R162). -/

namespace Sys2Proof.Machine

/-! Headers (R149 to R152). -/

def hdrClass (x : W64) : BitVec 3 := x.extractLsb' 56 3
def hdrCount (x : W64) : Nat := fld x 52 4
/-- The clause issues only ganged: U, or class MATRIX (R63). -/
def hdrWhole (x : W64) : Bool := x.getLsbD 50 || hdrClass x == 2#3
/-- The four wait slots: KIND and OPER. -/
def hdrSlots (x : W64) : List (Nat × Nat) := (List.range 4).map fun i => (fld x (12 * i + 10) 2, fld x (12 * i) 10)
/-- A slot's fixed fields are well formed (R150, R151). -/
def slotFieldsOk (kind oper : Nat) : Bool :=
  match kind with
  | 0 => oper == 0
  | 1 => match oper / 256 with
    | 0 => true
    | 1 => oper % 256 < 64
    | 2 => oper % 256 < 16
    | _ => false
  | 2 => oper < 16
  | _ => oper < 512 || oper % 512 < 16
/-- A counter slot whose word lies beyond the scratchpad allocation (R151). -/
def slotBeyond (w : Wg) (kind oper : Nat) : Bool := kind == 3 && oper < 512 && w.scratchSize < 8 * oper + 8
/-- A queue slot naming a queue not defined (R151). -/
def slotNoQueue (w : Wg) (kind oper : Nat) : Bool := kind == 3 && 512 ≤ oper && (qOffset w (oper % 16)).isNone
/-- The quota in force for a clause that starts now (R61). -/
def clauseQuota (s : State) (g : Gang) : Nat := if g.gained.1 = s.cycle then g.quota - g.gained.2 else g.quota
/-- The traps of a header, in the order of R151, other than quota; a queue slot's misuse comes before quota (log entry 131). -/
def headerTrap (w : Wg) (x : W64) : Option Trap :=
  let slots := hdrSlots x
  if 5 ≤ (hdrClass x).toNat || (hdrClass x == 2#3 && !x.getLsbD 50) then some .headerClass
  else if fld x 48 2 != 0 || slots.any (fun k => !slotFieldsOk k.1 k.2 || slotBeyond w k.1 k.2) then some .reservedField
  else if slots.any fun k => slotNoQueue w k.1 k.2 then some .queueMisuse
  else none
/-- The header names a vector register beyond the quota as the clause starts (R61, R151). -/
def headerQuota (s : State) (g : Gang) (x : W64) : Bool :=
  (hdrSlots x).any fun k => k.1 == 1 && k.2 < 256 && 16 * clauseQuota s g ≤ k.2
/-- A wait slot holds for the lanes of a group; at a barrier of quads it stands for the quads that hold them (R152, R267). -/
def slotHolds (s : State) (w : Wg) (gang : Nat) (m : LaneMask) (kind oper : Nat) : Bool :=
  let g := gangOf w gang
  match kind with
  | 0 => true
  | 1 => match oper / 256 with
    | 0 => (bitsOf m).all fun n => !vempty (laneOf g n) (oper % 256)
    | 1 => (bitsOf (quadsOf m)).all fun q => !sempty (quadOf g q) (oper % 256)
    | _ => (bitsOf m).all fun n => !pempty (laneOf g n) (oper % 256)
  | 2 => batchDone w gang oper
  | _ =>
    if oper < 512 then waitDone s w gang (quadsOf m) (.scr (8 * oper))
    else match qOffset w (oper % 16) with
      | some off => (qHdr (scrWord w off)).count != 0
      | none => false
/-- All four slots hold at once. -/
def slotsHold (s : State) (w : Wg) (gang : Nat) (m : LaneMask) (x : W64) : Bool :=
  (hdrSlots x).all fun k => slotHolds s w gang m k.1 k.2

/-! Groups (R38, R39). -/

/-- A lane that may be runnable: ready, held at a word for a register, or at one whose need has been met. -/
def isCand (s : State) (w : Wg) (core gang : Nat) (l : Lane) : Bool := match l.st with
  | .ready => true
  | .waiting .word => true
  | .waiting (.room n) => wantMet s w core gang n
  | _ => false
/-- Where a lane stands: its PC and clause base (R46). -/
def keyOf (l : Lane) : W64 × Option W64 := (l.pc, l.cbase)
/-- A place in a workgroup seen as an issue would see it. -/
def hereAs (w : Wg) (core gang : Nat) (quad : Option Nat) (m : LaneMask) (pc : W64) (base : W64) : Here :=
  let i : Issue := { wg := w.tag, gang := gang, quad := quad, lanes := m, base := base, at_ := pc, last := pc, started := true }
  ⟨i, w, core, gangOf w gang, leadOf i⟩
/-- A word would be held by an empty register: its guard's, or, when no lane of it takes the privilege or quota trap first, one of its operands
(R159, R162, R164, R219). -/
def regsHold (i : Instr) (gd : Guard) (h : Here) : Bool :=
  if gd.pred = 0#4 ∧ gd.pn = true then false
  else guardEmpty h gd || (
    let tru := trueMask h gd
    let early := earlyMask i h tru
    early == 0#32 && (holdsWord h gd (operandsOf i)
      || xBreaks i gd h (tru &&& ~~~emptyMask h gd (operandsOf i) (checked i h tru))))
/-- The word at a PC inside a clause would be held by an empty register (R162). -/
def wordHeld (s : State) (h : Here) : Bool :=
  match fetch s h.w h.iss.at_ with
  | none => false
  | some x => match decode x with
    | .error _ => false
    | .ok i => regsHold i (guardOf x) h
/-- A group of lanes that stand at one place is runnable: its clause's slots hold, or its word's registers are full, or it will trap
(R38, R151 to R153, R162). -/
def groupReady (s : State) (w : Wg) (core gang : Nat) (quad : Option Nat) (m : LaneMask) : Bool :=
  let g := gangOf w gang
  let l := laneOf g (lowest m)
  if (bitsOf m).any fun n => (laneOf g n).poison.isSome then true
  else match l.cbase with
    | some b => !wordHeld s (hereAs w core gang quad m l.pc b)
    | none => match fetch s w l.pc with
      | none => true
      | some x =>
        if !isHeader x || (headerTrap w x).isSome then true
        else slotsHold s w gang m x

/-- The lanes of a quad that stand with a lane and may run (R39). -/
def groupOf (s : State) (w : Wg) (core gang q n : Nat) : LaneMask :=
  let g := gangOf w gang
  maskOf fun k => k / 4 == q && isCand s w core gang (laneOf g k) && keyOf (laneOf g k) == keyOf (laneOf g n)
/-- A lane is runnable, but for the lanes given, which are in an issue: it stands ready, or what held it has come, and the group it stands with may
issue (R38, R39). -/
def mayRun (s : State) (w : Wg) (core gang : Nat) (busy : LaneMask) (n : Nat) : Bool :=
  let m := groupOf s w core gang (n / 4) n &&& ~~~busy
  isCand s w core gang (laneOf (gangOf w gang) n) && m.getLsbD n && groupReady s w core gang (some (n / 4)) m
/-- A lane outside an issue is runnable (R38). -/
def runnable (s : State) (h : Here) (n : Nat) : Bool := mayRun s h.w h.core h.iss.gang h.iss.lanes n

end Sys2Proof.Machine
end

