-- ==== Sys2Proof/Machine/Sync.lean ====
section
/-! DEFINITION. Arrival counters, barriers, queues, register quota and the exit of gangs (R59 to R61, R203, R204, R257, R262 to R276), with
the meanings of their words. -/

namespace Sys2Proof.Machine

/-- The gang operations act when the guard is true in an active lane that is not a helper (R257). -/
def gangActs (h : Here) (tru : LaneMask) : Bool := (tru &&& ~~~helperMask h) != 0#32
/-- Lanes of the issue become blocked at the word, and leave the issue. -/
def blockLanes (h : Here) (m : LaneMask) (b : Block) (s : State) : State := updLanes h m (fun _ l => { l with st := .blocked b }) s

/-- The trap of a counter operand for a structure of `size` bytes: alignment, then scratch range (R263). -/
def counterTrap (w : Wg) (off size : Nat) : Option (Trap × Nat) :=
  if off % 8 ≠ 0 then some (.alignment, off) else if w.scratchSize < off + size then some (.scratchRange, off) else none

/-- A counter operand resolved, with the checks of R263 that its KIND decides; the KINDs accepted are given. -/
def resolveBar (s : State) (w : Wg) (word c : W64) (accept : List Nat) : Except (Trap × W64) (CRef × Bar) :=
  match cRef c with
  | none => .error (.queueMisuse, word)
  | some (.sb k) => if accept.contains 1 then .ok (.sb k, readBar s w (.sb k)) else .error (.queueMisuse, word)
  | some (.scr off) =>
    match counterTrap w off 8 with
    | some (t, x) => .error (t, BitVec.ofNat 64 x)
    | none =>
      let b := readBar s w (.scr off)
      if !accept.contains b.word.kind then .error (.queueMisuse, word)
      else if b.word.kind = 0 then .ok (.scr off, b)
      else match counterTrap w off 24 with
        | some (t, x) => .error (t, BitVec.ofNat 64 x)
        | none => .ok (.scr off, b)

/-- A counter word that an instruction has named: from then on the exits of gangs and quads follow its bits, whoever wrote them (R248, R269). -/
def noteBar (tag : Nat) (r : CRef) (s : State) : State :=
  match r with
  | .scr off => updWg s tag fun w => { w with bars := off :: w.bars.filter fun o => o != off }
  | .sb _ => s

/-- A gang of a workgroup has exited (R204). -/
def gangExited (w : Wg) (g : Nat) : Bool := (List.range 32).all fun n => !isPresent w g n || isGone (laneOf (gangOf w g) n).st
/-- Every present lane of a quad has exited (R269). -/
def quadExited (w : Wg) (g q : Nat) : Bool :=
  (List.range 4).all fun n => !isPresent w g (4 * q + n) || isGone (laneOf (gangOf w g) (4 * q + n)).st
/-- A workgroup takes part in its skein's barriers under its WGID; a child has none (R270, R357; log entry 104). -/
def inSkein (w : Wg) : Bool := match w.kind with
  | .child _ _ => false
  | _ => true
/-- A gang may arrive at what a counter operand names. -/
def inPart (w : Wg) : CRef → Bool
  | .scr _ => true
  | .sb _ => inSkein w
/-- A participant of a barrier has exited. -/
def partExited (s : State) (w : Wg) (kind : Nat) (r : CRef) (p : Nat) : Bool :=
  match r with
  | .scr _ => if kind = 1 then gangExited w p else quadExited w (p / 8) (p % 8)
  | .sb _ => match findSkein s w.skein with
    | some sk => match s.wgs.find? fun x => sk.wgs.contains x.tag && inSkein x && x.wgid == p / 16 with
      | some x => gangExited x (p % 16)
      | none => true
    | none => true
/-- A mask names only participants that exist (R265, R270). -/
def maskOk (s : State) (w : Wg) (kind : Nat) (r : CRef) (mask : Nat) : Bool :=
  match r with
  | .scr _ => if kind = 1 then mask < 2 ^ w.ngangs else mask < 2 ^ (8 * min w.ngangs 8)
  | .sb _ => match findSkein s w.skein with
    | some sk => (List.range 128).all fun p => !mask.testBit p || (p / 16 < sk.size && p % 16 < sk.ngangs)
    | none => mask == 0
/-- The participants of a mask that have not exited. -/
def liveMask (s : State) (w : Wg) (kind : Nat) (r : CRef) (mask : Nat) : Nat :=
  (List.range 128).foldl (fun m p => if mask.testBit p && !partExited s w kind r p then m + 2 ^ p else m) 0

/-- A trap of the whole word on the lanes for which it acts. -/
def trapFx (s : State) (t : Trap) (m : LaneMask) (info : W64) : Fx := { s := s, traps := [trapAll t m info] }

/-- ACSET (R265, R270). -/
def acsetBody (word : W64) (f : FmtT) (h : Here) (tru : LaneMask) (s : State) : Fx :=
  if !gangActs h tru then { s := s }
  else if opWaits h tru true false 3#3 s then wantFx (.order tru true false 3#3) s
  else
    let c := srcS h f.a.toNat
    let kind := modBits f.mod 0 2
    let x := srcS h f.b.toNat
    match cRef c with
    | none => trapFx s .queueMisuse tru word
    | some r =>
      let skein := match r with
        | .sb _ => true
        | .scr _ => false
      if skein != (kind == 3) then trapFx s .queueMisuse tru word
      else
        let bad := match r with
          | .scr off => counterTrap h.w off (if kind = 0 then 8 else 24)
          | .sb _ => none
        match bad with
        | some (t, i) => trapFx s t tru (BitVec.ofNat 64 i)
        | none =>
          let old := readBar s h.w r
          let held := (skein || old.word.kind == 1 || old.word.kind == 2) && old.arr != 0
          let bk := if kind = 3 then 1 else kind
          let mask := if kind = 3 then x.toNat + 2 ^ 64 * (srcS h f.c.toNat).toNat else x.toNat
          if held || (!skein && old.word.kind == 3) then trapFx s .queueMisuse tru word
          else if kind = 0 then
            if x.toNat < 2 ^ 29 then
              let s := writeBar s h.iss.wg r ⟨⟨false, false, !old.word.phase, 0, x.toNat, 0⟩, 0, 0⟩
              { s := wakeBar (noteBar h.iss.wg r s) h.iss.wg r }
            else trapFx s .queueMisuse tru word
          else if !maskOk s h.w bk r mask then trapFx s .queueMisuse tru word
          else
            let live := liveMask s h.w bk r mask
            let s := writeBar s h.iss.wg r ⟨⟨false, false, !old.word.phase, bk, popN 128 live, 0⟩, live, 0⟩
            { s := wakeBar (noteBar h.iss.wg r s) h.iss.wg r }

/-- ACADD (R266). -/
def acaddBody (word : W64) (f : FmtT) (h : Here) (tru : LaneMask) (s : State) : Fx :=
  if !gangActs h tru then { s := s }
  else if opWaits h (mains h tru) true true 3#3 s then wantFx (.order (mains h tru) true true 3#3) s
  else match resolveBar s h.w word (srcS h f.a.toNat) [0] with
    | .error (t, i) => trapFx s t (mains h tru) i
    | .ok (r, b) =>
      let n := fld (srcS h f.b.toNat) 0 30
      { s := wakeBar (noteBar h.iss.wg r (writeBar s h.iss.wg r { b with word := addCount b.word n })) h.iss.wg r }

/-- ACWAIT (R267). -/
def acwaitBody (word : W64) (f : FmtT) (h : Here) (tru : LaneMask) (s : State) : Fx :=
  if !gangActs h tru then { s := s }
  else if opWaits h tru false false 3#3 s then wantFx (.order tru false false 3#3) s
  else match resolveBar s h.w word (srcS h f.a.toNat) [0, 1, 2] with
    | .error (t, i) => trapFx s t tru i
    | .ok (r, b) =>
      let stand := quadsOf h.iss.lanes
      let s := noteBar h.iss.wg r s
      if waitDone s h.w h.iss.gang stand r then { s := onGang h (putS h f.d.toNat (cBits b.word)) (clearLanded s h.iss.wg r) }
      else { s := blockLanes h h.iss.lanes (.counter (srcS h f.a.toNat) (some f.d.toNat) stand (dstQuads h)) s, gone := h.iss.lanes }

/-- The lanes of a quad that an issue holds. -/
def quadLanes (h : Here) (q : Nat) : LaneMask := h.iss.lanes &&& (0xF#32 <<< (4 * q))
/-- The issue leaves out a runnable lane of a quad (R268). -/
def leavesOut (s : State) (h : Here) (q : Nat) : Bool :=
  (List.range 4).any fun n => !h.iss.lanes.getLsbD (4 * q + n) && runnable s h (4 * q + n)
/-- The trap of an arrival by the quad of an issue at a barrier of quads (R268). -/
def quadRefused (s : State) (h : Here) (b : Bar) (q : Nat) : Option Trap :=
  let p := 8 * h.iss.gang + q
  if leavesOut s h q then some .illegalConvergence
  else if h.iss.gang < 8 && b.mask.testBit p && !b.arr.testBit p then none
  else some .barrierOverrun
/-- An arrival at a barrier by the issue, participant by participant in ascending order: the barrier after it, and the lanes that take each
trap, those of a quad that fails a check alone (R268). A quad of which the issue holds only helper or guard-false lanes arrives too (log entry 134). -/
def arriveAll (s : State) (h : Here) (r : CRef) (b : Bar) : Bar × List (Trap × LaneMask) :=
  if b.word.kind = 2 then
    (bitsOf (quadsOf h.iss.lanes)).foldl (fun (x : Bar × List (Trap × LaneMask)) q =>
      match quadRefused s h x.1 q with
      | some t => (x.1, x.2 ++ [(t, quadLanes h q)])
      | none => (arrive x.1 (8 * h.iss.gang + q), x.2)) (b, [])
  else if !isGanged h then (b, [(.illegalConvergence, h.iss.lanes)])
  else
    let p := gangPart h.w h.iss.gang r
    if inPart h.w r && b.mask.testBit p && !b.arr.testBit p then (arrive b p, []) else (b, [(.barrierOverrun, h.iss.lanes)])
/-- INFO of a trap of a barrier (R405): the counter operand for an overrun, else the word. -/
def barInfo (word c : W64) (t : Trap) : W64 := if t = .barrierOverrun then c else word

/-- The lanes of a barrier wait block, each for its own participant, unless its ARR bit is already clear (R268). -/
def barWait (h : Here) (c : W64) (r : CRef) (m : LaneMask) (s : State) : Fx :=
  let w := (findWg s h.iss.wg).getD h.w
  let waits := maskOf fun n => m.getLsbD n && !waitDone s w h.iss.gang (1#8 <<< (n / 4)) r
  let s := updLanes h waits (fun n l => { l with st := .blocked (.counter c none (1#8 <<< (n / 4)) 0#8) }) s
  { s := s, gone := waits }

/-- BARA and BARW (R268, R269). -/
def barBody (word : W64) (a : BitVec 8) (arrives waits : Bool) (h : Here) (tru : LaneMask) (s : State) : Fx :=
  let c := srcS h a.toNat
  if !gangActs h tru then { s := s }
  else if opWaits h (if arrives then mains h tru else tru) arrives arrives (if c.getLsbD 63 then 4#3 else 3#3) s then
    wantFx (.order (if arrives then mains h tru else tru) arrives arrives (if c.getLsbD 63 then 4#3 else 3#3)) s
  else match resolveBar s h.w word c [1, 2] with
    | .error (t, i) => trapFx s t (if arrives then mains h tru else tru) i
    | .ok (r, b) =>
      let s := noteBar h.iss.wg r s
      if !arrives then barWait h c r h.iss.lanes s
      else
        let res := arriveAll s h r b
        let s := wakeBar (writeBar s h.iss.wg r res.1) h.iss.wg r
        let bad := res.2.map fun x => trapAll x.1 (x.2 &&& mains h tru) (barInfo word c x.1)
        if waits then { barWait h c r (h.iss.lanes &&& ~~~trapsMask bad) s with traps := bad } else { s := s, traps := bad }

/-! Queues (R271 to R274). -/

/-- A blocked push or pop that the queue's header now lets go on. -/
def qServable (w : Wg) (x : QWait) : Bool :=
  match qOffset w x.q with
  | some off =>
    let hd := scrWord w off
    qOk hd && (match x.push with
      | some _ => (qHdr hd).allow != 0
      | none => (qHdr hd).count != 0)
  | none => false
/-- The first blocked push or pop that can go on is served, and so on, in the order of blocking (R273). -/
def serveQueues : Nat → State → Nat → State
  | 0, s, _ => s
  | n + 1, s, tag =>
    match findWg s tag with
    | none => s
    | some w =>
      match w.qwait.find? (qServable w) with
      | none => s
      | some x =>
        let off := (qOffset w x.q).getD 0
        let w := { w with qwait := w.qwait.erase x }
        let s := match x.push with
          | some v => putWg s (qPush w off v)
          | none =>
            let r := qPop w off
            updGang (putWg s r.2) tag x.gang (mapQuads x.quads fun q => sput q x.d r.1)
        serveQueues n (releaseLanes s tag x.gang x.lanes) tag

/-- QDEF (R272): alignment and range, of the CAP as given, come before queue misuse (log entry 131). -/
def qdefBody (word : W64) (f : FmtT) (h : Here) (tru : LaneMask) (s : State) : Fx :=
  if !gangActs h tru then { s := s }
  else if opWaits h tru true false 3#3 s then wantFx (.order tru true false 3#3) s
  else
    let off := (srcS h f.a.toNat).toNat
    let x := srcS h f.b.toNat
    let cap := fld x 0 9
    let allow := fld x 16 9
    match counterTrap h.w off (8 + 8 * cap) with
    | some (t, i) => trapFx s t tru (BitVec.ofNat 64 i)
    | none =>
      if cap = 0 ∨ 256 < cap ∨ allow = 0 ∨ cap < allow ∨ x &&& 0xFFFFFFFFFE00FE00#64 ≠ 0#64 ∨ h.w.qwait.any (fun q => q.q == f.d.toNat) then
        trapFx s .queueMisuse tru word
      else
        { s := updWg s h.iss.wg fun w =>
            putScr { w with queues := tset none w.queues f.d.toNat (some off) } off (qBits ⟨allow, 0, cap, 0, 0⟩) }

/-- QPUSH (R273). -/
def qpushBody (word : W64) (f : FmtT) (h : Here) (tru : LaneMask) (s : State) : Fx :=
  if !gangActs h tru then { s := s }
  else match qOffset h.w f.a.toNat with
    | none => trapFx s .queueMisuse (mains h tru) word
    | some off =>
      if opWaits h (mains h tru) true true 3#3 s then wantFx (.order (mains h tru) true true 3#3) s
      else if !qOk (scrWord h.w off) then trapFx s .queueMisuse (mains h tru) word
      else
        let x := srcS h f.b.toNat
        if (qHdr (scrWord h.w off)).allow = 0 then
          let s := updWg s h.iss.wg fun w =>
            { w with qwait := w.qwait ++ [⟨h.iss.gang, 0#8, h.iss.lanes, f.a.toNat, some x, 0⟩] }
          { s := blockLanes h h.iss.lanes (.queue f.a.toNat) s, gone := h.iss.lanes }
        else { s := serveQueues 512 (updWg s h.iss.wg fun w => qPush w off x) h.iss.wg }

/-- QPOP (R273). -/
def qpopBody (word : W64) (f : FmtT) (h : Here) (tru : LaneMask) (s : State) : Fx :=
  if !gangActs h tru then { s := s }
  else match qOffset h.w f.a.toNat with
    | none => trapFx s .queueMisuse (mains h tru) word
    | some off =>
      if opWaits h (mains h tru) false false 3#3 s then wantFx (.order (mains h tru) false false 3#3) s
      else if !qOk (scrWord h.w off) then trapFx s .queueMisuse (mains h tru) word
      else if (qHdr (scrWord h.w off)).count = 0 then
        let s := onGang h (markS h f.d.toNat) s
        let s := updWg s h.iss.wg fun w =>
          { w with qwait := w.qwait ++ [⟨h.iss.gang, dstQuads h, h.iss.lanes, f.a.toNat, none, f.d.toNat⟩] }
        { s := blockLanes h h.iss.lanes (.queue f.a.toNat) s, gone := h.iss.lanes }
      else
        let r := qPop h.w off
        let s := updWg s h.iss.wg fun w => (qPop w off).2
        { s := serveQueues 512 (onGang h (putS h f.d.toNat r.1) s) h.iss.wg }

/-- QSTAT (R274). -/
def qstatBody (f : FmtT) (h : Here) (tru : LaneMask) (s : State) : Fx :=
  if !gangActs h tru then { s := s }
  else if opWaits h tru false false 3#3 s then wantFx (.order tru false false 3#3) s
  else
    let x := match qOffset h.w f.a.toNat with
      | some off => scrWord h.w off
      | none => 0#64
    { s := onGang h (putS h f.d.toNat x) s }

/-! Register quota (R60, R61, R275). -/

/-- A register that an RQSET of a gang would remove is empty in a lane that has not exited (R61). -/
def rqBusy (g : Gang) (units : Nat) : Bool :=
  (List.range 32).any fun n => !isGone (laneOf g n).st &&
    (List.range (16 * units)).any fun i => vempty (laneOf g n) (16 * (g.quota - units) + i)
/-- An RQSET that would leave a gang outside 1 to 16 units (R61). -/
def rqBad (w : Wg) (giver taker units : Nat) : Bool :=
  (gangOf w giver).quota < units + 1 || 16 < (gangOf w taker).quota + units
/-- Registers gained: undefined contents, full (R61). -/
def gainRegs (ctr : Nat) (lo n : Nat) (lane : Nat) (l : Lane) : Lane :=
  (List.range n).foldl (fun l i => vput l (lo + i) (Config.free32 (ctr + 256 * lane + i))) l
/-- Units move from one gang to another (R61): the giver's clauses in progress lose the registers at once. -/
def rqMove (s : State) (tag giver taker units : Nat) : State :=
  match findWg s tag with
  | none => s
  | some w =>
    let a := gangOf w giver
    let qa := a.quota - units
    let a' := mapLanes 0xFFFFFFFF#32 (fun _ l => { l with climit := min l.climit (16 * qa), tlimit := min l.tlimit (16 * qa) }) { a with quota := qa }
    let b := gangOf w taker
    let gain := if b.gained.1 = s.cycle then b.gained.2 + units else units
    let b' := mapLanes 0xFFFFFFFF#32 (gainRegs s.freeCtr (16 * b.quota) (16 * units))
      { b with quota := b.quota + units, gained := (s.cycle, gain) }
    { putWg s (setGang (setGang w giver a') taker b') with freeCtr := s.freeCtr + 8192 }

/-- RQSET (R275): an invalid target traps though the count is 0 (log entry 131). While it waits for registers to fill its lanes are blocked, and so satisfied at every REJOIN (log entry 105). -/
def rqsetBody (word : W64) (f : FmtT) (h : Here) (tru : LaneMask) (s : State) : Fx :=
  if !gangActs h tru then { s := s }
  else if !isGanged h then trapFx s .illegalConvergence tru word
  else
    let target := (srcS h f.a.toNat).toNat
    let units := (srcS h f.b.toNat).toNat
    if target = h.iss.gang ∨ h.w.ngangs ≤ target then trapFx s .quota tru word
    else if units = 0 then { s := s }
    else if rqBad h.w h.iss.gang target units then trapFx s .quota tru word
    else if rqBusy h.g units then
      let s := { s with rqWaits := s.rqWaits ++ [⟨h.iss.wg, h.iss.gang, h.iss.lanes, tru, target, units⟩] }
      { s := blockLanes h h.iss.lanes .rqset s, gone := h.iss.lanes }
    else { s := rqMove s h.iss.wg h.iss.gang target units }

/-- RCFENCE (R276): the records leave once the writes before it in its lanes' program order have performed. -/
def rcfenceBody (h : Here) (tru : LaneMask) (s : State) : Fx :=
  if !gangActs h tru then { s := s }
  else if opWaits h tru false false 0#3 s then wantFx (.order tru false false 0#3) s
  else { s := updWg s h.iss.wg fun w => { w with records := [] } }

/-! The exit of lanes, quads and gangs (R203, R204, R269). -/

/-- A participant leaves one barrier of the workgroup's scratchpad. -/
def leaveScr (s : State) (tag off kind p : Nat) : State :=
  match findWg s tag with
  | none => s
  | some w =>
    let b := readBar s w (.scr off)
    if b.word.kind = kind && b.mask.testBit p then wakeCounters (writeBar s tag (.scr off) (leave b p)) tag else s
/-- A participant leaves every skein barrier. -/
def leaveSb (s : State) (tag p : Nat) : State :=
  (List.range 16).foldl (fun s k =>
    match findWg s tag with
    | none => s
    | some w =>
      let b := readBar s w (.sb k)
      if b.mask.testBit p then wakeBar (writeBar s tag (.sb k) (leave b p)) tag (.sb k) else s) s

/-- The other issues of a gang in flight that hold only lanes of a set, in ascending quad order. -/
def endedBy (tag gang : Nat) (m : LaneMask) (s : State) : List Issue :=
  sortBy (fun a b => a.quad.getD 0 ≤ b.quad.getD 0) (s.issues.tail.filter fun i => i.wg == tag && i.gang == gang && i.lanes &&& ~~~m == 0#32)
/-- The lanes leave every other issue of their gang in flight; one left with none is gone. -/
def dropLanes (tag gang : Nat) (m : LaneMask) (s : State) : State :=
  let rest := s.issues.tail.map fun i => if i.wg == tag && i.gang == gang then { i with lanes := i.lanes &&& ~~~m } else i
  { s with issues := s.issues.take 1 ++ rest.filter fun i => !(i.wg == tag && i.gang == gang && i.lanes == 0#32) }
/-- Issues that have ended: their writes to masks and flags take effect, one after another. -/
def applyEnds (tag gang : Nat) (is : List Issue) (s : State) : State :=
  is.foldl (fun s i => endSubs tag gang i.fops (updGang s tag gang (endWrites i.jops i.fops))) s
/-- The lanes leave every other issue of their gang in flight; one left with none ends, and its writes to masks and flags take effect (R202, R230). -/
def leaveIssues (tag gang : Nat) (m : LaneMask) (s : State) : State := applyEnds tag gang (endedBy tag gang m s) (dropLanes tag gang m s)
/-- Lanes of a gang exit; when every present lane has, the helper lanes exit too, and leave the issues they are in; quads and gangs that have
exited leave the barriers they take part in (R204, R269). -/
def exitLanes (s : State) (tag gang : Nat) (m : LaneMask) : State :=
  match findWg s tag with
  | none => s
  | some w =>
    let w1 := setGang w gang (mapLanes m (fun _ l => { l with st := .exited }) (gangOf w gang))
    let all := gangExited w1 gang
    let helpers := maskOf fun n => all && isHelper w gang n
    let w2 := setGang w1 gang (mapLanes helpers (fun _ l => { l with st := .exited }) (gangOf w1 gang))
    let s := leaveIssues tag gang helpers (putWg s w2)
    let quads := (List.range 8).filter fun q => !quadExited w gang q && quadExited w2 gang q
    let s := w2.bars.foldl (fun s off => quads.foldl (fun s q => leaveScr s tag off 2 (8 * gang + q)) s) s
    if all && !gangExited w gang then
      let s := w2.bars.foldl (fun s off => leaveScr s tag off 1 gang) s
      if inSkein w then leaveSb s tag (16 * w2.wgid + gang) else s
    else s

/-! Meanings. -/

/-- BARA (R268). -/
def execBara (g : Guard) (f : FmtT) (s : State) : Host.Outcome State Fault Refusal :=
  runWord (.bara g f) g (barBody (wordOf (.bara g f)) f.a true false) s
/-- BARW, and BARW.w which waits without arriving (R268). -/
def execBarw (g : Guard) (f : FmtT) (s : State) : Host.Outcome State Fault Refusal :=
  runWord (.barw g f) g (barBody (wordOf (.barw g f)) f.a (!modBit f.mod 0) true) s
/-- ACSET (R265). -/
def execAcset (g : Guard) (f : FmtT) (s : State) : Host.Outcome State Fault Refusal :=
  runWord (.acset g f) g (acsetBody (wordOf (.acset g f)) f) s
/-- ACADD (R266). -/
def execAcadd (g : Guard) (f : FmtT) (s : State) : Host.Outcome State Fault Refusal :=
  runWord (.acadd g f) g (acaddBody (wordOf (.acadd g f)) f) s
/-- ACWAIT (R267). -/
def execAcwait (g : Guard) (f : FmtT) (s : State) : Host.Outcome State Fault Refusal :=
  runWord (.acwait g f) g (acwaitBody (wordOf (.acwait g f)) f) s
/-- QDEF (R272). -/
def execQdef (g : Guard) (f : FmtT) (s : State) : Host.Outcome State Fault Refusal :=
  runWord (.qdef g f) g (qdefBody (wordOf (.qdef g f)) f) s
/-- QPUSH (R273). -/
def execQpush (g : Guard) (f : FmtT) (s : State) : Host.Outcome State Fault Refusal :=
  runWord (.qpush g f) g (qpushBody (wordOf (.qpush g f)) f) s
/-- QPOP (R273). -/
def execQpop (g : Guard) (f : FmtT) (s : State) : Host.Outcome State Fault Refusal :=
  runWord (.qpop g f) g (qpopBody (wordOf (.qpop g f)) f) s
/-- QSTAT (R274). -/
def execQstat (g : Guard) (f : FmtT) (s : State) : Host.Outcome State Fault Refusal :=
  runWord (.qstat g f) g (qstatBody f) s
/-- RQSET (R275). -/
def execRqset (g : Guard) (f : FmtT) (s : State) : Host.Outcome State Fault Refusal :=
  runWord (.rqset g f) g (rqsetBody (wordOf (.rqset g f)) f) s
/-- RCFENCE (R276). -/
def execRcfence (g : Guard) (f : FmtT) (s : State) : Host.Outcome State Fault Refusal :=
  runWord (.rcfence g f) g rcfenceBody s

/-- RQSET_COMPLETE (R61): the registers that the gang's waiting RQSET removes have all filled, and its units move. -/
def execRqsetComplete (wg gang : Nat) (s : State) : Host.Outcome State Fault Refusal :=
  match s.rqWaits.find? fun x => x.wg == wg && x.gang == gang, findWg s wg with
  | some x, some w =>
    if rqBusy (gangOf w gang) x.units then .fault .notEnabled
    else
      let s := { s with rqWaits := s.rqWaits.erase x }
      if rqBad w gang x.target x.units then
        let l := laneOf (gangOf w gang) (lowest x.lanes)
        let info := ((fetch s w l.pc).getD 0#64)
        .next (releaseLanes (takeTrap s wg gang l.pc l.cbase (trapAll .quota x.tru info)) wg gang (x.lanes &&& ~~~x.tru))
      else .next (releaseLanes (rqMove s wg gang x.target x.units) wg gang x.lanes)
  | _, _ => .fault .notEnabled

end Sys2Proof.Machine
end

