-- ==== Sys2Proof/Machine/Pend.lean ====
section
/-! DEFINITION. The pending accesses of a gang: results on their way to registers, accesses not yet performed, and store-buffer entries, in
the order of issue (R106, R109, R114, R161). -/

namespace Sys2Proof.Machine

/-- One group of accesses numbered from a place in the order of issue; the group bears the number of its first element. -/
def numberGroup (seq : Nat) (xs : List Access) : List Access := xs.mapIdx fun i a => { a with seq := seq + i, grp := seq }
/-- Groups of accesses join those of a gang. -/
def pushPend (tag gang : Nat) : List (List Access) → State → State
  | [], s => s
  | xs :: rest, s =>
    pushPend tag gang rest
      { updGang s tag gang (fun g => { g with pend := g.pend ++ numberGroup s.seq xs }) with seq := s.seq + xs.length }
/-- Groups of accesses of the issue join those of its gang. -/
def pushHere (h : Here) (xs : List (List Access)) (s : State) : State := pushPend h.iss.wg h.iss.gang xs s
/-- An access leaves those of a gang. -/
def dropPend (s : State) (tag gang seq : Nat) : State :=
  updGang s tag gang fun g => { g with pend := g.pend.filter fun a => a.seq != seq }
/-- An access of a gang by number. -/
def findPend (g : Gang) (seq : Nat) : Option Access := g.pend.find? fun a => a.seq == seq
/-- An access of a gang changed. -/
def updPend (s : State) (tag gang seq : Nat) (f : Access → Access) : State :=
  updGang s tag gang fun g => { g with pend := updFirst (fun a => a.seq == seq) f g.pend }

end Sys2Proof.Machine
end

