-- ==== Sys2Proof/Machine/Plane.lean ====
section
/-! DEFINITION. The traffic planes to other modules, and the plane of an address (R361, R363). -/

namespace Sys2Proof.Machine

/-- A link of this module: scale-up ports 0 to 35, bridges 36 to 39, links between dies 40 to 47. -/
def linkOf (s : State) (p : Nat) : Link := tget {} s.links p
/-- A link that is UP. -/
def isUp (s : State) (p : Nat) : Bool := (linkOf s p).st == .up
/-- Ports that carry the ring segment only: PORTS of RGCTL (R361). -/
def ringPorts (s : State) : Nat := fld (ctlGet s 0x7F0000200000) 10 5
/-- The live traffic planes in ascending order (R363). -/
def trafficPlanes (s : State) : List Nat := (List.range 36).filter fun p => ringPorts s ≤ p && isUp s p
/-- The plane of an address (R363). -/
def planeHash (pa : Nat) : Nat := bitsN pa 8 8 ^^^ bitsN pa 16 8 ^^^ bitsN pa 24 8 ^^^ bitsN pa 32 8 ^^^ bitsN pa 40 8
/-- The plane of a key among some planes; none for this module's own memory, or with no plane (R363). -/
def planeIn (ps : List Nat) (k : Nat) : Option Nat :=
  if (moduleOf k).isNone || ps.isEmpty then none else some (tget 0 ps (planeHash (paOf k) % ps.length))
/-- The plane that a request for a key takes now. -/
def planeOf (s : State) (k : Nat) : Option Nat := planeIn (trafficPlanes s) k
/-- The UP ports of a module in the live link table; none for a module that is not in the pod. -/
def liveOf (s : State) (m : Nat) : Option (BitVec 40) := (s.live.find? fun x => x.1 == m).map fun x => x.2

end Sys2Proof.Machine
end

