-- ==== Sys2Proof/Machine/Own.lean ====
section
/-! DEFINITION. Hanks, tickets, runs and the ownership tables (R67 to R92, R436): the operations that the borrow instructions, the scheduler,
the host, the ring and the tables' own steps share. -/

namespace Sys2Proof.Machine

/-! Hanks. -/

/-- A hank written. -/
def putHank (w : Wg) (gang n : Nat) (x : Hank) : Wg :=
  if n < 16 then let g := gangOf w gang; setGang w gang { g with h := tset {} g.h n x } else { w with w := tset {} w.w (n - 16) x }
/-- A hank of the state changed. -/
def updHank (s : State) (tag gang n : Nat) (f : Hank → Hank) : State := updWg s tag fun w => putHank w gang n (f (getHank w gang n))
/-- A hank as accesses and HQRY see it: a pending one reads as empty (R260). -/
def seenHank (x : Hank) : Hank := if x.pending then {} else x
/-- FROZEN (R68). -/
def frozen (x : Hank) : Bool := x.rebs != 0#4
/-- The 128 bits of a hank (R68). -/
def hankBits (x : Hank) : Nat :=
  x.base.toNat * 2 ^ 84 + x.len.toNat * 2 ^ 52 + x.kind.toNat * 2 ^ 50 + (frozen x).toNat * 2 ^ 49 + (x.eng != 0#6).toNat * 2 ^ 48
    + x.revoked.toNat * 2 ^ 47 + x.lent.toNat * 2 ^ 46 + x.rebs.toNat * 2 ^ 42 + x.eng.toNat * 2 ^ 36 + x.pgang.toNat * 2 ^ 32
    + x.phank.toNat * 2 ^ 27 + x.ticket.toNat
/-- The range of a hank: first byte and bytes. -/
def hankLo (x : Hank) : Nat := x.base.toNat * 256
def hankBytes (x : Hank) : Nat := (x.len.toNat + 1) * 256
/-- A hank just granted (R259). -/
def freshHank (vbase grains : Nat) (kind : BitVec 2) (ticket : Nat) : Hank :=
  { base := BitVec.ofNat 44 vbase, len := BitVec.ofNat 32 (grains - 1), kind := kind, ticket := BitVec.ofNat 16 ticket }

/-- The rows of R71's table. -/
inductive Use where
  | load | store | atomic | common | engRead | engWrite
  deriving DecidableEq, Repr

/-- A hank permits an access (R71). -/
def permits (x : Hank) (u : Use) : Bool :=
  match u with
  | .load => x.kind == 1#2 || x.kind == 2#2
  | .store => x.kind == 1#2 && !frozen x
  | .atomic => (x.kind == 1#2 && !frozen x) || x.kind == 3#2
  | .common => x.kind == 3#2
  | .engRead => x.kind == 1#2 || x.kind == 2#2
  | .engWrite => x.kind == 1#2 && !frozen x
/-- The first trap of R71 that applies to n bytes at an address through a hank; none when the access is allowed. -/
def hankTrap (x : Hank) (u : Use) (va n : Nat) : Option Trap :=
  let x := seenHank x
  if x.kind = 0#2 then some .hankEmpty
  else if x.revoked then some .hankRevoked
  else if !permits x u then some .hankKind
  else if !rangeIn va n (hankLo x) (hankBytes x) then some .hankRange
  else none

/-! Extents and runs (R76, R93). -/

/-- The bytes from a virtual address to the end of its page, or of the image area. -/
def pageSpan (s : State) (ctx va : Nat) : Nat :=
  if windowBase ≤ va ∧ va < windowBase + windowBytes then
    match imgArea s with
    | some (_, n) => n - (va - windowBase)
    | none => 0
  else
    match s.pages.find? fun p => p.ctx == ctx && p.va ≤ va && va < p.va + pageBytes p.size with
    | some p => p.va + pageBytes p.size - va
    | none => 0
/-- The physical extents that back a virtual range, or the first address that does not translate. -/
def extentsFrom (s : State) (ctx : Nat) : Nat → Nat → Nat → Except Nat (List (Nat × Nat))
  | 0, va, n => if n = 0 then .ok [] else .error va
  | f + 1, va, n =>
    if n = 0 then .ok []
    else match translate s ctx va with
      | none => .error va
      | some k =>
        let m := min (pageSpan s ctx va) n
        match extentsFrom s ctx f (va + m) (n - m) with
        | .ok r => .ok ((k, m) :: r)
        | .error e => .error e
/-- The extents of a range. -/
def extentsOf (s : State) (ctx va n : Nat) : Except Nat (List (Nat × Nat)) := extentsFrom s ctx (n / 65536 + 2) va n
/-- The extents of the parts of a range that translate. -/
def partExtents (s : State) (ctx : Nat) : Nat → Nat → Nat → List (Nat × Nat)
  | 0, _, _ => []
  | f + 1, va, n =>
    if n = 0 then []
    else match translate s ctx va with
      | none => let m := min (65536 - va % 65536) n; partExtents s ctx f (va + m) (n - m)
      | some k => let m := min (pageSpan s ctx va) n; (k, m) :: partExtents s ctx f (va + m) (n - m)
/-- The extents of a range that translates; the parts that do not have none. -/
def extentsD (s : State) (ctx va n : Nat) : List (Nat × Nat) := partExtents s ctx (n / 65536 + 2) va n
/-- The part of extents from one byte of their range on, so many bytes of it. -/
def cutExtents : Nat → Nat → List (Nat × Nat) → List (Nat × Nat)
  | _, _, [] => []
  | skip, n, (k, m) :: r =>
    if n = 0 then []
    else if m ≤ skip then cutExtents (skip - m) n r
    else let t := min (m - skip) n; (k + skip, t) :: cutExtents 0 (n - t) r
/-- The grant a ticket of a context names. -/
def findGrant (s : State) (ctx ticket : Nat) : Option Grant := s.grants.find? fun g => g.ctx == ctx && g.ticket == ticket
/-- An address lies in one of some ranges. -/
def inRanges (xs : List (Nat × Nat)) (x : Nat) : Bool := xs.any fun r => r.1 ≤ x && x < r.1 + r.2
/-- The bytes from an address on, those in some ranges undefined (R3). -/
def undefIn (ctr : Nat) (xs : List (Nat × Nat)) (x : Nat) (bs : List Byte) : List Byte :=
  if xs.isEmpty then bs else bs.mapIdx fun i b => if inRanges xs (x + i) then Config.freeByte ctr (x + i) else b
/-- A write through an X grant is noted, for a transfer may land there; what it writes where one has landed whose counter was not awaited since is
undefined (R371): the state, and the bytes as they are written. -/
def grantWrite (s : State) (ctx ticket x : Nat) (bs : List Byte) : State × List Byte :=
  match findGrant s ctx ticket with
  | none => (s, bs)
  | some g =>
    if g.kind ≠ 1#2 then (s, bs)
    else
      let wrote := if g.wrote.any fun r => rangeIn x bs.length r.1 r.2 then g.wrote else (x, bs.length) :: g.wrote
      ({ s with grants := updFirst (fun y => y == g) (fun y => { y with wrote := wrote }) s.grants, freeCtr := s.freeCtr + 1 },
        undefIn s.freeCtr (g.landed.map fun r => (r.2.2.1, r.2.2.2)) x bs)
/-- The same over extents. -/
def grantWrites (ctx ticket : Nat) : List (Nat × Nat) → List Byte → State → State × List Byte
  | [], _, s => (s, [])
  | (k, n) :: r, bs, s =>
    let a := grantWrite s ctx ticket k (bs.take n)
    let b := grantWrites ctx ticket r (bs.drop n) a.1
    (b.1, a.2 ++ b.2)
/-- The physical extents of a hank: its part of the extents its grant was made for, whatever has become of the pages since (R76, R359). -/
def hankExtents (s : State) (ctx : Nat) (k : Hank) : List (Nat × Nat) :=
  if k.kind = 0#2 then []
  else match findGrant s ctx k.ticket.toNat with
    | some g => cutExtents (hankLo k - g.vbase * 256) (hankBytes k) g.exts
    | none => extentsD s ctx (hankLo k) (hankBytes k)
/-- A hank as a workgroup receives it: revoked when a run of its grant was (R92, R431). -/
def received (s : State) (ctx : Nat) (k : Hank) : Hank := match findGrant s ctx k.ticket.toNat with
  | some g => if k.kind = 0#2 then k else { k with revoked := k.revoked || g.revoked }
  | none => k
/-- Extents in ascending physical address joined into runs: contiguous, with one home (R76, R93). -/
def mergeRuns : List (Nat × Nat) → List Run
  | [] => []
  | (k, n) :: r =>
    match mergeRuns r with
    | x :: t =>
      if homeOf k == x.home && k / 256 + n / 256 == x.pbase then ⟨x.home, k / 256, n / 256 + x.grains⟩ :: t
      else ⟨homeOf k, k / 256, n / 256⟩ :: x :: t
    | [] => [⟨homeOf k, k / 256, n / 256⟩]
/-- The runs of extents. -/
def runsOf (xs : List (Nat × Nat)) : List Run := mergeRuns (sortBy (fun a b => a.1 ≤ b.1) xs)
/-- Runs share a grain. -/
def runsMeet (a b : Run) : Bool := a.home == b.home && rangesMeet a.pbase a.grains b.pbase b.grains

/-! Contexts and tickets (R70, R429). -/

/-- A word of the context table. -/
def ctxWord (s : State) (c n : Nat) : W64 := ctlGet s (0x7F0003000000 + 32 * c + 8 * n)
def ctxValid (s : State) (c : Nat) : Bool := (ctxWord s c 0).getLsbD 63
def ctxTenant (s : State) (c : Nat) : Nat := fld (ctxWord s c 0) 48 6
def ctxSave (s : State) (c : Nat) : Nat := fld (ctxWord s c 1) 21 27 * 2 ^ 21
def ctxSlots (s : State) (c : Nat) : Nat := fld (ctxWord s c 2) 0 32
def ctxTmap (s : State) (c : Nat) : Nat := fld (ctxWord s c 3) 13 35 * 2 ^ 13
/-- What the device keeps of a context. -/
def ctxOf (s : State) (c : Nat) : CtxSt := (s.ctxs.find? fun x => x.num == c).getD { num := c }
/-- The same changed. -/
def updCtx (s : State) (c : Nat) (f : CtxSt → CtxSt) : State :=
  if s.ctxs.any fun x => x.num == c then { s with ctxs := updFirst (fun x => x.num == c) f s.ctxs } else { s with ctxs := f { num := c } :: s.ctxs }

/-- A ticket value is live: its bit in the context's map is set. -/
def ticketLive (s : State) (c v : Nat) : Bool := (homeByte s (ctxTmap s c + v / 8)).getLsbD (v % 8)
/-- The bit of a ticket value written. -/
def setTicket (s : State) (c v : Nat) (b : Bool) : State :=
  let a := ctxTmap s c + v / 8
  homeWrite s a [putBit (homeByte s a) (v % 8) b]
/-- The lowest clear value above the last one, cyclically, passing over 0. -/
def findTicket (s : State) (c : Nat) : Nat → Nat → Option Nat
  | 0, _ => none
  | f + 1, v =>
    let v := if 65535 ≤ v then 1 else v + 1
    if ticketLive s c v then findTicket s c f v else some v
/-- The IOD assigns one ticket value; none when all are live. -/
def drawTicket (s : State) (c : Nat) : Option (Nat × State) :=
  match findTicket s c 65535 (ctxOf s c).lastTicket with
  | some v => some (v, updCtx (setTicket s c v true) c fun x => { x with lastTicket := v })
  | none => none
/-- The ticket of a request: the oldest of the core's supply, or one drawn from the IOD. -/
def takeTicket (s : State) (c : Nat) (core : Option Nat) : Option (Nat × State) :=
  match core with
  | none => drawTicket s c
  | some k =>
    match (ctxOf s c).supplies.find? fun x => x.1 == k with
    | some (_, v :: vs) =>
      some (v, updCtx s c fun x => { x with supplies := updFirst (fun y => y.1 == k) (fun _ => (k, vs)) x.supplies })
    | _ => drawTicket s c
/-- A grant's ticket, or a failed request's, is released. Context 0xFFFF has no map (R324). -/
def freeTicket (s : State) (c v : Nat) : State := if c = 0xFFFF then s else setTicket s c v false

/-! Entries, waiters and boosts (R73, R74, R77 to R79, R85). -/

def tableSize (home : Nat) : Nat := if home % 8 = 4 then 16384 else 65536
def entryRun (e : OwnEntry) : Run := ⟨e.home, e.pbase, e.grains⟩
def waiterRun (x : Waiter) : Run := ⟨x.home, x.pbase, x.grains⟩
/-- An entry stands in the way of a request of a kind (R78). -/
def entryConflicts (e : OwnEntry) (kind : BitVec 2) : Bool := e.xret || e.coll || e.kind == 1#2 || e.kind != kind
/-- A request by number. -/
def findReq (s : State) (id : Nat) : Option Req := s.reqs.find? fun r => r.id == id
/-- The launch of a workgroup of a grid. -/
def launchOf (w : Wg) : Option Nat := match w.kind with
  | .grid l _ => some l
  | _ => none
/-- Who holds a share of an entry: the takers of the grants over its run, and of the requests to which it is granted (R74, R277). -/
def sharers (s : State) (e : OwnEntry) : List Taker :=
  ((s.grants.filter fun g => g.ctx == e.ctx && g.kind == e.kind && g.runs.contains (entryRun e)).map fun g => g.taker)
    ++ (s.reqs.filter fun r => r.ctx == e.ctx && r.kind == e.kind && r.held.contains (entryRun e)).map fun r => r.taker
/-- The launch whose argument an entry was taken for first. -/
def gridOf (s : State) (e : OwnEntry) : Option Nat :=
  match s.grants.find? fun g => g.ctx == e.ctx && g.ticket == e.ticket with
  | some g => match g.taker with
    | .grid l _ => some l
    | _ => none
  | none => none
/-- The launch a taker belongs to. -/
def takerLaunch (s : State) : Taker → Option Nat
  | .grid l _ => some l
  | .gang wg _ _ _ _ _ => (findWg s wg).bind launchOf
  | _ => none
/-- A taker's workgroup tag and gang; 0 for the scheduler, the host and the ring. -/
def takerTag : Taker → Nat × Nat
  | .gang wg g _ _ _ _ => (wg, g)
  | _ => (0, 0)
/-- A taker is a workgroup, or the grid of a launch. -/
def isTaker (wg launch : Option Nat) : Taker → Bool
  | .gang t _ _ _ _ _ => wg == some t
  | .grid l _ => launch == some l
  | _ => false
/-- The workgroup that a taker belongs to. -/
def takerWg : Taker → Option Nat
  | .gang t _ _ _ _ _ => some t
  | _ => none
/-- The entry is the requester's own workgroup's, or its grid's (R77, R83): its tag is in the entry, or it holds a share of it (log 111). -/
def ownEntry (s : State) (r : Req) (e : OwnEntry) : Bool :=
  e.ctx == r.ctx && ((!e.grid && takerWg r.taker == some e.wgtag) || (sharers s e).any (isTaker (takerWg r.taker) (takerLaunch s r.taker)))

/-- A home's answer to a run. -/
inductive Decision where
  | grant | conflict | self_
  deriving DecidableEq, Repr

/-- The decision of R78 and R77 on a run, against the entries and the waiters given. -/
def decideRun (s : State) (r : Req) (run : Run) (ws : List Waiter) : Decision :=
  let hits := s.own.filter fun e => runsMeet (entryRun e) run && entryConflicts e r.kind
  if hits.any (ownEntry s r) then .self_
  else if !hits.isEmpty || ws.any (fun x => runsMeet (waiterRun x) run) then .conflict
  else .grant

/-- The priority of a launch, or of a workgroup, or of whoever asked (R85). -/
def launchPri (s : State) (l : Nat) : Nat := match s.launches.find? fun x => x.id == l with
  | some x => x.pri
  | none => 0
def takerPri (s : State) : Taker → Nat
  | .gang wg _ _ _ _ _ => match findWg s wg with
    | some w => w.pri
    | none => 0
  | .grid l _ => launchPri s l
  | _ => 0
/-- The priority of an entry's holder. The spec gives it where the holding context's workgroups agree; where they differ it is that of the first
taker's workgroup or launch, and 0 once that is gone (DESIGN CHOICE, log 112). -/
def entryPri (s : State) (e : OwnEntry) : Nat :=
  if e.grid then match gridOf s e with
    | some l => launchPri s l
    | none => 0
  else match findWg s e.wgtag with
    | some w => w.pri
    | none => 0
/-- A context with no workgroup on a core (R85). -/
def descheduled (s : State) (c : Nat) : Bool := !s.wgs.any fun w => w.ctx == c && (coreOf w).isSome
/-- An entry that the host, or a ring engine, holds is never boosted (R85, R324). -/
def boostable (s : State) (e : OwnEntry) : Bool :=
  e.ctx != 0xFFFF && !((sharers s e).any fun t => match t with
    | .host _ _ => true
    | _ => false)
/-- A waiter that blocks on an entry. -/
def waitsOn (x : Waiter) (e : OwnEntry) : Bool := runsMeet (waiterRun x) (entryRun e) && entryConflicts e x.kind
/-- The priority of a waiter. -/
def waiterPri (s : State) (x : Waiter) : Nat := match findReq s x.req with
  | some r => takerPri s r.taker
  | none => 0
/-- The requests of the waiters that an entry is boosted for: those that found its holder of lower priority, or descheduled, while they wait (R58,
R85). -/
def boostersOf (s : State) (e : OwnEntry) : List Nat :=
  (s.waiters.filter fun x => waitsOn x e && (e.boosters.contains x.req || waiterPri s x > entryPri s e || descheduled s e.ctx)).map fun x => x.req
/-- WAIT and BOOST of an entry as its waiters make them (R73, R85). -/
def refreshEntry (s : State) (e : OwnEntry) : OwnEntry :=
  let b := if boostable s e then boostersOf s e else []
  { e with wait := s.waiters.any (fun x => runsMeet (waiterRun x) (entryRun e)), boost := !b.isEmpty, boosters := b }
/-- The same for every entry. -/
def refreshOwn (s : State) : State := { s with own := s.own.map (refreshEntry s) }
/-- The boost an entry gives its holder: the highest priority of the waiters it blocks (R85). -/
def entryBoost (s : State) (e : OwnEntry) : Nat :=
  if e.boost then ((s.waiters.filter fun x => waitsOn x e).map (waiterPri s)).foldl max 0 else 0
/-- A workgroup holds an entry, for its boost (R397). -/
def holdsEntry (s : State) (w : Wg) (e : OwnEntry) : Bool :=
  e.ctx == w.ctx && (sharers s e).any (isTaker (some w.tag) (launchOf w))
/-- Effective priority (R393, R397). -/
def effPri (s : State) (w : Wg) : Nat := (s.own.filter (holdsEntry s w)).foldl (fun m e => max m (entryBoost s e)) w.pri
/-- A workgroup that a boosted entry makes resident whatever the slice (R397). -/
def boosted (s : State) (w : Wg) : Bool := s.own.any fun e => e.boost && holdsEntry s w e

/-! Replicas (R89 to R91). -/

/-- The replicated pages of a run with the clusters that hold them. -/
def runReplicas (s : State) (run : Run) : List Rep :=
  s.reps.filter fun p => !p.set.isEmpty && rangesMeet (p.page * 65536) 65536 (run.pbase * 256) (run.grains * 256)
/-- A collapse begins: the pages' sequence numbers advance and their clusters are told (R91). -/
def startCollapse (s : State) (run : Run) : State :=
  let ps := runReplicas s run
  { s with
      reps := s.reps.map fun p => if ps.contains p then { p with seq := (p.seq + 1) % 65536 } else p
      msgs := s.msgs ++ ps.flatMap fun p => p.set.map fun c => .collapseReq p.page ((p.seq + 1) % 65536) c.1 c.2.1 run }

/-! Granting (R74, R76, R79). -/

/-- A home grants a run: the entry made or joined and the grant sent, or the collapse begun; none when the table has no free entry. -/
def grantRun (s : State) (r : Req) (run : Run) : Option State :=
  let same (e : OwnEntry) : Bool := e.ctx == r.ctx && e.kind == r.kind && entryRun e == run
  let held := { s with reqs := updFirst (fun q => q.id == r.id) (fun q => { q with held := q.held ++ [run] }) s.reqs }
  if r.kind != 1#2 && s.own.any same then
    some { held with own := updFirst same (fun e => { e with scount := e.scount + 1 }) s.own, msgs := s.msgs ++ [.runGrant r.id] }
  else if tableSize run.home ≤ (s.own.filter fun e => e.home == run.home).length then none
  else
    let grid := match r.taker with
      | .grid _ _ => true
      | _ => false
    let coll := r.kind == 1#2 && !(runReplicas s run).isEmpty
    let t := takerTag r.taker
    let e : OwnEntry := { home := run.home, pbase := run.pbase, grains := run.grains, kind := r.kind, grid := grid, coll := coll,
                          ctx := r.ctx, wgtag := t.1, gang := t.2, scount := if r.kind == 1#2 then 0 else 1, ticket := r.ticket }
    let s := { held with own := s.own ++ [e] }
    if coll then some (startCollapse s run) else some { s with msgs := s.msgs ++ [.runGrant r.id] }
/-- A home considers its waiters in arrival order (R79); those it passes over delay the later ones that overlap them. -/
def grantList (home : Nat) : List Waiter → List Waiter → State → State
  | [], _, s => s
  | x :: xs, passed, s =>
    match findReq s x.req with
    | none => grantList home xs passed s
    | some r =>
      if decideRun s r (waiterRun x) passed == .grant then
        let s := { s with waiters := s.waiters.erase x, reqs := updFirst (fun q => q.id == r.id) (fun q => { q with queued := false }) s.reqs }
        match grantRun s r (waiterRun x) with
        | some s => grantList home xs passed s
        | none => grantList home xs passed { s with msgs := s.msgs ++ [.refusal r.id 2] }
      else grantList home xs (passed ++ [x]) s
/-- After an entry was freed or its count fell, the home's waiters (R79), then WAIT and BOOST. -/
def grantWaiters (s : State) (home : Nat) : State :=
  refreshOwn (grantList home (s.waiters.filter fun x => x.home == home) [] s)

/-- The entry of a context over a run. -/
def entryOf (s : State) (ctx : Nat) (kind : BitVec 2) (run : Run) : Option OwnEntry :=
  s.own.find? fun e => e.ctx == ctx && e.kind == kind && entryRun e == run
/-- An entry freed, and its waiters considered. -/
def freeEntry (s : State) (e : OwnEntry) : State := grantWaiters { s with own := s.own.erase e } e.home
/-- A share of a context's S or C entry over a run given up; an X entry freed (R80). -/
def lowerEntry (s : State) (ctx : Nat) (kind : BitVec 2) (run : Run) : State :=
  match entryOf s ctx kind run with
  | none => s
  | some e =>
    if kind == 1#2 || e.scount ≤ 1 then freeEntry s e
    else grantWaiters { s with own := updFirst (fun x => x == e) (fun x => { x with scount := x.scount - 1 }) s.own } e.home

/-! Requests (R76, R77). -/

/-- Why an extent list cannot be borrowed: control space, the image area, or the code window (R77, R419, R420). -/
def unborrowable (s : State) (kind : BitVec 2) (va n : Nat) (xs : List (Nat × Nat)) : Bool :=
  if rangesMeet va n windowBase windowBytes then
    !(kind == 2#2 && s.images.any fun im => windowBase ≤ va && rangeIn (va - windowBase) n im.const.1 im.const.2)
  else xs.any fun x => isCtl (paOf x.1) || ((moduleOf x.1).isNone && meetsImages s x.1 x.2)
/-- A request made: it takes its ticket and sends its first run; none when every ticket is live. -/
def startReq (s : State) (taker : Taker) (core : Option Nat) (ctx : Nat) (kind : BitVec 2) (vbase grains : Nat) (runs : List Run)
    (wait : Bool) : Option (Nat × State) :=
  match takeTicket s ctx core with
  | none => none
  | some (t, s) =>
    let exts := match taker with
      | .gang _ _ _ _ _ _ => extentsD s ctx (vbase * 256) (grains * 256)
      | .grid _ _ => extentsD s ctx (vbase * 256) (grains * 256)
      | _ => runs.map fun (x : Run) => (x.pbase * 256, x.grains * 256)
    let r : Req := { id := s.seq, taker := taker, ctx := ctx, kind := kind, vbase := vbase, grains := grains, runs := runs, ticket := t, wait := wait,
                     exts := exts }
    some (s.seq, { s with seq := s.seq + 1, reqs := s.reqs ++ [r], msgs := s.msgs ++ [.ownReq s.seq] })
/-- A completion word (R428): status in [63:56], result in [47:0]. -/
def hostComplete (s : State) (addr status result : Nat) : State :=
  hostPut s addr (leBytes 8 (status % 256 * 2 ^ 56 + result % 2 ^ 48))
/-- A launch changed. -/
def updLaunch (s : State) (l : Nat) (f : Launch → Launch) : State := { s with launches := updFirst (fun x => x.id == l) f s.launches }

/-- The end of a request reaches whoever took it (R77, R87, R259, R428): the status, and on GRANTED the borrow. -/
def tellTaker (s : State) (r : Req) (status : Nat) : State :=
  match r.taker with
  | .gang wg g lanes quads hank d =>
    let s := updHank s wg g hank fun _ => if status = 0 then { freshHank r.vbase r.grains r.kind r.ticket with revoked := r.revoked } else {}
    let s := updGang s wg g fun x =>
      { mapQuads quads (fun q => sput q d (BitVec.ofNat 64 status)) x with pend := x.pend.filter fun a => !(a.kind == .take && a.pa == r.id) }
    let s := match findWg s wg with
      | some w => match coreOf w with
        | some core => if status = 0 then r.exts.foldl (fun s (x : Nat × Nat) => l1Drop s core x.1 x.2) s else s
        | none => s
      | none => s
    if r.wait then releaseLanes s wg g lanes else s
  | .grid l arg =>
    if status = 0 then updLaunch s l fun x => { x with args := (x.args.mapIdx fun i a => if i = arg then { a with ticket := some r.ticket } else a) }
    else if status = 2 then s
    else updLaunch s l fun x => { x with st := .ending 7 }
  | .host addr _ => hostComplete s addr 0 (status + (if status = 0 then r.ticket * 256 else 0))
  | .frame _ => s
  | .staging _ => s
/-- The command ring goes on when the HBORROW that holds it ends (R428). -/
def ringFree (s : State) (r : Req) : State := if s.hcqHeld = some r.id then { s with hcqHeld := none } else s
/-- A request that holds no run ends without its borrow: its ticket is released, its taker learns the status (R77). -/
def endReq (s : State) (r : Req) (status : Nat) : State :=
  ringFree (tellTaker (freeTicket { s with reqs := s.reqs.filter fun q => q.id != r.id } r.ctx r.ticket) r status) r
/-- A request fails: the runs granted to it return first, and with none it ends (R77). -/
def failReq (s : State) (r : Req) (status : Nat) : State :=
  let s := { s with waiters := s.waiters.filter fun x => x.req != r.id }
  if r.held.isEmpty then endReq s r status
  else { s with reqs := updFirst (fun q => q.id == r.id) (fun q => { q with failing := some status, queued := false }) s.reqs
                msgs := s.msgs ++ r.held.map fun run => Msg.retRun r.id run }
/-- A run that a failing request held is home: with its last one the request ends (R77). -/
def runBack (s : State) (r : Req) (run : Run) : State :=
  let r := { r with held := r.held.erase run }
  let s := { lowerEntry s r.ctx r.kind run with reqs := updFirst (fun q => q.id == r.id) (fun _ => r) (lowerEntry s r.ctx r.kind run).reqs }
  match r.failing with
  | some status => if r.held.isEmpty then endReq s r status else s
  | none => s
/-- A request has its last run: the grant stands (R76). -/
def finishReq (s : State) (r : Req) : State :=
  let s := { s with reqs := s.reqs.filter fun q => q.id != r.id
                    grants := s.grants ++ [⟨r.ctx, r.ticket, r.kind, r.taker, r.vbase, r.grains, r.runs, r.revoked, r.exts, [], []⟩] }
  tellTaker s r 0
/-- A message of a request. -/
def ofReq (id : Nat) : Msg → Bool
  | .ownReq x => x == id
  | .runGrant x => x == id
  | .refusal x _ => x == id
  | .retRun x _ => x == id
  | _ => false
/-- A waiting request is removed (R436): its waiter leaves, and its ticket's bit clears; runs granted to it are given up, and the tables grant
the waiters it delayed. -/
def dropReq (s : State) (r : Req) : State :=
  let homes := (s.waiters.filter fun x => x.req == r.id).map fun x => x.home
  let s := { s with reqs := s.reqs.filter fun q => q.id != r.id
                    waiters := s.waiters.filter fun x => x.req != r.id
                    msgs := s.msgs.filter fun m => !ofReq r.id m }
  let s := r.held.foldl (fun s run => lowerEntry s r.ctx r.kind run) (freeTicket s r.ctx r.ticket)
  homes.foldl grantWaiters s

/-! Grants given up (R80, R87, R436). -/

/-- A grant leaves the list and its ticket is released. -/
def dropGrant (s : State) (g : Grant) : State := freeTicket { s with grants := s.grants.erase g } g.ctx g.ticket
/-- A grant released without write-back (R86, R436): X ranges become undefined and the dirty lines over them are discarded. -/
def loseGrant (s : State) (g : Grant) : State :=
  let s := g.runs.foldl (fun s run =>
    match entryOf s g.ctx g.kind run with
    | none => s
    | some e =>
      if g.kind == 1#2 && !e.xret then
        let lo := run.pbase * 256
        let n := run.grains * 256
        let s := smear { s with l1 := s.l1.filter fun c => !rangesMeet c.pa 64 lo n } lo n
        lowerEntry (sliceDrop s lo n) g.ctx g.kind run
      else if g.kind == 1#2 then s
      else lowerEntry s g.ctx g.kind run) s
  dropGrant s g

/-- Every store-buffer entry of the workgroup in a range has left, every earlier access of the gang has performed, and no fill it could race
is unanswered (R112, R119). -/
def retReady (s : State) (r : RetOp) : Bool :=
  match findWg s r.wg with
  | none => true
  | some w =>
    !(gangOf w r.gang).pend.any (fun a => isAccess a.kind && a.seq < r.seq)
      && !w.gangs.any fun g => g.pend.any fun a =>
        isAccess a.kind && (isEntry a.kind || a.seq < r.seq) && a.place != .scratch && rangesMeet a.va.toNat a.bytes r.vlo r.vbytes
/-- A return goes out: the write-back of R82, then one message a run. -/
def sendReturn (s : State) (r : RetOp) : State :=
  let moved : List Sector := match (findWg s r.wg).bind coreOf with
    | some core => if r.kind == 1#2 then (r.extents.flatMap fun x => (l1In s core x.1 x.2).filter fun c => c.dirty) else []
    | none => []
  let planes := moved.filterMap fun c => (planeOf s c.pa).map fun p => (c.pa, p)
  let s := match findWg s r.wg with
    | some w => match coreOf w with
      | some core => if r.kind == 1#2 then r.extents.foldl (fun s (x : Nat × Nat) => writeBack s core x.1 x.2) s else s
      | none => s
    | none => s
  let rest := s.rets.filter fun x => x != r
  if r.runs.isEmpty then { s with rets := rest }
  else { s with rets := rest ++ [{ r with sent := true, left := r.runs.length, planes := planes, stamp := s.seq }]
                msgs := s.msgs ++ r.runs.map fun run => Msg.ret r.ctx r.ticket r.kind run r.wg r.gang }
/-- Every return whose conditions hold goes out. -/
def tryReturns (s : State) : State :=
  (s.rets.filter fun r => !r.sent).foldl (fun s r => if retReady s r then sendReturn s r else s) s
/-- A home acknowledged one run of a return; after the last, the grant is over and its lanes go on (R70, R80). -/
def ackReturn (s : State) (ctx ticket wg gang : Nat) : State :=
  match s.rets.find? fun r => r.ctx == ctx && r.ticket == ticket && r.wg == wg && r.gang == gang && r.sent with
  | none => s
  | some r =>
    if 1 < r.left then { s with rets := updFirst (fun x => x == r) (fun x => { x with left := x.left - 1 }) s.rets }
    else
      let s := { s with rets := s.rets.erase r }
      let s := match findGrant s ctx ticket with
        | some g => dropGrant s g
        | none => s
      if r.lanes = 0#32 then s else releaseLanes s wg gang r.lanes

end Sys2Proof.Machine
end

