-- ==== Sys2Proof/Machine/Reach.lean ====
section
/-! DEFINITION. Which other modules an access can reach, and by which traffic plane (R22, R361 to R364), and the kernels that the indirection
table names (R417, R422, R423). -/

namespace Sys2Proof.Machine

/-- A module that some traffic plane reaches. -/
def moduleReachable (s : State) (m : Nat) : Bool :=
  m ≤ 287 && match liveOf s m with
    | some up => (trafficPlanes s).any fun p => up.getLsbD p
    | none => false
/-- A load, store or atomic of this key can reach its module (R363). -/
def reachable (s : State) (k : Nat) : Bool :=
  match moduleOf k with
  | none => true
  | some m =>
    let ps := trafficPlanes s
    m ≤ 287 && !ps.isEmpty && match liveOf s m with
      | some up => up.getLsbD (tget 0 ps (planeHash (paOf k) % ps.length))
      | none => false
/-- The fabric address of a key (R22): the module in [56:48]. -/
def fabricAddr (k : Nat) : W64 := BitVec.ofNat 64 (k - 2 ^ 48)

/-! Remapping (R364). -/

/-- Requests of this module that await responses from other modules, with their workgroups and gangs. -/
def remoteOut (s : State) : List (Nat × Nat × Access) :=
  s.wgs.flatMap fun w => (List.range w.ngangs).flatMap fun i => ((gangOf w i).pend.filter fun a => a.plane.isSome).map fun a => (w.tag, i, a)
/-- A request sent on a plane before a remap still awaits its response, a returned hank's write-back among them. -/
def awaited (s : State) (r : Remap) (p : Nat) : Bool :=
  ((remoteOut s).any fun x => x.2.2.plane == some p && x.2.2.seq < r.upto) || s.rets.any fun x => x.sent && x.stamp < r.upto && x.planes.any fun y => y.2 == p
/-- A remap holds a request whose plane it changed, while any request sent on the plane that died, or on the request's own old plane where one
came back, awaits its response. -/
def remapHolds (s : State) (k : Nat) (r : Remap) : Bool := match planeIn r.old k, planeOf s k with
  | some p, some q => p != q && awaited s r (r.dead.getD p)
  | _, _ => false
/-- A request for a key that is not yet sent is held: by a remap, or for want of any plane. -/
def planeHeld (s : State) (k : Nat) : Bool := (moduleOf k).isSome && ((planeOf s k).isNone || s.deadPlanes.any (remapHolds s k))
/-- A request already sent is held by the remaps that came before it. -/
def sentHeld (s : State) (a : Access) : Bool := s.deadPlanes.any fun r => r.upto ≤ a.seq && remapHolds s a.pa r
/-- A remap with requests still out on the planes before it. -/
def remapOpen (s : State) (r : Remap) : Bool :=
  ((remoteOut s).any fun x => x.2.2.seq < r.upto && (r.dead.isNone || x.2.2.plane == r.dead))
    || s.rets.any fun x => x.sent && x.stamp < r.upto && x.planes.any fun y => r.dead.isNone || r.dead == some y.2
/-- The requests of a choice are on their way again where their message is not (R364): what performed already has its response recorded. -/
def resend (s : State) (pick : Access → Bool) : State :=
  let lost := (remoteOut s).filter fun x =>
    pick x.2.2 && !(x.2.2.kind == .reply || x.2.2.kind == .posted || x.2.2.kind == .clean) && !x.2.2.sent && !s.msgs.contains (.memReq x.1 x.2.1 x.2.2.seq)
  { s with msgs := s.msgs ++ lost.map fun x => .memReq x.1 x.2.1 x.2.2.seq }
/-- The step from one state to another changed the traffic planes: each that left, and those that came, make a remap where requests are still
out; what was sent on a plane that came back arrives (R364, R367). -/
def remap (old new : State) : State :=
  let a := trafficPlanes old
  let b := trafficPlanes new
  if a = b then new
  else
    let gone := (a.filter fun p => !b.contains p).map fun p => ({ dead := some p, old := a, since := new.time1588, upto := new.seq } : Remap)
    let back := b.filter fun p => !a.contains p
    let came : List Remap := if back.isEmpty then [] else [{ dead := none, old := a, since := new.time1588, upto := new.seq }]
    let s := resend new fun x => x.plane.any back.contains
    { s with deadPlanes := (s.deadPlanes ++ gone ++ came).filter (remapOpen s) }
/-- A target's record of a response: the last 4,096 (R364). -/
def keepAnswer (s : State) (r : Answer) : State :=
  let old := if 4096 ≤ s.answers.countP (fun x => x.target == r.target) then s.answers.eraseP fun x => x.target == r.target else s.answers
  { s with answers := old ++ [r] }

/-! Kernels. -/

/-- The image of a directory number that a lookup returns: one that is to leave with its last user is none (R421, R422). -/
def liveImage (s : State) (n : Nat) : Option Image := s.images.find? fun im => im.num == n && !im.doomed
/-- The image and descriptor an indirection entry binds, when it is valid for a user that binds it now (R422, R423): the descriptor is one of that
image's own (R424). -/
def kernelOf (s : State) (k : Nat) : Option (Image × Nat) :=
  let e := ctlGet s (0x7F0002000000 + 16 * k)
  let x := ctlGet s (0x7F0002000008 + 16 * k)
  let at_ := fld e 8 26 * 256
  if 65535 < k ∨ e.getLsbD 63 = false ∨ fld x 32 16 < s.fuse then none
  else (liveImage s (fld x 0 12)).bind fun im =>
    if im.secver = fld x 32 16 ∧ rangeIn at_ 256 im.desc.1 im.desc.2 = true then some (im, at_) else none
/-- A word of a descriptor at an image-area offset (R417). -/
def descWord (s : State) (off n : Nat) : W64 :=
  match imgArea s with
  | some (b, _) => BitVec.ofNat 64 (leNat (devBytes s (b + off + 8 * n) 8))
  | none => 0#64
/-- Fields of word 1 of a descriptor. -/
def descGangs (s : State) (off : Nat) : Nat := fld (descWord s off 1) 31 5
def descQuota (s : State) (off : Nat) : Nat := fld (descWord s off 1) 26 5
def descMacs (s : State) (off : Nat) : Nat := fld (descWord s off 1) 21 5
def descAccs (s : State) (off : Nat) : Nat := fld (descWord s off 1) 15 6
def descScratch (s : State) (off : Nat) : Nat := fld (descWord s off 1) 4 11 * 256
def descIdem (s : State) (off : Nat) : Bool := (descWord s off 1).getLsbD 40
/-- The virtual address of a kernel's first clause. -/
def descEntry (s : State) (im : Image) (off : Nat) : W64 := BitVec.ofNat 64 (windowBase + im.code.1 + fld (descWord s off 0) 0 32)
/-- A user binds an image, or ends (R421, R424). -/
def useImage (s : State) (n : Nat) : State :=
  { s with images := updFirst (fun im => im.num == n) (fun im => { im with uses := im.uses + 1 }) s.images }
/-- An image that a FUSEUP doomed leaves with its last user (R422). -/
def dropImage (s : State) (n : Nat) : State :=
  let s := { s with images := updFirst (fun im => im.num == n) (fun im => { im with uses := im.uses - 1 }) s.images }
  { s with images := s.images.filter fun im => !(im.doomed && im.uses == 0) }

end Sys2Proof.Machine
end

