-- ==== Sys2Proof/Machine/Borrow.lean ====
section
/-! DEFINITION. The borrow instructions, opcodes 0x88 to 0x90 (R69, R72, R76, R77, R80, R258 to R261). -/

namespace Sys2Proof.Machine

/-- A status written at issue (R77). -/
def statusAt (h : Here) (d n : Nat) (s : State) : State := onGang h (putS h d (BitVec.ofNat 64 n)) s
/-- A run lies in another module's memory. -/
def remoteRun (r : Run) : Bool := 8 ≤ r.home

/-- HBORX, HBORS and HBORC (R259, R76, R77). -/
def borBody (kind : BitVec 2) (f : FmtT) (h : Here) (tru : LaneMask) (s : State) : Fx :=
  if !gangActs h tru then { s := s }
  else
    let a := srcS h f.a.toNat
    let grains := (srcS h f.b.toNat).toNat
    let va := a.toNat
    let n := 256 * grains
    let d := f.c.toNat
    let wait := modBit f.mod 0
    let old := getHank h.w h.iss.gang f.d.toNat
    if va % 256 ≠ 0 then trapFx s .alignment (mains h tru) a
    else if old.kind ≠ 0#2 ∨ old.pending then trapFx s .hankKind (mains h tru) a
    else if grains = 0 ∨ 2 ^ 32 < grains ∨ 2 ^ 52 < va + n then trapFx s .hankRange (mains h tru) a
    else if unborrowable s kind va n [] then { s := statusAt h d 4 s }
    else match extentsOf s h.w.ctx va n with
      | .error e => trapFx s .pageFault (mains h tru) (BitVec.ofNat 64 e)
      | .ok xs =>
        if unborrowable s kind va n xs then { s := statusAt h d 4 s }
        else
          let runs := runsOf xs
          let taker := Taker.gang h.iss.wg h.iss.gang h.iss.lanes (dstQuads h) f.d.toNat d
          match startReq s taker (some h.core) h.w.ctx kind (va / 256) grains runs wait with
          | none => { s := statusAt h d 2 s }
          | some (id, s) =>
            let s := updHank s h.iss.wg h.iss.gang f.d.toNat fun x => { x with pending := true }
            let s := onGang h (markS h d) s
            if wait then { s := blockLanes h h.iss.lanes (.borrow id) s, gone := h.iss.lanes }
            else
              let t : Access := { seq := 0, kind := .take, lanes := h.iss.lanes, pa := id, acq := true,
                                  scope := if runs.any remoteRun then 7#3 else 6#3 }
              { s := pushHere h [[t]] s }

/-- HBORX (R259). -/
def execHborx (g : Guard) (f : FmtT) (s : State) : Host.Outcome State Fault Refusal := runWord (.hborx g f) g (borBody 1#2 f) s
/-- HBORS (R259). -/
def execHbors (g : Guard) (f : FmtT) (s : State) : Host.Outcome State Fault Refusal := runWord (.hbors g f) g (borBody 2#2 f) s
/-- HBORC (R259). -/
def execHborc (g : Guard) (f : FmtT) (s : State) : Host.Outcome State Fault Refusal := runWord (.hborc g f) g (borBody 3#2 f) s

/-! HREB, HSPLIT, HMERGE, HRET and HGIVE (R80). -/

/-- The gang a target GANGID names, when it exists and has not exited (R258). -/
def targetGang (w : Wg) (x : W64) : Option Nat :=
  if x.toNat < w.ngangs && !gangExited w x.toNat then some x.toNat else none
/-- A hank is free to be written (R69, R260). -/
def hankFree (w : Wg) (gang n : Nat) : Bool := (getHank w gang n).kind == 0#2 && !(getHank w gang n).pending
/-- Two hanks that HMERGE joins (R80). -/
def mergeable (a b : Hank) : Bool :=
  a.kind == b.kind && (a.kind == 1#2 || a.kind == 2#2) && a.ticket == b.ticket && !frozen a && !frozen b && !a.lent && !b.lent
    && (hankLo a + hankBytes a == hankLo b || hankLo b + hankBytes b == hankLo a)

/-- The trap of a hank operation, in the order of R71 and then borrow children (R80), with its INFO. -/
def hankCheck (w : Wg) (gang : Nat) (i : Instr) (x : W64) : Option (Trap × W64) :=
  let src (n : Nat) (ok : Hank → Bool) (range : Hank → Bool) (kids : Hank → Bool) : Option (Trap × W64) :=
    let k := seenHank (getHank w gang n)
    let info := BitVec.ofNat 64 (hankLo k)
    if k.kind = 0#2 then some (.hankEmpty, info)
    else if k.revoked then some (.hankRevoked, info)
    else if !ok k then some (.hankKind, info)
    else if !range k then some (.hankRange, info)
    else if kids k then some (.borrowChildren, info)
    else none
  match i with
  | .hret _ f =>
    let k := seenHank (getHank w gang f.a.toNat)
    if k.kind = 0#2 then some (.hankEmpty, 0#64) else if k.rebs ≠ 0#4 then some (.borrowChildren, wordOf i) else none
  | .hsplit _ f =>
    src f.a.toNat (fun k => (k.kind == 1#2 || k.kind == 2#2) && !k.lent && hankFree w gang f.d.toNat)
      (fun k => 1 ≤ x.toNat && x.toNat ≤ k.len.toNat) (fun k => k.rebs != 0#4)
  | .hmerge _ f =>
    match src f.b.toNat (fun _ => true) (fun _ => true) fun _ => false with
    | some t => if (seenHank (getHank w gang f.a.toNat)).kind = 0#2 then some (.hankEmpty, 0#64) else some t
    | none => src f.a.toNat (fun k => mergeable k (seenHank (getHank w gang f.b.toNat))) (fun _ => true) fun _ => false
  | .hreb _ f =>
    src f.a.toNat (fun k => k.kind == 1#2 && !k.lent && (match targetGang w x with
      | some g => hankFree w g f.c.toNat
      | none => false)) (fun _ => true) fun k => k.rebs == 15#4
  | .hgive _ f =>
    src f.a.toNat (fun _ => match targetGang w x with
      | some g => hankFree w g f.c.toNat
      | none => false) (fun _ => true) fun k => k.rebs != 0#4
  | _ => none
/-- INFO of the trap as R405 gives it: the word for borrow children. -/
def hankInfo (i : Instr) (t : Trap × W64) : W64 := if t.1 = .borrowChildren then wordOf i else t.2
/-- The lent w-hanks of a SPAWN (R355). -/
def lentHanks (f : FmtT) : List Nat := (List.range 8).filter fun i => modBit f.mod i
/-- The hanks a hank operation, or SPAWN, is issued on. -/
def hankNames : Instr → List Nat
  | .hret _ f => [f.a.toNat]
  | .hsplit _ f => [f.a.toNat]
  | .hmerge _ f => [f.a.toNat, f.b.toNat]
  | .hreb _ f => [f.a.toNat]
  | .hgive _ f => [f.a.toNat]
  | .spawn _ f => (lentHanks f).map fun i => 16 + i
  | _ => []
/-- An engine command in flight names one of them (R72). -/
def hankBusy (w : Wg) (gang : Nat) (i : Instr) : Bool := (hankNames i).any fun n => (getHank w gang n).eng != 0#6

/-- The whole grant a hank is, if it is one (R80). -/
def wholeGrant (s : State) (w : Wg) (k : Hank) : Option Grant :=
  match findGrant s w.ctx k.ticket.toNat with
  | some g => match g.taker with
    | .gang wg _ _ _ _ _ =>
      if wg = w.tag ∧ g.vbase = k.base.toNat ∧ g.grains = k.len.toNat + 1 then some g else none
    | _ => none
  | none => none
/-- Fills of loads issued through a returned hank are delivered and not installed (R119). -/
def unInstall (w : Wg) (k : Hank) : Wg :=
  let go (g : Gang) : Gang := { g with pend := g.pend.map fun a =>
    if a.kind == .load && a.ticket == k.ticket && rangesMeet a.va.toNat a.bytes (hankLo k) (hankBytes k) then { a with noInstall := true } else a }
  { w with gangs := w.gangs.map go }

/-- HRET takes effect: the state, and whether its lanes stay blocked until the homes acknowledge (R80, R112). -/
def returnHank (s : State) (tag gang n : Nat) (lanes : LaneMask) : State × Bool :=
  match findWg s tag with
  | none => (s, false)
  | some w =>
    let k := getHank w gang n
    let s := updWg (putWg s (putHank w gang n {})) tag fun w => unInstall w k
    if k.lent then
      (updHank s tag k.pgang.toNat k.phank.toNat fun p => { p with rebs := p.rebs - 1#4 }, false)
    else
      let gone : List Run := match findGrant s w.ctx k.ticket.toNat with
        | some g => g.runs.filter fun run => (entryOf s g.ctx g.kind run).isNone
        | none => []
      let r : RetOp := { wg := tag, gang := gang, lanes := 0#32, ctx := w.ctx, ticket := k.ticket.toNat, kind := k.kind,
                         extents := (hankExtents s w.ctx k).filter fun x =>
                           !gone.any fun run => rangesMeet x.1 x.2 (run.pbase * 256) (run.grains * 256)
                         vlo := hankLo k, vbytes := hankBytes k, runs := [], seq := s.seq }
      match wholeGrant s w k with
      | none => if k.kind == 1#2 then (tryReturns { s with rets := s.rets ++ [r] }, false) else (s, false)
      | some g =>
        let runs := g.runs.filter fun run => (entryOf s g.ctx g.kind run).isSome
        let r := { r with extents := runs.map fun (run : Run) => (run.pbase * 256, run.grains * 256) }
        if runs.isEmpty then (dropGrant s g, false)
        else if k.kind == 1#2 then (tryReturns { s with rets := s.rets ++ [{ r with lanes := lanes, runs := runs }] }, true)
        else (tryReturns { s with rets := s.rets ++ [{ r with runs := runs }] }, false)

/-- A hank operation takes effect (R80); the second part says that its lanes stay blocked. -/
def hankApply (s : State) (tag gang : Nat) (lanes : LaneMask) (i : Instr) (x : W64) : State × Bool :=
  match i with
  | .hret _ f => returnHank s tag gang f.a.toNat lanes
  | .hsplit _ f =>
    (updWg s tag fun w =>
      let k := getHank w gang f.a.toNat
      let lo : Hank := { k with len := BitVec.ofNat 32 (x.toNat - 1) }
      let hi : Hank := { k with base := k.base + BitVec.ofNat 44 x.toNat, len := BitVec.ofNat 32 (k.len.toNat - x.toNat) }
      putHank (putHank w gang f.a.toNat lo) gang f.d.toNat hi, false)
  | .hmerge _ f =>
    (updWg s tag fun w =>
      let a := getHank w gang f.a.toNat
      let b := getHank w gang f.b.toNat
      let len := BitVec.ofNat 32 (a.len.toNat + b.len.toNat + 1)
      if a.base.toNat < b.base.toNat then putHank (putHank w gang f.a.toNat { a with len := len }) gang f.b.toNat {}
      else putHank (putHank w gang f.b.toNat { b with len := len }) gang f.a.toNat {}, false)
  | .hreb _ f =>
    (updWg s tag fun w =>
      let k := getHank w gang f.a.toNat
      let child : Hank := { base := k.base, len := k.len, kind := 2#2, lent := true, pgang := BitVec.ofNat 4 gang,
                            phank := BitVec.ofNat 5 f.a.toNat, ticket := k.ticket }
      putHank (putHank w gang f.a.toNat { k with rebs := k.rebs + 1#4 }) x.toNat f.c.toNat child, false)
  | .hgive _ f =>
    (updWg s tag fun w => putHank (putHank w gang f.a.toNat {}) x.toNat f.c.toNat (getHank w gang f.a.toNat), false)
  | _ => (s, false)

/-- The scalar operand of a hank operation. -/
def hankOperand (h : Here) : Instr → W64
  | .hreb _ f => srcS h f.b.toNat
  | .hsplit _ f => srcS h f.b.toNat
  | .hgive _ f => srcS h f.b.toNat
  | _ => 0#64
/-- An operation on a hank whose ENG is not zero waits in a borrow wait (R72). -/
def deferOp (i : Instr) (h : Here) (tru : LaneMask) (x y : W64) (s : State) : Fx :=
  let d : Deferred := ⟨h.iss.wg, h.iss.gang, h.iss.quad, h.iss.lanes, mains h tru, i, x, (hankNames i).headD 0, y⟩
  { s := blockLanes h h.iss.lanes .hankOp { s with deferred := s.deferred ++ [d] }, gone := h.iss.lanes }
/-- A hank operation at its issue (R72, R80). -/
def hankOpBody (i : Instr) (h : Here) (tru : LaneMask) (s : State) : Fx :=
  if !gangActs h tru then { s := s }
  else
    let x := hankOperand h i
    match hankCheck h.w h.iss.gang i x with
    | some t => trapFx s t.1 (mains h tru) (hankInfo i t)
    | none =>
      if hankBusy h.w h.iss.gang i then
        deferOp i h tru x 0#64 s
      else
        let r := hankApply s h.iss.wg h.iss.gang h.iss.lanes i x
        if r.2 then { s := blockLanes h h.iss.lanes .hankOp r.1, gone := h.iss.lanes } else { s := r.1 }

/-- HREB (R80). -/
def execHreb (g : Guard) (f : FmtT) (s : State) : Host.Outcome State Fault Refusal := runWord (.hreb g f) g (hankOpBody (.hreb g f)) s
/-- HSPLIT (R80). -/
def execHsplit (g : Guard) (f : FmtT) (s : State) : Host.Outcome State Fault Refusal := runWord (.hsplit g f) g (hankOpBody (.hsplit g f)) s
/-- HMERGE (R80). -/
def execHmerge (g : Guard) (f : FmtT) (s : State) : Host.Outcome State Fault Refusal := runWord (.hmerge g f) g (hankOpBody (.hmerge g f)) s
/-- HRET (R80). -/
def execHret (g : Guard) (f : FmtT) (s : State) : Host.Outcome State Fault Refusal := runWord (.hret g f) g (hankOpBody (.hret g f)) s
/-- HGIVE (R80). -/
def execHgive (g : Guard) (f : FmtT) (s : State) : Host.Outcome State Fault Refusal := runWord (.hgive g f) g (hankOpBody (.hgive g f)) s

/-- HQRY (R261). -/
def hqryBody (f : FmtT) (h : Here) (tru : LaneMask) (s : State) : Fx :=
  if !gangActs h tru then { s := s }
  else
    let x := hankBits (seenHank (getHank h.w h.iss.gang f.a.toNat))
    { s := onGang h (fun g => putS h (f.d.toNat + 1) (BitVec.ofNat 64 (x / 2 ^ 64)) (putS h f.d.toNat (BitVec.ofNat 64 x) g)) s }
/-- HQRY (R261). -/
def execHqry (g : Guard) (f : FmtT) (s : State) : Host.Outcome State Fault Refusal := runWord (.hqry g f) g (hqryBody f) s

end Sys2Proof.Machine
end

