-- ==== Sys2Proof/Machine/Fp.lean ====
section
/-! DEFINITION. Floating point: formats, exact values, one rounding for every operation, and the functions whose results the spec bounds
(R122 to R125, R139 to R147). -/

namespace Sys2Proof.Machine

/-- A binary format: significand bits with the implicit one, exponent bits, and how its top exponent is used: 0 infinities and NaNs,
1 NaN in the last code only (E4M3), 2 neither (E2M1) (R122). -/
structure Fmt where
  p : Nat
  eb : Nat
  kind : Nat := 0
  deriving DecidableEq, Repr

def fp64 : Fmt := ⟨53, 11, 0⟩
def fp32 : Fmt := ⟨24, 8, 0⟩
def fp16 : Fmt := ⟨11, 5, 0⟩
def bf16 : Fmt := ⟨8, 8, 0⟩
def e4m3 : Fmt := ⟨4, 4, 1⟩
def e5m2 : Fmt := ⟨3, 5, 0⟩
def e2m1 : Fmt := ⟨2, 2, 2⟩

/-- Width in bits. -/
def fmtWidth (f : Fmt) : Nat := f.p + f.eb
/-- Exponent bias. -/
def fmtBias (f : Fmt) : Int := 2 ^ (f.eb - 1) - 1
/-- Exponent of the smallest normal value. -/
def fmtEmin (f : Fmt) : Int := 1 - fmtBias f
/-- Exponent of the least significant bit of a subnormal value. -/
def fmtQmin (f : Fmt) : Int := fmtEmin f - (f.p - 1 : Nat)
/-- Significand and exponent of the largest finite value, as m × 2 ^ e. -/
def fmtMax (f : Fmt) : Nat × Int :=
  let emax : Int := if f.kind = 0 then fmtBias f else fmtBias f + 1
  (if f.kind = 1 then 2 ^ f.p - 2 else 2 ^ f.p - 1, emax - (f.p - 1 : Nat))

/-- The value of an encoding; a finite value is m × 2 ^ e. -/
inductive FV where
  | nan (signalling : Bool)
  | inf (neg : Bool)
  | fin (neg : Bool) (m : Nat) (e : Int)
  deriving DecidableEq, Repr

/-- Read an encoding (R122, R123). -/
def unpack (f : Fmt) (x : Nat) : FV :=
  let frac := x % 2 ^ (f.p - 1)
  let ex := x / 2 ^ (f.p - 1) % 2 ^ f.eb
  let neg := x / 2 ^ (f.p - 1 + f.eb) % 2 == 1
  let top := ex == 2 ^ f.eb - 1
  if top && f.kind == 0 then (if frac = 0 then .inf neg else .nan (frac / 2 ^ (f.p - 2) == 0))
  else if top && f.kind == 1 && frac == 2 ^ (f.p - 1) - 1 then .nan false
  else if ex = 0 then .fin neg frac (fmtQmin f)
  else .fin neg (frac + 2 ^ (f.p - 1)) ((ex : Int) - fmtBias f - (f.p - 1 : Nat))

/-- The sign bit of an encoding. -/
def signBit (f : Fmt) (neg : Bool) : Nat := if neg then 2 ^ (f.p - 1 + f.eb) else 0
/-- The infinity, where the format has one. -/
def infBits (f : Fmt) (neg : Bool) : Nat := signBit f neg + (2 ^ f.eb - 1) * 2 ^ (f.p - 1)
/-- The canonical NaN; +0 in a format without NaN (R123, R143). -/
def nanBits (f : Fmt) : Nat :=
  if f.kind = 0 then (2 ^ f.eb - 1) * 2 ^ (f.p - 1) + 2 ^ (f.p - 2) else if f.kind = 1 then 2 ^ (f.p + f.eb - 1) - 1 else 0
/-- A finite value m × 2 ^ q with m below 2 ^ p, q at least that of subnormals, within range. -/
def packFin (f : Fmt) (neg : Bool) (m : Nat) (q : Int) : Nat :=
  signBit f neg +
    if m < 2 ^ (f.p - 1) then m else (q + fmtBias f + (f.p - 1 : Nat)).toNat * 2 ^ (f.p - 1) + (m - 2 ^ (f.p - 1))
/-- The largest finite value. -/
def maxBits (f : Fmt) (neg : Bool) : Nat := let x := fmtMax f; packFin f neg x.1 x.2

/-- The exception flags of FPCTL: NV, DZ, OF, UF, NX (R142). -/
def fNV : BitVec 5 := 16#5
def fDZ : BitVec 5 := 8#5
def fOF : BitVec 5 := 4#5
def fUF : BitVec 5 := 2#5
def fNX : BitVec 5 := 1#5

/-- A result: encoding, exceptions, and whether a flush took place (R141). -/
structure FR where
  bits : Nat
  flags : BitVec 5 := 0#5
  unfl : Bool := false
  deriving DecidableEq, Repr

/-- An exact value before its rounding: (m + δ) × 2 ^ e with 0 < δ < 1 when sticky, else δ = 0. -/
inductive Ex where
  | nan (nv : Bool)
  | inf (neg : Bool) (dz : Bool)
  | num (neg : Bool) (m : Nat) (e : Int) (sticky : Bool)
  deriving DecidableEq, Repr

/-- The rounding attribute: 0 to nearest even, 1 towards zero, 2 towards +∞, 3 towards −∞ (R140). -/
def roundsUp (rm : Nat) (neg odd : Bool) (cmpHalf : Ordering) (inexact : Bool) : Bool :=
  match rm with
  | 0 => cmpHalf == .gt || (cmpHalf == .eq && odd)
  | 1 => false
  | 2 => !neg && inexact
  | _ => neg && inexact
/-- Rounding acts towards zero (R143). -/
def towardsZero (rm : Nat) (neg : Bool) : Bool := rm == 1 || (rm == 2 && neg) || (rm == 3 && !neg)

/-- A magnitude rounded to a multiple of 2 ^ q: the multiple, and whether it is inexact. -/
def roundAt (rm : Nat) (neg : Bool) (m : Nat) (e : Int) (sticky : Bool) (q : Int) : Nat × Bool :=
  if q ≤ e then (m * 2 ^ (e - q).toNat, sticky)
  else
    let sh := (q - e).toNat
    if bitLen m + 1 < sh then
      let inx := m != 0 || sticky
      ((roundsUp rm neg false .lt inx).toNat, inx)
    else
      let hi := m / 2 ^ sh
      let lo := m % 2 ^ sh
      let inx := lo != 0 || sticky
      let half := 2 ^ (sh - 1)
      let c : Ordering := if lo < half then .lt else if lo = half && !sticky then .eq else .gt
      (hi + (roundsUp rm neg (hi % 2 == 1) c inx).toNat, inx)

/-- A magnitude rounded to p bits, its least bit at 2 ^ qmin or above when a least exponent is given: m below 2 ^ p, q, and inexactness. -/
def roundTo (p : Nat) (qmin : Option Int) (rm : Nat) (neg : Bool) (m : Nat) (e : Int) (sticky : Bool) : Nat × Int × Bool :=
  let q0 : Int := e + (bitLen m : Int) - p
  let q := match qmin with
    | some k => max q0 k
    | none => q0
  let r := roundAt rm neg m e sticky q
  if r.1 = 2 ^ p then (2 ^ (p - 1), q + 1, r.2) else (r.1, q, r.2)

/-- m × 2 ^ q is above a bound n × 2 ^ k, for m and n of the same number of bits or fewer. -/
def magLe (m : Nat) (q : Int) (n : Nat) (k : Int) : Bool :=
  if m = 0 then true
  else if n = 0 then false
  else
    let a : Int := q + bitLen m
    let b : Int := k + bitLen n
    if a ≠ b then a < b
    else if q ≤ k then m ≤ n * 2 ^ (k - q).toNat else m * 2 ^ (q - k).toNat ≤ n

/-- An exact value rounded to an IEEE format, with the exceptions of R139 and the flush of R141. -/
def finish (f : Fmt) (rm : Nat) (ftz : Bool) (x : Ex) : FR :=
  match x with
  | .nan nv => ⟨nanBits f, if nv then fNV else 0#5, false⟩
  | .inf neg dz => ⟨infBits f neg, if dz then fDZ else 0#5, false⟩
  | .num neg m e sticky =>
    if m = 0 && !sticky then ⟨signBit f neg, 0#5, false⟩
    else
      let r := roundTo f.p (some (fmtQmin f)) rm neg m e sticky
      let u := roundTo f.p none rm neg m e sticky
      let tiny := u.1 == 0 || u.2.1 + (f.p - 1 : Nat) < fmtEmin f
      let mx := fmtMax f
      if !magLe r.1 r.2.1 mx.1 mx.2 then
        ⟨if towardsZero rm neg then maxBits f neg else infBits f neg, fOF ||| fNX, false⟩
      else if ftz && r.1 < 2 ^ (f.p - 1) && r.1 != 0 then ⟨signBit f neg, fUF ||| fNX, true⟩
      else ⟨packFin f neg r.1 r.2.1, (if r.2.2 then fNX else 0#5) ||| (if r.2.2 && tiny then fUF else 0#5), false⟩

/-- A subnormal encoding. -/
def isSub (f : Fmt) (x : Nat) : Bool := x / 2 ^ (f.p - 1) % 2 ^ f.eb == 0 && x % 2 ^ (f.p - 1) != 0
/-- An input under a flushing form (R141). -/
def flushIn (f : Fmt) (ftz : Bool) (x : Nat) : Nat := if ftz && isSub f x then x / 2 ^ (f.p - 1 + f.eb) * 2 ^ (f.p - 1 + f.eb) else x

/-- NaN inputs: invalid for a signalling one. -/
def nanOf (xs : List FV) : Option Bool :=
  if xs.any (fun x => match x with
    | .nan _ => true
    | _ => false) then
    some (xs.any fun x => match x with
      | .nan s => s
      | _ => false)
  else none

/-- The exact sum of two finite values; an exact zero of opposite signs is −0 only towards −∞ (R231). -/
def sumFin (rm : Nat) (n1 : Bool) (m1 : Nat) (e1 : Int) (n2 : Bool) (m2 : Nat) (e2 : Int) : Ex :=
  let e := min e1 e2
  let a : Int := m1 * 2 ^ (e1 - e).toNat
  let b : Int := m2 * 2 ^ (e2 - e).toNat
  let t : Int := (if n1 then -a else a) + (if n2 then -b else b)
  if t = 0 then .num (if n1 == n2 then n1 else rm == 3) 0 0 false else .num (t < 0) t.natAbs e false

/-- A + B. -/
def addEx (rm : Nat) (a b : FV) : Ex :=
  match nanOf [a, b] with
  | some s => .nan s
  | none =>
    match a, b with
    | .inf x, .inf y => if x == y then .inf x false else .nan true
    | .inf x, _ => .inf x false
    | _, .inf y => .inf y false
    | .fin n1 m1 e1, .fin n2 m2 e2 => sumFin rm n1 m1 e1 n2 m2 e2
    | _, _ => .nan false
/-- The negation of a value. -/
def negFV : FV → FV
  | .nan s => .nan s
  | .inf n => .inf (!n)
  | .fin n m e => .fin (!n) m e
/-- A × B, exact. -/
def mulEx (a b : FV) : Ex :=
  match nanOf [a, b] with
  | some s => .nan s
  | none =>
    match a, b with
    | .inf x, .inf y => .inf (x != y) false
    | .inf x, .fin y m _ => if m = 0 then .nan true else .inf (x != y) false
    | .fin x m _, .inf y => if m = 0 then .nan true else .inf (x != y) false
    | .fin n1 m1 e1, .fin n2 m2 e2 => .num (n1 != n2) (m1 * m2) (e1 + e2) false
    | _, _ => .nan false
/-- An exact value as an operand again. -/
def exFV : Ex → FV
  | .nan _ => .nan false
  | .inf n _ => .inf n
  | .num n m e _ => .fin n m e
/-- A × B + C, formed exactly. A quiet NaN input raises nothing, whatever the product (R139). -/
def fmaEx (rm : Nat) (a b c : FV) : Ex :=
  match nanOf [a, b, c] with
  | some s => .nan s
  | none => match mulEx a b with
    | .nan nv => .nan nv
    | p => addEx rm (exFV p) c
/-- A ÷ B to at least p + 2 significant bits. -/
def divEx (p : Nat) (a b : FV) : Ex :=
  match nanOf [a, b] with
  | some s => .nan s
  | none =>
    match a, b with
    | .inf _, .inf _ => .nan true
    | .inf x, .fin y _ _ => .inf (x != y) false
    | .fin x _ _, .inf y => .num (x != y) 0 0 false
    | .fin n1 m1 e1, .fin n2 m2 e2 =>
      if m2 = 0 then (if m1 = 0 then .nan true else .inf (n1 != n2) true)
      else if m1 = 0 then .num (n1 != n2) 0 0 false
      else
        let sh := p + 3 + bitLen m2
        .num (n1 != n2) (m1 * 2 ^ sh / m2) (e1 - e2 - sh) (m1 * 2 ^ sh % m2 != 0)
    | _, _ => .nan false
/-- √A to at least p + 2 significant bits. -/
def sqrtEx (p : Nat) (a : FV) : Ex :=
  match a with
  | .nan s => .nan s
  | .inf n => if n then .nan true else .inf false false
  | .fin n m e =>
    if m = 0 then .num n 0 0 false
    else if n then .nan true
    else
      let k := 2 * (p + 3) + (e % 2).toNat
      let x := m * 2 ^ k
      let r := isqrt x
      .num false r ((e - k) / 2) (r * r != x)
/-- A × 2 ^ B (R231). -/
def scaleEx (a : FV) (b : Int) : Ex :=
  match a with
  | .nan s => .nan s
  | .inf n => .inf n false
  | .fin n m e => .num n m (e + b) false

/-- The order of two values that are not NaN; −0 and +0 are equal. -/
def cmpFV (a b : FV) : Ordering :=
  match a, b with
  | .inf x, .inf y => if x == y then .eq else if x then .lt else .gt
  | .inf x, _ => if x then .lt else .gt
  | _, .inf y => if y then .gt else .lt
  | .fin n1 m1 e1, .fin n2 m2 e2 =>
    let e := min e1 e2
    let x : Int := m1 * 2 ^ (e1 - e).toNat
    let y : Int := m2 * 2 ^ (e2 - e).toNat
    compare (if n1 then -x else x) (if n2 then -y else y)
  | _, _ => .eq
/-- The sign of a value. -/
def negOf : FV → Bool
  | .nan _ => false
  | .inf n => n
  | .fin n _ _ => n
/-- A strictly below B, with −0 below +0 (R139). -/
def belowFV (a b : FV) : Bool :=
  match cmpFV a b with
  | .lt => true
  | .eq => negOf a && !negOf b
  | .gt => false
/-- A NaN. -/
def isNan : FV → Bool
  | .nan _ => true
  | _ => false
/-- The lesser, or the greater, of two encodings: the other one of a NaN, the canonical NaN of two (R139). -/
def minMax (f : Fmt) (greater : Bool) (x y : Nat) : FR :=
  let a := unpack f x
  let b := unpack f y
  let nv := if nanOf [a, b] == some true then fNV else 0#5
  if isNan a && isNan b then ⟨nanBits f, nv, false⟩
  else if isNan a then ⟨y, nv, false⟩
  else if isNan b then ⟨x, nv, false⟩
  else ⟨if greater then (if belowFV a b then y else x) else if belowFV b a then y else x, nv, false⟩

/-- The comparisons of R234: the result and whether invalid is raised. -/
def ccFp (cc : Nat) (a b : FV) : Bool × Bool :=
  let un := isNan a || isNan b
  let sig := nanOf [a, b] == some true
  let c := cmpFV a b
  match cc with
  | 0 => (!un && c == .eq, sig)
  | 1 => (un || c != .eq, sig)
  | 2 => (!un && c == .lt, un)
  | 3 => (!un && c != .gt, un)
  | 4 => (!un && c == .gt, un)
  | 5 => (!un && c != .lt, un)
  | 6 => (un, sig)
  | _ => (!un, sig)

/-- A rounded to an integral value; its sign is kept and inexact is not raised (R232). -/
def rndInt (f : Fmt) (rm : Nat) (x : Nat) : FR :=
  match unpack f x with
  | .nan s => ⟨nanBits f, if s then fNV else 0#5, false⟩
  | .inf _ => ⟨x, 0#5, false⟩
  | .fin n m e =>
    if 0 ≤ e then ⟨x, 0#5, false⟩
    else
      let r := (roundAt rm n m e false 0).1
      let t := finish f 0 false (.num n r 0 false)
      ⟨t.bits, 0#5, false⟩
/-- A − trunc(A), with A's sign (R232). -/
def fracOf (f : Fmt) (x : Nat) : FR :=
  match unpack f x with
  | .nan s => ⟨nanBits f, if s then fNV else 0#5, false⟩
  | .inf n => ⟨signBit f n, 0#5, false⟩
  | .fin n m e =>
    if 0 ≤ e then ⟨signBit f n, 0#5, false⟩
    else
      let k := (-e).toNat
      let r := if bitLen m < k then m else m % 2 ^ k
      let t := finish f 0 false (.num n r e false)
      ⟨t.bits, 0#5, false⟩
/-- The class mask of R233. -/
def classOf (f : Fmt) (x : Nat) : Nat :=
  match unpack f x with
  | .nan s => if s then 2 ^ 8 else 2 ^ 9
  | .inf n => if n then 1 else 2 ^ 7
  | .fin n m _ =>
    if m = 0 then (if n then 2 ^ 3 else 2 ^ 4)
    else if isSub f x then (if n then 2 ^ 2 else 2 ^ 5)
    else if n then 2 else 2 ^ 6

/-- A value converted to an integer of the range given (R145). -/
def toInt (rm : Nat) (lo hi : Int) (a : FV) : Int × BitVec 5 :=
  match a with
  | .nan _ => (0, fNV)
  | .inf n => (if n then lo else hi, fNV)
  | .fin n m e =>
    if 128 < e + bitLen m then (if m = 0 then (0, 0#5) else (if n then lo else hi, fNV))
    else
      let r := roundAt rm n m e false 0
      let v : Int := if n then -(r.1 : Int) else r.1
      if v < lo then (lo, fNV) else if hi < v then (hi, fNV) else (v, if r.2 then fNX else 0#5)
/-- An exact integer as a value before rounding. -/
def ofIntEx (x : Int) : Ex := .num (x < 0) x.natAbs 0 false

/-! Conversions to narrow formats under a slot (R143, R144). MFLAGS bits: OVF32, SATN, NANP, UNFL. -/

def mOVF32 : BitVec 4 := 1#4
def mSATN : BitVec 4 := 2#4
def mNANP : BitVec 4 := 4#4
def mUNFL : BitVec 4 := 8#4

/-- An exact value converted to a slot's format by CRND and COVF: encoding and MFLAGS events (R143). -/
def slotConv (f : Fmt) (rm : Nat) (covf : Bool) (x : Ex) : Nat × BitVec 4 :=
  match x with
  | .nan _ => (nanBits f, mNANP)
  | .inf neg _ =>
    if f.kind = 2 then (maxBits f neg, mSATN)
    else if !covf then (maxBits f neg, mSATN)
    else if f.kind = 1 then (nanBits f, mNANP)
    else (infBits f neg, 0#4)
  | .num neg m e sticky =>
    if m = 0 && !sticky then (signBit f neg, 0#4)
    else
      let r := roundTo f.p (some (fmtQmin f)) rm neg m e sticky
      let mx := fmtMax f
      if magLe r.1 r.2.1 mx.1 mx.2 then (packFin f neg r.1 r.2.1, 0#4)
      else if f.kind = 2 || !covf then (maxBits f neg, mSATN)
      else if f.kind = 1 then (if towardsZero rm neg then maxBits f neg else nanBits f, mNANP)
      else (if towardsZero rm neg then maxBits f neg else infBits f neg, 0#4)

/-- The E8M0 scale of a value (R144). -/
def scaleOf (x : Ex) : Nat × BitVec 4 :=
  match x with
  | .num false m e _ =>
    if m = 0 then (0xFF, mNANP)
    else
      let k : Int := e + bitLen m - 1
      if k < -127 then (0, mSATN) else if 127 < k then (0xFE, mSATN) else ((k + 127).toNat, 0#4)
  | _ => (0xFF, mNANP)

/-! The functions of R146: an interval that holds every result the bound allows, and a free choice in it. -/

/-- FP32 encodings in the order of their values, −0 just below +0. -/
def ordOfBits (x : Nat) : Int := if x < 2 ^ 31 then x else -1 - ((x - 2 ^ 31 : Nat) : Int)
def bitsOfOrd (x : Int) : Nat := if 0 ≤ x then x.toNat else 2 ^ 31 + (-1 - x).toNat
/-- The signed value x × 2 ^ e rounded in a direction to FP32. -/
def fp32At (rm : Nat) (x : Int) (e : Int) : Nat := (finish fp32 rm false (.num (x < 0) x.natAbs e false)).bits
/-- A free choice among the FP32 values of the interval [lo, hi] × 2 ^ e: the same for the same operation and input bits. -/
def chooseIn (op : Nat) (input : W32) (lo hi : Int) (e : Int) : Nat :=
  let a := ordOfBits (fp32At 2 lo e)
  let b := ordOfBits (fp32At 3 hi e)
  if b < a then bitsOfOrd a else bitsOfOrd (a + (Config.transc op input % ((b - a).toNat + 1) : Nat))
/-- Limits put on a choice by the spec's own words: none below, none above. -/
def limitTo (lo hi x : Nat) : Nat :=
  if ordOfBits x < ordOfBits lo then lo else if ordOfBits hi < ordOfBits x then hi else x

/-- A free non-decreasing function of a number, n bits of it below those given: each value has a free threshold, which the number must reach for
the function to be at least that value. -/
def rising (op x : Nat) : Nat → Nat → Nat
  | 0, y => y
  | n + 1, y => rising op x n (if Config.transc op (BitVec.ofNat 32 (y + 2 ^ n)) ≤ x then y + 2 ^ n else y)
/-- A non-decreasing free choice among the FP32 values of [lo, hi] × 2 ^ e and of [least, most]: a free non-decreasing function of the input, both
in the order of their values, brought within these bounds, which rise with the input too (log entry 8). -/
def risingIn (op : Nat) (input : W32) (lo hi : Int) (e : Int) (least most : Nat) : Nat :=
  let y : Int := (rising op (ordOfBits input.toNat + 2 ^ 31).toNat 32 0 : Int) - 2 ^ 31
  limitTo least most (limitTo (fp32At 2 lo e) (fp32At 3 hi e) (bitsOfOrd y))

/-- ⌊π × 2 ^ 256⌋, ⌊ln 2 × 2 ^ 128⌋ and ⌊log₂ e × 2 ^ 128⌋. -/
def piFix : Nat := 0x3243f6a8885a308d313198a2e03707344a4093822299f31d0082efa98ec4e6c89
def ln2Fix : Nat := 0xb17217f7d1cf79abc9e3b39803f2f6af
def log2eFix : Nat := 0x171547652b82fe1777d0ffda0d23a7d11
/-- The fixed-point unit of the series below. -/
def one128 : Nat := 2 ^ 128

/-- The exponential series from a term on: x in units of 2 ^ −128. -/
def expSeries (x : Nat) : Nat → Nat → Nat → Nat
  | 0, _, _ => 0
  | n + 1, k, t => t + expSeries x n (k + 1) (t * x / one128 / (k + 1))
/-- 2 ^ f for a fraction f in units of 2 ^ −128, in the same units, below the exact value by less than 2 ^ −100. -/
def exp2Frac (f : Nat) : Nat := expSeries (f * ln2Fix / one128) 40 0 one128
/-- The alternating sine or cosine series. -/
def trigSeries (x2 : Nat) : Nat → Nat → Int → Int
  | 0, _, _ => 0
  | n + 1, k, t => t + trigSeries x2 n (k + 2) (-(t * (x2 : Int) / one128 / ((k + 1) * (k + 2) : Nat)))
/-- sin r and cos r for r from 0 to π ÷ 2, in units of 2 ^ −128. -/
def sinFix (r : Nat) : Int := trigSeries (r * r / one128) 30 1 r
def cosFix (r : Nat) : Int := trigSeries (r * r / one128) 30 0 one128
/-- The bits of log₂ of a number from 1 to 2 in units of 2 ^ −128, by squaring: n bits. -/
def log2Frac : Nat → Nat → Nat → Nat
  | 0, _, acc => acc
  | n + 1, x, acc =>
    let y := x * x / one128
    if 2 * one128 ≤ y then log2Frac n (y / 2) (2 * acc + 1) else log2Frac n y (2 * acc)

/-- The quadrant of a magnitude m × 2 ^ e and the rest below π ÷ 2 in units of 2 ^ −128. -/
def reduce (m : Nat) (e : Int) : Nat × Nat :=
  let x := if 0 ≤ e then m * 2 ^ (256 + e.toNat) else m * 2 ^ 256 / 2 ^ (-e).toNat
  let h := piFix / 2
  (x / h % 4, x % h / one128)
/-- sin of a magnitude, or with a quarter turn more its cosine, in units of 2 ^ −128. -/
def trigFix (m : Nat) (e : Int) (quarter : Nat) : Int :=
  let r := reduce m e
  match (r.1 + quarter) % 4 with
  | 0 => sinFix r.2
  | 1 => cosFix r.2
  | 2 => -sinFix r.2
  | _ => -cosFix r.2

/-- 1 ÷ A of a finite non-zero value (R146, R147). -/
def rcpFin (input : W32) (n : Bool) (m : Nat) (e : Int) : FR :=
  let k : Int := e + bitLen m - 1
  if k < -128 ∨ (k = -128 ∧ m = 2 ^ (bitLen m - 1)) then ⟨infBits fp32 n, fOF, false⟩
  else if m = 2 ^ (bitLen m - 1) then ⟨(finish fp32 0 false (.num n 1 (-k) false)).bits, 0#5, false⟩
  else
    -- 1 ÷ A lies between 2 ^ (−k − 1) and 2 ^ −k, so its exponent is −k − 1; units of 2 ^ −80 ulp
    let u : Int := max (-k - 1) (-126) - 103
    let y := 2 ^ 200 / m
    let q : Int := -200 - e
    let lo : Int := ((y / 2 ^ (u - q).toNat : Nat) : Int) + 1 - 2 ^ 80
    let hi : Int := ((y / 2 ^ (u - q).toNat : Nat) : Int) + 2 ^ 80
    let b := chooseIn 0x57 input (if n then -hi else lo) (if n then -lo else hi) u
    let b := if (b % 2 ^ 31) ≥ infBits fp32 false then maxBits fp32 n else b
    ⟨b, 0#5, false⟩
/-- 1 ÷ √A of a finite positive value (R146, R147). -/
def rsqFin (input : W32) (m : Nat) (e : Int) : FR :=
  let k : Int := e + bitLen m - 1
  if m = 2 ^ (bitLen m - 1) ∧ k % 2 = 0 then ⟨(finish fp32 0 false (.num false 1 (-(k / 2)) false)).bits, 0#5, false⟩
  else
    let odd := (e % 2).toNat
    -- √(2 ^ 240 ÷ (m × 2 ^ odd)) × 2 ^ (−120 − ⌊e ÷ 2⌋)
    let y := isqrt (2 ^ 240 / (m * 2 ^ odd))
    let q : Int := -120 - e / 2
    let ex : Int := q + bitLen y - 1
    let u : Int := ex - 103
    let t : Int := ((y / 2 ^ (u - q).toNat : Nat) : Int)
    ⟨chooseIn 0x58 input (t + 2 - 2 ^ 80) (t + 2 ^ 80) u, 0#5, false⟩
/-- 2 ^ A of a finite value that is neither zero nor out of range (R146, R147): between the powers of two of the integers about it. At −150 exactly,
which is no exact case, the bound and the function's rise leave +0 and 2 ^ −149 (log entry 8). -/
def exp2Fin (input : W32) (n : Bool) (m : Nat) (e : Int) : FR :=
  let x : Int := if 0 ≤ e then (m : Int) * 2 ^ (128 + e.toNat) else (m : Int) * one128 / 2 ^ (-e).toNat
  let cut : Int := if e < -128 then 1 else 0
  let x := if n then -x - cut else x
  let i := x / one128
  let f := (x % one128).toNat
  if (0 ≤ e ∨ (f = 0 ∧ cut = 0)) ∧ -150 < i then ⟨(finish fp32 0 false (.num false 1 i false)).bits, 0#5, false⟩
  else
    let y := exp2Frac f
    let ex := i
    let u : Int := max ex (-126) - 93
    let t : Int := ((y / 2 ^ (u - (i - 128)).toNat : Nat) : Int)
    let pow (k : Int) : Nat := (finish fp32 0 false (.num false 1 k false)).bits
    let least := if i < -149 then 0 else pow i
    let most := if 127 ≤ i then maxBits fp32 false else pow (i + 1)
    ⟨risingIn 0x5B input (t + 2 - 2 ^ 71) (t + 2 ^ 71) u least most, 0#5, false⟩
/-- log₂ A of a finite positive value (R146): between the integers about it. -/
def log2Fin (input : W32) (m : Nat) (e : Int) : FR :=
  let k : Int := e + bitLen m - 1
  if m = 2 ^ (bitLen m - 1) then ⟨(finish fp32 0 false (ofIntEx k)).bits, 0#5, false⟩
  else
    let z := m * one128 / 2 ^ (bitLen m - 1)
    let y : Int := k * 2 ^ 80 + log2Frac 80 z 0
    let ex : Int := (bitLen y.natAbs : Int) - 81
    let two : Int := 2 ^ (max (ex + 58) 0).toNat
    let near : Int := if k = 0 ∨ k = -1 then 2 ^ 58 else 0
    let d := max two near
    let int (k : Int) : Nat := (finish fp32 0 false (ofIntEx k)).bits
    ⟨risingIn 0x5C input (y + 2 - d) (y + d) (-80) (int k) (int (k + 1)), 0#5, false⟩
/-- sin A or cos A of a finite value (R146). -/
def trigFin (op : Nat) (input : W32) (n : Bool) (m : Nat) (e : Int) : FR :=
  let y := trigFix m e (if op = 0x5E then 1 else 0)
  let y := if n && op != 0x5E then -y else y
  let d : Int := 2 ^ 106 - 2 ^ 30
  let b := chooseIn op input (y - d) (y + d) (-128)
  ⟨limitTo 0xBF800000 0x3F800000 b, 0#5, false⟩
/-- tanh A of a finite value (R146), of A's sign. -/
def tanhFin (input : W32) (n : Bool) (m : Nat) (e : Int) : FR :=
  -- 9.1 lies between 9.1 − 2 ^ −20 and itself: 0x4111999A is the least FP32 value at or above it
  if (input.toNat % 2 ^ 31) ≥ 0x4111999A then ⟨if n then 0xBF800000 else 0x3F800000, 0#5, false⟩
  else
    let x := if 0 ≤ e then m * 2 ^ (128 + e.toNat) else m * one128 / 2 ^ (-e).toNat
    let t := 2 * x * log2eFix / one128
    let w := exp2Frac (t % one128) * 2 ^ (t / one128)
    let y : Int := ((w - one128) * one128 / (w + one128) : Nat)
    let d : Int := 2 ^ 105
    if n then ⟨risingIn 0x5F input (-y - d) (d - y - 2 ^ 30) (-128) 0xBF800000 0x80000000, 0#5, false⟩
    else ⟨risingIn 0x5F input (y + 2 ^ 30 - d) (y + d) (-128) 0 0x3F800000, 0#5, false⟩

/-- A function of R146 on an FP32 encoding (R147). -/
def transcendental (op : Nat) (x : W32) : FR :=
  match unpack fp32 x.toNat with
  | .nan s => ⟨nanBits fp32, if s then fNV else 0#5, false⟩
  | .inf n =>
    match op with
    | 0x57 => ⟨signBit fp32 n, 0#5, false⟩
    | 0x58 => if n then ⟨nanBits fp32, fNV, false⟩ else ⟨0, 0#5, false⟩
    | 0x5B => if n then ⟨0, 0#5, false⟩ else ⟨infBits fp32 false, 0#5, false⟩
    | 0x5C => if n then ⟨nanBits fp32, fNV, false⟩ else ⟨infBits fp32 false, 0#5, false⟩
    | 0x5F => ⟨if n then 0xBF800000 else 0x3F800000, 0#5, false⟩
    | _ => ⟨nanBits fp32, fNV, false⟩
  | .fin n m e =>
    if m = 0 then
      match op with
      | 0x57 => ⟨infBits fp32 n, fDZ, false⟩
      | 0x58 => ⟨infBits fp32 n, fDZ, false⟩
      | 0x5B => ⟨0x3F800000, 0#5, false⟩
      | 0x5C => ⟨infBits fp32 true, fDZ, false⟩
      | 0x5E => ⟨0x3F800000, 0#5, false⟩
      | _ => ⟨x.toNat, 0#5, false⟩
    else
      match op with
      | 0x57 => rcpFin x n m e
      | 0x58 => if n then ⟨nanBits fp32, fNV, false⟩ else rsqFin x m e
      | 0x5B =>
        if !n && magLe 1 7 m e then ⟨infBits fp32 false, fOF, false⟩
        else if n && !magLe m e 150 0 then ⟨0, fUF, false⟩
        else exp2Fin x n m e
      | 0x5C => if n then ⟨nanBits fp32, fNV, false⟩ else log2Fin x m e
      | 0x5F => tanhFin x n m e
      | o => trigFin o x n m e

end Sys2Proof.Machine
end

