-- ==== Sys2Proof/Machine/Flags.lean ====
section
/-! DEFINITION. The flag registers MFLAGS and FPCTL, and the format slots that enable the flags of a slot operation (R127, R128, R136, R137,
R142). -/

namespace Sys2Proof.Machine

/-- The MFLAGS event of a flush (R141). -/
def unflOf (b : Bool) : BitVec 4 := if b then mUNFL else 0#4

/-- MFLAGS as read (R136). -/
def mflagsWord (m : BitVec 4) : W64 := m.zeroExtend 64
/-- FPCTL as read (R142). -/
def fpctlWord (m : BitVec 5) : W64 := m.zeroExtend 64

/-! The fields of a format slot (R127). -/

def slotAfmt (x : W64) : Nat := fld x 0 4
def slotBfmt (x : W64) : Nat := fld x 4 4
def slotAccf (x : W64) : Nat := fld x 16 2
def slotAsc (x : W64) : Nat := fld x 18 2
def slotBsc (x : W64) : Nat := fld x 20 2
def slotCovf (x : W64) : Bool := x.getLsbD 24
def slotCrnd (x : W64) : Nat := fld x 25 2
/-- FEN in the order of MFLAGS: OVF32, SATN, NANP, UNFL. -/
def slotFen (x : W64) : BitVec 4 := x.extractLsb' 32 4

/-- Every reserved field of a slot is zero and no field holds a reserved value (R127). -/
def slotClean (x : W64) : Bool :=
  fld x 36 28 == 0 && fld x 27 5 == 0 && fld x 22 2 == 0 && fld x 8 8 == 0 && slotAccf x != 3 && slotAsc x != 3 && slotBsc x != 3
    && slotAfmt x < 8 && slotBfmt x < 8
/-- A floating-point element format. -/
def isFpFmt (n : Nat) : Bool := 1 ≤ n && n ≤ 5
/-- An integer element format. -/
def isIntFmt (n : Nat) : Bool := n == 6 || n == 7
/-- A slot is supported for conversion use; the weaker test of the .e8m0 forms (R128). -/
def convSlotOk (e8 : Bool) (x : W64) : Bool := slotClean x && (e8 || isFpFmt (slotAfmt x))
/-- A slot is supported for matrix use (R128). -/
def matSlotOk (x : W64) : Bool :=
  slotClean x && ((isFpFmt (slotAfmt x) && isFpFmt (slotBfmt x)) || (isIntFmt (slotAfmt x) && isIntFmt (slotBfmt x)))
    && (slotAsc x != 2 || 3 ≤ slotAfmt x) && (slotBsc x != 2 || 3 ≤ slotBfmt x)

/-- The floating-point formats of AFMT and BFMT (R127). -/
def slotFmt (n : Nat) : Fmt := match n with
  | 1 => bf16
  | 2 => fp16
  | 3 => e4m3
  | 4 => e5m2
  | _ => e2m1
/-- Bits of an element of a format. -/
def fmtBits (n : Nat) : Nat := if n ≤ 2 then 16 else if n = 5 then 4 else 8
/-- Bits of the element of a slot conversion (R240). -/
def elemWidth (e8 : Bool) (x : W64) : Nat := if e8 then 8 else fmtBits (slotAfmt x)

end Sys2Proof.Machine
end

