-- ==== Sys2Proof/Machine/MemOps.lean ====
section
/-! DEFINITION. The order in which pending accesses may perform (R105 to R109, R114), the arithmetic of atomics (R102 to R104, R250), and the
caches and replicas that a fill passes (R14, R89, R99). -/

namespace Sys2Proof.Machine

/-! The store buffer. -/

/-- Entries of a load's own lane that hold some of its bytes (R114). -/
def laneEntries (g : Gang) (a : Access) : List Access :=
  g.pend.filter fun b => b.seq < a.seq && isEntry b.kind && sharesLane a b && sameBytes a b
/-- The youngest entry that a load may be served from: a plain store, or an exchange without return, that covers its bytes. A load of several
lanes is served from none, for those of other lanes never read an entry (R114). -/
def forwarder (g : Gang) (a : Access) : Option Access :=
  match (laneEntries g a).getLast? with
  | some b =>
    if b.lanes == a.lanes && (b.kind == .store || (b.kind == .red && b.op == 8#4 && b.parts.length == 1)) && rangeIn a.pa a.bytes b.pa b.bytes then some b else none
  | none => none
/-- A load may be served from that entry: nothing but its lane's entries over its bytes stands before it. -/
def mayForward (core : Nat) (g : Gang) (a : Access) : Bool :=
  let es := laneEntries g a
  !g.pend.any fun b => b.seq < a.seq &&
    (fenceHolds core g.pend b a false || (precedes core b a && !(es.contains b && !(isAcquire b && inRegion b.scope core a))))

/-- A load through a hank that was returned since is still out over some bytes: a later write of its workgroup to them waits, so that the load returns
the value it would have returned without the return (R119). -/
def returnedLoad (w : Wg) (seq va n : Nat) : Bool :=
  w.gangs.any fun g => g.pend.any fun b => b.kind == .load && b.noInstall && b.seq < seq && rangesMeet b.va.toNat b.bytes va n

/-! Atomics (R102 to R104, R250). -/

/-- A float operation of R250 in a format of n bytes (R104). -/
def atomFloat (op n old v : Nat) : Nat :=
  let f := if n = 2 then bf16 else fp32
  if op = 9 then (finish f 0 false (addEx 0 (unpack f old) (unpack f v))).bits
  else (minMax f (op == 11) old v).bits
/-- The result at the place, in n bytes (R250). -/
def atomFn (op n old v : Nat) : Nat :=
  let w := 8 * n
  let sx (x : Nat) : Int := sextN w x
  match op with
  | 0 => (old + v) % 2 ^ w
  | 1 => if sx old ≤ sx v then old else v
  | 2 => if sx v ≤ sx old then old else v
  | 3 => min old v
  | 4 => max old v
  | 5 => old &&& v
  | 6 => old ||| v
  | 7 => old ^^^ v
  | 8 => v
  | _ => atomFloat op n old v
/-- The group's values pre-reduced in ascending lane order (R102). -/
def atomSum (op n : Nat) : List Nat → Nat
  | [] => 0
  | v :: vs => vs.foldl (atomFn op n) v
/-- The prefixes returned, lane by lane (R102). -/
def atomPrefixes (op n : Nat) : Nat → List Nat → List Nat
  | _, [] => []
  | t, v :: vs => t :: atomPrefixes op n (atomFn op n t v) vs

/-- One access's effect on its element: the new bytes, if it writes, and the value each part gets (R102, R103, R249 to R252). -/
def applyAccess (a : Access) (old : List Byte) : Option (List Byte) × List (List Byte) :=
  let o := leNat old
  let vs := a.parts.map fun p => p.x.toNat
  match a.kind with
  | .store => (some a.data, [])
  | .red => (some (leBytes a.bytes (atomFn a.op.toNat a.bytes o (atomSum a.op.toNat a.bytes vs))), [])
  | .atom =>
    (some (leBytes a.bytes (atomFn a.op.toNat a.bytes o (atomSum a.op.toNat a.bytes vs))),
      (atomPrefixes a.op.toNat a.bytes o vs).map (leBytes a.bytes))
  | .cas =>
    (match a.parts with
      | p :: _ => if o = p.x.toNat then some (leBytes a.bytes p.y.toNat) else none
      | [] => none, a.parts.map fun _ => old)
  | _ => (none, a.parts.map fun _ => old)

/-! Fills and replicas (R14, R89, R431). -/

/-- A message about the replicas of a page. -/
def tellsOf (page : Nat) : Msg → Bool
  | .collapseReq p _ _ _ _ => p == page
  | .collapseAck p _ _ _ _ => p == page
  | .evictNotice p _ _ _ => p == page
  | _ => false
/-- A fill through an S hank from a cluster of another die makes a replica of its 64 KiB page, when the directory has room, no X entry covers
it and COLL is clear; the line then stands in the cluster's slice (R13, R14, R89). -/
def replicaFill (s : State) (core x : Nat) : State :=
  let page := x / 65536
  let me := (dieOfCore core, clusterOfCore core)
  let c := 24 * me.1 + me.2
  let run : Run := ⟨homeOf x, page * 256, 256⟩
  let there := s.reps.filter fun p => p.page * 65536 / dieBytes == homeOf x
  let spare := there.find? fun p => p.set.isEmpty && !s.msgs.any (tellsOf p.page)
  let room := there.length < 16384 || spare.isSome
  let line (s : State) : State :=
    if s.repLines.contains (c, lineBase x) then { s with repLines := (c, lineBase x) :: s.repLines.erase (c, lineBase x) }
    else let s := sliceRoom s c (setOf x) 0; { s with repLines := (c, lineBase x) :: s.repLines }
  if x < 2 ^ 48 && isDram x && homeOf x != dieOfCore core && !(s.own.any fun e => runsMeet (entryRun e) run && (e.kind == 1#2 || e.coll)) then
    match s.reps.find? fun p => p.page == page with
    | some p =>
      if p.set.any fun y => (y.1, y.2.1) == me then line s
      else line { s with reps := updFirst (fun p => p.page == page) (fun p => { p with set := (me.1, me.2, p.seq) :: p.set }) s.reps }
    | none =>
      if !room then s
      else
        let old := if there.length < 16384 then s.reps else s.reps.filter fun p => spare != some p
        line { s with reps := ⟨page, [(me.1, me.2, 0)], 0⟩ :: old }
  else s
/-- A core's cluster holds a replica's copy of the line (R89). -/
def replicaHit (s : State) (core x : Nat) : Bool := s.repLines.contains (core / 8, lineBase x)
/-- A slice evicts replicas of pages (R90). -/
def evictReplicas (s : State) (core : Nat) (pages : List Nat) : State := pages.foldl (fun s p => replicaGone s (core / 8) p) s
/-- A core fills a sector into its L1 after room has been made: from its cluster's replica, or through the home slice (R14, R89). -/
def fillSector (s : State) (core x : Nat) (replica : Bool) (ev : Evict) : State :=
  let s := evictReplicas (evict s core ev.l1 ev.slice) core ev.replicas
  if replica then l1Put s core x else l1Install s core x

/-- Waiting lanes of WAITV whose watched bytes a write may have changed re-read (R253): the comparison on an element. -/
def waitvHolds (a : Access) (old : List Byte) : Bool :=
  match a.parts with
  | p :: _ =>
    let x := leNat old
    let cc := a.op.toNat % 8
    let ge (u : Bool) (l r : Nat) : Int × Int := if u then ((l : Int), (r : Int)) else (sextN (8 * a.bytes) l, sextN (8 * a.bytes) r)
    let v := ge (a.op.getLsbD 3) x p.x.toNat
    match cc with
    | 0 => v.1 == v.2
    | 1 => v.1 != v.2
    | 2 => v.1 < v.2
    | 3 => v.1 ≤ v.2
    | 4 => v.2 < v.1
    | _ => v.2 ≤ v.1
  | [] => false

/-- Places where a released WAITV lane goes on (R253): its access leaves the list, and the lane passes the word. -/
def waitvDone (s : State) (tag gang : Nat) (a : Access) : State :=
  releaseLanes (dropPend s tag gang a.seq) tag gang a.lanes
/-- The watches over a range re-read after a write that performed there, gang by gang (R253). -/
def rereadWatches (s : State) (x n : Nat) : State :=
  let all := s.wgs.flatMap fun w => (w.gangs.mapIdx fun i g => (g.pend.filter fun a => a.kind == .waitv && a.watch && rangesMeet a.pa a.bytes x n).map
    fun a => (w.tag, i, a)).flatten
  all.foldl (fun s (t : Nat × Nat × Access) => if waitvHolds t.2.2 (homeBytes s t.2.2.pa t.2.2.bytes) then waitvDone s t.1 t.2.1 t.2.2 else s) s
/-- Bytes written at a home, with the watches over them re-read. -/
def writeAtHome (s : State) (x : Nat) (bs : List Byte) : State := rereadWatches (homeWrites s x bs) x bs.length
/-- Watch entries in use at a home (R253). -/
def watchCount (s : State) (home : Nat) : Nat :=
  (s.wgs.map fun w => (w.gangs.map fun g => (g.pend.filter fun a => a.kind == .waitv && a.watch && homeOf a.pa == home).length).foldl (· + ·) 0).foldl (· + ·) 0
/-- What other modules may have written meanwhile in memory of theirs: it reads as a free value (log entry 4). -/
def refreshRemote (s : State) (x n : Nat) : State := if x < 2 ^ 48 then s else smear s x n

/-- After an access has performed: fences are pruned and returns that waited for it go out. -/
def settle (s : State) (tag gang : Nat) : State := tryReturns (updGang s tag gang pruneFences)

end Sys2Proof.Machine
end

