-- ==== Sys2Proof/Machine/MemAcc.lean ====
section
/-! DEFINITION. The loads, stores, atomics, value waits, fences and cache maintenance of class MEM (R243 to R256). -/

namespace Sys2Proof.Machine

/-! Addresses and checks (R243, R244). -/

/-- The hank a format-M word names: h0 to h15, then w0 to w7 (R167). -/
def hankNo (g : Guard) (f : FmtM) : Nat := if g.fe.getLsbD 2 then 16 + f.h.toNat else f.h.toNat
/-- The offset immediate: IMM24, or OFF12 in the forms of R244. -/
def offImm (f : FmtM) (short : Bool) : W64 := if short then (off12Of f).signExtend 64 else f.imm.signExtend 64
/-- The effective address from a hank and an offset register's value (R243). -/
def eaOf (k : Hank) (off : W64) (f : FmtM) (short : Bool) : W64 := BitVec.ofNat 64 (hankLo (seenHank k)) + off + offImm f short
/-- A lane's offset register, zero-extended; 0 for none. -/
def laneOff (f : FmtM) (l : Lane) : W64 := if f.a = 0xFF#8 then 0#64 else (vreg l f.a.toNat).zeroExtend 64
/-- The elements of an access: one of up to 8 bytes, or 8-byte ones (R100). -/
def elements (va n : Nat) : List (Nat × Nat) := if n ≤ 8 then [(va, n)] else (List.range (n / 8)).map fun i => (va + 8 * i, 8)
/-- The key of each element, or the address of the first that does not translate. -/
def translateAll (s : State) (ctx : Nat) : List (Nat × Nat) → Except Nat (List (Nat × Nat × Nat))
  | [] => .ok []
  | (va, n) :: r =>
    match translate s ctx va with
    | none => .error va
    | some k => match translateAll s ctx r with
      | .ok xs => .ok ((va, k, n) :: xs)
      | .error e => .error e
/-- The checks of one lane's access in the order of R243, then R363's: the elements with their keys, or the trap and its INFO. -/
def checkAccess (s : State) (ctx : Nat) (k : Hank) (u : Use) (ea : W64) (n : Nat) : Except (Trap × W64) (List (Nat × Nat × Nat)) :=
  match hankTrap k u ea.toNat n with
  | some t => .error (t, ea)
  | none =>
    if ea.toNat % min n 8 ≠ 0 then .error (.alignment, ea)
    else match translateAll s ctx (elements ea.toNat n) with
      | .ok xs => match xs.find? fun x => !reachable s x.2.1 with
        | some x => .error (.fabricError, fabricAddr x.2.1)
        | none => .ok xs
      | .error e => .error (.pageFault, BitVec.ofNat 64 e)

/-- The place of an element for a hank of a kind (R99). -/
def placeOf (k : Hank) (key : Nat) : Place :=
  if k.kind ≠ 3#2 then .core else match moduleOf key with
    | some m => .remote m
    | none => .home (homeOf key)

/-- One lane's check. -/
structure LaneAcc where
  lane : Nat
  ea : W64
  res : Except (Trap × W64) (List (Nat × Nat × Nat))

/-- The accesses of the lanes of a set through a hank. -/
def laneAccs (s : State) (h : Here) (g : Guard) (f : FmtM) (u : Use) (short : Bool) (m : LaneMask) : List LaneAcc :=
  let k := getHank h.w h.iss.gang (hankNo g f)
  (bitsOf m).map fun n =>
    let ea := eaOf k (laneOff f (laneOf h.g n)) f short
    ⟨n, ea, checkAccess s h.w.ctx k u ea (wBytes f.w)⟩
/-- The traps of the lanes that are not helpers (R53, R54). -/
def accTraps (h : Here) (xs : List LaneAcc) : List TrapOf :=
  xs.filterMap fun x => match x.res with
    | .error (t, i) => if isHelper h.w h.iss.gang x.lane then none else some ⟨t, [(x.lane, i)]⟩
    | .ok _ => none
/-- The traps of every lane: CLNR and INVR are neither loads nor effects of R53, and a helper lane's takes its trap (R255, R256). -/
def allTraps (xs : List LaneAcc) : List TrapOf :=
  xs.filterMap fun x => match x.res with
    | .error (t, i) => some ⟨t, [(x.lane, i)]⟩
    | .ok _ => none
/-- The helper lanes whose load would trap: it returns zero (R54). -/
def accZero (h : Here) (xs : List LaneAcc) : LaneMask :=
  maskOf fun n => isHelper h.w h.iss.gang n && xs.any fun x => x.lane == n && match x.res with
    | .error _ => true
    | .ok _ => false
/-- The lanes whose access passed, with its elements. -/
def accGood (xs : List LaneAcc) : List (Nat × List (Nat × Nat × Nat)) :=
  xs.filterMap fun x => match x.res with
    | .ok es => some (x.lane, es)
    | .error _ => none
/-- One lane. -/
def only (n : Nat) : LaneMask := maskOf fun k => k == n
/-- Lanes of a list. -/
def lanesOf {α : Type} (xs : List (Nat × α)) : LaneMask := maskOf fun n => xs.any fun x => x.1 == n

/-! Loads. -/

/-- LD (R246): each lane's destination turns empty, and its elements join the pending accesses. -/
def ldBody (g : Guard) (f : FmtM) (h : Here) (tru : LaneMask) (s : State) : Fx :=
  let k := getHank h.w h.iss.gang (hankNo g f)
  let xs := laneAccs s h g f .load false tru
  let good := accGood xs
  let n := vRegs f.w
  let s := updLanes h (accZero h xs) (fun _ l => vputs l f.d.toNat n 0) s
  let s := updLanes h (lanesOf good) (fun _ l => vmark l f.d.toNat n) s
  let group (x : Nat × List (Nat × Nat × Nat)) : List Access := x.2.mapIdx fun i e =>
    { seq := 0, kind := .load, lanes := only x.1, parts := [{ lane := x.1 }], va := BitVec.ofNat 64 e.1, pa := e.2.1, bytes := e.2.2,
      sx := f.sx, full := max 4 e.2.2, place := .core, dst := .vec (f.d.toNat + 2 * i) (if e.2.2 = 8 then 2 else 1),
      span := (f.d.toNat, if x.2.length = 1 then 0 else n), ticket := k.ticket }
  { s := pushHere h (good.map group) s, traps := accTraps h xs }
/-- LD (R246). -/
def execLd (g : Guard) (f : FmtM) (s : State) : Host.Outcome State Fault Refusal := runWord (.ld g f) g (ldBody g f) s

/-- The scalar offset register of LDS and STS. -/
def scalOff (f : FmtM) (h : Here) : W64 := if f.a = 0xFF#8 then 0#64 else (srcS h f.a.toNat).extractLsb' 0 32 |>.zeroExtend 64
/-- LDS (R247): one load an issue. -/
def ldsBody (g : Guard) (f : FmtM) (h : Here) (tru : LaneMask) (s : State) : Fx :=
  if tru = 0#32 then { s := s }
  else
    let k := getHank h.w h.iss.gang (hankNo g f)
    let ea := eaOf k (scalOff f h) f false
    let n := sRegs f.w
    match checkAccess s h.w.ctx k .load ea (wBytes f.w) with
    | .error (t, i) =>
      if mains h tru = 0#32 then { s := onGang h (fun g => (List.range n).foldl (fun g i => putS h (f.d.toNat + i) 0#64 g) g) s }
      else trapFx s t (mains h tru) i
    | .ok es =>
      let s := onGang h (fun g => (List.range n).foldl (fun g i => markS h (f.d.toNat + i) g) g) s
      let group : List Access := es.mapIdx fun i e =>
        { seq := 0, kind := .load, lanes := tru, va := BitVec.ofNat 64 e.1, pa := e.2.1, bytes := e.2.2, sx := f.sx, full := 8,
          parts := [{ lane := lowest tru }], place := .core, dst := .scal (f.d.toNat + i) 1 (dstQuads h),
          span := (f.d.toNat, if es.length = 1 then 0 else n), ticket := k.ticket }
      { s := pushHere h [group] s }
/-- LDS (R247). -/
def execLds (g : Guard) (f : FmtM) (s : State) : Host.Outcome State Fault Refusal := runWord (.lds g f) g (ldsBody g f) s

/-! Stores. -/

/-- The buffer merges a lane's release exchange with its next relaxed exchange or plain store of the same element, with no entry of the lane
between them, if it chooses to (R116). It does not where a load of those bytes still waits between them, which would read the later value. -/
def mergeTarget (g : Gang) (a : Access) : Option Nat :=
  match (g.pend.filter fun b => isEntry b.kind && sharesLane a b).getLast? with
  | some b =>
    if b.kind == .red && b.op == 8#4 && b.relForm && b.lanes == a.lanes && b.pa == a.pa && b.bytes == a.bytes
      && (a.kind == .store || (a.kind == .red && a.op == 8#4 && !a.relForm))
      && !(g.pend.any fun c => b.seq < c.seq && isRead c.kind && sharesLane a c && sameBytes a c) then some b.seq else none
  | none => none
/-- A group of entries joins the buffer, or merges. -/
def pushEntry (h : Here) (s : State) (xs : List Access) : State :=
  match xs with
  | [a] =>
    let g := match findWg s h.iss.wg with
      | some w => gangOf w h.iss.gang
      | none => h.g
    match mergeTarget g a with
    | some q =>
      if Config.freeBit s.freeCtr then
        let v := if a.kind == .store then leNat a.data else (a.parts.map fun p => p.x.toNat).getLastD 0
        { updPend s h.iss.wg h.iss.gang q (fun b =>
              { b with parts := b.parts.map fun p => { p with x := BitVec.ofNat 64 v }
                       pc2 := if a.kind == .red then some a.pc else b.pc2 }) with
            freeCtr := s.freeCtr + 1 }
      else pushHere h [xs] { s with freeCtr := s.freeCtr + 1 }
    | none => pushHere h [xs] s
  | _ => pushHere h [xs] s
/-- The entries of a word join the buffer in lane order, or the word waits for room (R114). -/
def storeFx (h : Here) (groups : List (List Access)) (traps : List TrapOf) (s : State) : Fx :=
  if !hasEntries h.g groups.length then wantFx (.entries groups.length) s
  else { s := groups.foldl (pushEntry h) s, traps := traps }

/-- A lane's store as elements. -/
def storeGroup (k : Hank) (lanes : LaneMask) (lane : Nat) (es : List (Nat × Nat × Nat)) (data : Nat) : List Access :=
  es.mapIdx fun i e =>
    { seq := 0, kind := .store, lanes := lanes, parts := [{ lane := lane }], va := BitVec.ofNat 64 e.1, pa := e.2.1, bytes := e.2.2,
      data := leBytes e.2.2 (data / 2 ^ (64 * i)), place := .core, ticket := k.ticket }
/-- ST (R246). -/
def stBody (g : Guard) (f : FmtM) (h : Here) (tru : LaneMask) (s : State) : Fx :=
  let k := getHank h.w h.iss.gang (hankNo g f)
  let xs := laneAccs s h g f .store false (mains h tru)
  storeFx h ((accGood xs).map fun x => storeGroup k (only x.1) x.1 x.2 (vregs (laneOf h.g x.1) f.d.toNat (vRegs f.w))) (accTraps h xs) s
/-- ST (R246). -/
def execSt (g : Guard) (f : FmtM) (s : State) : Host.Outcome State Fault Refusal := runWord (.st g f) g (stBody g f) s
/-- STS (R247): one store an issue, the entry of the lowest lane. -/
def stsBody (g : Guard) (f : FmtM) (h : Here) (tru : LaneMask) (s : State) : Fx :=
  let m := mains h tru
  if m = 0#32 then { s := s }
  else
    let k := getHank h.w h.iss.gang (hankNo g f)
    let ea := eaOf k (scalOff f h) f false
    match checkAccess s h.w.ctx k .store ea (wBytes f.w) with
    | .error (t, i) => trapFx s t m i
    | .ok es => storeFx h [storeGroup k (only (lowest m)) (lowest m) es (srcSs h f.d.toNat (sRegs f.w))] [] s
/-- STS (R247). -/
def execSts (g : Guard) (f : FmtM) (s : State) : Host.Outcome State Fault Refusal := runWord (.sts g f) g (stsBody g f) s

/-! Scratchpad accesses (R248). -/

/-- A lane's scratchpad offset, as the 64-bit sum. -/
def scratchOff (f : FmtM) (l : Lane) : W64 := laneOff f l + f.imm.signExtend 64
/-- The checks of R248, the range before the alignment (log entry 131). -/
def scratchTrap (w : Wg) (f : FmtM) (l : Lane) : Option (Trap × W64) :=
  let o := scratchOff f l
  if w.scratchSize < o.toNat + wBytes f.w then some (.scratchRange, o)
  else if o.toNat % min (wBytes f.w) 8 ≠ 0 then some (.alignment, o)
  else none
/-- The lanes with their scratchpad traps. -/
def scratchTraps (f : FmtM) (h : Here) (m : LaneMask) : List (Nat × Trap × W64) :=
  (bitsOf m).filterMap fun n => (scratchTrap h.w f (laneOf h.g n)).map fun t => (n, t)
/-- A lane's scratchpad access by elements, as the pending accesses hold it (R99, R100, R248). -/
def scratchGroup (kind : AKind) (f : FmtM) (h : Here) (m : Nat) : List Access :=
  let o := (scratchOff f (laneOf h.g m)).toNat
  let n := vRegs f.w
  (elements o (wBytes f.w)).mapIdx fun i e =>
    { seq := 0, kind := kind, lanes := only m, parts := [{ lane := m }], va := BitVec.ofNat 64 e.1, pa := 2 ^ 60 + e.1, bytes := e.2, sx := f.sx,
      full := max 4 e.2, place := .scratch
      data := if kind == .stsp then leBytes e.2 (vregs (laneOf h.g m) f.d.toNat n / 2 ^ (64 * i)) else []
      dst := if kind == .stsp then .none_ else .vec (f.d.toNat + 2 * i) (if e.2 = 8 then 2 else 1)
      span := (f.d.toNat, if kind == .stsp || wBytes f.w ≤ 8 then 0 else n) }
/-- LDSP (R248): each lane's destination turns empty, and its elements join the pending accesses, which perform in program order. -/
def ldspBody (f : FmtM) (h : Here) (tru : LaneMask) (s : State) : Fx :=
  let bad := scratchTraps f h tru
  let good := tru &&& ~~~lanesOf bad
  let n := vRegs f.w
  let helpers := maskOf fun m => isHelper h.w h.iss.gang m && (lanesOf bad).getLsbD m
  let s := updLanes h helpers (fun _ l => vputs l f.d.toNat n 0) s
  let s := updLanes h good (fun _ l => vmark l f.d.toNat n) s
  { s := pushHere h ((bitsOf good).map (scratchGroup .load f h)) s,
    traps := bad.filterMap fun x => if isHelper h.w h.iss.gang x.1 then none else some ⟨x.2.1, [(x.1, x.2.2)]⟩ }
/-- LDSP (R248). -/
def execLdsp (g : Guard) (f : FmtM) (s : State) : Host.Outcome State Fault Refusal := runWord (.ldsp g f) g (ldspBody f) s
/-- STSP (R248): each lane's elements join the pending accesses, outside the store buffer. -/
def stspBody (f : FmtM) (h : Here) (tru : LaneMask) (s : State) : Fx :=
  let m := mains h tru
  let bad := scratchTraps f h m
  let good := m &&& ~~~lanesOf bad
  { s := pushHere h ((bitsOf good).map (scratchGroup .stsp f h)) s, traps := bad.map fun x => ⟨x.2.1, [(x.1, x.2.2)]⟩ }
/-- STSP (R248). -/
def execStsp (g : Guard) (f : FmtM) (s : State) : Host.Outcome State Fault Refusal := runWord (.stsp g f) g (stspBody f) s

/-! Common-region loads and atomics (R249 to R252). -/

/-- Acquire and release of ORD (R244). -/
def ordAcq (f : FmtM) : Bool := (ordOf f).testBit 0
def ordRel (f : FmtM) : Bool := (ordOf f).testBit 1
/-- Lanes that name one element, with the lanes in ascending order (R102). -/
def groupByKey : List (Nat × Nat × Nat) → List (Nat × Nat × List Nat)
  | [] => []
  | (lane, va, key) :: r =>
    let gs := groupByKey r
    if gs.any fun x => x.2.1 == key then gs.map fun x => if x.2.1 == key then (x.1, x.2.1, lane :: x.2.2) else x
    else (va, key, [lane]) :: gs
/-- The single element of each good lane: lane, address, key. -/
def firstElems (xs : List (Nat × List (Nat × Nat × Nat))) : List (Nat × Nat × Nat) :=
  xs.filterMap fun x => match x.2 with
    | e :: _ => some (x.1, e.1, e.2.1)
    | [] => none
/-- An access that its home performs, on request (R99). -/
def atHome (a : Access) : Bool := (a.kind == .ldc || a.kind == .waitv || a.kind == .atom || a.kind == .cas) && a.place != .core
/-- Requests to homes leave for the memory-side ALUs, those to another module on the plane of their address (R99, R363). -/
def sendRequests (h : Here) (first : Nat) (s : State) : State :=
  match findWg s h.iss.wg with
  | none => s
  | some w =>
    let fresh := (gangOf w h.iss.gang).pend.filter fun a => first ≤ a.seq && atHome a
    let s := { s with msgs := s.msgs ++ fresh.map fun a => .memReq h.iss.wg h.iss.gang a.seq }
    if fresh.any fun a => (moduleOf a.pa).isSome then
      updGang s h.iss.wg h.iss.gang fun g =>
        { g with pend := g.pend.map fun a => if first ≤ a.seq && atHome a then { a with plane := planeOf s a.pa } else a }
    else s
/-- A fence of the lanes of an ordered atomic through an X hank (R108). -/
def fenceOf (lanes : LaneMask) (acq rel sc : Bool) (scope : BitVec 3) : Access :=
  { seq := 0, kind := .fence, lanes := lanes, acq := acq, rel := rel, sc := sc, scope := scope }
/-- The groups of an atomic or LDC, one access an element: its operand register is D. -/
def atomGroups (kind : AKind) (k : Hank) (f : FmtM) (h : Here) (good : List (Nat × List (Nat × Nat × Nat))) : List (List Access) :=
  let n := wBytes f.w
  let common := k.kind == 3#2
  (groupByKey (firstElems good)).map fun x =>
    [{ seq := 0, kind := kind, lanes := maskOf fun m => x.2.2.contains m, va := BitVec.ofNat 64 x.1, pa := x.2.1, bytes := n,
       full := max 4 n, op := BitVec.ofNat 4 (opcOf f), acq := common && ordAcq f, rel := common && ordRel f, scope := scopeOf f,
       relForm := ordRel f, pc := h.iss.at_, quad := h.iss.quad,
       parts := x.2.2.map fun m => { lane := m, x := BitVec.ofNat 64 (vregs (laneOf h.g m) f.d.toNat (vRegs f.w) % 2 ^ (8 * n)) },
       place := placeOf k x.2.1, dst := if kind == .red then .none_ else .vec f.d.toNat (vRegs f.w), ticket := k.ticket }]
/-- The fences that an ordered atomic through an X hank brings, before and after it (R108). -/
def withFences (k : Hank) (f : FmtM) (lanes : LaneMask) (xs : List (List Access)) : List (List Access) :=
  if k.kind == 3#2 then xs
  else (if ordRel f then [[fenceOf lanes false true false (scopeOf f)]] else []) ++ xs
    ++ (if ordAcq f then [[fenceOf lanes true false false (scopeOf f)]] else [])

/-- An ATOM, ATOMCAS or RED through a C hank is a non-idempotent effect, as its issue ends (R395, R413). -/
def atomEffect (k : Hank) (good : List (Nat × List (Nat × Nat × Nat))) (s : State) : List FOp :=
  if k.kind == 3#2 && !good.isEmpty then [.effect s.seq (lanesOf good)] else []

/-- LDC (R249). -/
def ldcBody (g : Guard) (f : FmtM) (h : Here) (tru : LaneMask) (s : State) : Fx :=
  let k := getHank h.w h.iss.gang (hankNo g f)
  let xs := laneAccs s h g f .common true tru
  let good := accGood xs
  let first := s.seq
  let s := updLanes h (accZero h xs) (fun _ l => vputs l f.d.toNat (vRegs f.w) 0) s
  let s := updLanes h (lanesOf good) (fun _ l => vmark l f.d.toNat (vRegs f.w)) s
  { s := sendRequests h first (pushHere h (atomGroups .ldc k f h good) s), traps := accTraps h xs }
/-- LDC (R249). -/
def execLdc (g : Guard) (f : FmtM) (s : State) : Host.Outcome State Fault Refusal := runWord (.ldc g f) g (ldcBody g f) s

/-- ATOM and ATOMCAS at issue: no helper lane takes part, and the word waits whole while the unacknowledged counter has no room for all its
requests (R53, R114; log entry 126). -/
def atomIssue (g : Guard) (f : FmtM) (groups : Hank → List (Nat × List (Nat × Nat × Nat)) → List (List Access)) (h : Here) (tru : LaneMask)
    (s : State) : Fx :=
  let k := getHank h.w h.iss.gang (hankNo g f)
  let xs := laneAccs s h g f .atomic true (mains h tru)
  let good := accGood xs
  let gs := groups k good
  let count := (gs.map List.length).foldl (· + ·) 0
  if !hasAcks h.g count then wantFx (.acks count) s
  else
    let first := s.seq
    let s := updLanes h (lanesOf good) (fun _ l => vmark l f.d.toNat (vRegs f.w)) s
    let ops := atomEffect k good s
    let s := onGang h (fun g => { g with unacked := g.unacked + count }) s
    { s := sendRequests h first (pushHere h (if good.isEmpty then gs else withFences k f (lanesOf good) gs) s), traps := accTraps h xs, fops := ops }
/-- ATOM (R250). -/
def atomBody (g : Guard) (f : FmtM) (h : Here) (tru : LaneMask) (s : State) : Fx :=
  atomIssue g f (fun k good => atomGroups .atom k f h good) h tru s
/-- ATOM (R250). -/
def execAtom (g : Guard) (f : FmtM) (s : State) : Host.Outcome State Fault Refusal := runWord (.atom g f) g (atomBody g f) s
/-- ATOMCAS's compare-and-swaps, one a lane, those of one element in one group and in lane order (R103, R251). -/
def casGroups (f : FmtM) (h : Here) (k : Hank) (good : List (Nat × List (Nat × Nat × Nat))) : List (List Access) :=
  let n := wBytes f.w
  let common := k.kind == 3#2
  let r := vRegs f.w
  (groupByKey (firstElems good)).map fun x => x.2.2.map fun m =>
    { seq := 0, kind := .cas, lanes := only m, va := BitVec.ofNat 64 x.1, pa := x.2.1, bytes := n, full := max 4 n, acq := common && ordAcq f,
      rel := common && ordRel f, scope := scopeOf f, relForm := ordRel f, pc := h.iss.at_, quad := h.iss.quad,
      parts := [{ lane := m, x := BitVec.ofNat 64 (vregs (laneOf h.g m) f.d.toNat r),
                  y := BitVec.ofNat 64 (vregs (laneOf h.g m) (f.d.toNat + r) r) }],
      place := placeOf k x.2.1, dst := .vec f.d.toNat r, ticket := k.ticket }
/-- ATOMCAS (R251). -/
def atomcasBody (g : Guard) (f : FmtM) (h : Here) (tru : LaneMask) (s : State) : Fx := atomIssue g f (casGroups f h) h tru s
/-- ATOMCAS (R251). -/
def execAtomcas (g : Guard) (f : FmtM) (s : State) : Host.Outcome State Fault Refusal := runWord (.atomcas g f) g (atomcasBody g f) s
/-- RED (R252). -/
def redBody (g : Guard) (f : FmtM) (h : Here) (tru : LaneMask) (s : State) : Fx :=
  let k := getHank h.w h.iss.gang (hankNo g f)
  let xs := laneAccs s h g f .atomic true (mains h tru)
  let good := accGood xs
  let gs := atomGroups .red k f h good
  let pre := if k.kind != 3#2 && ordRel f && !good.isEmpty then pushHere h [[fenceOf (lanesOf good) false true false (scopeOf f)]] s else s
  let fx := storeFx h gs (accTraps h xs) pre
  if fx.hold.isSome then { fx with s := s } else { fx with fops := atomEffect k good s }
/-- RED (R252). -/
def execRed (g : Guard) (f : FmtM) (s : State) : Host.Outcome State Fault Refusal := runWord (.red g f) g (redBody g f) s

/-- WAITV (R253): each lane's request leaves for the home, and the lane is blocked until a reading satisfies its condition. -/
def waitvBody (g : Guard) (f : FmtM) (h : Here) (tru : LaneMask) (s : State) : Fx :=
  let k := getHank h.w h.iss.gang (hankNo g f)
  let xs := laneAccs s h g f .common true tru
  let good := accGood xs
  let n := wBytes f.w
  let first := s.seq
  let gs : List (List Access) := (firstElems good).map fun x =>
    [{ seq := 0, kind := .waitv, lanes := only x.1, va := BitVec.ofNat 64 x.2.1, pa := x.2.2, bytes := n, op := BitVec.ofNat 4 (opcOf f), acq := true,
       scope := scopeOf f, parts := [{ lane := x.1, x := BitVec.ofNat 64 (vregs (laneOf h.g x.1) f.d.toNat (vRegs f.w)) }],
       place := placeOf k x.2.2, ticket := k.ticket }]
  let s := sendRequests h first (pushHere h gs s)
  { s := blockLanes h (lanesOf good) .value s, gone := lanesOf good, traps := accTraps h xs }
/-- WAITV (R253). -/
def execWaitv (g : Guard) (f : FmtM) (s : State) : Host.Outcome State Fault Refusal := runWord (.waitv g f) g (waitvBody g f) s

/-! Fences and cache maintenance (R254 to R256). -/

/-- FENCE (R254, R109). -/
def fenceBody (f : FmtT) (h : Here) (tru : LaneMask) (s : State) : Fx :=
  if tru = 0#32 then { s := s }
  else
    let o := modBits f.mod 0 2
    let a := fenceOf tru (o == 0 || o == 2) (o == 1 || o == 2) (o == 3) (BitVec.ofNat 3 (modBits f.mod 2 3))
    { s := onGang h pruneFences (pushHere h [[a]] s) }
/-- FENCE (R254). -/
def execFence (g : Guard) (f : FmtT) (s : State) : Host.Outcome State Fault Refusal := runWord (.fence g f) g (fenceBody f) s

/-- A 256-byte line of a range, with a dirty sector in the core's L1 or in its home slice (R255). -/
def dirtyLines (s : State) (core : Nat) (xs : List (Nat × Nat)) : List Nat :=
  let hit (c : Sector) : Bool := c.dirty && xs.any fun x => rangesMeet c.pa 64 x.1 x.2
  (((s.l1.filter fun c => c.owner == core && hit c) ++ s.slices.filter hit).map fun c => lineBase c.pa).dedup
/-- One line cleaned down to memory (R255). -/
def cleanLine (core : Nat) (s : State) (x : Nat) : State := sliceCleanRange (writeBack s core x 256) x 256
/-- A range invalidated: its slice copies written to memory and dropped, and the cluster's replicas of it (R256). -/
def invRange (core : Nat) (s : State) (x : Nat × Nat) : State :=
  let lo := lineBase x.1
  let n := x.1 % 256 + x.2 + 255
  let n := n / 256 * 256
  let s := sliceDrop (sliceCleanRange s lo n) lo n
  evictReplicas s core ((s.reps.filter fun p => rangesMeet (p.page * 65536) 65536 lo n).map fun p => p.page)
/-- Line write-backs that the unacknowledged counter counts (R114, R255). -/
def cleanAcks (s : State) (lanes : LaneMask) (xs : List Nat) : List (List Access) :=
  xs.map fun x => [{ seq := 0, kind := .clean, lanes := lanes, pa := x, bytes := 256, plane := planeOf s x,
                     place := match moduleOf x with
                       | some m => .remote m
                       | none => .home (homeOf x) }]
/-- CLNR and INVR on a set of extents: entries in the range perform first; write-backs start while the counter has room. -/
def maintain (inv : Bool) (lanes : LaneMask) (xs : List (Nat × Nat)) (h : Here) (s : State) : Fx :=
  if entriesIn h.g xs then wantFx (.clear xs) s
  else
    let s := if inv then xs.foldl (fun s x => l1Drop s h.core (lineBase x.1) ((x.1 % 256 + x.2 + 255) / 256 * 256)) s else s
    let dirty := dirtyLines s h.core xs
    let now := dirty.take (1023 - h.g.unacked)
    let s := now.foldl (cleanLine h.core) s
    let s := pushHere h (cleanAcks s lanes now) (onGang h (fun g => { g with unacked := g.unacked + now.length }) s)
    if now.length < dirty.length then wantFx (.acks 1) s
    else if inv then { s := xs.foldl (invRange h.core) s }
    else { s := s }
/-- CLNR and INVR (R255, R256): the line form lane by lane, the whole form once. -/
def cleanBody (inv : Bool) (g : Guard) (f : FmtM) (h : Here) (tru : LaneMask) (s : State) : Fx :=
  let k := getHank h.w h.iss.gang (hankNo g f)
  if f.sx then
    if !gangActs h tru then { s := s }
    else
      let lo := BitVec.ofNat 64 (hankLo (seenHank k))
      match hankTrap k .load (hankLo (seenHank k)) 1 with
      | some t => trapFx s t tru lo
      | none => match extentsOf s h.w.ctx (hankLo k) (hankBytes k) with
        | .error e => trapFx s .pageFault tru (BitVec.ofNat 64 e)
        | .ok xs => maintain inv h.iss.lanes xs h s
  else
    let acc (n : Nat) : LaneAcc :=
      let ea := eaOf k (laneOff f (laneOf h.g n)) f false
      let line := BitVec.ofNat 64 (lineBase ea.toNat)
      let res := match hankTrap k .load line.toNat 256 with
        | some t => Except.error (t, ea)
        | none => match translate s h.w.ctx line.toNat with
          | some x => .ok [(line.toNat, x, 256)]
          | none => .error (.pageFault, ea)
      ⟨n, ea, res⟩
    let xs := (bitsOf tru).map acc
    let good := accGood xs
    if good.isEmpty then { s := s, traps := allTraps xs }
    else
      let fx := maintain inv (lanesOf good) ((good.flatMap fun x => x.2.map fun e => (e.2.1, 256)).dedup) h s
      { fx with traps := allTraps xs }
/-- CLNR (R255). -/
def execClnr (g : Guard) (f : FmtM) (s : State) : Host.Outcome State Fault Refusal := runWord (.clnr g f) g (cleanBody false g f) s
/-- INVR (R256). -/
def execInvr (g : Guard) (f : FmtM) (s : State) : Host.Outcome State Fault Refusal := runWord (.invr g f) g (cleanBody true g f) s

end Sys2Proof.Machine
end

