-- ==== Sys2Proof/Machine/Matrix.lean ====
section
/-! DEFINITION. The matrix instructions, opcodes 0xA8 to 0xB1, the steps of the matrix unit, and the subscriptions that target its macros
(R280 to R305, R314, R315). -/

namespace Sys2Proof.Machine

/-! Elements and scales (R122 to R126, R131, R132). -/

/-- Bytes that n elements of a format occupy. -/
def fmtBytes (fmt n : Nat) : Nat := n * fmtBits fmt / 8
/-- The raw element at an index of a block of bytes (R125). -/
def rawElem (fmt : Nat) (bs : List Byte) (i : Nat) : Nat :=
  let b (n : Nat) : Nat := (tget 0#8 bs n).toNat
  if fmtBits fmt = 16 then b (2 * i) + 256 * b (2 * i + 1)
  else if fmtBits fmt = 4 then b (i / 2) / (if i % 2 = 1 then 16 else 1) % 16
  else b i
/-- The value of a raw element (R122, R126). -/
def elemVal (fmt raw : Nat) : FV :=
  if fmt = 6 then let x := sextN 8 raw; .fin (x < 0) x.natAbs 0
  else if fmt = 7 then .fin false raw 0
  else unpack (slotFmt fmt) raw
/-- INT8 and UINT8 (R126, R127). -/
def isInt (fmt : Nat) : Bool := fmt == 6 || fmt == 7
/-- An E8M0 scale (R144). -/
def e8Val (b : Byte) : FV := if b = 0xFF#8 then .nan false else .fin false 1 ((b.toNat : Int) - 127)
/-- One, for a scale that does not apply. -/
def oneFV : FV := .fin false 1 0

/-! The sum of one element (R133 to R137). -/

/-- A running exact sum of products: whether every term so far was −0, and the sum. -/
structure Acc where
  nan : Bool := false
  pos : Bool := false
  neg : Bool := false
  allNeg0 : Bool := true
  m : Int := 0
  e : Int := 0
/-- A signed sum aligned to a common exponent. -/
def addScaled (m : Int) (e : Int) (n : Int) (k : Int) : Int × Int :=
  let q := min e k
  (m * 2 ^ (e - q).toNat + n * 2 ^ (k - q).toNat, q)
/-- One product joins the sum. -/
def accStep (a : Acc) (p : Ex) : Acc :=
  match p with
  | .nan _ => { a with nan := true }
  | .inf n _ => if n then { a with neg := true, allNeg0 := false } else { a with pos := true, allNeg0 := false }
  | .num n m e _ =>
    let r := addScaled a.m a.e (if n then -(m : Int) else m) e
    { a with m := r.1, e := r.2, allNeg0 := a.allNeg0 && n && m == 0 }
/-- The sum as a value, a sum of integers never −0 (R134, R135). -/
def accVal (int : Bool) (a : Acc) : FV :=
  if a.nan || (a.pos && a.neg) then .nan false
  else if a.pos then .inf false
  else if a.neg then .inf true
  else if a.m = 0 then .fin (a.allNeg0 && !int) 0 0
  else .fin (a.m < 0) a.m.natAbs a.e
/-- A product of exact values. -/
def mulFV (a b : FV) : FV := exFV (mulEx a b)
/-- S × sA × sB, before its rounding (R133). -/
def termEx (int : Bool) (prods : List FV) (sA sB : FV) : Ex :=
  let s := accVal int (prods.foldl (fun a p => accStep a (match p with
    | .nan n => .nan n
    | .inf n => .inf n false
    | .fin n m e => .num n m e false)) {})
  mulEx (mulFV s sA) sB
/-- No operand of a rounding is an infinity or NaN, yet it overflowed: OVF32 (R136). -/
def ovf32 (r : FR) : BitVec 4 := if r.flags &&& fOF != 0#5 then mOVF32 else 0#4
/-- A narrow accumulator's value, widened, and its events (R133, R135, R137): the rounding has no greatest exponent, so an overflow clamps; below the
normal range the value is a subnormal of the format, whose exact widening the cell holds (log entry 23). -/
def narrow (accf : Nat) (t : Nat) : Nat × BitVec 4 :=
  let f := if accf = 1 then bf16 else fp16
  let wide (n : Bool) (m : Nat) (e : Int) : Nat := (finish fp32 0 false (.num n m e false)).bits
  let mx := fmtMax f
  match unpack fp32 t with
  | .nan _ => (nanBits fp32, 0#4)
  | .inf n => (wide n mx.1 mx.2, mSATN)
  | .fin n m e =>
    if m = 0 then (t, 0#4)
    else
      let r := roundTo f.p (some (fmtQmin f)) 0 n m e false
      if magLe r.1 r.2.1 mx.1 mx.2 then (wide n r.1 r.2.1, 0#4) else (wide n mx.1 mx.2, mSATN)
/-- An accumulator element after a term, and the flags raised (R133 to R137). -/
def accumulate (accf : Nat) (acc : Nat) (term : Ex) : Nat × BitVec 4 :=
  let t1 := finish fp32 0 false term
  let t2 := finish fp32 0 false (addEx 0 (unpack fp32 acc) (unpack fp32 t1.bits))
  let fl := ovf32 t1 ||| ovf32 t2
  let r : Nat × BitVec 4 := if accf = 0 then (t2.bits, 0#4) else narrow accf t2.bits
  (r.1, fl ||| r.2 ||| (if isNan (unpack fp32 r.1) then mNANP else 0#4))

/-! Macros, tiles and subscriptions of a workgroup. -/

/-- Element (i, n) of a tile. -/
def accElem (w : Wg) (a i n : Nat) : W32 := tget 0#32 (tget [] w.accs a) (128 * i + n)
/-- A tile replaced. -/
def setAcc (w : Wg) (a : Nat) (xs : List W32) : Wg := { w with accs := tset [] w.accs a xs }

/-- The status word of a macro (R282). -/
def macWord (w : Wg) (m : Nat) : W64 :=
  let x := macOf w m
  let refs := min 63 (w.mq.filter fun c => c.mac == some m).length
  let ring := x.src == 1#2 && (x.st == .resident || x.st == .bad)
  let st : Nat := match x.st with
    | .free => 0
    | .pending => 1
    | .resident => 2
    | .bad => 3
  let mld := x.src == 2#2
  let fmt : Nat × Nat := if x.st == .free || (x.st == .pending && !mld) then (0, 0) else (x.bfmt.toNat, x.bsc.toNat)
  BitVec.ofNat 64 ((if ring then x.tile.toNat * 2 ^ 32 + x.gen.toNat % 65536 * 65536 else 0) + refs * 1024 + st * 256 + x.src.toNat * 64
    + fmt.2 * 16 + fmt.1)

/-! Batches (R298 to R301). -/

/-- The failure that comes first in the order of issue. -/
def firstFail : List (Nat × Nat) → Option (Nat × Nat)
  | [] => none
  | x :: r => match firstFail r with
    | some y => some (if x.1 ≤ y.1 then x else y)
    | none => some x
/-- The status word of a batch (R301). -/
def batchWord (w : Wg) (gang b : Nat) : W64 :=
  let x := batchOf (gangOf w gang) b
  let code := match firstFail x.fails with
    | some y => y.2
    | none => 0
  BitVec.ofNat 64 (min 255 x.fails.length * 65536 + code * 256 + (batchDone w gang b).toNat)
/-- A failed command of a gang is recorded, in its batch or until one closes (R290). -/
def recordFail (g : Gang) (id code : Nat) : Gang :=
  if g.unclosed.contains id then { g with unclosedFail := g.unclosedFail ++ [(id, code)] }
  else { g with batches := g.batches.map fun b => if b.cmds.contains id then { b with fails := b.fails ++ [(id, code)] } else b }
/-- The batch and register a lane waits for. -/
def batchWait (l : Lane) : Option (Nat × Nat) := match l.st with
  | .waiting (.batch b d) => some (b, d)
  | _ => none
/-- MWAIT ends for the lanes whose batch is complete: the status goes to every quad, and the lanes go on (R300). -/
def wakeBatches (s : State) (tag gang : Nat) : State :=
  (List.range 32).foldl (fun s n =>
    match findWg s tag with
    | none => s
    | some w => match batchWait (laneOf (gangOf w gang) n) with
      | some (b, d) =>
        if batchDone w gang b then
          let m := maskOf fun k => batchWait (laneOf (gangOf w gang) k) == some (b, d)
          releaseLanes (updGang s tag gang (mapQuads 0xFF#8 fun q => sput q d (batchWord w gang b))) tag gang m
        else s
      | none => s) s

/-- A command leaves the matrix unit, complete or with a failure code (R290, R299). -/
def endCmd (s : State) (tag : Nat) (c : MCmd) (code : Nat) : State :=
  let s := updWg s tag fun w => { w with mq := w.mq.filter fun x => x.id != c.id }
  let s := if code = 0 then s else updGang s tag c.gang fun g => recordFail g c.id code
  wakeBatches s tag c.gang
/-- The MMAs that read one tile: those naming the macro from a number up to the next release of it. -/
def tileCmds (w : Wg) (m lo : Nat) : List MCmd :=
  let stop := w.mq.find? fun c => c.mac == some m && c.kind == .mrel && lo ≤ c.id
  w.mq.filter fun c => c.mac == some m && lo ≤ c.id && (match c.kind with
    | .mma _ _ _ _ _ => true
    | _ => false) && (match stop with
    | some r => c.id < r.id
    | none => true)
/-- Commands fail with one code. -/
def failCmds (s : State) (tag code : Nat) (cs : List MCmd) : State := cs.foldl (fun s c => endCmd s tag c code) s

/-! Issue (R283 to R295). -/

/-- The valid count of a format-X word (R286). -/
def countOf (f : FmtX) (h : Here) : Nat := if f.vc = 0xFF#8 then 32 else (srcS h f.vc.toNat).toNat
/-- The bytes of an A block and its scales (R131). -/
def blockBytes (slot : W64) : Nat := fmtBytes (slotAfmt slot) 4096 + (if slotAsc slot = 0 then 0 else 128)
/-- A matrix word takes effect when its guard is true in some lane (R283); the lanes its trap takes are given. A batched one waits for room among
the gang's commands (R285). -/
def matrixWord (limited : Bool) (bad : LaneMask) (chk : Here → Option (Trap × W64)) (act : Here → State → State) (h : Here) (tru : LaneMask)
    (s : State) : Fx :=
  if tru = 0#32 then { s := s }
  else match chk h with
    | some t => trapFx s t.1 bad t.2
    | none => if limited && !hasMatrix h.w h.iss.gang then wantFx .matrix s else { s := act h s }
/-- A matrix word whose trap takes all 32 lanes (R287, R292, R294). -/
def matrixBody (limited : Bool) (chk : Here → Option (Trap × W64)) (act : Here → State → State) (h : Here) (tru : LaneMask) (s : State) : Fx :=
  matrixWord limited h.iss.lanes chk act h tru s
/-- A command joins the matrix unit; a batched one awaits its batch. -/
def pushCmd (h : Here) (mac : Option Nat) (kind : MKind) (s : State) : State :=
  let c : MCmd := { id := s.seq, gang := h.iss.gang, mac := mac, kind := kind, seq := s.seq, lanes := h.iss.lanes, pc := h.iss.at_ }
  let s := updWg { s with seq := s.seq + 1 } h.iss.wg fun w => { w with mq := w.mq ++ [c] }
  if isBatched kind then onGang h (fun g => { g with unclosed := g.unclosed ++ [c.id] }) s else s

/-- The format slot a word names. -/
def slotOf (w : Wg) (fs : BitVec 3) : W64 := tget 0#64 w.fslots fs.toNat
/-- The checks of R287: a macro that is BAD after a ring tile's error passes the fifth, one that is BAD after an MLD tile's does not. -/
def mmaCheck (word : W64) (f : FmtX) (h : Here) : Option (Trap × W64) :=
  let slot := slotOf h.w f.fs
  let off := srcS h f.as_.toNat
  let mac := macOf h.w f.mac.toNat
  if !matSlotOk slot then some (.formatSlot, slot)
  else if off.toNat % 256 ≠ 0 then some (.alignment, off)
  else if h.w.scratchSize < off.toNat + blockBytes slot then some (.scratchRange, off)
  else if 32 < countOf f h then some (.matrixOperand, word)
  else if mac.st = .free ∨ (mac.st = .bad ∧ mac.src = 2#2) then some (.macroState, macWord h.w f.mac.toNat)
  else if mac.st = .resident ∧ (mac.bfmt.toNat ≠ slotBfmt slot ∨ mac.bsc.toNat ≠ slotBsc slot) then some (.formatSlot, slot)
  else none
/-- MMA and MMAT (R286 to R289). -/
def mmaBody (word : W64) (f : FmtX) (t : Bool) : Here → LaneMask → State → Fx :=
  matrixBody true (mmaCheck word f) fun h =>
    pushCmd h (some f.mac.toNat) (.mma f.acc.toNat f.fs.toNat (srcS h f.as_.toNat).toNat (countOf f h) t)
/-- MMA (R289). -/
def execMma (g : Guard) (f : FmtX) (s : State) : Host.Outcome State Fault Refusal := runWord (.mma g f) g (mmaBody (wordOf (.mma g f)) f false) s
/-- MMAT (R288). -/
def execMmat (g : Guard) (f : FmtX) (s : State) : Host.Outcome State Fault Refusal := runWord (.mmat g f) g (mmaBody (wordOf (.mmat g f)) f true) s

/-- MZERO (R293): a count above 32 traps, as R286 has it for MMA, in the lanes whose guard is true (log 125). -/
def mzeroBody (word : W64) (f : FmtX) (h : Here) (tru : LaneMask) (s : State) : Fx :=
  matrixWord true tru (fun h => if 32 < countOf f h then some (.matrixOperand, word) else none)
    (fun h => pushCmd h none (.mzero f.acc.toNat (countOf f h))) h tru s
/-- MZERO (R293; log entry 125). -/
def execMzero (g : Guard) (f : FmtX) (s : State) : Host.Outcome State Fault Refusal := runWord (.mzero g f) g (mzeroBody (wordOf (.mzero g f)) f) s

/-! MLD (R291, R292). -/

/-- The bytes MLD reads: rows below the count, and the scales of BSC 10, as virtual ranges. -/
def mldRanges (slot : W64) (ea stride c : Nat) : List (Nat × Nat) :=
  let dense := fmtBytes (slotBfmt slot) 128
  let st := if stride = 0 then dense else stride
  ((List.range (4 * c)).map fun r => (ea + r * st, dense)) ++ (if slotBsc slot = 2 then [(ea + 128 * st, 512)] else [])
/-- The extents of several ranges, or the first address that does not translate. -/
def extentsAll (s : State) (ctx : Nat) : List (Nat × Nat) → Except Nat (List (Nat × Nat))
  | [] => .ok []
  | (va, n) :: r => match extentsOf s ctx va n with
    | .error e => .error e
    | .ok xs => match extentsAll s ctx r with
      | .ok ys => .ok (xs ++ ys)
      | .error e => .error e
/-- The first hank trap over the ranges read, with the address; the hank itself is checked even when nothing is read. -/
def rangesTrap (k : Hank) (u : Use) (ea : Nat) (xs : List (Nat × Nat)) : Option (Trap × W64) :=
  match hankTrap k u (hankLo (seenHank k)) 0 with
  | some t => some (t, BitVec.ofNat 64 ea)
  | none => (xs.find? fun x => (hankTrap k u x.1 x.2).isSome).map fun x => (.hankRange, BitVec.ofNat 64 x.1)
/-- The checks of R292 at issue, in their order; page translation is the last. -/
def mldCheck (s : State) (word : W64) (f : FmtX) (h : Here) : Option (Trap × W64) :=
  let slot := slotOf h.w f.fs
  let ea := srcS h f.as_.toNat
  let stride := fld (srcS h (f.as_.toNat + 1)) 0 32
  let k := getHank h.w h.iss.gang (f.mod.toNat % 32)
  let c := countOf f h
  let xs := mldRanges slot ea.toNat stride (min c 32)
  if !matSlotOk slot then some (.formatSlot, slot)
  else if 32 < c then some (.matrixOperand, word)
  else match rangesTrap k .engRead ea.toNat xs with
    | some t => some t
    | none =>
      if ea.toNat % 64 ≠ 0 ∨ stride % 64 ≠ 0 then some (.alignment, ea)
      else if stride ≠ 0 ∧ stride < fmtBytes (slotBfmt slot) 128 then some (.matrixOperand, word)
      else if (macOf h.w f.mac.toNat).st ≠ .free then some (.macroState, macWord h.w f.mac.toNat)
      else match extentsAll s h.w.ctx xs with
        | .error e => some (.pageFault, BitVec.ofNat 64 e)
        | .ok _ => none
/-- MLD's effect at issue: ENG, the write-back of dirty source sectors, the macro PENDING with SRC 10 (R118, R292). -/
def mldIssue (f : FmtX) (h : Here) (s : State) : State :=
  let slot := slotOf h.w f.fs
  let ea := (srcS h f.as_.toNat).toNat
  let x := srcS h (f.as_.toNat + 1)
  let n := f.mod.toNat % 32
  let m := f.mac.toNat
  let xs := match extentsAll s h.w.ctx (mldRanges slot ea (fld x 0 32) (countOf f h)) with
    | .ok xs => xs
    | .error _ => []
  let s := xs.foldl (fun s (e : Nat × Nat) => writeBack s h.core e.1 e.2) s
  let s := updHank s h.iss.wg h.iss.gang n fun k => { k with eng := k.eng + 1#6 }
  let id := s.seq
  let s := pushCmd h (some m) (.mld f.fs.toNat n ea (fld x 0 32) (countOf f h) (f.mod.getLsbD 5) (x.extractLsb' 32 32)) s
  updWg s h.iss.wg fun w => updMac w m fun y =>
    { y with st := .pending, src := 2#2, bfmt := BitVec.ofNat 4 (slotBfmt slot), bsc := BitVec.ofNat 2 (slotBsc slot), upto := id }
/-- MLD (R291, R292). -/
def mldBody (word : W64) (f : FmtX) (h : Here) (tru : LaneMask) (s : State) : Fx :=
  let hanks := [f.mod.toNat % 32]
  if tru ≠ 0#32 ∧ (mldCheck s word f h).isNone ∧ hasEngine s h.w h.core h.iss.gang hanks .any = false then wantFx (.engine hanks .any) s
  else matrixBody true (mldCheck s word f) (mldIssue f) h tru s
/-- MLD (R291, R292). -/
def execMld (g : Guard) (f : FmtX) (s : State) : Host.Outcome State Fault Refusal := runWord (.mld g f) g (mldBody (wordOf (.mld g f)) f) s

/-! MRD, MWR, MREL, MBATCH, MWAIT and MSTAT. -/

/-- The trap of MRD and MWR on their column (R294). -/
def colCheck (word : W64) (f : FmtT) (h : Here) : Option (Trap × W64) :=
  let n := 2 ^ modBits f.mod 0 3
  let c := (srcS h f.b.toNat).toNat
  if c % n ≠ 0 ∨ 128 < c + n then some (.matrixOperand, word) else none
/-- MRD (R294): its destinations turn empty in the lanes whose guard is true. -/
def mrdBody (word : W64) (f : FmtT) (h : Here) (tru : LaneMask) (s : State) : Fx :=
  matrixBody false (colCheck word f) (fun h s =>
    let n := 2 ^ modBits f.mod 0 3
    pushCmd h none (.mrd f.a.toNat (srcS h f.b.toNat).toNat n f.d.toNat tru) (updLanes h tru (fun _ l => vmark l f.d.toNat n) s)) h tru s
/-- MRD (R294). -/
def execMrd (g : Guard) (f : FmtT) (s : State) : Host.Outcome State Fault Refusal := runWord (.mrd g f) g (mrdBody (wordOf (.mrd g f)) f) s
/-- MWR (R294). -/
def mwrBody (word : W64) (f : FmtT) (h : Here) (tru : LaneMask) (s : State) : Fx :=
  matrixBody false (colCheck word f) (fun h s =>
    let n := 2 ^ modBits f.mod 0 3
    let vals := (bitsOf tru).map fun l => (l, (List.range n).map fun j => vreg (laneOf h.g l) (f.d.toNat + j))
    pushCmd h none (.mwr f.a.toNat (srcS h f.b.toNat).toNat n tru vals) s) h tru s
/-- MWR (R294). -/
def execMwr (g : Guard) (f : FmtT) (s : State) : Host.Outcome State Fault Refusal := runWord (.mwr g f) g (mwrBody (wordOf (.mwr g f)) f) s

/-- The release of MREL waits for a load or reload on its way into the macro (R295, R315, R330). -/
def relWaits (w : Wg) (m : Nat) : Bool := (macOf w m).reload.isSome || (queueOf w m).any fun h => (subOf w h).relAfter
/-- MREL (R295, R315): the program state changes at issue. The release follows the commands received earlier that name the macro, and a load on
its way into it; with neither it takes place at once. -/
def mrelIssue (m : Nat) (h : Here) (s : State) : State :=
  let mac := macOf h.w m
  if mac.st = .free then s
  else
    let loads := mac.st == .pending && mac.src == 1#2 && match headOf h.w m with
      | some k => (subOf h.w k).st == .armed || (subOf h.w k).st == .loading
      | none => false
    let s := if loads || relWaits h.w m || h.w.mq.any fun c => c.mac == some m then pushCmd h (some m) .mrel s
      else updWg s h.iss.wg fun w => updMac w m fun x => { x with inside := false, psrc := 0#2 }
    let now := s.cycle
    let below := s.seq
    updWg s h.iss.wg fun w =>
      match headOf w m with
      | some k => if loads then updSub w k fun x => { x with relAfter := true } else relHead now below w m
      | none => relHead now below w m
/-- MREL (R295). -/
def execMrel (g : Guard) (f : FmtT) (s : State) : Host.Outcome State Fault Refusal :=
  runWord (.mrel g f) g (matrixBody false (fun _ => none) (mrelIssue f.a.toNat)) s

/-- MBATCH (R298). -/
def mbatchIssue (d : Nat) (h : Here) (s : State) : State :=
  let now := s.seq
  onGang h (fun g =>
    putS h d (BitVec.ofNat 64 g.nextBatch)
      { g with batches := tset {} g.batches g.nextBatch { cmds := g.unclosed, fails := g.unclosedFail, upto := now }
               unclosed := [], unclosedFail := [], closures := g.closures + 1, nextBatch := (g.nextBatch + 1) % 16 }) s
/-- MBATCH (R298). -/
def execMbatch (g : Guard) (f : FmtT) (s : State) : Host.Outcome State Fault Refusal :=
  runWord (.mbatch g f) g (matrixBody false (fun _ => none) (mbatchIssue f.d.toNat)) s

/-- MWAIT (R300). -/
def mwaitBody (f : FmtT) (h : Here) (tru : LaneMask) (s : State) : Fx :=
  if tru = 0#32 then { s := s }
  else
    let b := if modBit f.mod 4 then fld (srcS h f.a.toNat) 0 4 else modBits f.mod 0 4
    if batchDone h.w h.iss.gang b then { s := onGang h (putS h f.d.toNat (batchWord h.w h.iss.gang b)) s }
    else { s := updLanes h h.iss.lanes (fun _ l => { l with st := .waiting (.batch b f.d.toNat) }) s, gone := h.iss.lanes }
/-- MWAIT (R300). -/
def execMwait (g : Guard) (f : FmtT) (s : State) : Host.Outcome State Fault Refusal := runWord (.mwait g f) g (mwaitBody f) s

/-- The word of MSTAT.gang (R302); its counts saturate at 64. -/
def gangWord (w : Wg) (gang : Nat) : W64 :=
  let g := gangOf w gang
  let latest := if g.closures = 0 then 0 else (g.nextBatch + 15) % 16
  BitVec.ofNat 64 (min 64 (inFlight w gang).length * 65536 + min 64 g.unclosed.length * 256 + (g.closures != 0).toNat * 16 + latest)
/-- MSTAT (R302). -/
def mstatSem (f : FmtT) (h : Here) : W64 :=
  match modBits f.mod 0 2 with
  | 0 => macWord h.w f.a.toNat
  | 1 => batchWord h.w h.iss.gang f.a.toNat
  | _ => gangWord h.w h.iss.gang
/-- MSTAT (R302). -/
def execMstat (g : Guard) (f : FmtT) (s : State) : Host.Outcome State Fault Refusal :=
  runWord (.mstat g f) g (scalBody f.d.toNat (mstatSem f)) s

/-! The matrix unit (R284, R289, R290, R296, R297). -/

/-- A command of a workgroup by its number. -/
def findCmd (w : Wg) (id : Nat) : Option MCmd := w.mq.find? fun c => c.id == id
/-- The tile a command names. -/
def tileOf : MKind → Option Nat
  | .mma a _ _ _ _ => some a
  | .mzero a _ => some a
  | .mrd a _ _ _ _ => some a
  | .mwr a _ _ _ _ => some a
  | _ => none
/-- An earlier command names the same macro, or the same tile. -/
def macBusy (w : Wg) (c : MCmd) : Bool := c.mac.isSome && w.mq.any fun x => x.id < c.id && x.mac == c.mac
def tileBusy (w : Wg) (c : MCmd) : Bool := (tileOf c.kind).isSome && w.mq.any fun x => x.id < c.id && tileOf x.kind == tileOf c.kind
/-- Every access before the command in its lanes' program order has performed (R117). -/
def forkReady (g : Gang) (seq : Nat) (lanes : LaneMask) : Bool := !g.pend.any fun a => a.seq < seq && isAccess a.kind && (a.lanes &&& lanes) != 0#32
/-- MMAs executing on a core. -/
def executing (s : State) (core : Nat) : Nat :=
  (s.wgs.map fun w => if coreOf w == some core then (w.mq.filter fun c => c.started && c.mac.isSome).length else 0).foldl (· + ·) 0

/-- A parity error of a tile under a command that is starting (R297): a ring tile loads again; on an MLD tile the command and those received that
read it fail when their turn comes, and until then the macro is BAD. -/
def parityError (s : State) (w : Wg) (m : Nat) (c : MCmd) : State :=
  let mac := macOf w m
  let current := !w.mq.any fun x => x.mac == some m && x.kind == .mrel && c.id < x.id
  if mac.psrc = 1#2 then
    let now := s.cycle
    updWg s w.tag fun w => updMac w m fun y =>
      let y := { y with inside := false, reload := some (y.tile, y.gen), reloadAt := now }
      if current then { y with st := .bad, upto := c.id } else y
  else
    let ids := (tileCmds w m c.id).map fun x => x.id
    updWg s w.tag fun w => updMac { w with mq := w.mq.map fun x => if ids.contains x.id then { x with fail := 2 } else x } m fun y =>
      let y := { y with inside := false }
      if current then { y with st := .bad, upto := c.id } else y

/-- MATRIX_COMMAND_START (R284, R289, R290, R297): a batched command whose macro holds its tile begins, and reads its A block. -/
def execMatrixCommandStart (wg n : Nat) (parity : Bool) (s : State) : Host.Outcome State Fault Refusal :=
  match findWg s wg with
  | none => .fault .notEnabled
  | some w => match findCmd w n, coreOf w with
    | some c, some core =>
      if c.started || c.fail != 0 || macBusy w c || !forkReady (gangOf w c.gang) c.seq c.lanes then .fault .notEnabled
      else match c.kind, c.mac with
        | .mzero _ _, _ => .next (updWg s wg fun w => { w with mq := updFirst (fun x => x.id == n) (fun x => { x with started := true }) w.mq })
        | .mma _ fs off _ _, some m =>
          let mac := macOf w m
          let slot := tget 0#64 w.fslots fs
          if !mac.inside || 4 ≤ executing s core then .fault .notEnabled
          else if mac.pfmt.toNat ≠ slotBfmt slot ∨ mac.pbsc.toNat ≠ slotBsc slot then .next (endCmd s wg c 1)
          else if parity then .next (parityError s w m c)
          else
            let a := gets0 w.scratch off (blockBytes slot)
            .next (updWg s wg fun w =>
              { w with mq := updFirst (fun x => x.id == n) (fun x => { x with started := true, aBytes := a }) w.mq })
        | _, _ => .fault .notEnabled
    | _, _ => .fault .notEnabled

/-- Row i, column n of an MMA's terms (R131 to R133, R288). -/
def mmaTerm (mac : Mac) (slot : W64) (a : List Byte) (t : Bool) (i n : Nat) : Ex :=
  let fa := slotAfmt slot
  let sc := fmtBytes fa 4096
  let byte (k : Nat) : Byte := tget 0#8 a (sc + k)
  let eA (k : Nat) : FV := if slotAsc slot = 2 then e8Val (byte (4 * i + k / 32)) else oneFV
  let eB (k : Nat) : FV := if slotBsc slot = 2 then e8Val (tget 0#8 mac.scales (4 * n + k / 32)) else oneFV
  let av (k : Nat) : FV := mulFV (elemVal fa (rawElem fa a (if t then 32 * k + i else 128 * i + k))) (eA k)
  let bv (k : Nat) : FV := mulFV (elemVal mac.pfmt.toNat (tget 0#16 mac.cells (128 * k + n)).toNat) (eB k)
  let sA : FV := if slotAsc slot = 1 then unpack fp32 (leNat ((List.range 4).map fun j => byte (4 * i + j))) else oneFV
  let sB : FV := if slotBsc slot = 1 then unpack fp32 mac.scale.toNat else oneFV
  termEx (isInt fa && isInt mac.pfmt.toNat) ((List.range 128).map fun k => mulFV (av k) (bv k)) sA sB
/-- A tile after an MMA's sums, and the flags raised (R133, R137, R289). -/
def mmaSums (w : Wg) (mac : Mac) (slot : W64) (a : List Byte) (t : Bool) (acc rows : Nat) : List (W32 × BitVec 4) :=
  (List.range 4096).map fun x =>
    let i := x / 128
    let old := accElem w acc i (x % 128)
    if i < rows then
      let r := accumulate (slotAccf slot) old.toNat (mmaTerm mac slot a t i (x % 128))
      (BitVec.ofNat 32 r.1, r.2)
    else (old, 0#4)

/-- Registers of a lane filled by MRD. -/
def fillCols (w : Wg) (a col n d : Nat) (lane : Nat) (l : Lane) : Lane :=
  if isGone l.st then l else (List.range n).foldl (fun l j => vput l (d + j) (accElem w a lane (col + j))) l
/-- A tile after MWR (R294). -/
def writeCols (w : Wg) (a col n : Nat) (vals : List (Nat × List W32)) : List W32 :=
  (List.range 4096).map fun x =>
    let j := x % 128
    match vals.find? fun v => v.1 == x / 128 with
    | some v => if col ≤ j ∧ j < col + n then tget 0#32 v.2 (j - col) else accElem w a (x / 128) j
    | none => accElem w a (x / 128) j
/-- A command that fails at its macro leaves (R290, R297): after the last of them a macro that is BAD from an MLD tile's error turns FREE. -/
def endFailed (s : State) (w : Wg) (c : MCmd) : State :=
  let m := c.mac.getD 0
  let more := w.mq.any fun x => x.id != c.id && x.mac == some m && x.fail != 0
  let s := endCmd s w.tag c c.fail
  updWg s w.tag fun w => updMac w m fun y => if y.st == .bad && y.src == 2#2 && !more then { y with st := .free, src := 0#2 } else y
/-- MATRIX_COMMAND_COMPLETE (R284, R289, R293 to R295): a command takes effect at its tile or macro, in the order received. -/
def execMatrixCommandComplete (wg n : Nat) (s : State) : Host.Outcome State Fault Refusal :=
  match findWg s wg with
  | none => .fault .notEnabled
  | some w => match findCmd w n with
    | none => .fault .notEnabled
    | some c =>
      if tileBusy w c || macBusy w c || (coreOf w).isNone then .fault .notEnabled
      else match c.kind with
        | .mma a fs _ rows t =>
          if c.fail ≠ 0 then .next (endFailed s w c)
          else if !c.started then .fault .notEnabled
          else
            let slot := tget 0#64 w.fslots fs
            let r := mmaSums w (macOf w (c.mac.getD 0)) slot c.aBytes t a rows
            let fl := (r.foldl (fun m x => m ||| x.2) 0#4) &&& slotFen slot
            let s := updWg s wg fun w => setAcc w a (r.map fun x => x.1)
            .next (endCmd (updGang s wg c.gang fun g => { g with mflags := g.mflags ||| fl }) wg c 0)
        | .mzero a rows =>
          if !c.started then .fault .notEnabled
          else .next (endCmd (updWg s wg fun w =>
            setAcc w a ((List.range 4096).map fun x => if x / 128 < rows then 0#32 else accElem w a (x / 128) (x % 128))) wg c 0)
        | .mrd a col k d lanes => .next (endCmd (updGang s wg c.gang (mapLanes lanes (fillCols w a col k d))) wg c 0)
        | .mwr a col k _ vals => .next (endCmd (updWg s wg fun w => setAcc w a (writeCols w a col k vals)) wg c 0)
        | .mrel =>
          let m := c.mac.getD 0
          if relWaits w m then .fault .notEnabled
          else .next (endCmd (updWg s wg fun w => updMac w m fun x => { x with inside := false, psrc := 0#2 }) wg c 0)
        | .mld _ _ _ _ _ _ _ => .fault .notEnabled

/-- The cells after an MLD of 4 c stored rows (R292). -/
def mldCells (old : List (BitVec 16)) (fmt : Nat) (rows : Nat → List Byte) (c : Nat) (t : Bool) : List (BitVec 16) :=
  (List.range 16384).map fun x =>
    let k := x / 128
    let n := x % 128
    let r := if t then n else k
    let j := if t then k else n
    if r < 4 * c then BitVec.ofNat 16 (rawElem fmt (rows r) j) else tget 0#16 old x
/-- A byte as an engine of a core's cluster reads it: the core's dirty copy first, else the home (R118, R336). -/
def engByte (s : State) (core x : Nat) : Byte :=
  match l1Find s core x with
  | some c => if c.dirty then c.data.getD (x % 64) 0#8 else homeByte s x
  | none => homeByte s x
/-- Bytes of a virtual range as an engine reads them (R99, R118). -/
def readVirtual (s : State) (core ctx va n : Nat) : List Byte :=
  (extentsD s ctx va n).flatMap fun x => (List.range x.2).map fun i => engByte s core (x.1 + i)
/-- Some extent of a range lies in the memory of a module that cannot be reached (R363). -/
def unreached (s : State) (ctx : Nat) (xs : List (Nat × Nat)) : Bool :=
  xs.any fun x => (extentsD s ctx x.1 x.2).any fun e => !reachable s e.1
/-- Some extent of a range lies in a pool window that returns poison (R431). -/
def poisoned (s : State) (ctx : Nat) (xs : List (Nat × Nat)) : Bool :=
  xs.any fun x => (extentsD s ctx x.1 x.2).any fun e => deadIn s e.1 e.2
/-- ENG of a hank falls by one at an engine command's completion (R72). -/
def lowerEng (s : State) (wg gang n : Nat) : State := updHank s wg gang n fun k => { k with eng := k.eng - 1#6 }

/-- What memory of another module may hold by now, as an engine reads it through a hank: an X hank's owner alone writes it (R120). -/
def refreshAll (s : State) (k : Hank) (xs : List (Nat × Nat)) : State :=
  if k.kind = 1#2 then s else xs.foldl (fun s (x : Nat × Nat) => if x.1 < 2 ^ 60 then refreshRemote s x.1 x.2 else s) s
/-- An MLD's macro waits for that load. -/
def mldOwn (w : Wg) (m n : Nat) : Bool := (macOf w m).st == .pending && (macOf w m).src == 2#2 && (macOf w m).upto == n
/-- An MLD fails under code 4: its macro turns FREE where it waited for the load, and the commands that await the tile fail (R290). -/
def mldFails (s : State) (w : Wg) (c : MCmd) (m hank : Nat) : State :=
  let s1 := failCmds (endCmd (lowerEng s w.tag c.gang hank) w.tag c 4) w.tag 3 (tileCmds w m (c.id + 1))
  if mldOwn w m c.id then updWg s1 w.tag fun w => updMac w m fun x => { x with st := .free, src := 0#2 } else s1
/-- An MLD suspends at a page that it cannot translate, with the fault record of R344 (R359). -/
def mldSuspend (s : State) (w : Wg) (c : MCmd) (va : Nat) : State :=
  let no := s.faults.length
  updWg (sendRecord s w c.gang 0x20#8 false 0#32 c.pc (BitVec.ofNat 64 va) false (some c.id)) w.tag fun w =>
    { w with mq := updFirst (fun x => x.id == c.id) (fun x => { x with suspended := some no }) w.mq }
/-- A macro after an MLD that read its rows and its scales. -/
def mldFill (slot : W64) (cnt : Nat) (t : Bool) (scale : W32) (row : Nat → List Byte) (scales : List Byte) (mine : Bool) (x : Mac) : Mac :=
  { x with
      inside := true, psrc := 2#2, pfmt := BitVec.ofNat 4 (slotBfmt slot), pbsc := BitVec.ofNat 2 (slotBsc slot), scale := scale
      cells := mldCells x.cells (slotBfmt slot) row cnt t, tile := 0#32, gen := 0#32
      scales := if slotBsc slot = 2 then scales else x.scales
      st := if mine then .resident else x.st }

/-- MLD_COMPLETE (R290, R292, R359, R363): the rows enter the macro, which turns RESIDENT; a page that does not translate suspends the load; poison or
revocation fails it, and so does a source out of reach, under the same code. All elements are read at this one instant between the fork and
completion (log entry 37). -/
def execMldComplete (wg n : Nat) (s : State) : Host.Outcome State Fault Refusal :=
  match findWg s wg with
  | none => .fault .notEnabled
  | some w => match findCmd w n, coreOf w with
    | some c, some core => match c.kind, c.mac with
      | .mld fs hank ea stride cnt t scale, some m =>
        if c.suspended.isSome || macBusy w c || !forkReady (gangOf w c.gang) c.seq c.lanes then .fault .notEnabled
        else
          let slot := tget 0#64 w.fslots fs
          let dense := fmtBytes (slotBfmt slot) 128
          let st := if stride = 0 then dense else stride
          let xs := mldRanges slot ea stride cnt
          match extentsAll s w.ctx xs with
          | .error va => .next (mldSuspend s w c va)
          | .ok es =>
            if (getHank w c.gang hank).revoked || poisoned s w.ctx xs || unreached s w.ctx xs then .next (mldFails s w c m hank)
            else
              let s1 := refreshAll s (getHank w c.gang hank) es
              let row (r : Nat) : List Byte := readVirtual s1 core w.ctx (ea + r * st) dense
              let fill := mldFill slot cnt t scale row (readVirtual s1 core w.ctx (ea + 128 * st) 512) (mldOwn w m n)
              .next (endCmd (updWg (lowerEng s1 wg c.gang hank) wg fun w => updMac w m fill) wg c 0)
      | _, _ => .fault .notEnabled
    | _, _ => .fault .notEnabled

end Sys2Proof.Machine
end

