-- ==== Sys2Proof/Machine/RingStop.lean ====
section
/-! DEFINITION. The weight ring: what a stop decides and injects, what passes the cluster stops, and the loads it makes (R20, R307 to R318,
R324 to R332, R437, R439). -/

namespace Sys2Proof.Machine

/-! Images and pattern entries (R307 to R310). -/

/-- Length of a frame of a format (R307). -/
def frameLen (bfmt bsc : Nat) : Nat := 64 + 128 * fmtBits bfmt * 16 + (if bsc = 2 then 512 else 0)
/-- Length of a BF16 frame, that of a hole for an invalid image or entry (R309, R310). -/
def bf16Len : Nat := 32832
/-- A field of a header or entry. -/
def bytesFld (bs : List Byte) (lo n : Nat) : Nat := bitsN (leNat bs) lo n
/-- A header that makes its image invalid (R309); engine fields are ignored. -/
def badHeader (h : List Byte) : Bool :=
  let bfmt := bytesFld h 64 4
  let bsc := bytesFld h 68 2
  bytesFld h 468 6 != 0 || bytesFld h 128 320 != 0 || bytesFld h 73 23 != 0 || bytesFld h 70 2 != 0 || bfmt == 0 || 8 ≤ bfmt || bsc == 3
    || (bsc == 2 && bfmt < 3)
/-- The length that R307 gives for a header, or that of an invalid image. -/
def headerLen (h : List Byte) : Nat := if badHeader h then bf16Len else frameLen (bytesFld h 64 4) (bytesFld h 68 2)

def rgctlAddr : Nat := 0x7F0000200000
def rgpatAddr : Nat := 0x7F0000200008
def rglenAddr : Nat := 0x7F0000200010
def rgleadAddr : Nat := 0x7F0000200018
def rgerrAddr : Nat := 0x7F0000200020
def slctlAddr : Nat := 0x7F0001200000
/-- The pattern that the registers name: address of entry 0, and entries. -/
def patternRegs (s : State) : Nat × Nat := (fld (ctlGet s rgpatAddr) 5 43 * 32, fld (ctlGet s rglenAddr) 0 21)
/-- The pattern in force at the entry decided next: at entry 0 it is taken from the registers (R312). -/
def patternNow (s : State) : Nat × Nat := if s.ring.pos = 0 then patternRegs s else (s.ring.base, s.ring.len)
/-- The 32 bytes of a pattern entry. -/
def patEntry (s : State) (base e : Nat) : List Byte := homeBytes s (base + 32 * e) 32
/-- The source, image address, pool address and tile of an entry. -/
def entSrc (x : List Byte) : Nat := bytesFld x 30 2
def entPaddr (x : List Byte) : Nat := bytesFld x 72 40 * 256
def entPool (x : List Byte) : Nat := bytesFld x 136 40 * 256
def entTile (x : List Byte) : Nat := bytesFld x 32 32
/-- An entry that is injected as a hole (R310). -/
def badEntry (base : Nat) (x : List Byte) : Bool :=
  let src := entSrc x
  !isDram base || bytesFld x 176 80 != 0 || bytesFld x 112 24 != 0 || bytesFld x 64 8 != 0 || bytesFld x 0 21 != 0 || src == 3
    || (src == 1 && 287 < bytesFld x 21 9) || (src != 1 && !isDram (entPaddr x)) || (src == 2 && !isPool (entPool x))

/-- The stop of a die's ring engine (R439). -/
def engineStop (die : Nat) : Nat := match die with
  | 0 => 1
  | 1 => 26
  | 3 => 51
  | _ => 76
/-- The die and cluster of a cluster stop (R439). -/
def clusterAt (stop : Nat) : Option (Nat × Nat) :=
  let leg := (stop - 1) / 25
  let c := (stop - 1) % 25
  if stop = 0 ∨ c = 0 then none else some (match leg with
    | 0 => 0
    | 1 => 1
    | 2 => 3
    | _ => 2, c - 1)
/-- The stop of a core's cluster. -/
def stopOf (core : Nat) : Nat := engineStop (dieOfCore core) + 1 + clusterOfCore core
/-- The stop that injects an entry's frame (R310, R311). -/
def injectStop (base : Nat) (x : List Byte) : Nat :=
  if badEntry base x || entSrc x == 1 then 0 else engineStop (entPaddr x / dieBytes)

/-- The tenant of the current slice. -/
def sliceTenant (s : State) : Nat := fld (ctlGet s (0x7F0001200100 + 8 * s.slice)) 32 6
/-- A slice is in force: EN is 1 and entry 0 has begun (R394). -/
def slicing (s : State) : Bool := (ctlGet s slctlAddr).getLsbD 7 && s.slice < 64
/-- The tenant of the pattern being run (R308). -/
def ringTenant (s : State) : Nat := if slicing s then sliceTenant s else fld (ctlGet s rgctlAddr) 33 6
/-- A count of RGERR rises: HDR from bit 32, STG from bit 0. -/
def ringErr (s : State) (lo : Nat) : State :=
  let x := ctlGet s rgerrAddr
  ctlPut s rgerrAddr (setFld x lo 32 (fld x lo 32 + 1))
/-- Header bytes 0 to 59 of a frame (R308). -/
def frameHeader (f : Frame) : List Byte :=
  leBytes 60 (f.tile.toNat + f.gen.toNat * 2 ^ 32 + f.bfmt.toNat * 2 ^ 64 + f.bsc.toNat * 2 ^ 68 + f.hole.toNat * 2 ^ 72 + f.scale.toNat * 2 ^ 96
    + f.entry % 2 ^ 20 * 2 ^ 448 + f.tenant % 2 ^ 6 * 2 ^ 474)
/-- The CRC of a frame (R308). -/
def frameCrc (f : Frame) : W32 := crc32c (frameHeader f ++ f.payload ++ f.scales)
/-- A frame with its CRC stamped. -/
def stamped (f : Frame) : Frame := { f with crc := frameCrc f }
/-- A frame's CRC checks. -/
def crcGood (f : Frame) : Bool := f.crc == frameCrc f
/-- A hole for an entry. -/
def holeFrame (s : State) (e tile : Nat) : Frame :=
  stamped { entry := e, tenant := ringTenant s, tile := BitVec.ofNat 32 tile, gen := 0#32, hole := true, crc := 0#32, bfmt := 0#4, bsc := 0#2,
            scale := 0#32, payload := [], scales := [] }
/-- The frame of an image as the engine reads it (R307 to R309). -/
def imageFrame (s : State) (e pa : Nat) : Frame :=
  let h := homeBytes s pa 64
  let bfmt := bytesFld h 64 4
  let n := 128 * fmtBits bfmt * 16
  stamped {
    entry := e, tenant := ringTenant s, tile := BitVec.ofNat 32 (bytesFld h 0 32), gen := BitVec.ofNat 32 (bytesFld h 32 32), hole := false,
    crc := 0#32, bfmt := BitVec.ofNat 4 bfmt, bsc := BitVec.ofNat 2 (bytesFld h 68 2), scale := BitVec.ofNat 32 (bytesFld h 96 32),
    payload := homeBytes s (pa + 64) n, scales := if bytesFld h 68 2 = 2 then homeBytes s (pa + 64 + n) 512 else [] }

/-! Decisions (R313, R324, R325, R332, R437). -/

/-- A request of a ring engine under context 0xFFFF, in fail mode (R324). -/
def ringReq (s : State) (kind : BitVec 2) (runs : List Run) (taker : Taker) : Req :=
  let used (t : Nat) : Bool := s.own.any fun e => e.ctx == 0xFFFF && e.ticket == t
  let t := ((List.range (s.own.length + 1)).map (· + 1)).find? fun t => !used t
  { id := s.seq, taker := taker, ctx := 0xFFFF, kind := kind, vbase := 0, grains := (runs.map fun r => r.grains).sum, runs := runs
    ticket := t.getD 1, wait := false }
/-- The runs of an image in DRAM: a part on each die whose DRAM it lies in (R76, R93). -/
def imageRuns (pa n : Nat) : List Run :=
  let lo := pa / 256
  let g := cdiv n 256
  let stop := (pa / dieBytes + 1) * dieBytes / 256
  if lo + g ≤ stop then [⟨homeOf pa, lo, g⟩] else [⟨homeOf pa, lo, stop - lo⟩, ⟨homeOf (stop * 256), stop, lo + g - stop⟩]
/-- The tables grant a ring engine's runs one after another; none where one does not. -/
def grantRuns (r : Req) : List Run → State → Option State
  | [], s => some s
  | run :: rs, s =>
    if decideRun s r run s.waiters == .grant then
      (grantRun s r run).bind fun t => grantRuns r rs { t with msgs := t.msgs.filter fun m => m != .runGrant r.id }
    else none
/-- A ring engine's borrow of some bytes is decided: the state with it taken, or none for any other status (R77, R324, R325). -/
def ringBorrow (s : State) (kind : BitVec 2) (pa n : Nat) (taker : Taker) : Option (Nat × State) :=
  let runs := imageRuns pa n
  let r := ringReq s kind runs taker
  if unborrowable s kind 0 0 [(pa, n)] || !isDram (pa + n - 1) then none
  else (grantRuns r runs s).map fun s => (r.ticket, { s with seq := s.seq + 1 })
/-- The runs of a ring engine's borrow return (R324, R325). -/
def ringReturn (s : State) (kind : BitVec 2) (runs : List Run) : State := runs.foldl (fun s run => lowerEntry s 0xFFFF kind run) s
/-- A header as read when the borrow is refused: the home's bytes, or what a core's L1 holds dirty (R437). -/
def refusedHeader (s : State) (pa : Nat) : List Byte :=
  match s.l1.find? fun c => c.dirty && c.pa == secBase pa with
  | some c => if Config.freeBit s.freeCtr then c.data else homeBytes s pa 64
  | none => homeBytes s pa 64
/-- What the injecting stop decides for an entry: its frame, length and borrow, with the state after. -/
structure Decided where
  s : State
  frame : Frame
  len : Nat
  borrow : Option (Nat × List Run) := none
/-- Length of the hole that stands for a missing or wrong frame of the segment: that of the entry's last frame, or open (R313). -/
def expectLen (s : State) (e : Nat) : Nat :=
  match s.ring.expect.find? fun x => x.1 == e with
  | some x => x.2
  | none => tget bf16Len [32832, 16448, 16960, 8256, 8768] (Config.freeNat s.freeCtr % 5)
/-- An engine's decision on the image of an entry for a revolution (R324, R437). An image that crosses from one die's DRAM into the next is borrowed
as two runs, decided at one instant (log 120). -/
def decideImage (s : State) (rev e : Nat) (x : List Byte) : Decided :=
  let pa := entPaddr x
  let h := homeBytes s pa 64
  let staged := entSrc x == 0 || s.ring.staged.contains (e, rev)
  let tile := entTile x
  if !staged then { s := ringErr s 0, frame := holeFrame s e tile, len := headerLen h }
  else
    let n := headerLen h
    let runs := imageRuns pa n
    match ringBorrow s 2#2 pa n (.frame e) with
    | none => { s := { s with freeCtr := s.freeCtr + 1 }, frame := holeFrame s e tile, len := headerLen (refusedHeader s pa) }
    | some (t, s') =>
      if badHeader h then { s := ringErr s' 32, frame := holeFrame s e tile, len := bf16Len, borrow := some (t, runs) }
      else { s := s', frame := imageFrame s e pa, len := n, borrow := some (t, runs) }
/-- The decision on an entry, without a frame from the segment (R310, R313). -/
def decideEntry (s : State) (base rev e : Nat) : Decided :=
  let x := patEntry s base e
  if badEntry base x then { s := ringErr s 32, frame := holeFrame s e (entTile x), len := bf16Len }
  else if entSrc x = 1 then { s := { s with freeCtr := s.freeCtr + 1 }, frame := holeFrame s e (entTile x), len := expectLen s e }
  else decideImage s rev e x

/-! The order of decisions and of frames (R311, R312, R331, R332). -/

/-- An entry to come: its pattern, revolution and number, where the revolution begins at stop 0, and the bytes of the frames before it. -/
structure Slot where
  base : Nat
  len : Nat
  rev : Nat
  pos : Nat
  start : Nat
  bytes : Nat
/-- The stop that injects a slot's frame. -/
def slotSrc (s : State) (a : Slot) : Nat := injectStop a.base (patEntry s a.base a.pos)
/-- Where the revolution being placed begins at stop 0 (R312, R331): the first one is fixed by its entry 0. -/
def revBase (s : State) (src : Nat) : Nat :=
  if s.ring.rev = 0 ∧ s.ring.pos = 0 then s.ring.revStart + 2048 - (src + 1) else s.ring.revStart
/-- The entry placed next. -/
def headSlot (s : State) : Slot :=
  let p := patternNow s
  ⟨p.1, p.2, s.ring.rev, s.ring.pos, revBase s (injectStop p.1 (patEntry s p.1 s.ring.pos)), s.ring.bytes⟩
/-- The frame of a slot decided already. -/
def earlyAt (s : State) (a : Slot) : Option Early := s.ring.early.find? fun e => e.rev == a.rev && e.pos == a.pos
/-- The length of a slot's frame: as decided, or as its header reads now. -/
def slotLen (s : State) (a : Slot) : Nat := match earlyAt s a with
  | some e => e.bytes
  | none =>
    let x := patEntry s a.base a.pos
    if badEntry a.base x then bf16Len else if entSrc x = 1 then expectLen s a.pos else headerLen (homeBytes s (entPaddr x) 64)
/-- Where the revolution after one of some bytes begins (R331). -/
def revNext (start bytes : Nat) : Nat := start + max (cdiv bytes 2048) 256
/-- The entry placed after one in its revolution: the next of the pattern, and behind its last those that were decided under the pattern before,
which are never abandoned (R312, log 44). -/
def posAfter (s : State) (rev pos len : Nat) : Option Nat :=
  if pos + 1 < len then some (pos + 1)
  else ((s.ring.early.filter fun e => e.rev == rev && pos < e.pos).map fun e => e.pos).min?
/-- The slot after one: entry 0 of a revolution takes the pattern from the registers, unless it is decided already (R312). -/
def slotAfter (s : State) (a : Slot) : Slot :=
  let n := a.bytes + slotLen s a
  match posAfter s a.rev a.pos a.len with
  | some p => { a with pos := p, bytes := n }
  | none =>
    let p := match s.ring.early.find? fun e => e.rev == a.rev + 1 && e.pos == 0 with
      | some e => (e.base, e.len)
      | none => patternRegs s
    ⟨p.1, p.2, a.rev + 1, 0, revNext a.start n, 0⟩
/-- The next slots, from one on. -/
def slotsFrom (s : State) : Nat → Slot → List Slot
  | 0, _ => []
  | n + 1, a => a :: slotsFrom s n (slotAfter s a)
/-- Entries that the engines may have to decide before earlier ones of the pattern: no more pass between the first engine and the last. -/
def aheadSlots : Nat := 24
/-- The module's ring group has one member, whose schedule is exact (R331, R332). -/
def alone (s : State) : Bool := fld (ctlGet s rgctlAddr) 15 9 == 1
/-- The slots not decided yet: of a larger group only the one placed next. -/
def openSlots (s : State) : List Slot :=
  (slotsFrom s (if alone s then aheadSlots else 1) (headSlot s)).filter fun a => (earlyAt s a).isNone
/-- The cycle in which a slot's first byte reaches the stop after the injecting one: its frame is decided 2,048 cycles before (R332). -/
def slotDue (s : State) (a : Slot) : Nat := a.start + a.bytes / 2048 + slotSrc s a + 1
/-- The slot whose decision is due first. -/
def dueSlot (s : State) : Option Slot :=
  (openSlots s).foldl (fun b a => match b with
    | none => some a
    | some b => some (if slotDue s a < slotDue s b then a else b)) none
/-- The frame of the head entry takes its place on the ring (R311, R331), and the position advances; the pattern in force is that of entry 0 (R312).
A frame decided after the cycle of its place moves the rest of its revolution with it. -/
def placeFrame (s : State) (d : Early) : State :=
  let r := s.ring
  let at_ := revBase s d.src + r.bytes / 2048
  let start := revBase s d.src + (s.cycle - (at_ + d.src))
  let f : RingFrame := { frame := d.frame, rev := r.rev, src := d.src, borrow := d.borrow, first := start + r.bytes / 2048,
                         last := start + (r.bytes + d.bytes - 1) / 2048
                         start := d.pos == 0 && (d.rev == 0 || d.base != r.base || d.len != r.len) }
  let total := r.bytes + d.bytes
  let len := if d.pos = 0 then d.len else r.len
  let next := posAfter s d.rev d.pos len
  let wrap := next.isNone
  { s with ring := { r with
      base := if d.pos = 0 then d.base else r.base, len := len, frames := r.frames ++ [f]
      pos := next.getD 0
      rev := if wrap then r.rev + 1 else r.rev
      revStart := if wrap then revNext start total else start
      bytes := if wrap then 0 else total
      early := r.early.filter fun e => !(e.rev == d.rev && e.pos == d.pos)
      expect := (r.pos, d.bytes) :: r.expect.filter fun x => x.1 != r.pos } }
/-- The frames decided take their places as far as pattern order goes. -/
def placeEarly : Nat → State → State
  | 0, s => s
  | n + 1, s => match earlyAt s (headSlot s) with
    | some d => placeEarly n (placeFrame s d)
    | none => s
/-- A slot's frame is decided, and those whose turn has come take their places. -/
def settleFrame (a : Slot) (src : Nat) (d : Decided) : State :=
  let e : Early := ⟨a.base, a.len, a.rev, a.pos, src, d.frame, d.len, d.borrow⟩
  let r := d.s.ring
  let other (x : Nat × Nat) : Bool := x != (a.pos, a.rev)
  placeEarly (aheadSlots + 1) { d.s with ring := { r with early := r.early ++ [e], staged := r.staged.filter other, failed := r.failed.filter other } }
/-- A frame on the ring's schedule that its stop has yet to inject. -/
def toInject (s : State) (f : RingFrame) : Bool := s.cycle < f.first + f.src
/-- When the ring stops or its pattern is discarded no frame is scheduled any more: those decided and not yet injected are given up, and their
borrows return (R329). -/
def dropEarly (s : State) : State :=
  let gone := (s.ring.early.filterMap fun e => e.borrow) ++ (s.ring.frames.filter (toInject s)).filterMap fun f => f.borrow
  gone.foldl (fun s b => ringReturn s 2#2 b.2) { s with ring := { s.ring with early := [], frames := s.ring.frames.filter fun f => !toInject s f } }

/-- FRAME_INJECT (R311, R313, R324, R332): the frame whose decision is due first is decided, exactly 2,048 cycles before its first byte reaches the
stop after its engine in a group of one member, and within as many in a larger one. -/
def execFrameInject (s : State) : Host.Outcome State Fault Refusal :=
  match dueSlot s with
  | none => .fault .notEnabled
  | some a =>
    if !s.ring.running || s.cycle + 2048 < slotDue s a then .fault .notEnabled
    else .next (settleFrame a (slotSrc s a) (decideEntry s a.base a.rev a.pos))

/-- The member injects an entry of its pattern itself: its source is its own, or it is invalid (R310, R313). -/
def ownEntryAt (s : State) (base len e : Nat) : Bool := e < len && (badEntry base (patEntry s base e) || entSrc (patEntry s base e) != 1)
/-- SEGMENT_FRAME_ARRIVAL (R313): a frame for an entry that this member injects is removed; where the pattern expects a frame of the segment, one
of another entry or with a bad CRC gives a hole, one of another tile a hole that counts in HDR, and any other is passed on. -/
def execSegmentFrameArrival (f : Frame) (s : State) : Host.Outcome State Fault Refusal :=
  let a := headSlot s
  let x := patEntry s a.base a.pos
  if !s.ring.running || fld (ctlGet s rgctlAddr) 15 9 ≤ 1 then .fault .notEnabled
  else if ownEntryAt s a.base a.len f.entry then .next (ringErr s 32)
  else if ownEntryAt s a.base a.len a.pos then .fault .notEnabled
  else
    let s1 := { s with freeCtr := s.freeCtr + 1 }
    let hole : Frame := holeFrame s a.pos (entTile x)
    if f.entry ≠ a.pos ∨ crcGood f = false then .next (settleFrame a 0 { s := s1, frame := hole, len := expectLen s a.pos })
    else if f.tile.toNat ≠ entTile x then .next (settleFrame a 0 { s := ringErr s1 32, frame := hole, len := expectLen s a.pos })
    else .next (settleFrame a 0 { s := s1, frame := f, len := if f.hole then expectLen s a.pos else frameLen f.bfmt.toNat f.bsc.toNat })

/-! The passage of a frame (R314 to R317). -/

/-- Every command received before the macro entered its program state has completed (R296). -/
def cleared (w : Wg) (m : Nat) : Bool := !w.mq.any fun c => c.mac == some m && c.id < (macOf w m).upto
/-- A miss counts for the workgroup and its core (R317). -/
def countMiss (s : State) (tag core : Nat) : State :=
  let s := updWg s tag fun w => { w with miss := w.miss + 1 }
  let a := 0x7F0000300000 + 8 * core
  ctlPut s a (ctlGet s a + 1#64)
/-- A frame meets a macro's reload (R317, R330). -/
def meetReload (f : Frame) (good : Bool) (at_ due core : Nat) (tag : Nat) (s : State) (m : Nat) : State :=
  match (findWg s tag).map fun w => macOf w m with
  | none => s
  | some mac => match mac.reload with
    | some (tile, gen) =>
      if tile = f.tile ∧ mac.taking.isNone ∧ mac.reloadAt < at_ then
        if good && gen.toNat ≤ f.gen.toNat then updWg s tag fun w => updMac w m fun x => { x with taking := some (f, due) }
        else countMiss s tag core
      else s
    | none => s
/-- A frame meets the head of a macro's queue (R316, R317): while a reload is to come the macro is not free for it. -/
def meetHead (f : Frame) (good : Bool) (at_ due core : Nat) (tag : Nat) (s : State) (m : Nat) : State :=
  match findWg s tag with
  | none => s
  | some w => match headOf w m with
    | none => s
    | some h =>
      let mac := macOf w m
      let x := subOf w h
      if x.st = .armed ∧ x.tile = f.tile ∧ x.armedAt < at_ then
        if good && x.minGen.toNat ≤ f.gen.toNat && mac.st == .pending && mac.src == 1#2 && mac.reload.isNone && cleared w m then
          updWg s tag fun w => updSub w h fun x => { x with st := .loading, frame := some f, due := due }
        else countMiss (updWg s tag fun w => updSub w h fun x => { x with miss := x.miss + 1 }) tag core
      else s
/-- A frame whose first byte reaches a core's stop meets one macro of a workgroup: the head of its queue, and its reload. -/
def meetMacro (f : Frame) (good : Bool) (at_ due core : Nat) (tag : Nat) (s : State) (m : Nat) : State :=
  meetReload f good at_ due core tag (meetHead f good at_ due core tag s m) m
/-- A frame reaches a cluster stop: every macro of every workgroup of its tenant on the cluster's cores (R316). -/
def meetCluster (f : Frame) (good : Bool) (at_ due die cluster : Nat) (s : State) : State :=
  s.wgs.foldl (fun s (w : Wg) =>
    match coreOf w with
    | some core =>
      if dieOfCore core = die ∧ clusterOfCore core = cluster ∧ w.tenant = f.tenant then
        (List.range w.nmacs).foldl (meetMacro f good at_ due core w.tag) s
      else s
    | none => s) s
/-- Revolutions as the IOD stop counts them, from the start of the pattern in force (R311, R323). -/
def countTurn (s : State) (start : Bool) (f : Frame) : State :=
  let now := s.time1588.toNat
  let r := if f.entry = 0 then
      { s.ring with turns := if start then 1 else s.ring.turns + 1, turnNs := now, holes := 0
                    lastHoles := if s.ring.turns = 0 then 0 else s.ring.holes
                    lastNs := if s.ring.turns = 0 then 0 else now - s.ring.turnNs }
    else s.ring
  { s with ring := { r with holes := r.holes + (if f.hole then 1 else 0) } }
/-- A frame that has passed every stop and given up its borrow leaves the ring. -/
def retireFrames (s : State) : State :=
  { s with ring := { s.ring with frames := s.ring.frames.filter fun f => f.reached ≤ 100 || f.borrow.isSome } }

/-- FRAME_ARRIVAL (R311, R316, R317, R328, R439): the first byte of the n-th frame on the ring reaches its next stop, which the frames before it have
reached already; its CRC may fail there. -/
def execFrameArrival (n : Nat) (bad : Bool) (s : State) : Host.Outcome State Fault Refusal :=
  match s.ring.frames[n]? with
  | none => .fault .notEnabled
  | some f =>
    let k := f.reached
    if 100 < k || s.cycle < f.first + k || !(s.ring.frames.take n).all (fun x => k < x.reached) then .fault .notEnabled
    else
      let good := !f.frame.hole && crcGood f.frame && !bad
      let s := match clusterAt k with
        | some (die, c) => meetCluster f.frame good (f.first + k) (f.last + k) die c s
        | none => if k = 0 then countTurn s f.start f.frame else s
      .next (retireFrames { s with ring := { s.ring with
        frames := s.ring.frames.mapIdx fun i x => if i = n then { x with reached := k + 1 } else x
        last := (k, f.frame.entry) :: s.ring.last.filter fun x => x.1 != k } })

/-- RING_BORROW_RETURN (R324, R332): the frame's last byte has passed the stop after its engine. -/
def execRingBorrowReturn (n : Nat) (s : State) : Host.Outcome State Fault Refusal :=
  match s.ring.frames[n]? with
  | none => .fault .notEnabled
  | some f => match f.borrow with
    | none => .fault .notEnabled
    | some (_, runs) =>
      if s.cycle < f.last + f.src + 1 then .fault .notEnabled
      else
        let s := { s with ring := { s.ring with frames := s.ring.frames.mapIdx fun i x => if i = n then { x with borrow := none } else x } }
        .next (retireFrames (ringReturn s 2#2 runs))

/-! Loads (R296, R297, R315, R318, R330). -/

/-- MSUBQ.wait is over in these states (R322). -/
def subSettled (st : SubSt) : Bool := st == .held || st == .done || st == .free
/-- The status word of a subscription (R322). -/
def subWord (w : Wg) (h : Nat) : W64 :=
  let x := subOf w h
  let st : Nat := match x.st with
    | .free => 0
    | .queued => 1
    | .armed => 2
    | .loading => 3
    | .held => 4
    | .done => 5
  BitVec.ofNat 64 (x.gen.toNat * 2 ^ 32 + min 65535 x.miss * 65536 + min 255 x.loads * 256 + x.pers.toNat * 16 + st)
/-- The subscription and register a lane waits for. -/
def subWait (l : Lane) : Option (Nat × Nat × BitVec 8) := match l.st with
  | .waiting (.sub h d q) => some (h, d, q)
  | _ => none
/-- MSUBQ.wait ends for one lane and those that wait with it: in a quad issue each quad's own (R322). -/
def wakeSubAt (tag gang : Nat) (s : State) (n : Nat) : State :=
  match findWg s tag with
  | none => s
  | some w => match subWait (laneOf (gangOf w gang) n) with
    | some (h, d, q) =>
      if subSettled (subOf w h).st then
        let m := maskOf fun k => subWait (laneOf (gangOf w gang) k) == some (h, d, q) && (laneOf (gangOf w gang) k).pc == (laneOf (gangOf w gang) n).pc
        releaseLanes (updGang s tag gang (mapQuads q fun x => sput x d (subWord w h))) tag gang m
      else s
    | none => s
/-- MSUBQ.wait ends wherever its subscription has settled. -/
def wakeSubs (s : State) (tag : Nat) : State :=
  (List.range 16).foldl (fun s g => (List.range 32).foldl (wakeSubAt tag g) s) s

/-- A frame stands in the array of a macro (R318). -/
def loadMacro (f : Frame) (x : Mac) : Mac :=
  { x with inside := true, psrc := 1#2, pfmt := f.bfmt, pbsc := f.bsc, scale := f.scale, tile := f.tile, gen := f.gen, src := 1#2
           bfmt := f.bfmt, bsc := f.bsc
           cells := (List.range 16384).map fun i => BitVec.ofNat 16 (rawElem f.bfmt.toNat f.payload i)
           scales := if f.bsc = 2#2 then f.scales else x.scales }
/-- The number of the release of a macro that waits for its load. -/
def firstRel (w : Wg) (m : Nat) : Option Nat := (w.mq.find? fun c => c.mac == some m && c.kind == .mrel).map fun c => c.id

/-- The MREL that arrived during a load takes its row of R315 once the load is complete; where it leaves the macro FREE, the commands that await
its tile fail. -/
def releaseAfter (s : State) (wg m now below : Nat) : State :=
  match findWg s wg with
  | none => s
  | some w =>
    let w3 := relHead now below w m
    let s := putWg s w3
    if (macOf w3 m).st == .free then failCmds s wg 3 (tileCmds w3 m below) else s
/-- RING_LOAD_COMPLETE (R117, R315, R318, R322, R330): handle 0 to 63 names a subscription, 64 and above the reload of a macro. -/
def execRingLoadComplete (wg h : Nat) (s : State) : Host.Outcome State Fault Refusal :=
  match findWg s wg with
  | none => .fault .notEnabled
  | some w =>
    if (coreOf w).isNone then .fault .notEnabled
    else if 64 ≤ h then
      let m := h - 64
      match (macOf w m).taking with
      | none => .fault .notEnabled
      | some (f, due) =>
        if s.cycle < due then .fault .notEnabled
        else
          let stays := (firstRel w m).isSome
          .next (updWg s wg fun w => updMac w m fun x =>
            let y := loadMacro f { x with reload := none, taking := none }
            if stays then { y with st := x.st, src := x.src, bfmt := x.bfmt, bsc := x.bsc } else { y with st := .resident })
    else
      let x := subOf w h
      let m := h / 4
      match x.frame with
      | none => .fault .notEnabled
      | some f =>
        if x.st ≠ .loading ∨ s.cycle < x.due ∨ forkReady (gangOf w x.gang) x.seq x.lanes = false then .fault .notEnabled
        else
          let now := s.cycle
          let rel := firstRel w m
          let below := match rel with
            | some i => i + 1
            | none => s.seq
          let w1 := updMac w m fun y => { loadMacro f y with st := .resident }
          let w2 := updSub w1 h fun y =>
            { y with st := if y.unsubAfter then .free else if y.pers then .held else .done, loads := y.loads + 1, gen := f.gen, frame := none
                     relAfter := false, unsubAfter := false }
          let s := wakeSubs (putWg s w2) wg
          let s := if x.counter.getLsbD 63 then s else credit s wg x.counter.toNat 1
          .next (if x.relAfter then releaseAfter s wg m now below else s)

/-! Staging (R325). -/

/-- The entry placed next stands before or at an entry: the revolution that an entry's staging is for, and the entries ahead of it. -/
def stageFor (s : State) (len e : Nat) : Nat × Nat :=
  if s.ring.pos ≤ e then (s.ring.rev, e - s.ring.pos) else (s.ring.rev + 1, e + len - s.ring.pos)
/-- A staging copy begins: from LEAD entries ahead on, under an X borrow of its range (R325, R91). One that a conflict or poison spoils is over for
its revolution, whose frame is a hole. -/
def stageBegin (s : State) (e : Nat) : Host.Outcome State Fault Refusal :=
  let p := patternNow s
  let x := patEntry s p.1 e
  let t := stageFor s p.2 e
  if !s.ring.running || p.2 ≤ e || badEntry p.1 x || entSrc x != 2 || fld (ctlGet s rgleadAddr) 0 16 < t.2
    || s.ring.staged.contains (e, t.1) || s.ring.failed.contains (e, t.1) then .fault .notEnabled
  else
    let n := headerLen (homeBytes s (entPool x) 64)
    let pages := (imageRuns (entPaddr x) n).flatMap (runReplicas s)
    let s0 := { s with reps := s.reps.map fun r => if pages.contains r then { r with set := [], seq := (r.seq + 1) % 65536 } else r }
    match if deadIn s (entPool x) 64 then none else ringBorrow s0 1#2 (entPaddr x) n (.staging e) with
    | none => .next { s with ring := { s.ring with failed := s.ring.failed ++ [(e, t.1)] } }
    | some (_, s) => .next { s with ring := { s.ring with staging := s.ring.staging ++ [⟨e, t.1, imageRuns (entPaddr x) n⟩] } }
/-- A staging copy ends: the image stands at its staging address unless poison or revocation spoiled it, and the X borrow returns. -/
def stageEnd (s : State) (c : Staging) : State :=
  let x := patEntry s s.ring.base c.entry
  let x := if s.ring.len = 0 then patEntry s (patternRegs s).1 c.entry else x
  let n := (c.runs.map fun r => r.grains * 256).sum
  let ok := !deadIn s (entPool x) n
  let at_ := (c.runs.map fun r => r.pbase).headD 0 * 256
  let s := if ok then writeAtHome s at_ (homeBytes s (entPool x) (headerLen (homeBytes s (entPool x) 64))) else s
  let s := ringReturn s 1#2 c.runs
  let open_ := (decide (c.rev = s.ring.rev ∧ s.ring.pos ≤ c.entry ∨ s.ring.rev < c.rev)) && s.ring.early.all fun e => !(e.rev == c.rev && e.pos == c.entry)
  { s with ring := { s.ring with
      staging := s.ring.staging.erase c
      staged := if ok && open_ then s.ring.staged ++ [(c.entry, c.rev)] else s.ring.staged
      failed := if !ok && open_ then s.ring.failed ++ [(c.entry, c.rev)] else s.ring.failed } }
/-- STAGING_COPY (R325): the copy of an entry's pool image begins, or ends: it moves the bytes as it ends (log 46). -/
def execStagingCopy (e : Nat) (s : State) : Host.Outcome State Fault Refusal :=
  match s.ring.staging.find? fun c => c.entry == e with
  | some c => .next (stageEnd s c)
  | none => stageBegin s e

end Sys2Proof.Machine
end

