-- ==== Sys2Proof/Machine/RingSub.lean ====
section
/-! DEFINITION. The ring instructions MSUB, MUNSUB, MSUBQ and RSTAT, opcodes 0xC0 to 0xC3 (R314, R315, R319 to R323). -/

namespace Sys2Proof.Machine

/-- An issue of the workgroup in flight has taken the slot of a handle, and its end makes the subscription (R320). -/
def taken (s : State) (w : Wg) (h : Nat) : Bool :=
  s.issues.any fun i => i.wg == w.tag && i.fops.any fun o => match o with
    | .sub k _ _ _ _ => k == h
    | _ => false
/-- The slot MSUB takes: the lowest FREE one, else the lowest DONE one (R320), among those that no issue in flight has taken (log 42). -/
def freeSlot (s : State) (w : Wg) (m : Nat) : Option Nat :=
  let hs := ((List.range 4).map fun k => 4 * m + k).filter fun h => !taken s w h
  match hs.find? fun h => (subOf w h).st == .free with
  | some h => some h
  | none => hs.find? fun h => (subOf w h).st == .done
/-- The trap of MSUB's counter (R263, R320). -/
def subCounterTrap (w : Wg) (word c : W64) : Option (Trap × W64) :=
  if c.getLsbD 63 then none
  else match counterTrap w c.toNat 8 with
    | some (t, x) => some (t, BitVec.ofNat 64 x)
    | none => if (cWord (scrWord w c.toNat)).kind ≠ 0 then some (.queueMisuse, word) else none
/-- MSUB (R320): the handle is known at once, the subscription is made at the end of the issue. -/
def msubBody (word : W64) (f : FmtT) (h : Here) (tru : LaneMask) (s : State) : Fx :=
  if !gangActs h tru then { s := s }
  else
    let b := srcS h f.b.toNat
    let c := srcS h f.c.toNat
    if !c.getLsbD 63 && opWaits h tru false false 0#3 s then wantFx (.order tru false false 0#3) s
    else match subCounterTrap h.w word c with
    | some t => trapFx s t.1 (mains h tru) t.2
    | none => match freeSlot s h.w f.a.toNat with
      | none => { s := onGang h (putS h f.d.toNat 0xFFFFFFFFFFFFFFFF#64) s }
      | some k => { s := onGang h (putS h f.d.toNat (BitVec.ofNat 64 k)) s, fops := [.sub k b c (modBit f.mod 0) h.iss.lanes] }
/-- MSUB (R320). -/
def execMsub (g : Guard) (f : FmtT) (s : State) : Host.Outcome State Fault Refusal := runWord (.msub g f) g (msubBody (wordOf (.msub g f)) f) s

/-- A handle that MUNSUB and MSUBQ refuse (R321). -/
def badHandle (w : Wg) (x : W64) : Bool := fld x 6 58 != 0 || w.nmacs ≤ x.toNat / 4
/-- The commands that await the tile of a macro (R290). -/
def awaiting (w : Wg) (m : Nat) : List MCmd :=
  w.mq.filter fun c => c.mac == some m && (macOf w m).upto ≤ c.id && match c.kind with
    | .mma _ _ _ _ _ => true
    | _ => false
/-- MUNSUB's rows of R315. -/
def cancelSub (s : State) (tag h : Nat) : State :=
  match findWg s tag with
  | none => s
  | some w =>
    let m := h / 4
    let now := s.cycle
    match (subOf w h).st with
    | .free => s
    | .loading => putWg s (updSub w h fun x => { x with unsubAfter := true })
    | .armed =>
      let w1 := updSub w h fun x => { x with st := .free, relAfter := false }
      match headOf w1 m with
      | some k => putWg s (updSub w1 k fun x => { x with st := .armed, armedAt := now })
      | none => failCmds (putWg s (updMac w1 m fun x => { x with st := .free, src := 0#2 })) tag 3 (awaiting w1 m)
    | _ => putWg s (updSub w h fun x => { x with st := .free })
/-- MUNSUB (R321). -/
def munsubBody (word : W64) (f : FmtT) (h : Here) (tru : LaneMask) (s : State) : Fx :=
  if !gangActs h tru then { s := s }
  else
    let x := srcS h f.a.toNat
    if badHandle h.w x then trapFx s .matrixOperand (mains h tru) word
    else { s := wakeSubs (cancelSub s h.iss.wg x.toNat) h.iss.wg }
/-- MUNSUB (R321). -/
def execMunsub (g : Guard) (f : FmtT) (s : State) : Host.Outcome State Fault Refusal :=
  runWord (.munsub g f) g (munsubBody (wordOf (.munsub g f)) f) s

/-- MSUBQ and MSUBQ.wait (R322). -/
def msubqBody (word : W64) (f : FmtT) (h : Here) (tru : LaneMask) (s : State) : Fx :=
  if !gangActs h tru then { s := s }
  else
    let x := srcS h f.a.toNat
    if badHandle h.w x then trapFx s .matrixOperand (mains h tru) word
    else if modBit f.mod 0 && !subSettled (subOf h.w x.toNat).st then
      { s := updLanes h h.iss.lanes (fun _ l => { l with st := .waiting (.sub x.toNat f.d.toNat (dstQuads h)) }) s, gone := h.iss.lanes }
    else { s := onGang h (putS h f.d.toNat (subWord h.w x.toNat)) s }
/-- MSUBQ (R322). -/
def execMsubq (g : Guard) (f : FmtT) (s : State) : Host.Outcome State Fault Refusal :=
  runWord (.msubq g f) g (msubqBody (wordOf (.msubq g f)) f) s

/-- The word RSTAT writes (R323). -/
def rstatWord (s : State) (h : Here) (sel : Nat) : W64 :=
  match sel with
  | 0 => BitVec.ofNat 64 h.w.miss
  | 1 =>
    let last := match s.ring.last.find? fun x => x.1 == stopOf h.core with
      | some x => x.2
      | none => 0
    BitVec.ofNat 64 (s.ring.turns % 2 ^ 44 * 2 ^ 20 + last % 2 ^ 20)
  | _ => BitVec.ofNat 64 (s.ring.lastHoles % 2 ^ 32 * 2 ^ 32 + min (2 ^ 32 - 1) s.ring.lastNs)
/-- RSTAT (R323). -/
def rstatBody (f : FmtT) (h : Here) (tru : LaneMask) (s : State) : Fx :=
  if !gangActs h tru then { s := s } else { s := onGang h (putS h f.d.toNat (rstatWord s h (modBits f.mod 0 2))) s }
/-- RSTAT (R323). -/
def execRstat (g : Guard) (f : FmtT) (s : State) : Host.Outcome State Fault Refusal := runWord (.rstat g f) g (rstatBody f) s

end Sys2Proof.Machine
end

