-- ==== Sys2Proof/Machine/Engines.lean ====
section
/-! DEFINITION. Copies and memory-side operations, opcodes 0xC4 to 0xC7, with the steps of the engines (R333 to R351). -/

namespace Sys2Proof.Machine

/-! Areas. -/

/-- The hank a field names, or the scratchpad allocation for 24 (R334). -/
def areaOf (h : Here) (n : Nat) : Option Hank := if n = 24 then none else some (getHank h.w h.iss.gang n)
/-- The base address of an area: none for the scratchpad. -/
def areaBase (h : Here) (n : Nat) : Option Nat := (areaOf h n).map fun k => hankLo (seenHank k)
/-- An address in an area: scratchpad offsets count from 0. -/
def areaAddr (b : Option Nat) (off : Int) : Nat := (ofInt 64 ((b.getD 0 : Nat) + off)).toNat
/-- R71 over a range through a hank, or the allocation's limit for the scratchpad (R335). -/
def areaTrap (w : Wg) (k : Option Hank) (u : Use) (a n : Nat) : Option (Trap × W64) :=
  match k with
  | some k => rangesTrap k u a (if n = 0 then [] else [(a, n)])
  | none => if n ≠ 0 ∧ w.scratchSize < a + n then some (.scratchRange, BitVec.ofNat 64 a) else none
/-- The first trap of a list. -/
def firstTrap (xs : List (Option (Trap × W64))) : Option (Trap × W64) := (xs.find? fun x => x.isSome).join
/-- A trap under a condition. -/
def trapIf (c : Bool) (t : Trap) (x : W64) : Option (Trap × W64) := if c then some (t, x) else none
/-- The checks of a named counter (R263, R335). -/
def counterCheck (w : Wg) (word c : W64) : Option (Trap × W64) := subCounterTrap w word c
/-- A count operand: 0xFFFF_FFFF means all. -/
def fullCount (v n : Nat) : Nat := if v = 0xFFFFFFFF then n else v
/-- A count above its limit (R335). -/
def overCount (v n : Nat) : Bool := v != 0xFFFFFFFF && n < v

/-! Tensor shape records (R341). -/

/-- A word of a record. -/
def recWord (r : List Byte) (n : Nat) : W64 := BitVec.ofNat 64 (leNat ((r.drop (8 * n)).take 8))
def recDims (r : List Byte) : Nat := fld (recWord r 0) 0 3
def recSize (r : List Byte) : Nat := 2 ^ fld (recWord r 0) 4 2
def recExt (r : List Byte) (d : Nat) : Nat := fld (recWord r (4 + 4 * d)) 0 32
def recSstr (r : List Byte) (d : Nat) : Int := (recWord r (5 + 4 * d)).toInt
def recDstr (r : List Byte) (d : Nat) : Int := (recWord r (6 + 4 * d)).toInt
/-- The product of the extents of n dimensions from one on. -/
def recProd (r : List Byte) : Nat → Nat → Nat
  | _, 0 => 1
  | d, n + 1 => recExt r d * recProd r (d + 1) n
/-- Bytes that a record addresses. -/
def recTotal (r : List Byte) : Nat := recSize r * recProd r 0 (recDims r)
/-- Offsets of a run in n dimensions from one on, by its number. -/
def runOffs (r : List Byte) : Nat → Nat → Nat → Int × Int
  | _, 0, _ => (0, 0)
  | d, n + 1, k =>
    let t := runOffs r (d + 1) n (k / recExt r d)
    let i := k % recExt r d
    (i * recSstr r d + t.1, i * recDstr r d + t.2)
/-- The faults of a record's own fields (R341): operand limits, then alignment. -/
def recTrap (r : List Byte) (word off : W64) : Option (Trap × W64) :=
  let n := recDims r
  let ds := List.range n
  let esz : Int := recSize r
  let reserved := fld (recWord r 0) 6 58 != 0 || (recWord r 0).getLsbD 3 || recWord r 3 != 0#64
    || ds.any fun d => fld (recWord r (4 + 4 * d)) 32 32 != 0 || recWord r (7 + 4 * d) != 0#64
  let limits := reserved || n == 0 || 5 < n || (ds.any fun d => recExt r d == 0) || recSstr r 0 != esz || recDstr r 0 != esz
    || 2 ^ 32 ≤ recTotal r
  let skew := (recWord r 1).toInt % esz != 0 || (recWord r 2).toInt % esz != 0
    || ds.any fun d => recSstr r d % esz != 0 || recDstr r d % esz != 0
  firstTrap [trapIf limits .engineOperand word, trapIf skew .alignment off]

/-! The bytes of a command, in order. -/

/-- Total bytes, valid bytes, bytes of a run, and the addresses of byte p. -/
structure Plan where
  total : Nat
  valid : Nat
  run : Nat
  at_ : Nat → Nat × Nat
/-- The plan of a copy (R337, R341, R342). -/
def planOf (k : EKind) (dbase abase : Option Nat) : Plan :=
  match k with
  | .cpy _ _ soff doff len valid => ⟨len, valid, len, fun p => (areaAddr abase (soff + p), areaAddr dbase (doff + p))⟩
  | .cpyt _ _ r count =>
    let run := recSize r * recExt r 0
    let total := recTotal r
    ⟨total, count * (total / recExt r (recDims r - 1)), run, fun p =>
      let o := runOffs r 1 (recDims r - 1) (p / run)
      (areaAddr abase ((recWord r 1).toInt + o.1 + (p % run : Nat)), areaAddr dbase ((recWord r 2).toInt + o.2 + (p % run : Nat)))⟩
  | .msop _ _ _ _ _ _ _ n _ _ bf => let m := n * (if bf then 2 else 4); ⟨m, m, m, fun p => (p, p)⟩
/-- The runs of the first n bytes: source, destination, bytes. -/
def runsUpto (p : Plan) (n : Nat) : List (Nat × Nat × Nat) :=
  (List.range (cdiv n (max p.run 1))).map fun r => ((p.at_ (r * p.run)).1, (p.at_ (r * p.run)).2, min p.run (n - r * p.run))
/-- The size of the piece that begins at byte p: to the next 256-byte boundary of the destination, within its run (R338). -/
def pieceLen (pl : Plan) (p : Nat) : Nat :=
  min (256 - (pl.at_ p).2 % 256) (min (pl.run - p % max pl.run 1) (pl.total - p))

/-! Reading and writing for engines. -/

/-- Where n bytes of an area stand: extents by key, scratchpad bytes from 2 ^ 60 on; or the address that does not translate. -/
def areaExtents (s : State) (ctx : Nat) (hank : Bool) (a n : Nat) : Except Nat (List (Nat × Nat)) :=
  if hank then extentsOf s ctx a n else .ok (if n = 0 then [] else [(2 ^ 60 + a, n)])
/-- The bytes of extents. -/
def readExtents (s : State) (core tag : Nat) (xs : List (Nat × Nat)) : List Byte :=
  xs.flatMap fun x =>
    if 2 ^ 60 ≤ x.1 then (match findWg s tag with
      | some w => gets0 w.scratch (x.1 - 2 ^ 60) x.2
      | none => [])
    else (List.range x.2).map fun i => engByte s core (x.1 + i)
/-- Bytes written to extents: at their homes, with the core's lines over them invalidated, or in the scratchpad (R118, R338). -/
def writeExtents (core tag : Nat) : List (Nat × Nat) → List Byte → State → State
  | [], _, s => s
  | (k, n) :: r, bs, s =>
    let s :=
      if 2 ^ 60 ≤ k then serveQueues 512 (wakeCounters (updWg s tag fun w => { w with scratch := puts0 w.scratch (k - 2 ^ 60) (bs.take n) }) tag) tag
      else l1Drop (writeAtHome (writeBack s core k n) k (bs.take n)) core k n
    writeExtents core tag r (bs.drop n) s
/-- Bytes that the spec leaves undefined (R3): free values. -/
def scramble (core tag : Nat) (s : State) (x : Nat × Nat) : State :=
  writeExtents core tag [x] ((List.range x.2).map fun i => Config.freeByte (s.freeCtr + 1) (x.1 + i)) { s with freeCtr := s.freeCtr + 1 }
/-- The common part of two ranges. -/
def overlap (a b : Nat × Nat) : Option (Nat × Nat) :=
  let lo := max a.1 b.1
  let hi := min (a.1 + a.2) (b.1 + b.2)
  if lo < hi then some (lo, hi - lo) else none
/-! Issue (R333 to R337, R342, R343). -/

/-- ENG of the hanks a command names changes by one. -/
def raiseEng (s : State) (wg gang : Nat) (hanks : List Nat) : State :=
  hanks.foldl (fun s n => updHank s wg gang n fun k => { k with eng := k.eng + 1#6 }) s
/-- Dirty sectors of a core over virtual ranges go home (R118, R336). -/
def flushRanges (core ctx : Nat) (s : State) (xs : List (Nat × Nat)) : State :=
  xs.foldl (fun s (x : Nat × Nat) => (extentsD s ctx x.1 x.2).foldl (fun s (e : Nat × Nat) => writeBack s core e.1 e.2) s) s
/-- A command joins its cluster's queue. -/
def pushEng (h : Here) (kind : EKind) (dbase abase bbase : Option Nat) (hanks : List Nat) (counter : W64) (s : State) : State :=
  let c : EngCmd := { id := s.seq, cluster := clusterNo h.core, wg := h.iss.wg, gang := h.iss.gang, kind := kind, dbase := dbase, abase := abase,
                      bbase := bbase, hanks := hanks, counter := counter, pc := h.iss.at_, seq := s.seq, lanes := h.iss.lanes }
  raiseEng { s with eng := s.eng ++ [c], seq := s.seq + 1 } h.iss.wg h.iss.gang hanks
/-- A word that reads scratchpad words at issue, a named counter or a record, must first see its lanes' earlier scratchpad accesses perform (R117,
R248). -/
def scratchWaits (names : Bool) (h : Here) (tru : LaneMask) (s : State) : Bool := names && opWaits h tru false false 0#3 s
/-- An engine word: it acts once, traps, waits for the scratchpad words that it reads or for room, or joins the queue; a .yield form blocks its lanes
at next (R345). -/
def engBody (chk : Here → State → Option (Trap × W64)) (names : Here → Bool) (hanks : List Nat) (yields : Bool) (act : Here → State → State)
    (h : Here) (tru : LaneMask) (s : State) : Fx :=
  if !gangActs h tru then { s := s }
  else if scratchWaits (names h) h tru s then wantFx (.order tru false false 0#3) s
  else match chk h s with
    | some t => trapFx s t.1 (mains h tru) t.2
    | none =>
      if !hasEngine s h.w h.core h.iss.gang hanks .copy then wantFx (.engine hanks .copy) s
      else
        let id := s.seq
        let s := act h s
        if yields then
          { s := updLanes h tru (fun _ l => { l with pc := (nextPc h).1, cbase := none, st := .blocked (.engine id) }) s, gone := tru }
        else { s := s }

/-- The two hank fields of a copy that are hanks. -/
def copyHanks (f : FmtT) : List Nat := ([f.d.toNat, f.a.toNat].filter fun n => n != 24).dedup
/-- R335's checks of a copy from its plan. -/
def planTrap (h : Here) (f : FmtT) (p : Plan) : Option (Trap × W64) :=
  let rs := runsUpto p (min p.valid p.total)
  let kinds := [areaTrap h.w (areaOf h f.a.toNat) .engRead (p.at_ 0).1 0, areaTrap h.w (areaOf h f.d.toNat) .engWrite (p.at_ 0).2 0]
  firstTrap (kinds ++ (rs.map fun r => areaTrap h.w (areaOf h f.a.toNat) .engRead r.1 r.2.2)
    ++ rs.map fun r => areaTrap h.w (areaOf h f.d.toNat) .engWrite r.2.1 r.2.2)
/-- The copy a CPY word asks for (R337). -/
def cpyKind (f : FmtT) (h : Here) : EKind :=
  let x := srcS h f.c.toNat
  let len := fld x 0 32
  .cpy f.d.toNat f.a.toNat (srcS h f.b.toNat).toNat (srcS h (f.b.toNat + 1)).toNat len (min len (fullCount (fld x 32 32) len))
/-- The checks of CPY (R335, R337). -/
def cpyCheck (word : W64) (f : FmtT) (h : Here) : Option (Trap × W64) :=
  let x := srcS h f.c.toNat
  let len := fld x 0 32
  let p := planOf (cpyKind f h) (areaBase h f.d.toNat) (areaBase h f.a.toNat)
  let src := (p.at_ 0).1
  let dst := (p.at_ 0).2
  firstTrap [trapIf (overCount (fld x 32 32) len) .engineOperand word, planTrap h f p,
    trapIf (src % 8 != 0) .alignment (BitVec.ofNat 64 src), trapIf (dst % 8 != 0 || len % 8 != 0) .alignment (BitVec.ofNat 64 dst),
    trapIf (len == 0) .engineOperand word, counterCheck h.w word (srcS h (f.c.toNat + 1))]
/-- A copy's effect at issue (R118, R336). -/
def copyIssue (f : FmtT) (kind : EKind) (h : Here) (s : State) : State :=
  let db := areaBase h f.d.toNat
  let ab := areaBase h f.a.toNat
  let p := planOf kind db ab
  let rs := runsUpto p (min p.valid p.total)
  let s := if ab.isSome then flushRanges h.core h.w.ctx s (rs.map fun r => (r.1, r.2.2)) else s
  let s := if db.isSome then flushRanges h.core h.w.ctx s (rs.map fun r => (r.2.1, r.2.2)) else s
  pushEng h kind db ab none (copyHanks f) (srcS h (f.c.toNat + 1)) s
/-- A copy names a counter. -/
def namesCounter (f : FmtT) (h : Here) : Bool := !(srcS h (f.c.toNat + 1)).getLsbD 63
/-- CPY (R337). -/
def cpyBody (word : W64) (f : FmtT) : Here → LaneMask → State → Fx :=
  engBody (fun h _ => cpyCheck word f h) (namesCounter f) (copyHanks f) (modBit f.mod 0) fun h s => copyIssue f (cpyKind f h) h s
/-- CPY (R337). -/
def execCpy (g : Guard) (f : FmtT) (s : State) : Host.Outcome State Fault Refusal := runWord (.cpy g f) g (cpyBody (wordOf (.cpy g f)) f) s

/-- The record CPYT uses: the core's cached copy, or the scratchpad's bytes (R343). -/
def recordAt (w : Wg) (off : Nat) : List Byte :=
  match w.records.find? fun r => r.1 == off with
  | some r => r.2
  | none => gets0 w.scratch off 192
/-- Records the core caches, by workgroup and offset. -/
def coreRecords (s : State) (core : Nat) : List (Nat × Nat) :=
  s.wgs.flatMap fun w => if coreOf w == some core then w.records.map fun r => (w.tag, r.1) else []
/-- A record installed in the core's cache of 32; which leaves for it is the core's choice (R343). -/
def installRecord (s : State) (core tag off : Nat) (r : List Byte) : State :=
  match findWg s tag with
  | none => s
  | some w =>
    if w.records.any fun x => x.1 == off then s
    else
      let all := coreRecords s core
      let s :=
        if all.length < 32 then s
        else
          let v := tget (0, 0) all (Config.freeNat s.freeCtr % all.length)
          updWg { s with freeCtr := s.freeCtr + 1 } v.1 fun w => { w with records := w.records.filter fun x => x.1 != v.2 }
      updWg s tag fun w => { w with records := w.records ++ [(off, r)] }
/-- The copy a CPYT word asks for (R342). -/
def cpytKind (f : FmtT) (h : Here) : EKind :=
  let r := recordAt h.w (srcS h f.b.toNat).toNat
  .cpyt f.d.toNat f.a.toNat r (fullCount (fld (srcS h f.c.toNat) 0 32) (recExt r (recDims r - 1)))
/-- The checks of CPYT (R335, R341, R342). -/
def cpytCheck (word : W64) (f : FmtT) (h : Here) : Option (Trap × W64) :=
  let off := srcS h f.b.toNat
  let r := recordAt h.w off.toNat
  let x := srcS h f.c.toNat
  match firstTrap [trapIf (off.toNat % 64 != 0) .alignment off, trapIf (h.w.scratchSize < off.toNat + 192) .scratchRange off, recTrap r word off,
      trapIf (overCount (fld x 0 32) (recExt r (recDims r - 1))) .engineOperand word] with
  | some t => some t
  | none => firstTrap [planTrap h f (planOf (cpytKind f h) (areaBase h f.d.toNat) (areaBase h f.a.toNat)),
      trapIf (fld x 32 32 != 0) .engineOperand word, counterCheck h.w word (srcS h (f.c.toNat + 1))]
/-- CPYT reads its record from the scratchpad, or names a counter. -/
def readsRecord (f : FmtT) (h : Here) : Bool := namesCounter f h || !h.w.records.any fun r => r.1 == (srcS h f.b.toNat).toNat
/-- CPYT (R342). -/
def cpytBody (word : W64) (f : FmtT) : Here → LaneMask → State → Fx :=
  engBody (fun h _ => cpytCheck word f h) (readsRecord f) (copyHanks f) (modBit f.mod 0) fun h s =>
    let off := (srcS h f.b.toNat).toNat
    installRecord (copyIssue f (cpytKind f h) h s) h.core h.iss.wg off (recordAt h.w off)
/-- CPYT (R342). -/
def execCpyt (g : Guard) (f : FmtT) (s : State) : Host.Outcome State Fault Refusal := runWord (.cpyt g f) g (cpytBody (wordOf (.cpyt g f)) f) s

/-- CPYQ (R347). -/
def cpyqWord (s : State) (h : Here) : W64 :=
  let mine := s.eng.filter fun c => c.wg == h.iss.wg
  BitVec.ofNat 64 (min 255 (mine.filter fun c => c.suspended.isSome).length * 2 ^ 40 + (mine.filter fun c => c.gang == h.iss.gang).length * 2 ^ 16
    + (64 - min 64 (queueLen s (clusterNo h.core))))
/-- CPYQ (R347). -/
def cpyqBody (f : FmtT) (h : Here) (tru : LaneMask) (s : State) : Fx :=
  if !gangActs h tru then { s := s } else { s := onGang h (putS h f.d.toNat (cpyqWord s h)) s }
/-- CPYQ (R347). -/
def execCpyq (g : Guard) (f : FmtT) (s : State) : Host.Outcome State Fault Refusal := runWord (.cpyq g f) g (cpyqBody f) s

/-! MSOP (R348 to R350). -/

/-- The fields of an MSOP word. -/
def msopOp (f : FmtT) : BitVec 2 := BitVec.ofNat 2 (modBits f.mod 9 2)
def msopEsz (f : FmtT) : Nat := if modBit f.mod 11 then 2 else 4
/-- The counter of an MSOP: the word at byte 8 c. -/
def msopCounter (f : FmtT) : W64 := BitVec.ofNat 64 (8 * modBits f.mod 0 9)
/-- Areas of an MSOP: hank, use, offset. -/
def msopAreas (f : FmtT) (h : Here) : List (Nat × Use × Nat) :=
  let o (n : Nat) : Nat := (srcS h (f.c.toNat + n)).toNat
  [(f.a.toNat, .engRead, o 1)] ++ (if msopOp f = 3#2 then [] else [(f.b.toNat, .engRead, o 2)]) ++ [(f.d.toNat, .engWrite, o 0)]
/-- The address of an offset through a hank. -/
def hankAddr (h : Here) (n off : Nat) : Nat := areaAddr (areaBase h n) off
/-- The checks of MSOP (R335, R348): R243's for each area, its page translation the last of them, come before the rest. -/
def msopCheck (word : W64) (f : FmtT) (h : Here) (s : State) : Option (Trap × W64) :=
  let x := srcS h (f.c.toNat + 3)
  let n := fld x 0 32
  let v := min n (fullCount (fld x 32 32) n)
  let esz := msopEsz f
  let as_ := msopAreas f h
  let bytes := v * esz
  let pages := as_.map fun (a : Nat × Use × Nat) => extentsOf s h.w.ctx (hankAddr h a.1 a.2.2) bytes
  firstTrap ([trapIf (overCount (fld x 32 32) n) .engineOperand word]
    ++ (as_.map fun (a : Nat × Use × Nat) => areaTrap h.w (areaOf h a.1) a.2.1 (hankAddr h a.1 a.2.2) bytes)
    ++ (as_.map fun (a : Nat × Use × Nat) => trapIf (hankAddr h a.1 a.2.2 % 256 != 0) .alignment (BitVec.ofNat 64 (hankAddr h a.1 a.2.2)))
    ++ (pages.map fun p => match p with
      | .error e => some (.pageFault, BitVec.ofNat 64 e)
      | .ok _ => none)
    ++ [trapIf (n * esz % 256 != 0) .alignment (BitVec.ofNat 64 (hankAddr h f.d.toNat (srcS h f.c.toNat).toNat)), trapIf (n == 0) .engineOperand word]
    ++ (pages.map fun p => match p with
      | .ok xs => trapIf (xs.any fun e => !(e.1 < 2 ^ 48 && isDram e.1)) .engineOperand word
      | .error _ => none)
    ++ [counterCheck h.w word (msopCounter f)])
/-- MSOP (R348). -/
def msopBody (word : W64) (f : FmtT) : Here → LaneMask → State → Fx :=
  let hanks := ([f.d.toNat, f.a.toNat] ++ (if msopOp f = 3#2 then [] else [f.b.toNat])).dedup
  engBody (msopCheck word f) (fun _ => true) hanks false fun h s =>
    let o (n : Nat) : Nat := (srcS h (f.c.toNat + n)).toNat
    let x := srcS h (f.c.toNat + 3)
    let n := fld x 0 32
    pushEng h (.msop f.d.toNat f.a.toNat f.b.toNat (o 0) (o 1) (o 2) ((srcS h (f.c.toNat + 2)).extractLsb' 0 32) n (min n (fullCount (fld x 32 32) n))
      (msopOp f) (modBit f.mod 11)) (areaBase h f.d.toNat) (areaBase h f.a.toNat) (areaBase h f.b.toNat) hanks (msopCounter f)
      (markEffect h.iss.wg s)
/-- MSOP (R348). -/
def execMsop (g : Guard) (f : FmtT) (s : State) : Host.Outcome State Fault Refusal := runWord (.msop g f) g (msopBody (wordOf (.msop g f)) f) s

/-! The engines' steps. -/

/-- A command of an engine. -/
def findEng (s : State) (id : Nat) : Option EngCmd := s.eng.find? fun c => c.id == id
/-- A command changed. -/
def updEng (s : State) (id : Nat) (f : EngCmd → EngCmd) : State := { s with eng := updFirst (fun c => c.id == id) f s.eng }
/-- A command ends: ENG falls, its counter takes ERR if it failed, and the lanes of a .yield form go on (R72, R344, R345). -/
def endEng (s : State) (c : EngCmd) (err : Bool) : State :=
  let s := reissue { s with eng := s.eng.filter fun x => x.id != c.id }
  let s := c.hanks.foldl (fun s n => lowerEng s c.wg c.gang n) s
  let s := if err && !c.counter.getLsbD 63 then creditErr s c.wg c.counter.toNat else s
  match findWg s c.wg with
  | none => s
  | some w =>
    let m := lanesIn (gangOf w c.gang) fun st => st == .blocked (.engine c.id)
    if m = 0#32 then s else releaseLanes s c.wg c.gang m
/-- The hanks of a copy's destination and source, 24 for the scratchpad. -/
def copyEnds : EKind → Nat × Nat
  | .cpy d a _ _ _ _ => (d, a)
  | .cpyt d a _ _ => (d, a)
  | .msop d a _ _ _ _ _ _ _ _ _ => (d, a)
/-- Where a part of a hank, or of the scratchpad, stands, whatever has become of its pages. -/
def endExtents (s : State) (w : Wg) (gang hank a n : Nat) : List (Nat × Nat) :=
  if hank = 24 then (if n = 0 then [] else [(2 ^ 60 + a, n)])
  else
    let k := getHank w gang hank
    cutExtents (a - hankLo k) n (hankExtents s w.ctx k)
/-- The bytes copied whose physical address lies in the command's source range are undefined (R340). -/
def copyOverlap (core : Nat) (c : EngCmd) (w : Wg) (done : Nat) (s : State) : State :=
  let p := planOf c.kind c.dbase c.abase
  let src := (runsUpto p (min p.valid p.total)).flatMap fun r => endExtents s w c.gang (copyEnds c.kind).2 r.1 r.2.2
  let dst := (runsUpto p (min p.valid done)).flatMap fun r => endExtents s w c.gang (copyEnds c.kind).1 r.2.1 r.2.2
  (dst.flatMap fun d => src.filterMap fun x => overlap d x).foldl (scramble core c.wg) s
/-- The n bytes of a piece are credited (R338). -/
def creditCmd (s : State) (c : EngCmd) (n : Nat) : State := if c.counter.getLsbD 63 then s else credit s c.wg c.counter.toNat n
/-- The virtual ranges of memory that a command touches, below its valid count (R336). -/
def cmdRanges (c : EngCmd) : List (Nat × Nat) :=
  match c.kind with
  | .msop _ _ _ doff xoff yoff _ _ valid _ bf =>
    [(areaAddr c.dbase doff, valid * (if bf then 2 else 4)), (areaAddr c.abase xoff, valid * (if bf then 2 else 4)),
      (areaAddr c.bbase yoff, valid * (if bf then 2 else 4))]
  | _ =>
    let p := planOf c.kind c.dbase c.abase
    let rs := runsUpto p (min p.valid p.total)
    (if c.abase.isSome then rs.map fun r => (r.1, r.2.2) else []) ++ (if c.dbase.isSome then rs.map fun r => (r.2.1, r.2.2) else [])
/-- A command may move now: it stands in its cluster's queue, among the four its engine executes, and what it must follow has performed (R117, R119,
R333, R336). -/
def engMoves (s : State) (c : EngCmd) (g : Gang) : Bool :=
  c.suspended.isNone && c.cluster != boltCluster && forkReady g c.seq c.lanes
    && (((s.eng.filter fun x => x.cluster == c.cluster && x.suspended.isNone).take 4).any fun x => x.id == c.id)
    && (!g.pend.any fun a => isEntry a.kind && a.seq < c.seq && (cmdRanges c).any fun x => rangesMeet a.va.toNat a.bytes x.1 x.2)
    && !(findWg s c.wg).any fun w => (cmdRanges c).any fun x => returnedLoad w c.seq x.1 x.2
/-- Poison read, revocation, or a module out of reach ends a command (R344, R363). -/
def engSpoiled (s : State) (w : Wg) (c : EngCmd) (src dst : List (Nat × Nat)) : Bool :=
  c.hanks.any (fun n => (getHank w c.gang n).revoked) || (src.any fun x => x.1 < 2 ^ 60 && deadIn s x.1 x.2)
    || (src ++ dst).any fun x => x.1 < 2 ^ 60 && !reachable s x.1
/-- A command suspends on a page it cannot translate: its fault record (R344). -/
def suspend (s : State) (w : Wg) (c : EngCmd) (va : Nat) : State :=
  let no := s.faults.length
  updEng (sendRecord s w c.gang 0x20#8 false 0#32 c.pc (BitVec.ofNat 64 va) false (some c.id)) c.id fun c => { c with suspended := some no }
/-- Either side of a piece. -/
def pieceExtents (s : State) (w : Wg) (c : EngCmd) (src dst v : Nat) : Except Nat (List (Nat × Nat) × List (Nat × Nat)) :=
  match areaExtents s w.ctx c.abase.isSome src v with
  | .error e => .error e
  | .ok xs => match areaExtents s w.ctx c.dbase.isSome dst v with
    | .error e => .error e
    | .ok ys => .ok (xs, ys)

/-- COPY_PIECE (R338, R339, R344): the command numbered performs its next piece. The spec fixes no instant at which an element is read between
issue and completion; a piece's elements are all read and written at the one instant of its step (log 116). -/
def execCopyPiece (id : Nat) (s : State) : Host.Outcome State Fault Refusal :=
  match findEng s id with
  | none => .fault .notEnabled
  | some c => match findWg s c.wg with
    | none => .fault .notEnabled
    | some w => match coreOf w, c.kind with
      | _, .msop _ _ _ _ _ _ _ _ _ _ _ => .fault .notEnabled
      | none, _ => .fault .notEnabled
      | some core, _ =>
        let p := planOf c.kind c.dbase c.abase
        let n := pieceLen p c.next
        let v := min n (p.valid - c.next)
        let a := p.at_ c.next
        if !engMoves s c (gangOf w c.gang) then .fault .notEnabled
        else match pieceExtents s w c a.1 a.2 v with
          | .error e => .next (suspend s w c e)
          | .ok (xs, ys) =>
            if engSpoiled s w c xs ys then .next (endEng (copyOverlap core c w c.next s) c true)
            else
              let s := refreshAll s (getHank w c.gang (copyEnds c.kind).2) xs
              let dst := (copyEnds c.kind).1
              let bs := readExtents s core c.wg xs
              let r := if dst = 24 then (s, bs) else grantWrites w.ctx (getHank w c.gang dst).ticket.toNat ys bs s
              let s := writeExtents core c.wg ys r.2 r.1
              let s := creditCmd (updEng s id fun c => { c with next := c.next + n }) c n
              .next (if p.total ≤ c.next + n then endEng (copyOverlap core c w p.total s) c false else s)

/-- One element of MSOP, rounded once (R349). -/
def msopElem (op : BitVec 2) (bf : Bool) (scale : W32) (x y d : Nat) : Nat :=
  let f := if bf then bf16 else fp32
  let u (x : Nat) : FV := unpack f x
  (finish f 0 false (match op with
    | 0#2 => addEx 0 (u x) (u y)
    | 1#2 => mulEx (u x) (u y)
    | 2#2 => fmaEx 0 (u x) (u y) (u d)
    | _ => mulEx (u x) (unpack fp32 scale.toNat))).bits
/-- An element of DRAM at a virtual address. -/
def dramElem (s : State) (ctx va n : Nat) : Nat := match translate s ctx va with
  | some k => leNat (devBytes s k n)
  | none => 0
/-- The first address of a list that does not translate. -/
def firstUnmapped (s : State) (ctx : Nat) (vas : List Nat) : Option Nat := vas.find? fun a => (translate s ctx a).isNone
/-- A suspended or stopped command ends in error, its overlapping bytes undefined (R340, R344). -/
def failEng (s : State) (c : EngCmd) : State := match findWg s c.wg with
  | some w => match c.kind with
    | .msop _ _ _ _ _ _ _ _ _ _ _ => endEng s c true
    | _ => endEng (copyOverlap ((coreOf w).getD 768) c w c.next s) c true
  | none => endEng s c true
/-- MSOP_LINE (R349, R350, R359): the memory-side ALU computes the next destination line at DRAM, past every cache; a page that no longer
translates suspends the command. -/
def execMsopLine (id : Nat) (s : State) : Host.Outcome State Fault Refusal :=
  match findEng s id with
  | none => .fault .notEnabled
  | some c => match findWg s c.wg, c.kind with
    | some w, .msop _ _ _ doff xoff yoff scale n valid op bf =>
      if (coreOf w).isNone || !engMoves s c (gangOf w c.gang) then .fault .notEnabled
      else
        let esz := if bf then 2 else 4
        let i0 := c.next / esz
        let is := (List.range (256 / esz)).map (i0 + ·)
        let live := is.filter fun i => i < valid
        let at_ (b : Option Nat) (off i : Nat) : Nat := areaAddr b (off + i * esz)
        let as_ := (live.map (at_ c.abase xoff)) ++ (if op = 3#2 then [] else live.map (at_ c.bbase yoff)) ++ live.map (at_ c.dbase doff)
        match firstUnmapped s w.ctx as_ with
        | some va => .next (suspend s w c va)
        | none =>
        if engSpoiled s w c [] [] then .next (endEng s c true)
        else
          let y (i : Nat) : Nat := if op = 3#2 then 0 else dramElem s w.ctx (at_ c.bbase yoff i) esz
          let out := live.map fun i =>
            ((translate s w.ctx (at_ c.dbase doff i)).getD 0,
              leBytes esz (msopElem op bf scale (dramElem s w.ctx (at_ c.abase xoff i) esz) (y i) (dramElem s w.ctx (at_ c.dbase doff i) esz)))
          let s := out.foldl (fun s (x : Nat × List Byte) => if meetsImages s x.1 esz then smear s x.1 esz else devPut s x.1 x.2) s
          let s := creditCmd (updEng s id fun c => { c with next := c.next + 256 }) c 256
          .next (if n * esz ≤ c.next + 256 then endEng s c false else s)
    | _, _ => .fault .notEnabled

end Sys2Proof.Machine
end

