-- ==== Sys2Proof/Machine/Spawn.lean ====
section
/-! DEFINITION. Active messages and children, opcodes 0xC8 to 0xCA, with their steps (R352 to R358). -/

namespace Sys2Proof.Machine

/-! Active messages. -/

/-- The trap of AMSEND's operands (R353). -/
def amCheck (word : W64) (f : FmtT) (h : Here) : Option (Trap × W64) :=
  let a := srcS h f.a.toNat
  let b := srcS h f.b.toNat
  let c := srcS h f.c.toNat
  let len := fld b 8 9
  firstTrap [trapIf (767 < fld a 0 10 || fld a 20 44 != 0) .engineOperand word, trapIf (256 < len || fld b 17 47 != 0) .engineOperand word,
    trapIf (c.toNat % 8 != 0) .alignment c, trapIf (h.w.scratchSize < c.toNat + len) .scratchRange c]
/-- AMSEND (R353): the message leaves for its core; one to another module is answered from there, as its module chooses. -/
def amsendBody (word : W64) (f : FmtT) (h : Here) (tru : LaneMask) (s : State) : Fx :=
  if !gangActs h tru then { s := s }
  else match amCheck word f h with
    | some t => trapFx s t.1 (mains h tru) t.2
    | none =>
      let a := srcS h f.a.toNat
      let b := srcS h f.b.toNat
      if opWaits h tru false false 0#3 s then wantFx (.order tru false false 0#3) s
      else
      let m := if a.getLsbD 19 then s.module else fld a 10 9
      let s := markEffect h.iss.wg (onGang h (markS h f.d.toNat) s)
      let payload := gets0 h.w.scratch (srcS h f.c.toNat).toNat (fld b 8 9)
      if m = s.module then
        { s := { s with msgs := s.msgs ++ [.am (fld a 0 10) (fld b 0 8) payload h.core s.module h.w.ctx (modBit f.mod 0) h.iss.wg h.iss.gang f.d.toNat (dstQuads h)] } }
      else
        let status := if moduleReachable s m then tget 0 [0, 1, 3, 4] (Config.freeNat s.freeCtr % 4) else 2
        { s := { s with freeCtr := s.freeCtr + 1, msgs := s.msgs ++ [.amReply h.iss.wg h.iss.gang f.d.toNat (dstQuads h) status] } }
/-- AMSEND (R353). -/
def execAmsend (g : Guard) (f : FmtT) (s : State) : Host.Outcome State Fault Refusal := runWord (.amsend g f) g (amsendBody (wordOf (.amsend g f)) f) s

/-- A message without its place in the list. -/
def dropMsg (s : State) (n : Nat) : State := { s with msgs := dropNth s.msgs n }
/-- The sender's word that a handler finds at offset 256 (R354). -/
def senderWord (core module ctx len : Nat) : W64 := BitVec.ofNat 64 (core + module * 2 ^ 10 + ctx * 2 ^ 19 + len * 2 ^ 35)
/-- An earlier message of the same gang to the same core in the same class (R353). -/
def amEarlier (s : State) (n core wg gang : Nat) (urgent : Bool) : Bool :=
  (s.msgs.take n).any fun m => match m with
    | .am c _ _ _ _ _ u w g _ _ => c == core && w == wg && g == gang && u == urgent
    | _ => false
/-- What a core answers to a message: a status, and for an accepted one what will wait for resources (R353, R354). -/
def amDecide (s : State) (core handler : Nat) (payload : List Byte) (fromCore fromModule fromCtx : Nat) (urgent : Bool) : Nat × Option AmWait :=
  let e := ctlGet s (0x7F0000400000 + 0x800 * core + 8 * handler)
  let ctx := fld e 48 16
  if e.getLsbD 0 = false ∨ ctxValid s ctx = false then (1, none)
  else if ctxTenant s ctx ≠ ctxTenant s fromCtx then (3, none)
  else match kernelOf s (fld e 16 16) with
    | none => (1, none)
    | some (im, d) =>
      if 1 < descGangs s d || descScratch s d < 512 then (4, none)
      else (0, some ⟨core, urgent, ctx, fld e 45 3, im.num, d, descEntry s im d, payload, senderWord fromCore fromModule fromCtx payload.length⟩)
/-- AM_ACCEPT (R353, R354): the n-th message reaches its core, which accepts or refuses it; while 64 wait there it waits unanswered. -/
def execAmAccept (n : Nat) (s : State) : Host.Outcome State Fault Refusal :=
  match s.msgs[n]? with
  | some (.am core handler payload fc fm fctx urgent wg gang d quads) =>
    if 64 ≤ (s.amWaits.filter fun x => x.core == core).length || amEarlier s n core wg gang urgent then .fault .notEnabled
    else
      let r := amDecide s core handler payload fc fm fctx urgent
      let s := dropMsg s n
      let s := match r.2 with
        | some x => useImage { s with amWaits := s.amWaits ++ [x] } x.image
        | none => s
      .next { s with msgs := s.msgs ++ [.amReply wg gang d quads r.1] }
  | _ => .fault .notEnabled
/-- AM_REPLY (R353): the answer fills the sender's status register. -/
def execAmReply (n : Nat) (s : State) : Host.Outcome State Fault Refusal :=
  match s.msgs[n]? with
  | some (.amReply wg gang d quads status) => .next (updGang (dropMsg s n) wg gang (mapQuads quads fun q => sput q d (BitVec.ofNat 64 status)))
  | _ => .fault .notEnabled

/-! Children. -/

/-- A child slot. -/
def childOf (w : Wg) (n : Nat) : ChildSt := tget .free w.children n
/-- A child slot written. -/
def setChild (w : Wg) (n : Nat) (c : ChildSt) : Wg := { w with children := tset .free w.children n c }
/-- A kernel that no core can ever hold, or with too little scratchpad for its arguments (R355, R392). -/
def childTooBig (s : State) (d : Nat) : Bool :=
  16 < descGangs s d || 256 < descGangs s d * descQuota s d || 0x40000 < descScratch s d || descScratch s d < 256 || 16 < descMacs s d || 32 < descAccs s d
/-- The trap of SPAWN's operands (R355, R356), from the words of its kernel index and its argument block. -/
def spawnCheck (word : W64) (f : FmtT) (w : Wg) (gang : Nat) (a b : W64) (s : State) : Option (Trap × W64) :=
  let bad := fld a 16 48 != 0 || match kernelOf s a.toNat with
    | none => true
    | some (_, d) => childTooBig s d
  firstTrap [trapIf bad .engineOperand word, trapIf (b.toNat % 8 != 0) .alignment b, trapIf (w.scratchSize < b.toNat + 256) .scratchRange b,
    trapIf ((lentHanks f).any fun i => (getHank w gang (16 + i)).rebs != 0#4) .borrowChildren word]
/-- The hank a child receives for one lent, and what the parent keeps (R356). A lent S copy names no parent: the child's HRET only empties it. -/
def lendHank (k : Hank) : Hank × Hank :=
  let k := seenHank k
  if k.kind = 1#2 then ({ k with rebs := 0#4, eng := 0#6 }, { k with pending := true })
  else ({ k with eng := 0#6, rebs := 0#4, lent := false, pgang := 0#4, phank := 0#5 }, k)
/-- The physical extents of the X hanks that SPAWN lends. -/
def lentRanges (s : State) (w : Wg) (gang : Nat) (f : FmtT) : List (Nat × Nat) :=
  (lentHanks f).flatMap fun i =>
    let k := seenHank (getHank w gang (16 + i))
    if k.kind = 1#2 then hankExtents s w.ctx k else []
/-- SPAWN takes effect for a gang on a core: the parent's dirty sectors over the X hanks it lends go home, the hanks move, the child waits for a
place, and D receives its slot (R355, R356). -/
def spawnNow (f : FmtT) (tag gang core : Nat) (quads : BitVec 8) (a b : W64) (s : State) : State :=
  match findWg s tag with
  | none => s
  | some w =>
    let put (x : W64) (s : State) : State := updGang s tag gang (mapQuads quads fun q => sput q f.d.toNat x)
    match (List.range 16).find? fun n => childOf w n == .free, kernelOf s a.toNat with
    | some n, some (im, d) =>
      let lent := (lentHanks f).map fun i => (i, lendHank (getHank w gang (16 + i)))
      let r : ChildReq := { id := s.seq, parent := tag, slot := n, image := im.num, desc := d, entry := descEntry s im d,
                            args := gets0 w.scratch b.toNat 256, hanks := lent.map fun x => (x.1, x.2.1),
                            lend := BitVec.ofNat 8 ((lent.filter fun x => x.2.1.kind == 1#2).map fun x => 2 ^ x.1).sum }
      let s := (lentRanges s w gang f).foldl (fun s (x : Nat × Nat) => writeBack s core x.1 x.2) s
      let s := updWg s tag fun w =>
        lent.foldl (fun w (x : Nat × Hank × Hank) =>
          if x.2.1.kind = 1#2 then putHank w gang (16 + x.1) x.2.2 else w) (setChild w n (.running 0))
      put (BitVec.ofNat 64 n) (useImage { markEffect tag s with seq := s.seq + 1, childReqs := s.childReqs ++ [r] } im.num)
    | _, _ => put 0xFFFFFFFFFFFFFFFF#64 s
/-- SPAWN (R355, R356): a lent hank whose ENG is not zero holds it in a borrow wait (R72); it follows the gang's accesses to the scratchpad, and
those of the workgroup to the X ranges it lends (R117). -/
def spawnBody (i : Instr) (f : FmtT) (h : Here) (tru : LaneMask) (s : State) : Fx :=
  if !gangActs h tru then { s := s }
  else
    let a := srcS h f.a.toNat
    let b := srcS h f.b.toNat
    match spawnCheck (wordOf i) f h.w h.iss.gang a b s with
    | some t => trapFx s t.1 (mains h tru) t.2
    | none =>
      let xs := lentRanges s h.w h.iss.gang f
      if opWaits h tru false false 0#3 s then wantFx (.order tru false false 0#3) s
      else if coreAccess h.w xs then wantFx (.drained xs) s
      else if hankBusy h.w h.iss.gang i then deferOp i h tru a b s
      else { s := spawnNow f h.iss.wg h.iss.gang h.core (dstQuads h) a b s }
/-- SPAWN (R355). -/
def execSpawn (g : Guard) (f : FmtT) (s : State) : Host.Outcome State Fault Refusal := runWord (.spawn g f) g (spawnBody (.spawn g f) f) s

/-! Operations held by ENG (R67, R72, R278). -/

/-- A deferred operation stands before another: of one gang, or on one w-hank of the workgroup (R67, R278; log entry 128). -/
def deferredBefore (a b : Deferred) : Bool :=
  a.wg == b.wg && (a.gang == b.gang || (hankNames a.word).any fun n => 16 ≤ n && (hankNames b.word).contains n)
/-- The trap of a deferred operation as it takes effect, with its INFO. -/
def deferredTrap (s : State) (w : Wg) (d : Deferred) : Option (Trap × W64) :=
  match d.word with
  | .spawn _ f => spawnCheck (wordOf d.word) f w d.gang d.x d.y s
  | _ => (hankCheck w d.gang d.word d.x).map fun t => (t.1, hankInfo d.word t)
/-- A deferred operation takes effect; the second part says that its lanes stay blocked. -/
def deferredApply (s : State) (core : Nat) (d : Deferred) : State × Bool :=
  match d.word with
  | .spawn _ f => (spawnNow f d.wg d.gang core ((d.quad.map fun q => 1#8 <<< q).getD 0xFF#8) d.x d.y s, false)
  | _ => hankApply s d.wg d.gang d.lanes d.word d.x
/-- A deferred SPAWN still has accesses to the ranges it lends to follow (R117). -/
def deferredWaits (s : State) (w : Wg) (d : Deferred) : Bool := match d.word with
  | .spawn _ f => coreAccess w (lentRanges s w d.gang f)
  | _ => false
/-- HANK_OP_DEFERRED (R72): the n-th operation held by ENG takes effect once ENG is zero and those before it have. -/
def execHankOpDeferred (n : Nat) (s : State) : Host.Outcome State Fault Refusal :=
  match s.deferred[n]? with
  | none => .fault .notEnabled
  | some d =>
    match findWg s d.wg with
    | none => .fault .notEnabled
    | some w => match coreOf w with
      | none => .fault .notEnabled
      | some core =>
        if hankBusy w d.gang d.word || (s.deferred.take n).any (fun x => deferredBefore x d) || deferredWaits s w d then .fault .notEnabled
        else
          let s := { s with deferred := dropNth s.deferred n }
          let l := laneOf (gangOf w d.gang) (lowest d.lanes)
          match deferredTrap s w d with
          | some t =>
            let s := releaseLanes s d.wg d.gang (d.lanes &&& ~~~d.tru)
            .next (takeTrap s d.wg d.gang l.pc l.cbase (trapAll t.1 d.tru t.2))
          | none =>
            let r := deferredApply s core d
            .next (if r.2 then r.1 else releaseLanes r.1 d.wg d.gang d.lanes)

/-- A child that has not ended. -/
def childRuns (w : Wg) (n : Nat) : Bool := match childOf w n with
  | .running _ => true
  | _ => false
/-- The status bits of a child slot and its record index (R358). -/
def childCode (w : Wg) (n : Nat) : Nat × Nat := match childOf w n with
  | .done => (1, 0)
  | .faulted r => (2, r)
  | .killed r => (3, r)
  | _ => (0, 0)
/-- The word WAITCH gives (R358). -/
def childWord (w : Wg) (slots : BitVec 16) (one : Bool) : W64 :=
  let ns := bitsOf slots
  let err := ns.any fun n => 2 ≤ (childCode w n).1
  let body := if one then (match ns with
      | n :: _ => (childCode w n).1 * 2 ^ 32 + (childCode w n).2 % 2 ^ 32
      | [] => 0)
    else (ns.map fun n => (childCode w n).1 * 4 ^ n).foldl (· + ·) 0
  BitVec.ofNat 64 (err.toNat * 2 ^ 63 + body)
/-- The slots WAITCH named become free (R358). -/
def freeChildren (w : Wg) (slots : BitVec 16) : Wg := (bitsOf slots).foldl (fun w n => setChild w n .free) w
/-- WAITCH (R358). -/
def waitchBody (word : W64) (f : FmtT) (h : Here) (tru : LaneMask) (s : State) : Fx :=
  if !gangActs h tru then { s := s }
  else
    let x := srcS h f.a.toNat
    let one := modBit f.mod 0
    if x.toNat ≥ (if one then 16 else 65536) then trapFx s .engineOperand (mains h tru) word
    else
      let slots : BitVec 16 := if one then 1#16 <<< x.toNat else x.setWidth 16
      if (bitsOf slots).any (childRuns h.w) then
        { s := updLanes h h.iss.lanes (fun _ l => { l with st := .waiting (.child slots one f.d.toNat (dstQuads h)) }) s, gone := h.iss.lanes }
      else { s := updWg (onGang h (putS h f.d.toNat (childWord h.w slots one)) s) h.iss.wg fun w => freeChildren w slots }
/-- WAITCH (R358). -/
def execWaitch (g : Guard) (f : FmtT) (s : State) : Host.Outcome State Fault Refusal := runWord (.waitch g f) g (waitchBody (wordOf (.waitch g f)) f) s

/-- The children and register a lane waits for. -/
def childWait (l : Lane) : Option (BitVec 16 × Bool × Nat × BitVec 8) := match l.st with
  | .waiting (.child slots one d q) => some (slots, one, d, q)
  | _ => none
/-- WAITCH ends for one lane and those that wait with it. -/
def wakeChildAt (tag gang : Nat) (s : State) (n : Nat) : State :=
  match findWg s tag with
  | none => s
  | some w =>
    let g := gangOf w gang
    match childWait (laneOf g n) with
    | some (slots, one, d, q) =>
      if (bitsOf slots).any (childRuns w) then s
      else
        let m := maskOf fun k => childWait (laneOf g k) == some (slots, one, d, q) && (laneOf g k).pc == (laneOf g n).pc
        let s := updGang s tag gang (mapQuads q fun x => sput x d (childWord w slots one))
        releaseLanes (updWg s tag fun w => freeChildren w slots) tag gang m
    | none => s
/-- WAITCH ends wherever its children have. -/
def wakeChildren (s : State) (tag : Nat) : State :=
  (List.range 16).foldl (fun s g => (List.range 32).foldl (wakeChildAt tag g) s) s

/-- The X hank of a workgroup that it holds of a range lent to it: in the register it was lent in, else in the lowest other one (log 113). -/
def heldOf (w : Wg) (mine : Hank) (i : Nat) : Option Hank :=
  (tget {} w.w i :: (w.gangs.flatMap fun g => g.h) ++ w.w).find? fun k => k.kind == 1#2 && !k.pending && k.ticket == mine.ticket
    && rangeIn (hankLo k) (hankBytes k) (hankLo mine) (hankBytes mine)
/-- A lent X hank at the child's end: one that the child still holds returns to the parent with the range invalidated there; one that the child
gave back leaves the parent empty; after a bad end the range is undefined (R356). -/
def returnLent (s : State) (child : Wg) (parent : Nat) (bad : Bool) (i : Nat) : State :=
  match findWg s parent with
  | none => s
  | some p =>
    let mine := getHank p 0 (16 + i)
    if !mine.pending then s
    else
      let xs := hankExtents s p.ctx mine
      let s := match coreOf p with
        | some core => xs.foldl (fun s (x : Nat × Nat) => l1Drop s core x.1 x.2) s
        | none => s
      let s := if bad then xs.foldl (fun s (x : Nat × Nat) => smear (sliceDrop s x.1 x.2) x.1 x.2) s else s
      updHank s parent 0 (16 + i) fun _ => match heldOf child mine i with
        | some k => { received s p.ctx k with eng := 0#6, rebs := 0#4 }
        | none => {}
/-- CHILD_END (R356, R357): an ended child's lent hanks return and its slot shows how it ended. -/
def execChildEnd (wg : Nat) (s : State) : Host.Outcome State Fault Refusal :=
  match findWg s wg with
  | none => .fault .notEnabled
  | some w => match w.kind with
    | .child parent slot =>
      if w.st ≠ .ended then .fault .notEnabled
      else
        let bad := w.faulted || w.killed
        let s := (bitsOf w.lent).foldl (fun s i => returnLent s w parent bad i) s
        let st : ChildSt := if w.killed then .killed w.record else if w.faulted then .faulted w.record else .done
        let s := updWg s parent fun p => setChild p slot st
        .next (wakeChildren { s with wgs := s.wgs.filter fun x => x.tag != wg } parent)
    | _ => .fault .notEnabled

end Sys2Proof.Machine
end

