-- ==== Sys2Proof/Machine/Links.lean ====
section
/-! DEFINITION. Links, planes and slots: the steps of the link layer (R361 to R369), and RESET, which starts every link. -/

namespace Sys2Proof.Machine

/-- A link changed. -/
def updLink (s : State) (p : Nat) (f : Link → Link) : State :=
  { s with links := (List.range 48).map fun i => if i = p then f (linkOf s i) else linkOf s i }
/-- A link is left in a state: the traffic planes may change with it (R364). -/
def setLink (s : State) (p : Nat) (l : Link) : State := remap s (updLink s p fun _ => l)
/-- A port of a module in the live link table: only UP ports stand there (R367, R374). -/
def setLive (s : State) (m p : Nat) (up : Bool) : State :=
  if s.live.any fun x => x.1 == m then { s with live := s.live.map fun x => if x.1 = m then (m, putBit x.2 p up) else x }
  else { s with live := s.live ++ [(m, putBit 0#40 p up)] }
/-- The retraining attempts of a link: three in all (R367). -/
def lastAttempt : Nat := 2

/-- Flits of 256 bytes on scale-up ports and bridges, of 64 between dies (R366). -/
def flitSize (p : Nat) : Nat := if 40 ≤ p then 64 else 256
/-- A packet cut into flits from a sequence number on. -/
def flitsOf (size : Nat) (seq : BitVec 12) (packet : List Byte) : List Flit :=
  let n := max 1 (cdiv packet.length size)
  (List.range n).map fun i => { seq := seq + BitVec.ofNat 12 i, crcOk := true, last := i + 1 == n, payload := (packet.drop (size * i)).take size }
/-- Packets that wait leave in order on a link that is UP, each once there is room for all its flits below 512 unacknowledged (R366, R367). -/
def pump (size : Nat) : Nat → Link → Link
  | 0, l => l
  | f + 1, l =>
    match l.outbox with
    | [] => l
    | x :: r =>
      let fs := flitsOf size l.txNext x
      if l.st != .up || 512 < l.unacked.length + fs.length then l
      else pump size f { l with outbox := r, unacked := l.unacked ++ fs, txNext := l.txNext + BitVec.ofNat 12 fs.length }
/-- Every packet that can leave on a link leaves. -/
def pumped (p : Nat) (l : Link) : Link := pump (flitSize p) l.outbox.length l
/-- A packet is sent on a link as flits, kept until acknowledged; a full or retraining sender holds it (R366, R367). -/
def sendFlits (s : State) (link : Nat) (packet : List Byte) : State :=
  updLink s link fun l => pumped link { l with outbox := l.outbox ++ [packet] }

/-- The run from the next number on is delivered. A packet leaves the crossing buffer whole when its last flit has come, to the link it goes
on to (R366, R369): the packets that leave so, in order. -/
def deliver : Nat → Link → Link × List (Nat × List Byte)
  | 0, l => (l, [])
  | f + 1, l =>
    match l.rxBuf.find? fun x => x.seq == l.rxNext with
    | none => (l, [])
    | some x =>
      let l := { l with rxBuf := l.rxBuf.filter fun y => y.seq != x.seq, rxNext := l.rxNext + 1#12 }
      if x.last then
        let r := deliver f { l with crossing := [], delivered := l.delivered + 1 }
        match x.onward with
        | some q => (r.1, (q, (l.crossing ++ [x.payload]).flatten) :: r.2)
        | none => r
      else deliver f { l with crossing := l.crossing ++ [x.payload] }
/-- The acknowledgement a link owes: its lowest unreceived number, and which of the 64 flits after it have come (R366). -/
def ackOf (l : Link) : BitVec 12 × W64 :=
  (l.rxNext, (List.range 64).foldl (fun v i => putBit v i (l.rxBuf.any fun x => x.seq == l.rxNext + BitVec.ofNat 12 (i + 1))) 0#64)
/-- An acknowledgement goes out. -/
def ackLink (l : Link) : Link := { l with acks := 0, ackOut := some (ackOf l) }
/-- A flit as the receiver takes it: a damaged one, one delivered already, one held already and one beyond the buffer of 512 are discarded. -/
def takeFlit (x : Flit) (l : Link) : Link × List (Nat × List Byte) :=
  let fresh := x.crcOk && (x.seq - l.rxNext).toNat < 512 && !l.rxBuf.any fun y => y.seq == x.seq
  let l := { l with acks := l.acks + 1 }
  let r := if fresh then deliver 512 { l with rxBuf := l.rxBuf ++ [x] } else (l, [])
  (if 64 ≤ r.1.acks then ackLink r.1 else r.1, r.2)
/-- FLIT_RECEIVE (R366): the 64th flit since the last acknowledgement sends one. -/
def execFlitReceive (link : Nat) (x : Flit) (s : State) : Host.Outcome State Fault Refusal :=
  let l := linkOf s link
  if 48 ≤ link || l.st != .up then .fault .notEnabled
  else .next ((takeFlit x l).2.foldl (fun s y => sendFlits s y.1 y.2) (updLink s link fun _ => (takeFlit x l).1))
/-- ACK_SEND (R366): an acknowledgement goes out for the flits received since the last. -/
def execAckSend (link : Nat) (s : State) : Host.Outcome State Fault Refusal :=
  let l := linkOf s link
  if 48 ≤ link || l.st != .up || l.acks == 0 then .fault .notEnabled else .next (updLink s link ackLink)
/-- A flit that an acknowledgement shows received: below its number, or marked in its bitmap. -/
def acked (seq : BitVec 12) (bitmap : W64) (x : BitVec 12) : Bool :=
  let d := (x - seq).toNat
  2048 ≤ d || (1 ≤ d && d ≤ 64 && bitmap.getLsbD (d - 1))
/-- A flit that an acknowledgement shows missing: its number, or a later one below a flit marked received. -/
def shownMissing (seq : BitVec 12) (bitmap : W64) (x : BitVec 12) : Bool :=
  let d := (x - seq).toNat
  !acked seq bitmap x && bitmap.toNat / 2 ^ d != 0
/-- Resends of a flit so far. -/
def resendsOf (l : Link) (x : BitVec 12) : Nat := match l.resends.find? fun r => r.1 == x with
  | some r => r.2
  | none => 0
/-- ACK_RECEIVE (R366, R367): acknowledged flits leave, the missing ones are resent, and a flit resent eight times retrains the link. -/
def execAckReceive (link : Nat) (seq : BitVec 12) (bitmap : W64) (s : State) : Host.Outcome State Fault Refusal :=
  let l := linkOf s link
  if 48 ≤ link || l.st != .up then .fault .notEnabled
  else
    let left := l.unacked.filter fun x => !acked seq bitmap x.seq
    let again := (left.filter fun x => shownMissing seq bitmap x.seq).map fun x => (x.seq, resendsOf l x.seq + 1)
    let l := { l with unacked := left, resends := again ++ l.resends.filter fun r => left.any (fun x => x.seq == r.1) && !again.any fun y => y.1 == r.1 }
    if again.any fun r => 8 < r.2 then .next (setLink s link { l with st := .retrain, attempts := 0 })
    else .next (updLink s link fun _ => pumped link l)

/-- LINK_LOCK (R367, R368): a link in TRAIN locks on the highest version common to both partners, or fails; one in RETRAIN goes on. -/
def execLinkLock (link lo hi : Nat) (s : State) : Host.Outcome State Fault Refusal :=
  let l := linkOf s link
  if 48 ≤ link then .fault .notEnabled
  else match l.st with
    | .train =>
      if lo ≤ 1 ∧ 1 ≤ hi then .next (setLink s link (pumped link { st := .up, version := 1, delivered := l.delivered, outbox := l.outbox }))
      else .next (setLink s link { l with st := .failed })
    | .retrain => .next (setLink s link (pumped link { l with st := .up, attempts := 0, resends := [] }))
    | _ => .fault .notEnabled
/-- LOSS_OF_LOCK (R367). -/
def execLossOfLock (link : Nat) (s : State) : Host.Outcome State Fault Refusal :=
  if 48 ≤ link || (linkOf s link).st != .up then .fault .notEnabled
  else .next (setLink s link { linkOf s link with st := .retrain, attempts := 0 })
/-- TRAINING_TIMEOUT (R367): the third attempt without lock fails the link. -/
def execTrainingTimeout (link : Nat) (s : State) : Host.Outcome State Fault Refusal :=
  let l := linkOf s link
  if 48 ≤ link || !(l.st == .train || l.st == .retrain) then .fault .notEnabled
  else if l.attempts < lastAttempt then .next (updLink s link fun l => { l with attempts := l.attempts + 1 })
  else .next (updLink s link fun l => { l with st := .failed, attempts := 3 })
/-- A link has a partner: bridge port 3 only where the pod has the module of the paired board (R361). -/
def connected (s : State) (link : Nat) : Bool := link != 39 || Config.podHas (s.module ^^^ 4)
/-- PORT_ENABLE (R361, R367). -/
def execPortEnable (link : Nat) (s : State) : Host.Outcome State Fault Refusal :=
  let l := linkOf s link
  if 48 ≤ link || !(l.st == .down || l.st == .failed) || !connected s link then .fault .notEnabled
  else .next (updLink s link fun l => { l with st := .train, attempts := 0 })
/-- A remap that a request with a place in the order concerns, 20 µs old. -/
def lateRemap (s : State) (plane seq : Nat) : Bool :=
  s.deadPlanes.any fun r => seq < r.upto && (r.dead.isNone || r.dead == some plane) && 20000 ≤ (s.time1588 - r.since).toNat
/-- Requests sent on a plane that a remap concerns, unanswered for 20 µs since, for which there is a plane now (R364). -/
def overdue (s : State) (plane : Nat) (a : Access) : Bool :=
  a.plane == some plane && (planeOf s a.pa).isSome && lateRemap s plane a.seq
/-- A returned hank's write-backs sent on a plane that has not answered them. -/
def retOverdue (s : State) (plane : Nat) (r : RetOp) : Bool :=
  r.sent && (r.planes.any fun p => p.2 == plane && (planeOf s p.1).isSome) && lateRemap s plane r.stamp
/-- Its write-backs go out again on the planes that their addresses now select. -/
def retResend (s : State) (plane : Nat) (r : RetOp) : RetOp :=
  if retOverdue s plane r then { r with planes := r.planes.map fun p => if p.2 = plane then (p.1, (planeOf s p.1).getD p.2) else p } else r
/-- PLANE_RESEND_TIMEOUT (R364): requests that a plane has not answered 20 µs after it failed go out again on the plane their address now
selects; the remaps that they held up are over. -/
def execPlaneResendTimeout (plane : Nat) (s : State) : Host.Outcome State Fault Refusal :=
  if !((remoteOut s).any fun x => overdue s plane x.2.2) && !s.rets.any (retOverdue s plane) then .fault .notEnabled
  else
    let s1 := resend s (overdue s plane)
    let s2 := ((remoteOut s).filter fun x => overdue s plane x.2.2).foldl (fun s1 x =>
      updPend s1 x.1 x.2.1 x.2.2.seq fun a => { a with plane := planeOf s a.pa }) s1
    let s3 := { s2 with rets := s2.rets.map (retResend s plane) }
    .next { s3 with deadPlanes := s3.deadPlanes.filter (remapOpen s3) }
/-- SLOT_RESERVATION (R32, R365): slots 0 and 32 are never granted, and a reservation that cannot be granted whole is refused. A granted
reservation stands until RESET, and its links and slots are those asked for, whatever their offsets (log 118). -/
def execSlotReservation (links slots : List Nat) (s : State) : Host.Outcome State Fault Refusal :=
  let want := links.zip slots
  let ok := links.length == slots.length && want.all fun x => x.2 < 64 && x.2 != 0 && x.2 != 32 && !s.slotRes.contains x
  .next (if ok then { s with slotRes := s.slotRes ++ want.dedup } else s)
/-- STARVATION_TOKEN (R365): the router's next idle unreserved slot uses it up (log 118). -/
def execStarvationToken (router input : Nat) (s : State) : Host.Outcome State Fault Refusal :=
  if s.tokens.contains (router, input) then .fault .notEnabled else .next { s with tokens := s.tokens ++ [(router, input)] }

/-- RESET (R361, R367): every register takes its reset value and every link with a partner goes from DOWN to TRAIN. What the host, the fuses and
the clocks hold stays, and an erased key store stays erased; DRAM holds undefined bytes (log entry 7). -/
def execReset (s : State) : Host.Outcome State Fault Refusal :=
  let r := State.reset
  .next { r with
    agenda := s.agenda, cycle := s.cycle, time1588 := s.time1588, module := s.module, freeCtr := s.freeCtr + 1
    smears := [(0, 2 ^ 60, s.freeCtr)], hostMem := s.hostMem, lost := s.lost, fuse := s.fuse, seq := s.seq
    ctl := if (ctlGet s 0x7F0004000028).getLsbD 8 then ctlInsert r.ctl 0x7F0004000028 0x100#64 else r.ctl
    links := (List.range 48).map fun p => if connected s p then { st := .train } else {} }

end Sys2Proof.Machine
end

