-- ==== Sys2Proof/Machine/Xfer.lean ====
section
/-! DEFINITION. XFER, opcode 0xD0, and its packets (R370 to R372, R384). -/

namespace Sys2Proof.Machine

/-- The scalar operands of XFER. -/
def xferLen (f : FmtT) (h : Here) : Nat := fld (srcS h (f.b.toNat + 1)) 0 32
def xferValid (f : FmtT) (h : Here) : Nat := min (xferLen f h) (fullCount (fld (srcS h (f.b.toNat + 1)) 32 32) (xferLen f h))
/-- The checks of XFER (R335, R370): R243's for the source, its page translation the last of them, come before the rest. -/
def xferCheck (word : W64) (f : FmtT) (h : Here) (s : State) : Option (Trap × W64) :=
  let len := xferLen f h
  let v := xferValid f h
  let src := hankAddr h f.a.toNat (srcS h f.b.toNat).toNat
  let remote := srcS h f.c.toNat
  let x := srcS h (f.c.toNat + 1)
  firstTrap [trapIf (overCount (fld (srcS h (f.b.toNat + 1)) 32 32) len) .engineOperand word, areaTrap h.w (areaOf h f.a.toNat) .engRead src v,
    trapIf (src % 8 != 0) .alignment (BitVec.ofNat 64 src),
    (match extentsOf s h.w.ctx src v with
      | .error e => some (.pageFault, BitVec.ofNat 64 e)
      | .ok _ => none),
    trapIf (remote.toNat % 8 != 0 || len % 8 != 0) .alignment remote,
    trapIf (len == 0 || fld x 25 39 != 0 || fld x 0 9 == s.module) .engineOperand word, counterCheck h.w word (srcS h (f.c.toNat + 3))]
/-- Packets of a transfer: to every 256-byte boundary of the remote address (R371). -/
def packetCount (remote len : Nat) : Nat := cdiv (remote % 256 + len) 256
/-- Offset and bytes of a packet. -/
def packetAt (remote len i : Nat) : Nat × Nat :=
  let o := if i = 0 then 0 else 256 * i - remote % 256
  (o, min len (256 * (i + 1) - remote % 256) - o)
/-- The bridge to a bridge partner, where it is UP (R361, R371). -/
def xferBridge (s : State) (m : Nat) : Option Nat :=
  let same := m / 4 == s.module / 4
  let b := if same then 36 + (if m < s.module then m % 4 else m % 4 - 1) else 39
  if (same || m == s.module ^^^ 4) && isUp s b then some b else none
/-- The links a transfer's packets take in turn: the bridge to a partner, or the live traffic planes (R371). -/
def xferLinks (s : State) (m : Nat) : List Nat := match xferBridge s m with
  | some b => [b]
  | none => trafficPlanes s
/-- A transfer reaches a module of the pod: over the bridge to it, or over a traffic plane (R371, R372). -/
def xferReaches (s : State) (m : Nat) : Bool := moduleReachable s m || (m ≤ 287 && (liveOf s m).isSome && (xferBridge s m).isSome)
/-- A packet's bytes as read from the source, cut at the valid count; none while a page does not translate. -/
def packetData (s : State) (core ctx : Nat) (src o n valid : Nat) : Option (List Byte) :=
  match extentsOf s ctx (src + o) (min n (valid - o)) with
  | .ok xs => some (xs.flatMap fun x => (List.range x.2).map fun i => engByte s core (x.1 + i))
  | .error _ => none
/-- XFER's effect at issue (R336, R371): ENG rises and dirty source sectors go home; its packets are read and sent afterwards. -/
def xferIssue (f : FmtT) (h : Here) (s : State) : State :=
  let len := xferLen f h
  let v := xferValid f h
  let src := hankAddr h f.a.toNat (srcS h f.b.toNat).toNat
  let remote := srcS h f.c.toNat
  let c := srcS h (f.c.toNat + 1)
  let m := fld c 0 9
  let n := packetCount remote.toNat len
  let x : Xfer := { id := s.seq, wg := h.iss.wg, gang := h.iss.gang, quads := dstQuads h, d := f.d.toNat, hank := f.a.toNat,
                    sbase := (areaBase h f.a.toNat).getD 0, soff := (srcS h f.b.toNat).toNat, len := len, valid := v, remote := remote, module := m,
                    ticket := fld c 9 16, rcounter := srcS h (f.c.toNat + 2), lcounter := srcS h (f.c.toNat + 3), left := List.range n, seq := s.seq,
                    lanes := h.iss.lanes }
  let s := flushRanges h.core h.w.ctx s [(src, v)]
  markEffect h.iss.wg <| onGang h (markS h f.d.toNat) (raiseEng { s with seq := s.seq + 1, xfers := s.xfers ++ [x] } h.iss.wg h.iss.gang [f.a.toNat])
/-- The lanes that a trap of XFER takes: a page fault, which gives a fault record, takes the issuing lane alone (R370; log 130). -/
def xferLanes (h : Here) (tru : LaneMask) (t : Trap) : LaneMask :=
  if t = .pageFault then maskOf fun n => n == lowest (mains h tru) else mains h tru
/-- XFER (R370). -/
def xferBody (word : W64) (f : FmtT) (h : Here) (tru : LaneMask) (s : State) : Fx :=
  if !gangActs h tru then { s := s }
  else if scratchWaits (!(srcS h (f.c.toNat + 3)).getLsbD 63) h tru s then wantFx (.order tru false false 0#3) s
  else match xferCheck word f h s with
    | some t => trapFx s t.1 (xferLanes h tru t.1) t.2
    | none => if !hasEngine s h.w h.core h.iss.gang [f.a.toNat] .any then wantFx (.engine [f.a.toNat] .any) s else { s := xferIssue f h s }
/-- XFER (R370). -/
def execXfer (g : Guard) (f : FmtT) (s : State) : Host.Outcome State Fault Refusal := runWord (.xfer g f) g (xferBody (wordOf (.xfer g f)) f) s

/-! Packets that arrive. -/

/-- The X entry that lets a packet of a context and ticket land, over a physical range (R371). -/
def landingEntry (s : State) (ctx ticket : Nat) (over_ : List (Nat × Nat)) : Option OwnEntry :=
  s.own.find? fun e => e.ctx == ctx && e.ticket == ticket && e.kind == 1#2 && !e.grid && over_.all fun x => rangeIn x.1 x.2 (e.pbase * 256) (e.grains * 256)
/-- Entries that cover the extents of a packet, one for each. -/
def landing (s : State) (ctx ticket : Nat) (xs : List (Nat × Nat)) : Option OwnEntry :=
  match xs with
  | [] => landingEntry s ctx ticket []
  | x :: r => if r.all fun y => (landingEntry s ctx ticket [y]).isSome then landingEntry s ctx ticket [x] else none
/-- A credit to a workgroup's counter from outside: held at the IOD while it is not resident (R371). -/
def remoteCredit (s : State) (tag : Nat) (counter : W64) (n : Nat) : State :=
  if counter.getLsbD 63 then s
  else match findWg s tag with
    | some w => if (coreOf w).isSome then credit s tag counter.toNat n else { s with heldCredits := s.heldCredits ++ [(tag, counter, n)] }
    | none => s
/-- A packet's bytes land in a grant for a counter: those over bytes that its owner has itself written since it took the borrow are undefined, and
so is what it writes there before its ACWAIT on the counter (R371). -/
def landBytes (s : State) (ctx ticket tag : Nat) (counter : W64) (xs : List (Nat × Nat)) (bs : List Byte) : State × List Byte :=
  match findGrant s ctx ticket with
  | none => (s, bs)
  | some g =>
    let c := if counter.getLsbD 63 then 2 ^ 64 else counter.toNat
    let new := (xs.map fun x => (tag, c, x.1, x.2)).filter fun x => !g.landed.contains x
    let out := (xs.foldl (fun (a : List Byte × List Byte) x => (a.1 ++ undefIn s.freeCtr g.wrote x.1 (a.2.take x.2), a.2.drop x.2)) ([], bs)).1
    ({ s with grants := updFirst (fun y => y == g) (fun y => { y with landed := new ++ g.landed }) s.grants, freeCtr := s.freeCtr + 1 }, out)
/-- XFER_PACKET (R371, R384): a packet from another module is written and credited, or refused. -/
def execXferPacket (p : XferPacket) (s : State) : Host.Outcome State Fault Refusal :=
  let n := p.data.length
  let who := landingEntry s p.ctx p.ticket []
  let away := match who with
    | some e => match findWg s e.wgtag with
      | some w => (coreOf w).isNone && !p.counter.getLsbD 63
      | none => false
    | none => false
  if away && 4096 ≤ s.heldCredits.length then .fault .notEnabled
  else if n = 0 then .next (match who with
    | some e => remoteCredit s e.wgtag p.counter p.credit
    | none => s)
  else
    let refused : State := match who with
      | some e => if p.counter.getLsbD 63 then s else creditErr s e.wgtag p.counter.toNat
      | none => s
    match extentsOf s p.ctx p.addr.toNat n with
    | .error _ => .next refused
    | .ok xs => match landing s p.ctx p.ticket xs with
      | none => .next refused
      | some e =>
        let r := landBytes s p.ctx p.ticket e.wgtag p.counter xs p.data
        let s := match (findWg r.1 e.wgtag).bind coreOf with
          | some core => writeExtents core e.wgtag xs r.2 r.1
          | none => (xs.foldl (fun (a : State × List Byte) (x : Nat × Nat) => (writeAtHome a.1 x.1 (a.2.take x.2), a.2.drop x.2)) r).1
        .next (remoteCredit s e.wgtag p.counter p.credit)

/-! Answers. -/

/-- Packets of this module's transfers not yet answered. -/
def packetsOut (s : State) : List (Nat × Nat) := s.xfers.flatMap fun x => x.left.map fun p => (x.id, p)
/-- The first non-zero status in packet order (R372). -/
def xferStatus (bad : List (Nat × Nat)) : Nat := match firstFail bad with
  | some b => b.2
  | none => 0
/-- The range of a packet's bytes below the valid count, at its source. -/
def packetSrc (x : Xfer) (p : Nat) : Nat × Nat :=
  let at_ := packetAt x.remote.toNat x.len p
  (areaAddr (some x.sbase) (x.soff + at_.1 : Nat), min at_.2 (x.valid - at_.1))
/-- Accesses that a transfer must follow have performed: those before it in its lanes' order, and its gang's entries over its source (R117,
R336). -/
def xferReady (w : Wg) (x : Xfer) : Bool :=
  forkReady (gangOf w x.gang) x.seq x.lanes && !(gangOf w x.gang).pend.any fun a =>
    isEntry a.kind && a.seq < x.seq && rangesMeet a.va.toNat a.bytes (areaAddr (some x.sbase) (x.soff : Nat)) x.valid
/-- A packet's module, or the memory that it is yet to be read from, is out of reach (R363, R372). -/
def xferAway (s : State) (w : Wg) (x : Xfer) (p : Nat) : Bool :=
  !xferReaches s x.module || (!(x.sent.any fun y => y.1 == p) && unreached s w.ctx [packetSrc x p])
/-- XFER_ACK (R372, R384): the n-th outstanding packet is acknowledged (0) or refused (2) after it was sent, but for an empty one, which nothing
refuses; a module out of reach, of either end (R363), gives 1, a source spoiled before the packet was read gives 3, which ends the sending. -/
def execXferAck (n status : Nat) (s : State) : Host.Outcome State Fault Refusal :=
  match (packetsOut s)[n]? with
  | none => .fault .notEnabled
  | some (id, p) => match s.xfers.find? fun x => x.id == id with
    | none => .fault .notEnabled
    | some x => match findWg s x.wg with
      | none => .fault .notEnabled
      | some w =>
        let sent := x.sent.any fun y => y.1 == p
        let spoiled := !sent && ((getHank w x.gang x.hank).revoked || poisoned s w.ctx [packetSrc x p])
        let st := if xferAway s w x p then 1 else if spoiled then 3 else status
        if (coreOf w).isNone || (status != 0 && (status != 2 || (packetSrc x p).2 == 0)) || !(sent || st == 1 || st == 3) || !xferReady w x then .fault .notEnabled
        else
          let left := x.left.filter fun q => q != p && !(st == 3 && p < q && !x.sent.any fun y => y.1 == q)
          let bad := if st = 0 then x.bad else x.bad ++ [(p, st)]
          let s := if st = 0 ∧ x.lcounter.getLsbD 63 = false then credit s x.wg x.lcounter.toNat (packetAt x.remote.toNat x.len p).2 else s
          if left.isEmpty then
            let final := xferStatus bad
            let s := lowerEng { s with xfers := s.xfers.filter fun y => y.id != id } x.wg x.gang x.hank
            let s := if final ≠ 0 ∧ x.lcounter.getLsbD 63 = false then creditErr s x.wg x.lcounter.toNat else s
            .next (updGang s x.wg x.gang (mapQuads x.quads fun q => sput q x.d (BitVec.ofNat 64 final)))
          else .next { s with xfers := updFirst (fun y => y.id == id) (fun y => { y with left := left, bad := bad }) s.xfers }
/-- The 64 bytes of header of a packet, whose contents the spec does not give (R369). -/
def packetHeader (s : State) : List Byte := (List.range 64).map (Config.freeByte s.freeCtr)
/-- XFER_RESEND (R371): the n-th outstanding packet leaves: read from its source, once, when it leaves for the first time, and sent again as read
when it found the receiver's credit store full (log 117). -/
def execXferResend (n : Nat) (s : State) : Host.Outcome State Fault Refusal :=
  match (packetsOut s)[n]? with
  | none => .fault .notEnabled
  | some (id, p) => match s.xfers.find? fun x => x.id == id with
    | none => .fault .notEnabled
    | some x => match (findWg s x.wg).bind fun w => (coreOf w).map fun c => (w, c) with
      | none => .fault .notEnabled
      | some (w, core) =>
        let ls := xferLinks s x.module
        let link := tget 0 ls (p % ls.length)
        if ls.isEmpty then .fault .notEnabled
        else match x.sent.find? fun y => y.1 == p with
          | some y => .next (sendFlits s link (packetHeader s ++ y.2))
          | none =>
            let src := packetSrc x p
            let s := refreshAll s (getHank w x.gang x.hank) (extentsD s w.ctx src.1 src.2)
            if !xferReady w x || (getHank w x.gang x.hank).revoked || poisoned s w.ctx [src] || unreached s w.ctx [src] then .fault .notEnabled
            else match packetData s core w.ctx (areaAddr (some x.sbase) x.soff) (packetAt x.remote.toNat x.len p).1
                (packetAt x.remote.toNat x.len p).2 x.valid with
              | none => .fault .notEnabled
              | some bs =>
                .next (sendFlits { s with xfers := updFirst (fun y => y.id == id) (fun y => { y with sent := y.sent ++ [(p, bs)] }) s.xfers } link (packetHeader s ++ bs))

end Sys2Proof.Machine
end

