-- ==== Sys2Proof/Machine/Collect.lean ====
section
/-! DEFINITION. Collectives: groups, trees, chunks, records, opcodes 0xD1 to 0xD5, and their steps (R373 to R383, R385). -/

namespace Sys2Proof.Machine

/-! Groups and trees (R373, R374). -/

/-- Word 0 of a group entry. -/
def groupWord (s : State) (g : Nat) : W64 := ctlGet s (0x7F0000610000 + 0x400 * g)
/-- A group entry is valid. -/
def groupValid (s : State) (g : Nat) : Bool :=
  let x := groupWord s g
  x.getLsbD 63 && 1 ≤ fld x 0 9 && fld x 0 9 ≤ 288
/-- The members of a group by rank. -/
def groupMembers (s : State) (g : Nat) : List Nat :=
  (List.range (fld (groupWord s g) 0 9)).map fun r => fld (ctlGet s (0x7F0000610008 + 0x400 * g + r / 4 * 8)) (r % 4 * 16) 9
/-- A group entry as an exchange carries it: word 0, then the members. -/
def groupEntry (s : State) (g : Nat) : List Nat := (groupWord s g).toNat :: groupMembers s g
/-- The bridge port of a module to a board peer (R361). -/
def bridgePort (m peer : Nat) : Nat := 36 + (if peer % 4 < m % 4 then peer % 4 else peer % 4 - 1)
/-- A port of a module is UP in the live link table. -/
def liveUp (s : State) (m p : Nat) : Bool := match liveOf s m with
  | some up => up.getLsbD p
  | none => false
/-- The bridge between two board peers is UP and serves no tree yet. -/
def bridgeFree (s : State) (used : List (Nat × Nat)) (m peer : Nat) : Bool :=
  liveUp s m (bridgePort m peer) && liveUp s peer (bridgePort peer m) && !used.contains (min m peer, max m peer)
/-- The bridges in use, and each link end in use as module and port. -/
structure TreeUse where
  bridges : List (Nat × Nat) := []
  links : List (Nat × Nat) := []
/-- A member takes the bridge to a board peer, and the peer's port of the plane. -/
def TreeUse.over (u : TreeUse) (p m q : Nat) : TreeUse :=
  { bridges := u.bridges ++ [(min m q, max m q)], links := u.links ++ [(m, bridgePort m q), (q, bridgePort q m), (q, p)] }
/-- The bridges that members without a port on a plane take, in member order; none when some member is not reached (R374). -/
def planeBridges (s : State) (p : Nat) : List Nat → TreeUse → Option TreeUse
  | [], used => some used
  | m :: ms, used =>
    if liveUp s m p then planeBridges s p ms { used with links := used.links ++ [(m, p)] }
    else match ((List.range 4).map fun i => m / 4 * 4 + i).find? fun q => q != m && liveUp s q p && bridgeFree s used.bridges m q with
      | some q => planeBridges s p ms (used.over p m q)
      | none => none
/-- The tree set over planes taken in order: each tree's plane, and what is in use. -/
def treesFrom (s : State) (members : List Nat) : List Nat → TreeUse → List Nat × TreeUse
  | [], used => ([], used)
  | p :: ps, used =>
    match planeBridges s p members used with
    | some used' => let r := treesFrom s members ps used'; (p :: r.1, r.2)
    | none => treesFrom s members ps used
/-- The tree set of a group: the planes of its trees, and the link ends they use (R374). -/
def treeSet (s : State) (members : List Nat) : List Nat × List (Nat × Nat) :=
  let r := treesFrom s members ((List.range 36).filter fun p => ringPorts s ≤ p) {}
  (r.1, r.2.links)
/-- A member that the live link table shows without any traffic port or bridge (R379). -/
def showsLost (s : State) (m : Nat) : Bool :=
  m != s.module && !(List.range 40).any fun p => (ringPorts s ≤ p) && liveUp s m p

/-! Chunks (R375, R380). -/

/-- Kinds of a collective's parameters, compared member by member (R383). -/
def collParams (op : CollOp) (n chunk target : Nat) : List Nat :=
  match op with
  | .red o bf all => [0, o.toNat, bf.toNat, all.toNat, n, chunk, target]
  | .bcast => [1, 0, 0, 0, n, chunk, target]
  | .gath => [2, 0, 0, 0, n, chunk, target]
/-- Bytes of one member's block. -/
def blockLen (op : CollOp) (n : Nat) : Nat := match op with
  | .red _ bf _ => n * (if bf then 2 else 4)
  | _ => n
/-- Chunks of one block, and of the collective. -/
def blockChunks (op : CollOp) (n chunk : Nat) : Nat := cdiv (blockLen op n) (max chunk 1)
def chunkCount (op : CollOp) (n chunk members : Nat) : Nat := match op with
  | .gath => members * blockChunks op n chunk
  | _ => blockChunks op n chunk
/-- The root of a chunk (R375, R380). -/
def chunkRoot (c : Coll) (k : Nat) : Nat :=
  match c.op with
  | .red _ _ _ => (k + k % max c.trees.length 1) % max c.n 1
  | .bcast => c.target
  | .gath => k / max (blockChunks c.op c.count c.chunk) 1
/-- The bytes of a chunk: offset in a member's input, offset in the output, and length. -/
def chunkSpan (c : Coll) (k : Nat) : Nat × Nat × Nat :=
  let per := max (blockChunks c.op c.count c.chunk) 1
  let j := match c.op with
    | .gath => k % per
    | _ => k
  let len := min c.chunk (blockLen c.op c.count - j * c.chunk)
  (j * c.chunk, (match c.op with
    | .gath => k / per * c.count + j * c.chunk
    | _ => j * c.chunk), len)
/-- This member writes an output (R380). -/
def hasOutput (op : CollOp) (rank target : Nat) : Bool := match op with
  | .red _ _ all => all || rank == target
  | _ => true
/-- This member reads an input (R380). -/
def hasInput (op : CollOp) (rank target : Nat) : Bool := match op with
  | .bcast => rank == target
  | _ => true
/-- The combination of a chunk's inputs, rank by rank (R376). -/
def combineChunks (op : BitVec 2) (bf : Bool) (xs : List (List Byte)) : List Byte :=
  let esz := if bf then 2 else 4
  let f := if bf then bf16 else fp32
  let wide (x : Nat) : Nat := (finish fp32 0 false (match unpack f x with
    | .nan _ => .nan false
    | .inf n => .inf n false
    | .fin n m e => .num n m e false)).bits
  let elem (b : List Byte) (i : Nat) : Nat := wide (leNat ((b.drop (i * esz)).take esz))
  let step (a b : Nat) : Nat := match op with
    | 0#2 => (finish fp32 0 false (addEx 0 (unpack fp32 a) (unpack fp32 b))).bits
    | 1#2 => (minMax fp32 true a b).bits
    | _ => (minMax fp32 false a b).bits
  match xs with
  | [] => []
  | x :: rest =>
    (List.range (x.length / esz)).flatMap fun i =>
      let r := rest.foldl (fun a b => step a (elem b i)) (elem x i)
      leBytes esz (finish f 0 false (match unpack fp32 r with
        | .nan _ => .nan false
        | .inf n => .inf n false
        | .fin n m e => .num n m e false)).bits

/-! Records and marks (R377). -/

/-- Bytes of a record. -/
def recordBytes (m : Nat) : Nat := 64 + 8 * cdiv m 32
/-- Bytes written through a context's translation at their homes. -/
def writeVirtual (s : State) (ctx va : Nat) (bs : List Byte) : State :=
  ((extentsD s ctx va bs.length).foldl (fun (a : State × List Byte) (x : Nat × Nat) => (writeAtHome a.1 x.1 (a.2.take x.2), a.2.drop x.2)) (s, bs)).1
/-- The contents of a record. -/
def recordOf (c : Coll) : List Byte :=
  let word (k : Nat) : Nat := ((List.range 32).map fun i => tget 0 c.marks (32 * k + i) % 4 * 4 ^ i).foldl (· + ·) 0
  leBytes 8 (c.marks.length * 2 ^ 32 + c.epoch % 2 ^ 32) ++ leBytes 8 c.number ++ leBytes 48 0
    ++ (List.range (cdiv c.marks.length 32)).flatMap fun k => leBytes 8 (word k)
/-- A collective of this module. -/
def findColl (s : State) (id : Nat) : Option Coll := s.colls.find? fun c => c.id == id
/-- Chunks whose marks in memory are not those the engine wrote: the kernel wrote the record of a running collective (R377). -/
def meddled (s : State) (w : Wg) (c : Coll) : List Nat :=
  let bs := (extentsD s w.ctx c.recVa (recordBytes c.marks.length)).flatMap fun x => homeBytes s x.1 x.2
  if !c.begun || bs.length < recordBytes c.marks.length then []
  else (List.range c.marks.length).filter fun k => bitsN (bs.getD (64 + k / 4) 0#8).toNat (k % 4 * 2) 2 != tget 0 c.marks k % 4
/-- A collective written, and its record kept current; marks that the kernel changed since are noted. -/
def putColl (s : State) (c : Coll) : State :=
  match findWg s c.wg with
  | some w =>
    let c := { c with spoiled := (c.spoiled ++ ((findColl s c.id).toList.flatMap (meddled s w))).dedup }
    writeVirtual { s with colls := updFirst (fun x => x.id == c.id) (fun _ => c) s.colls } w.ctx c.recVa (recordOf c)
  | none => { s with colls := updFirst (fun x => x.id == c.id) (fun _ => c) s.colls }
/-- The status word (R383). -/
def collWord (c : Coll) : W64 :=
  BitVec.ofNat 64 (c.code * 2 ^ 56 + min 255 c.recomp * 2 ^ 40 + (c.marks.filter fun m => m == 2).length * 2 ^ 20 + c.marks.length)
/-- The collective and register a lane waits for. -/
def collWait (l : Lane) : Option (Nat × Nat × BitVec 8) := match l.st with
  | .waiting (.coll h d q) => some (h, d, q)
  | _ => none
/-- The collective of a handle. -/
def handleColl (s : State) (w : Wg) (h : Nat) : Option Coll := (tget none w.colls h).bind (findColl s)
/-- A handle is freed, and its ended collective forgotten. -/
def freeHandle (s : State) (tag h : Nat) : State :=
  match findWg s tag with
  | none => s
  | some w => updWg { s with colls := s.colls.filter fun c => tget none w.colls h != some c.id } tag fun w => { w with colls := tset none w.colls h none }
/-- CWAIT ends for one lane and those that wait with it (R382). -/
def wakeCollAt (tag gang : Nat) (s : State) (n : Nat) : State :=
  match findWg s tag with
  | none => s
  | some w =>
    let g := gangOf w gang
    match collWait (laneOf g n) with
    | some (h, d, q) => match handleColl s w h with
      | some c =>
        if c.code = 1 then s
        else
          let m := maskOf fun k => collWait (laneOf g k) == some (h, d, q) && (laneOf g k).pc == (laneOf g n).pc
          releaseLanes (updGang s tag gang (mapQuads q fun x => sput x d (collWord c))) tag gang m
      | none => s
    | none => s
/-- Some lane of the workgroup waits at CWAIT for this handle, whose collective has ended. -/
def endedWaited (s : State) (tag h : Nat) : Bool :=
  match findWg s tag with
  | none => false
  | some w => (handleColl s w h).any (fun c => c.code != 1) &&
      w.gangs.any fun g => (List.range 32).any fun n => (collWait (laneOf g n)).any fun x => x.1 == h
/-- CWAIT ends wherever its collective has: every group that waits receives the word, and then each handle so observed is freed (R382). -/
def wakeColls (s : State) (tag : Nat) : State :=
  let hs := (List.range 8).filter (endedWaited s tag)
  hs.foldl (fun s h => freeHandle s tag h) ((List.range 16).foldl (fun s g => (List.range 32).foldl (wakeCollAt tag g) s) s)
/-- The output bytes of some chunks become undefined: free values (R3). -/
def scrambleOut (s : State) (c : Coll) (w : Wg) (ks : List Nat) : State :=
  match c.outVa with
  | none => s
  | some out => ks.foldl (fun s k =>
      let x := chunkSpan c k
      writeVirtual { s with freeCtr := s.freeCtr + 1 } w.ctx (out + x.2.1)
        ((List.range x.2.2).map fun i => Config.freeByte (s.freeCtr + 1) (out + x.2.1 + i))) s
/-- The chunks whose output is undefined as a collective ends with a code: those not DONE where no tree or no member is left, and those whose mark
the kernel changed (R377, R378). -/
def undone (c : Coll) (code : Nat) : List Nat :=
  (List.range c.marks.length).filter fun k => ((code == 2 || code == 3) && tget 0 c.marks k != 2) || c.spoiled.contains k
/-- A collective ends at this member: its code, its record, ENG of its hanks, its waiters (R72, R381, R383). -/
def endColl (s : State) (c : Coll) (code : Nat) : State :=
  match findWg s c.wg with
  | none => s
  | some w =>
    let s := { s with collPkts := s.collPkts.filter (fun p => !(p.group == c.group && p.number == c.number))
                      collExs := s.collExs.filter (fun x => !(x.group == c.group && x.number == c.number)) }
    let s := putColl s { c with code := code, held := [], contrib := [] }
    let s := scrambleOut s c w (undone ((findColl s c.id).getD c) code)
    wakeColls (c.hanks.foldl (fun s n => lowerEng s c.wg c.gang n) s) c.wg

/-! What a member sends (R373, R375, R378, R379, R381). -/

/-- Every chunk is DONE here. -/
def Coll.allDone (c : Coll) : Bool := c.marks.all fun m => m == 2
/-- An exchange of this member as it stands: its epoch, its group entry, its parameters, and whether every chunk is DONE. -/
def exchangeOf (s : State) (c : Coll) : CollExchange :=
  { group := c.group, number := c.number, sender := s.module, epoch := c.epoch, entry := groupEntry s c.group, params := c.params, lost := []
    mismatch := false, allDone := c.allDone }
/-- An exchange goes to every other member of a list. -/
def announceTo (s : State) (ms : List Nat) (x : CollExchange) : State :=
  { s with collTold := s.collTold ++ (ms.filter fun m => m != s.module).map fun m => (m, x) }
/-- A packet of a chunk goes, under the present epoch, to every other member of a list (R385). -/
def sendPackets (s : State) (c : Coll) (ms : List Nat) (kind : CollKind) (k : Nat) (data : List Byte) : State :=
  { s with collSent := s.collSent ++ (ms.filter fun m => m != s.module).map fun m =>
      (m, { group := c.group, number := c.number, epoch := c.epoch, chunk := k, sender := s.module, kind := kind, data := data }) }
/-- Every other member's first exchange has come and agrees, so that no output is written before a mismatch could be found (R373). -/
def allMet (s : State) (c : Coll) : Bool := c.members.all fun m => m == s.module || c.met.contains m
/-- A member is found lost: this member reports it, and ends (R379). -/
def loseMembers (s : State) (c : Coll) (ms : List Nat) : State :=
  endColl (announceTo s c.members { exchangeOf s c with lost := ms }) c 3
/-- Members that are lost end the collective (R379). -/
def lostCheck (s : State) (c : Coll) : State :=
  let gone := c.members.filter (showsLost s)
  if c.code = 1 ∧ !gone.isEmpty then loseMembers s c gone else s

/-! The packets (R375 to R377, R385). -/

/-- A chunk's mark. -/
def setMark (c : Coll) (k m : Nat) : Coll := { c with marks := c.marks.mapIdx fun i x => if i = k then (if x = 2 then 2 else m) else x }
/-- A chunk turns DONE; with the last one this member's part of the confirmation round goes out (R377, R381). -/
def putDone (s : State) (c : Coll) (k : Nat) : State :=
  let d := setMark c k 2
  let s := putColl s d
  if d.allDone && !c.allDone then announceTo s c.members (exchangeOf s d) else s
/-- A chunk's result reaches this member's output, which makes it DONE (R377); the target of a reduction that is not for all announces it (R375). -/
def writeChunk (s : State) (w : Wg) (core : Nat) (c : Coll) (k : Nat) (data : List Byte) : State :=
  match c.outVa with
  | none => putColl s c
  | some out =>
    let s := writeExtents core c.wg (extentsD s w.ctx (out + (chunkSpan c k).2.1) data.length) data s
    let s := match c.op with
      | .red _ _ false => sendPackets s c c.members .announce k []
      | _ => s
    putDone s c k
/-- This member's own input of a chunk. -/
def ownInput (s : State) (w : Wg) (core : Nat) (c : Coll) (k : Nat) : List Byte :=
  let x := chunkSpan c k
  match c.inVa with
  | some a => (extentsD s w.ctx (a + x.1) x.2.2).flatMap fun e => (List.range e.2).map fun i => engByte s core (e.1 + i)
  | none => []
/-- The virtual range of this member's input of a chunk. -/
def inputRange (c : Coll) (k : Nat) : List (Nat × Nat) := (c.inVa.toList).map fun a => (a + (chunkSpan c k).1, (chunkSpan c k).2.2)
/-- The inputs of a chunk in rank order, once all have come. -/
def gathered (c : Coll) (k : Nat) : Option (List (List Byte)) :=
  let got := (List.range c.n).map fun r => (c.contrib.find? fun x => x.1 == k && x.2.1 == r).map fun x => x.2.2
  if got.all Option.isSome then some (got.map fun x => x.getD []) else none
/-- The result of a chunk at its root: the combination once every contribution has come, or the source's bytes (R375, R376, R380). -/
def chunkResult (c : Coll) (k : Nat) (data : List Byte) : Option (List Byte) := match c.op with
  | .red op bf _ => (gathered c k).map (combineChunks op bf)
  | _ => some data
/-- The members that a chunk's result goes to (R375, R380). -/
def resultTo (c : Coll) : List Nat := match c.op with
  | .red _ _ false => [tget 0 c.members c.target]
  | _ => c.members
/-- A contribution at the root: the last one forms the result, which goes to those that write it (R375, R376). -/
def contribute (s : State) (w : Wg) (core : Nat) (c : Coll) (k rank : Nat) (data : List Byte) : State :=
  let c := { c with contrib := (k, rank, data) :: c.contrib.filter fun x => !(x.1 == k && x.2.1 == rank) }
  match chunkResult c k data with
  | none => putColl s c
  | some r =>
    let c := { setMark c k 1 with contrib := c.contrib.filter fun x => x.1 != k }
    writeChunk (sendPackets s c (resultTo c) .result k r) w core c k r
/-- This member feeds a chunk: every member of a reduction does, else its root (R375, R380). -/
def feeds (c : Coll) (k rank : Nat) : Bool := match c.op with
  | .red _ _ _ => true
  | _ => rank == chunkRoot c k
/-- This member contributes to a chunk, once in each attempt: its input is read, and goes to the root (R375, R378, R381). Poison in it, or a source
out of reach, ends the collective with CODE 4 (R383; log entry 97). -/
def giveInput (s : State) (w : Wg) (core : Nat) (c : Coll) (k : Nat) : State :=
  let xs := inputRange c k
  if unreached s w.ctx xs || poisoned s w.ctx xs then endColl s c 4
  else
    let s := xs.foldl (fun s x => (extentsD s w.ctx x.1 x.2).foldl (fun s e => refreshRemote s e.1 e.2) s) s
    let c := { c with given := k :: c.given }
    let data := ownInput s w core c k
    if chunkRoot c k = c.rank then contribute s w core c k c.rank data
    else putColl (sendPackets s c [tget 0 c.members (chunkRoot c k)] .contribution k data) c
/-- A packet of the collective's own epoch takes effect; none when no such packet can be (R375). -/
def takePacket (s : State) (w : Wg) (core : Nat) (c : Coll) (p : CollPacket) : Option State :=
  let rank := c.members.findIdx fun m => m == p.sender
  let len := (chunkSpan c p.chunk).2.2
  let mine := p.sender == s.module
  if c.n ≤ rank || c.marks.length ≤ p.chunk then none
  else if c.hanks.any fun n => (getHank w c.gang n).revoked then some (endColl s c 4)
  else match p.kind with
    | .contribution =>
      if !feeds c p.chunk rank then none
      else if mine then (if c.given.contains p.chunk then none else some (giveInput s w core c p.chunk))
      else if chunkRoot c p.chunk = c.rank ∧ p.data.length = len then some (contribute s w core c p.chunk rank p.data) else none
    | .result => if rank = chunkRoot c p.chunk ∧ !mine ∧ c.outVa.isSome ∧ p.data.length = len then some (writeChunk s w core c p.chunk p.data) else none
    | .announce =>
      let one := match c.op with
        | .red _ _ all => !all
        | _ => false
      if one && rank == c.target && c.outVa.isNone then some (putDone s c p.chunk) else none
/-- The collective of a group that a packet names, as this member has issued it. -/
def collOf (s : State) (group number : Nat) : Option Coll := s.colls.find? fun c => c.group == group && c.number == number
/-- Collectives issued on a group so far. -/
def collIssued (s : State) (group : Nat) : Nat := match s.collNo.find? fun x => x.1 == group with
  | some x => x.2
  | none => 0
/-- A message of a collective came from a member (R379). -/
def hear (s : State) (c : Coll) (m : Nat) : Coll := { c with heard := (m, s.time1588) :: c.heard.filter fun x => x.1 != m }
/-- A collective's entry alone is written: its record stands. -/
def storeColl (s : State) (c : Coll) : State := { s with colls := updFirst (fun x => x.id == c.id) (fun _ => c) s.colls }
/-- A packet of a collective that this member has issued arrives, or is taken up after it waited: one of a lower epoch is discarded, of a higher one
held; one of this epoch takes effect once the collective has begun and has met its members (R373, R385). A contribution of this member's own stands
for its reading of its input. -/
def collPacket (p : CollPacket) (c : Coll) (s : State) : Host.Outcome State Fault Refusal :=
  let mine := p.sender == s.module
  let waits := s.collPkts.contains p || c.held.contains p
  let c1 := { (if mine || waits then c else hear s c p.sender) with held := c.held.erase p }
  let s1 := { s with collPkts := s.collPkts.erase p }
  if c.code ≠ 1 ∨ p.epoch < c.epoch then (if mine then .fault .notEnabled else .next (storeColl s1 c1))
  else if c.epoch < p.epoch then
    (if mine || c.held.contains p then .fault .notEnabled else .next (storeColl s1 { c1 with held := c.held ++ [p] }))
  else if !c.begun || !allMet s c then
    (if mine || waits then .fault .notEnabled else .next { storeColl s c1 with collPkts := s.collPkts ++ [p] })
  else match findWg s c.wg with
    | none => .fault .notEnabled
    | some w => match coreOf w with
      | none => .fault .notEnabled
      | some core => match takePacket s1 w core c1 p with
        | some t => .next t
        | none => if mine then .fault .notEnabled else .next (storeColl s1 c1)
/-- COLLECTIVE_PACKET (R375, R385): a packet arrives at its collective; one of a collective that this member has not issued yet waits for it, one of
a collective that it has ended is discarded. -/
def execCollectivePacket (p : CollPacket) (s : State) : Host.Outcome State Fault Refusal :=
  match collOf s p.group p.number with
  | some c => collPacket p c s
  | none =>
    if p.sender = s.module then .fault .notEnabled
    else if collIssued s p.group ≤ p.number ∧ groupValid s p.group then
      (if s.collPkts.contains p then .fault .notEnabled else .next { s with collPkts := s.collPkts ++ [p] })
    else .next { s with collPkts := s.collPkts.erase p }

/-! Recomputation and exchanges (R373, R377 to R379, R381). -/

/-- The tree set is computed anew at an epoch, which this member tells the others: chunks that are not DONE restart, and every input is to be read
again; without a tree the collective ends (R377, R378). -/
def recompute (s : State) (c : Coll) (epoch : Nat) : State :=
  let t := treeSet s c.members
  let c := { c with epoch := epoch, trees := t.1, links := t.2, recomp := c.recomp + 1, contrib := [], given := []
                    marks := c.marks.map fun m => if m = 2 then 2 else 0 }
  let s := announceTo s c.members (exchangeOf s c)
  if t.1.isEmpty then endColl s c 2 else putColl s c
/-- An exchange takes effect at a collective of this member (R373, R378, R379, R381): a difference that this member finds it announces. -/
def takeExchange (s : State) (c : Coll) (x : CollExchange) : State :=
  if c.code ≠ 1 then s
  else if x.mismatch then endColl s c 5
  else if x.entry != groupEntry s c.group || x.params != c.params then
    endColl (announceTo s c.members { exchangeOf s c with mismatch := true }) c 5
  else if x.lost.any fun m => c.members.contains m then endColl s c 3
  else
    let c := { c with met := x.sender :: c.met.filter (fun m => m != x.sender)
                      confirmed := if x.allDone then x.sender :: c.confirmed.filter (fun m => m != x.sender) else c.confirmed }
    if c.epoch < x.epoch then recompute s c x.epoch else putColl s c
/-- A collective begins once its fork is ready: it writes its whole record, and meets what it finds of its members and what they have sent (R117,
R377 to R379). -/
def beginColl (s : State) (c : Coll) : State :=
  let t := treeSet s c.members
  let exs := s.collExs.filter fun x => x.group == c.group && x.number == c.number
  let c := { c with begun := true, trees := t.1, links := t.2 }
  let s := { s with collExs := s.collExs.filter fun x => !exs.contains x }
  let s := lostCheck (putColl s c) c
  let s := match findColl s c.id with
    | some c => if c.code = 1 ∧ c.trees.isEmpty then endColl s c 2 else s
    | none => s
  exs.foldl (fun s x => match findColl s c.id with
    | some c => takeExchange s c x
    | none => s) s
/-- Every access before a collective's word in its lanes' order has performed. -/
def collReady (s : State) (c : Coll) : Bool := match findWg s c.wg with
  | some w => (coreOf w).isSome && forkReady (gangOf w c.gang) c.seq c.lanes
  | none => false
/-- An exchange for a collective that this member has not issued: it waits; where it lists this module, which holds no valid entry of that group, that
is a mismatch, which this member announces and meets at its own issue (R373; log entry 97). -/
def strayExchange (x : CollExchange) (s : State) : State :=
  let ms := x.entry.drop 1
  if !groupValid s x.group && ms.contains s.module then
    let y := { x with sender := s.module, epoch := 0, entry := groupEntry s x.group, params := [], lost := [], mismatch := true, allDone := false }
    announceTo { s with collExs := s.collExs ++ [{ x with mismatch := true }] } ms y
  else { s with collExs := s.collExs ++ [x] }
/-- EPOCH_EXCHANGE (R373, R378, R379): an exchange of another member arrives; before this member's collective has begun it waits for it. -/
def execEpochExchange (x : CollExchange) (s : State) : Host.Outcome State Fault Refusal :=
  match collOf s x.group x.number with
  | some c =>
    let c := hear s c x.sender
    let s := storeColl s c
    .next (if c.begun then takeExchange s c x else { s with collExs := s.collExs ++ [x] })
  | none => if collIssued s x.group ≤ x.number then .next (strayExchange x s) else .next s
/-- A member has been silent for 1 ms of TIME1588, since its last message or since the issue (R379). -/
def silent (s : State) (c : Coll) (m : Nat) : Bool :=
  let t := match c.heard.find? fun x => x.1 == m with
    | some x => x.2
    | none => c.since
  1000000 ≤ (s.time1588 - t).toNat
/-- MEMBER_LOST_TIMEOUT (R379): a member silent for 1 ms is lost. -/
def execMemberLostTimeout (id m : Nat) (s : State) : Host.Outcome State Fault Refusal :=
  match findColl s id with
  | none => .fault .notEnabled
  | some c =>
    if c.code ≠ 1 ∨ m = s.module ∨ !c.members.contains m ∨ !c.begun ∨ !silent s c m then .fault .notEnabled else .next (loseMembers s c [m])
/-- CONFIRMATION_ROUND (R117, R381): every member holds every chunk DONE. Of a collective whose word came before its lanes' accesses had performed,
the beginning. -/
def execConfirmationRound (id : Nat) (s : State) : Host.Outcome State Fault Refusal :=
  match findColl s id with
  | none => .fault .notEnabled
  | some c =>
    if !c.begun then (if collReady s c then .next (beginColl s c) else .fault .notEnabled)
    else if c.code = 1 ∧ c.allDone ∧ c.members.all (fun m => m == s.module || c.confirmed.contains m) then .next (endColl s c 0)
    else .fault .notEnabled
/-- LINK_NOTICE (R367, R374, R378, R379): the live link table follows the notice of a link that entered UP or FAILED; where a tree set loses a
link or bridge it uses, the collectives over it are computed anew, and those with a lost member end. -/
def execLinkNotice (m link : Nat) (st : LinkSt) (s : State) : Host.Outcome State Fault Refusal :=
  if 287 < m ∨ 40 ≤ link ∨ !(st == .up || st == .failed) ∨ (m = s.module ∧ (linkOf s link).st ≠ st) then .fault .notEnabled
  else
    let s1 := setLive s m link (st == .up)
    .next ((s1.colls.filter fun c => c.code == 1).foldl (fun s2 c =>
      match findColl s2 c.id with
      | some c =>
        if c.code ≠ 1 ∨ !c.begun then s2
        else if c.members.any (showsLost s1) then lostCheck s2 c
        else if st ≠ .up ∧ c.links.contains (m, link) then recompute s2 c (c.epoch + 1)
        else s2
      | none => s2) s1)

/-! The words (R380, R382). -/

/-- A collective word's parsed operands. -/
structure CollArgs where
  op : CollOp
  n : Nat
  group : Nat
  target : Nat
  chunk : Nat
  inH : Nat
  outH : Nat
  recH : Nat
  inA : Nat
  outA : Nat
  recA : Nat
  rank : Nat
  members : List Nat
/-- The operands of a collective. -/
def collArgs (op : CollOp) (f : FmtT) (h : Here) (s : State) : CollArgs :=
  let b (i : Nat) : W64 := srcS h (f.b.toNat + i)
  let cs := fld (srcS h f.c.toNat) 0 32
  let inH := modBits f.mod 0 5
  let outH := modBits f.mod 5 5
  let g := fld (b 3) 32 6
  let ms := groupMembers s g
  { op := op, n := fld (b 3) 0 32, group := g, target := fld (b 3) 38 9, chunk := if cs = 0 then 65536 else cs, inH := inH, outH := outH,
    recH := f.a.toNat, inA := hankAddr h inH (b 0).toNat, outA := hankAddr h outH (b 1).toNat, recA := hankAddr h f.a.toNat (b 2).toNat,
    rank := ms.findIdx (fun m => m == s.module), members := ms }
/-- Output bytes at this member. -/
def outLen (a : CollArgs) : Nat := match a.op with
  | .gath => a.members.length * a.n
  | _ => blockLen a.op a.n
/-- The checks of a collective at issue (R335, R380). -/
def collCheck (word : W64) (f : FmtT) (a : CollArgs) (h : Here) (s : State) : Option (Trap × W64) :=
  let member := groupValid s a.group && a.rank < a.members.length
  let rank := if member then a.rank else 512
  let reads := hasInput a.op rank a.target
  let writes := hasOutput a.op rank a.target
  let m := chunkCount a.op a.n a.chunk a.members.length
  let inK := getHank h.w h.iss.gang a.inH
  let skind : Option (Trap × W64) :=
    if !reads then none
    else
      let notS := (seenHank inK).kind != 2#2
      match areaTrap h.w (some inK) .engRead a.inA (blockLen a.op a.n) with
      | some t => if t.1 == .hankRange && notS then some (.hankKind, t.2) else some t
      | none => trapIf notS .hankKind (BitVec.ofNat 64 a.inA)
  let pages (on : Bool) (va n : Nat) : Option (Trap × W64) := if on then (match extentsOf s h.w.ctx va n with
    | .error e => some (.pageFault, BitVec.ofNat 64 e)
    | .ok _ => none) else none
  firstTrap [trapIf (member && ((reads && a.inH == 31) || (writes && a.outH == 31))) .reservedField word,
    skind, if writes && a.outH != 31 then areaTrap h.w (areaOf h a.outH) .engWrite a.outA (outLen a) else none,
    areaTrap h.w (areaOf h a.recH) .common a.recA (recordBytes (min m (2 ^ 20))),
    trapIf (reads && a.inA % 8 != 0) .alignment (BitVec.ofNat 64 a.inA), trapIf (writes && a.outA % 8 != 0) .alignment (BitVec.ofNat 64 a.outA),
    trapIf (a.recA % 256 != 0) .alignment (BitVec.ofNat 64 a.recA),
    trapIf (a.n == 0 || 2 ^ 20 ≤ m || fld (srcS h (f.b.toNat + 3)) 47 17 != 0 || fld (srcS h f.c.toNat) 32 32 != 0 || a.chunk % 256 != 0 || !member
      || a.members.length ≤ a.target || (blockLen a.op a.n % 8 != 0 && a.op == .bcast) || (a.n % 8 != 0 && a.op == .gath)) .engineOperand word,
    pages reads a.inA (blockLen a.op a.n), pages writes a.outA (outLen a), pages true a.recA (recordBytes m)]
/-- A collective starts (R117, R373, R380): its number on the group and its handle; its first exchange goes out, and its accesses begin once
those before it have performed. -/
def startColl (a : CollArgs) (slot : Nat) (h : Here) (s : State) : State :=
  let number := collIssued s a.group
  let m := chunkCount a.op a.n a.chunk a.members.length
  let c : Coll := { id := s.seq, wg := h.iss.wg, gang := h.iss.gang, group := a.group, number := number, op := a.op, n := a.members.length,
                    rank := a.rank, members := a.members, target := a.target, count := a.n, chunk := a.chunk,
                    inVa := if hasInput a.op a.rank a.target then some a.inA else none,
                    outVa := if hasOutput a.op a.rank a.target then some a.outA else none, recVa := a.recA,
                    hanks := ([a.inH, a.outH, a.recH].filter fun n => n != 31).dedup, trees := [], marks := List.replicate m 0,
                    params := collParams a.op a.n a.chunk a.target, seq := s.seq, lanes := h.iss.lanes, begun := false, since := s.time1588 }
  let s := markEffect c.wg (raiseEng s c.wg c.gang c.hanks)
  let s := updWg s c.wg fun w => { w with colls := tset none w.colls slot (some c.id) }
  let s := { s with seq := s.seq + 1, colls := s.colls ++ [c], collNo := (a.group, number + 1) :: s.collNo.filter fun x => x.1 != a.group }
  let s := flushRanges h.core h.w.ctx s [(a.inA, if hasInput a.op a.rank a.target then blockLen a.op a.n else 0)]
  let s := announceTo s a.members (exchangeOf s c)
  if collReady s c then beginColl s c else s
/-- CRED, CBCAST and CGATH (R380). -/
def collBody (word : W64) (op : CollOp) (f : FmtT) (h : Here) (tru : LaneMask) (s : State) : Fx :=
  if !gangActs h tru then { s := s }
  else
    let a := collArgs op f h s
    match collCheck word f a h s with
    | some t => trapFx s t.1 (mains h tru) t.2
    | none =>
      let hanks := [a.inH, a.outH, a.recH].filter fun n => n != 31
      if !hasEngine s h.w h.core h.iss.gang hanks .coll then wantFx (.engine hanks .coll) s
      else match (List.range 8).find? fun k => tget none h.w.colls k == none with
        | none => { s := onGang h (putS h f.d.toNat 0xFFFFFFFFFFFFFFFF#64) s }
        | some slot => { s := startColl a slot h (onGang h (putS h f.d.toNat (BitVec.ofNat 64 slot)) s) }
/-- CRED (R380). -/
def execCred (g : Guard) (f : FmtT) (s : State) : Host.Outcome State Fault Refusal :=
  runWord (.cred g f) g (collBody (wordOf (.cred g f)) (.red (BitVec.ofNat 2 (modBits f.mod 10 2)) (modBit f.mod 12) (modBit f.mod 13)) f) s
/-- CBCAST (R380). -/
def execCbcast (g : Guard) (f : FmtT) (s : State) : Host.Outcome State Fault Refusal :=
  runWord (.cbcast g f) g (collBody (wordOf (.cbcast g f)) .bcast f) s
/-- CGATH (R380). -/
def execCgath (g : Guard) (f : FmtT) (s : State) : Host.Outcome State Fault Refusal :=
  runWord (.cgath g f) g (collBody (wordOf (.cgath g f)) .gath f) s

/-- CODE 7: the handle names no collective (R382, R383). -/
def noHandle : W64 := 0x0700000000000000#64
/-- CWAIT and CQRY (R382). -/
def cwaitBody (word : W64) (waits : Bool) (f : FmtT) (h : Here) (tru : LaneMask) (s : State) : Fx :=
  if !gangActs h tru then { s := s }
  else
    let x := srcS h f.a.toNat
    if 8 ≤ x.toNat then trapFx s .engineOperand (mains h tru) word
    else match handleColl s h.w x.toNat with
      | none => { s := onGang h (putS h f.d.toNat noHandle) s }
      | some c =>
        if !waits then { s := onGang h (putS h f.d.toNat (collWord c)) s }
        else if c.code = 1 then
          { s := updLanes h h.iss.lanes (fun _ l => { l with st := .waiting (.coll x.toNat f.d.toNat (dstQuads h)) }) s, gone := h.iss.lanes }
        else { s := freeHandle (onGang h (putS h f.d.toNat (collWord c)) s) h.iss.wg x.toNat }
/-- CWAIT (R382). -/
def execCwait (g : Guard) (f : FmtT) (s : State) : Host.Outcome State Fault Refusal :=
  runWord (.cwait g f) g (cwaitBody (wordOf (.cwait g f)) true f) s
/-- CQRY (R382). -/
def execCqry (g : Guard) (f : FmtT) (s : State) : Host.Outcome State Fault Refusal :=
  runWord (.cqry g f) g (cwaitBody (wordOf (.cqry g f)) false f) s

end Sys2Proof.Machine
end

