-- ==== Sys2Proof/Machine/CrossLane.lean ====
section
/-! DEFINITION. The cross-lane instructions, opcodes 0x44 to 0x4B (R219 to R227). -/

namespace Sys2Proof.Machine

/-! Words that read one source lane: XQUAD, XLANE, XBCAST and XREAD. -/

/-- A source register of a lane outside the issue may be read as it stood when the issue began, where it was full then (R220); a choice (log 13). -/
def readBegan (i : Instr) (h : Here) (ctr m : Nat) : Option W32 :=
  let x := xSource i (tget {} h.iss.began m)
  if h.iss.began.isEmpty || h.iss.lanes.getLsbD m || x.2 || !isLive (laneOf h.g m).st || !Config.freeBit (ctr + m) then none else some x.1
/-- A word that gives each receiving lane the A of one source lane. `long` says for which lanes it is long-latency (R220): they share one pending
access, which holds each source lane once, with the value it has at issue, and the source lane of each lane. -/
def xreadBody (i : Instr) (gd : Guard) (f : FmtT) (srcLane : Here → Nat → Nat) (long : Here → Nat → Bool) (h : Here) (tru : LaneMask)
    (s : State) : Fx :=
  let rd (n : Nat) : Rd := rdLane h gd s.freeCtr (srcLane h n) f.a.toNat
  if xBreaks i gd h tru then { s := s, hold := some .word }
  else
    let bad := maskOf fun n => tru.getLsbD n && rd n == .empty
    let ok := tru &&& ~~~bad
    let waits (n : Nat) : Bool := long h n || rd n == .late
    let now := maskOf fun n => ok.getLsbD n && !waits n
    let after := maskOf fun n => ok.getLsbD n && waits n
    let got (n : Nat) : W32 := match rd n with
      | .val x => x
      | _ => 0#32
    let s := { s with freeCtr := s.freeCtr + 32 }
    let s := updLanes h now (fun n l => vput l f.d.toNat (got n)) s
    let s := updLanes h after (fun _ l => vmark l f.d.toNat 1) s
    let from_ := maskOf fun m => (bitsOf after).any fun n => srcLane h n == m
    let issued (m : Nat) : List Byte := match rdLane h gd s.freeCtr m f.a.toNat with
      | .val x => leBytes 4 x.toNat
      | _ => []
    let early (m : Nat) : Option W32 := readBegan i h s.freeCtr m
    let a : Access := { seq := 0, kind := .cross, lanes := after, dst := .vec f.d.toNat 1, word := some i,
                        data := (List.range 32).map fun n => BitVec.ofNat 8 (srcLane h n),
                        parts := (bitsOf from_).map fun m => match early m with
                          | some v => { lane := m, x := 1#64, y := v.zeroExtend 64 }
                          | none => { lane := m, ret := issued m } }
    let s := { s with freeCtr := s.freeCtr + 32 }
    { s := if after = 0#32 then s else pushHere h [[a]] s, traps := [trapAll .emptyRead bad (wordOf i)] }

/-- Long-latency when ganged, or when the source lies in another quad (R220). -/
def longRead (srcLane : Here → Nat → Nat) (h : Here) (n : Nat) : Bool := isGanged h || srcLane h n / 4 != n / 4

/-- XQUAD (R221). -/
def execXquad (g : Guard) (f : FmtT) (s : State) : Host.Outcome State Fault Refusal :=
  runWord (.xquad g f) g (xreadBody (.xquad g f) g f (fun _ n => xquadSrc f.mod n) fun _ _ => false) s
/-- XLANE (R222). -/
def execXlane (g : Guard) (f : FmtT) (s : State) : Host.Outcome State Fault Refusal :=
  runWord (.xlane g f) g (xreadBody (.xlane g f) g f (fun _ n => xlaneSrc f.mod n) (longRead fun _ n => xlaneSrc f.mod n)) s
/-- XBCAST (R223). -/
def execXbcast (g : Guard) (f : FmtT) (s : State) : Host.Outcome State Fault Refusal :=
  runWord (.xbcast g f) g (xreadBody (.xbcast g f) g f (xbcastSrc f) (longRead (xbcastSrc f))) s
/-- XREAD (R223). -/
def execXread (g : Guard) (f : FmtT) (s : State) : Host.Outcome State Fault Refusal :=
  runWord (.xread g f) g (xreadBody (.xread g f) g f (xreadSrc f) (longRead (xreadSrc f))) s

/-! Words that combine lanes: XRED, XSCAN, XVOTE and XMATCH. -/

/-- The identity of an operation of R224. -/
def xIdent (op : Nat) : W32 :=
  match op with
  | 1 => 0x7FFFFFFF#32
  | 2 => 0x80000000#32
  | 3 => 0xFFFFFFFF#32
  | 5 => 0xFFFFFFFF#32
  | 8 => 0x80000000#32
  | 9 => 0x7F800000#32
  | 10 => 0xFF800000#32
  | _ => 0#32
/-- One step of an operation of R224, and the flags it raises. -/
def xOp (op : Nat) (a b : W32) : W32 × BitVec 5 :=
  let ofFR (r : FR) : W32 × BitVec 5 := (BitVec.ofNat 32 r.bits, r.flags)
  match op with
  | 0 => (a + b, 0#5)
  | 1 => (if a.toInt ≤ b.toInt then a else b, 0#5)
  | 2 => (if b.toInt ≤ a.toInt then a else b, 0#5)
  | 3 => (if a.toNat ≤ b.toNat then a else b, 0#5)
  | 4 => (if b.toNat ≤ a.toNat then a else b, 0#5)
  | 5 => (a &&& b, 0#5)
  | 6 => (a ||| b, 0#5)
  | 7 => (a ^^^ b, 0#5)
  | 8 => ofFR (finish fp32 0 false (addEx 0 (unpack fp32 a.toNat) (unpack fp32 b.toNat)))
  | 9 => ofFR (minMax fp32 false a.toNat b.toNat)
  | _ => ofFR (minMax fp32 true a.toNat b.toNat)

/-- The tree of R224 on 2 ^ k values. -/
def xTree (op : Nat) : Nat → List W32 → BitVec 5 → W32 × BitVec 5
  | 0, xs, fl => (xs.headD 0#32, fl)
  | k + 1, xs, fl =>
    let pairs := ((xs.take (2 ^ k)).zip (xs.drop (2 ^ k))).map fun p => xOp op p.1 p.2
    xTree op k (pairs.map fun p => p.1) (pairs.foldl (fun m p => m ||| p.2) fl)
/-- The chain of R225 from the segment's lowest lane upwards. -/
def xChain (op : Nat) : W32 × BitVec 5 → List W32 → W32 × BitVec 5
  | acc, [] => acc
  | acc, x :: xs => let r := xOp op acc.1 x; xChain op (r.1, acc.2 ||| r.2) xs

/-- What a receiving lane of XRED, XSCAN or XMATCH gets, from the values read and the lanes that contribute, and its flags. -/
def xCombine (i : Instr) (contrib : LaneMask) (val : Nat → W32) (n : Nat) : W32 × BitVec 5 :=
  let x (op m : Nat) : W32 := if contrib.getLsbD m then val m else xIdent op
  match i with
  | .xred _ f =>
    let op := modBits f.mod 0 4
    let k := modBits f.mod 4 3
    xTree op (segLog k) ((List.range (2 ^ segLog k)).map fun j => x op (segBase k n + j)) 0#5
  | .xscan _ f =>
    let op := modBits f.mod 0 4
    let b := segBase (modBits f.mod 4 3) n
    if modBit f.mod 7 then xChain op (xIdent op, 0#5) ((List.range (n - b)).map fun j => x op (b + j))
    else xChain op (x op b, 0#5) ((List.range (n - b)).map fun j => x op (b + 1 + j))
  | .xmatch _ _ => (maskOf fun m => contrib.getLsbD m && val m == val n, 0#5)
  | _ => (0#32, 0#5)
/-- The bits of the vote: the contributing lanes whose predicate is 1 (R226). -/
def xBallot (contrib : LaneMask) (val : Nat → W32) : LaneMask := maskOf fun m => contrib.getLsbD m && val m != 0#32

/-- The results of a combining word written in the lanes of a set, or in the scalar register of the quads (R224 to R227). -/
def xDeliver (i : Instr) (recv contrib : LaneMask) (quads : BitVec 8) (val : Nat → W32) (g : Gang) : Gang :=
  match i with
  | .xvote _ f =>
    let b := xBallot contrib val
    match modBits f.mod 0 2 with
    | 0 => mapLanes recv (fun _ l => pput l f.d.toNat (b != 0#32)) g
    | 1 => mapLanes recv (fun _ l => pput l f.d.toNat (b == contrib)) g
    | _ => mapQuads quads (fun q => sput q f.d.toNat (b.zeroExtend 64)) g
  | .xred _ f => mapLanes recv (fun n l => vput l f.d.toNat (xCombine i contrib val n).1) g
  | .xscan _ f => mapLanes recv (fun n l => vput l f.d.toNat (xCombine i contrib val n).1) g
  | .xmatch _ f => mapLanes recv (fun n l => vput l f.d.toNat (xCombine i contrib val n).1) g
  | _ => g
/-- The destination of a combining word marked empty. -/
def xMark (i : Instr) (recv : LaneMask) (quads : BitVec 8) (g : Gang) : Gang :=
  match i with
  | .xvote _ f =>
    if modBits f.mod 0 2 = 2 then mapQuads quads (fun q => smark q f.d.toNat) g else mapLanes recv (fun _ l => pmark l f.d.toNat) g
  | .xred _ f => mapLanes recv (fun _ l => vmark l f.d.toNat 1) g
  | .xscan _ f => mapLanes recv (fun _ l => vmark l f.d.toNat 1) g
  | .xmatch _ f => mapLanes recv (fun _ l => vmark l f.d.toNat 1) g
  | _ => g
/-- The flags of a combining word: those of its receiving lanes that are not helpers (R138, R224). -/
def xFlags (i : Instr) (contrib : LaneMask) (val : Nat → W32) : BitVec 5 :=
  (bitsOf contrib).foldl (fun m n => m ||| (xCombine i contrib val n).2) 0#5

/-- A word that combines its contributing lanes: done within a quad issue, long-latency in a ganged one, whose flags are those
of the values it writes (R219, R220, R224). -/
def xcombBody (i : Instr) (gd : Guard) (h : Here) (tru : LaneMask) (s : State) : Fx :=
  if tru = 0#32 then { s := s }
  else
    let contrib := tru &&& ~~~helperMask h
    let src (n : Nat) : W32 × Bool := xSource i (laneOf h.g n)
    let short := xShort i h tru
    if xBreaks i gd h tru then { s := s, hold := some .word }
    else
      let recv := tru &&& ~~~short
      let val (n : Nat) : W32 := (src n).1
      let traps := [trapAll .emptyRead short (wordOf i)]
      if recv = 0#32 then { s := s, traps := traps }
      else if isGanged h then
        let a : Access := { seq := 0, kind := .cross, lanes := recv, word := some i,
                            parts := (bitsOf (recv ||| contrib)).map fun n => { lane := n, ret := leBytes 4 (val n).toNat } }
        { s := pushHere h [[a]] (onGang h (xMark i recv (dstQuads h)) s), traps := traps }
      else { s := onGang h (xDeliver i recv contrib (dstQuads h) val) s, fops := raises (xFlags i (recv &&& contrib) val) 0#4, traps := traps }

/-- XRED (R224). -/
def execXred (g : Guard) (f : FmtT) (s : State) : Host.Outcome State Fault Refusal :=
  runWord (.xred g f) g (xcombBody (.xred g f) g) s
/-- XSCAN (R225). -/
def execXscan (g : Guard) (f : FmtT) (s : State) : Host.Outcome State Fault Refusal :=
  runWord (.xscan g f) g (xcombBody (.xscan g f) g) s
/-- XVOTE (R226). -/
def execXvote (g : Guard) (f : FmtT) (s : State) : Host.Outcome State Fault Refusal :=
  runWord (.xvote g f) g (xcombBody (.xvote g f) g) s
/-- XMATCH (R227). -/
def execXmatch (g : Guard) (f : FmtT) (s : State) : Host.Outcome State Fault Refusal :=
  runWord (.xmatch g f) g (xcombBody (.xmatch g f) g) s

/-! The fill of a long-latency cross-lane word (R219, R220). -/

/-- Lanes of a set that have not exited. -/
def notExited (g : Gang) (m : LaneMask) : LaneMask := maskOf fun n => m.getLsbD n && !isGone (laneOf g n).st
/-- The first lane of a gang, beyond its present lanes, that is a helper. -/
def helpersOf (w : Wg) (gang : Nat) : LaneMask := maskOf (isHelper w gang)
/-- The value of a source register as it reads now: 0 in an absent lane; the register, or while it is empty the value it had at issue; undefined
in a lane that has gone; none while the register of another lane stays empty (R219, R220). -/
def readNow (i : Instr) (g : Gang) (ctr : Nat) (p : Part) : Option W32 :=
  let l := laneOf g p.lane
  let x := xSource i l
  if l.st == .absent then some 0#32
  else if !x.2 then some x.1
  else if !p.ret.isEmpty then some (BitVec.ofNat 32 (leNat p.ret))
  else if !isLive l.st then some (Config.free32 (ctr + p.lane))
  else none
/-- The source registers of a set of lanes read at this instant: each once, its value kept in `y` with `x` set. -/
def readParts (i : Instr) (g : Gang) (ctr : Nat) (m : LaneMask) (ps : List Part) : List Part :=
  ps.map fun p =>
    if !m.getLsbD p.lane || p.x = 1#64 then p
    else match readNow i g ctr p with
      | some v => { p with x := 1#64, y := v.zeroExtend 64 }
      | none => p
/-- The value read of a source lane. -/
def partVal (ps : List Part) (m : Nat) : Option W32 := (ps.find? fun p => p.lane == m && p.x == 1#64).map fun p => p.y.setWidth 32
/-- The register a reading word takes from its source lane, and its destination. -/
def crossRegs : Instr → Option (Nat × Nat)
  | .xquad _ f => some (f.a.toNat, f.d.toNat)
  | .xlane _ f => some (f.a.toNat, f.d.toNat)
  | .xbcast _ f => some (f.a.toNat, f.d.toNat)
  | .xread _ f => some (f.a.toNat, f.d.toNat)
  | _ => none
/-- Source lanes to read and receiving lanes to fill. -/
def fillPlan (a : Access) : Fill → LaneMask × LaneMask
  | .part reads fills => (reads, fills &&& a.lanes)
  | _ => (BitVec.allOnes 32, a.lanes)
/-- The gang after a step of a cross-lane fill, and the access as it stays pending, if it does; none when nothing can be read or filled. A word
whose destination is its source reads a lane's register before it fills it. The flags of what is filled reach FPCTL with the fill (log entry 25). -/
def crossFill (ctr : Nat) (w : Wg) (gang : Nat) (a : Access) (how : Fill) : Option (Gang × Option Access) :=
  let g := gangOf w gang
  let plan := fillPlan a how
  match a.word with
  | none => none
  | some i =>
    match crossRegs i with
    | some (r, d) =>
      let src (n : Nat) : Nat := (tget 0#8 a.data n).toNat
      let ps := readParts i g ctr (if r = d then plan.1 ||| plan.2 else plan.1) a.parts
      let done := maskOf fun n => plan.2.getLsbD n && (partVal ps (src n)).isSome
      if done = 0#32 ∧ ps = a.parts then none
      else
        let left := a.lanes &&& ~~~done
        some (mapLanes (notExited g done) (fun n l => vput l d ((partVal ps (src n)).getD 0#32)) g,
          if left = 0#32 then none else some { a with lanes := left, parts := ps })
    | none =>
      if plan.2 = 0#32 then
        let ps := readParts i g ctr plan.1 a.parts
        if ps = a.parts then none else some (g, some { a with parts := ps })
      else
        let ps := readParts i g ctr (BitVec.allOnes 32) a.parts
        let contrib := a.lanes &&& ~~~helpersOf w gang
        let val (n : Nat) : W32 := (partVal ps n).getD 0#32
        some (xDeliver i (notExited g a.lanes) contrib 0xFF#8 val { g with fpctl := g.fpctl ||| xFlags i contrib val }, none)

end Sys2Proof.Machine
end

