-- ==== Sys2Proof/Machine/Ctl.lean ====
section
/-! DEFINITION. Device control space word by word (R23, R96, R97, R312, R352, R362, R373, R386, R394, R409, R419, R423, R427, R429): what a
read gives, what a write does, and the steps that are writes. -/

namespace Sys2Proof.Machine

/-- The words of device control space. -/
inductive CtlWord where
  /-- Residency range register n of a die: word 0 RRBASE, 1 RRLIMIT, 2 RRCTL (R96). -/
  | residency (die n word : Nat)
  /-- RGCTL, RGPAT, RGLEN, RGLEAD, RGERR (R312). -/
  | ring (k : Nat)
  /-- A core's miss counter (R317). -/
  | miss
  /-- A handler table entry (R352). -/
  | handler
  /-- PLSTAT and PLVER (R362). -/
  | plstat | plver
  /-- A word of a group entry (R373). -/
  | group (k : Nat)
  /-- A word of a work queue (R386). -/
  | queue (q k : Nat)
  /-- The slice table (R394). -/
  | slctl | slstart | slentry
  /-- The kernel indirection table and the context table (R423, R429). -/
  | kernel | context
  /-- The words of R427. -/
  | hcqbase | hcqctl | fqbase | fqctl | imgctl | secstat | almctl | fqhead
  /-- The image area, by offset (R419). -/
  | image (off : Nat)
  | unbacked
  deriving DecidableEq, Repr

/-- An address inside n units of a size from a base. -/
def inUnits (a base unit n : Nat) : Bool := base ≤ a && a < base + unit * n
/-- The word at a multiple of 8. The reserved word after a residency register's three takes no write, without BADW, and reads 0 (log entry 52). -/
def ctlWordAt (s : State) (a : Nat) : CtlWord :=
  if inUnits a 0x7F0000100000 0x10000 4 then
    let o := (a - 0x7F0000100000) % 0x10000
    if o < 0x100 ∧ o % 0x20 / 8 < 3 then .residency ((a - 0x7F0000100000) / 0x10000) (o / 0x20) (o % 0x20 / 8) else .unbacked
  else if inUnits a 0x7F0000200000 8 5 then .ring ((a - 0x7F0000200000) / 8)
  else if inUnits a 0x7F0000300000 8 768 then .miss
  else if inUnits a 0x7F0000400000 0x800 768 then .handler
  else if a = 0x7F0000600000 then .plstat
  else if a = 0x7F0000600008 then .plver
  else if inUnits a 0x7F0000610000 0x400 64 then
    let k := (a - 0x7F0000610000) % 0x400 / 8
    if k ≤ 72 then .group k else .unbacked
  else if inUnits a 0x7F0001000000 0x40 32768 then
    .queue ((a - 0x7F0001000000) / 0x40) ((a - 0x7F0001000000) % 0x40 / 8)
  else if a = 0x7F0001200000 then .slctl
  else if a = 0x7F0001200008 then .slstart
  else if inUnits a 0x7F0001200100 8 64 then .slentry
  else if inUnits a 0x7F0002000000 16 65536 then .kernel
  else if inUnits a 0x7F0003000000 32 65535 then .context
  else if a = 0x7F0004000000 then .hcqbase
  else if a = 0x7F0004000008 then .hcqctl
  else if a = 0x7F0004000010 then .fqbase
  else if a = 0x7F0004000018 then .fqctl
  else if a = 0x7F0004000020 then .imgctl
  else if a = 0x7F0004000028 then .secstat
  else if a = 0x7F0004000030 then .almctl
  else if a = 0x7F0004000038 then .fqhead
  else match imgArea s with
    | some (_, n) => if inUnits a 0x7F8000000000 1 n then .image (a - 0x7F8000000000) else .unbacked
    | none => .unbacked

def hcqctlAddr : Nat := 0x7F0004000008
def fqctlAddr : Nat := 0x7F0004000018
def secstatAddr : Nat := 0x7F0004000028
def slstartAddr : Nat := 0x7F0001200008
/-- A word of a work queue. -/
def queueAddr (q k : Nat) : Nat := 0x7F0001000000 + 0x40 * q + 8 * k
def queueWord (s : State) (q k : Nat) : W64 := ctlGet s (queueAddr q k)
/-- A slice entry's word. -/
def sliceWord (s : State) (e : Nat) : W64 := ctlGet s (0x7F0001200100 + 8 * e)

/-- Records in the fault ring, and its size; 0 while it has none (R427). -/
def fqSize (s : State) : Nat := let n := fld (ctlGet s fqctlAddr) 0 5; if n = 0 then 0 else 2 ^ n
def fqCount (s : State) : Nat := (fld (ctlGet s fqctlAddr) 32 32 + 2 ^ 32 - fld (ctlGet s 0x7F0004000038) 0 32) % 2 ^ 32
/-- OVF: records wait at the IOD for room (R427). -/
def fqWaiting (s : State) : Bool := fqSize s ≤ fqCount s && s.faults.any fun r => !r.written

/-! Reads. -/

/-- The state of the ports as PLSTAT shows it (R362). -/
def plstat (s : State) : W64 := (List.range 40).foldl (fun x p => if isUp s p then x ||| (1#64 <<< p) else x) 0#64
/-- A word as it reads: the miss counters are the host's alone (R317). -/
def ctlRead (s : State) (host : Bool) (a : Nat) : W64 :=
  match ctlWordAt s a with
  | .plstat => plstat s
  | .secstat => ctlGet s a ||| BitVec.ofNat 64 (s.fuse % 128)
  | .fqctl => setFld (ctlGet s a) 15 1 (fqWaiting s).toNat
  | .miss => if host then ctlGet s a else 0#64
  | .image off => match imgArea s with
    | some (b, _) => BitVec.ofNat 64 (leNat (devBytes s (b + off) 8))
    | none => 0#64
  | .unbacked => 0#64
  | _ => ctlGet s a

/-! Writes. -/

/-- Residency ranges (R97). -/
def residencyAddr (die n word : Nat) : Nat := 0x7F0000100000 + 0x10000 * die + 0x20 * n + 8 * word
/-- WAYS of the enabled registers of a die in all, with one register's control word replaced. -/
def waysSum (s : State) (die n : Nat) (c : W64) : Nat :=
  ((List.range 8).map fun k =>
    let x := if k = n then c else ctlGet s (residencyAddr die k 2)
    if x.getLsbD 0 then fld x 4 4 else 0).foldl (· + ·) 0
/-- A write to a residency range word that R97 refuses. -/
def residencyBad (s : State) (die n word : Nat) (v : W64) : Bool :=
  let b := fld (if word = 0 then v else ctlGet s (residencyAddr die n 0)) 8 40
  let l := fld (if word = 1 then v else ctlGet s (residencyAddr die n 1)) 8 40
  let reserved := if word = 2 then 0xFFFFFFFF7FFE000E#64 else 0xFFFF0000000000FF#64
  v &&& reserved != 0#64 || (word == 2 && 256 < fld v 8 9) || l < b || b * 256 < die * dieBytes || (die + 1) * dieBytes < (l + 1) * 256
    || (word == 2 && 12 < waysSum s die n v)
/-- A new control word of a residency register clears its EN or lowers its WAYS (R97). -/
def losesWays (old new : W64) : Bool := old.getLsbD 0 && (!new.getLsbD 0 || fld new 4 4 < fld old 4 4)
/-- The lines that a register retained are ordinary from now on (R97). -/
def freeClass (s : State) (die n : Nat) : State :=
  { s with slices := s.slices.map fun (c : Sector) => if sliceNo c.pa / 24 = die ∧ c.cls = n + 1 then { c with cls := 0 } else c }
/-- RESIDENCY_RANGE_WRITE's effect (R97). -/
def residencyWrite (s : State) (die n word : Nat) (v : W64) : State :=
  let a := residencyAddr die n 2
  if residencyBad s die n word v then ctlPut s a (ctlGet s a ||| 0x80000000#64)
  else if word = 2 then
    let s := if losesWays (ctlGet s a) v then freeClass s die n else s
    ctlPut s a (if v.getLsbD 31 then v &&& ~~~0x80000000#64 else v ||| (ctlGet s a &&& 0x80000000#64))
  else ctlPut s (residencyAddr die n word) v

/-- A value that R312 refuses for a ring register as it stands. -/
def ringBad (s : State) (k : Nat) (v : W64) : Bool :=
  let c := ctlGet s rgctlAddr
  let on := c.getLsbD 0
  match k with
  | 0 =>
    let gsize := fld v 15 9
    let ports := fld v 10 5
    fld v 39 25 != 0 || fld v 2 8 != 0 || gsize == 0 || 288 < gsize || 16 < ports || 287 < fld v 24 9 || (ports != 0 && gsize == 1)
      || (v.getLsbD 0 && ((patternRegs s).2 == 0 || !isDram (patternRegs s).1 || (1 < gsize && ports == 0)))
      || (on && fld v 10 29 != fld c 10 29)
  | 1 => fld v 48 16 != 0 || fld v 0 5 != 0
  | 2 => fld v 21 43 != 0 || 2 ^ 20 < fld v 0 21 || (on && fld v 0 21 == 0)
  | 3 => fld v 16 48 != 0
  | _ => v != 0#64
/-- The ring starts: entry 0 of revolution 0 is decided next (R312). -/
def ringStart (s : State) : State :=
  let s := dropEarly s
  { s with ring := { s.ring with running := true, pos := 0, rev := 0, bytes := 0, revStart := s.cycle, turns := 0, turnNs := 0, holes := 0,
                                 lastHoles := 0, lastNs := 0, staged := [], failed := [] } }
/-- A write of a ring register (R312). A change of pattern is taken up at the next entry 0. -/
def ringWrite (s : State) (k : Nat) (v : W64) : State :=
  let c := ctlGet s rgctlAddr
  if ringBad s k v then ctlPut s rgctlAddr (c ||| 2#64)
  else if k = 0 then
    let s' := remap s (ctlPut s rgctlAddr (if v.getLsbD 1 then v &&& ~~~2#64 else v ||| (c &&& 2#64)))
    if v.getLsbD 0 && !c.getLsbD 0 then ringStart s'
    else if v.getLsbD 0 then s'
    else
      let s' := dropEarly s'
      { s' with ring := { s'.ring with running := false } }
  else ctlPut s (rgctlAddr + 8 * k) v

/-- The slice table with BADW set. -/
def sliceRefused (s : State) : State := ctlPut s slctlAddr (ctlGet s slctlAddr ||| 0x100#64)
/-- SLCTL (R394): while EN is 1 only BADW may change. -/
def slctlApply (s : State) (v : W64) : State :=
  let c := ctlGet s slctlAddr
  let n := fld v 0 7
  if fld v 9 55 != 0 || (v.getLsbD 7 && (n == 0 || 64 < n)) || (c.getLsbD 7 && fld v 0 8 != fld c 0 8) then sliceRefused s
  else
    let s' := ctlPut s slctlAddr (if v.getLsbD 8 then v &&& ~~~0x100#64 else v ||| (c &&& 0x100#64))
    if v.getLsbD 7 && !c.getLsbD 7 then { s' with slice := 64 } else s'
/-- SLSTART or a slice entry (R394). -/
def sliceApply (s : State) (a : Nat) (v : W64) : State :=
  let entry := a != slstartAddr
  if (entry && (fld v 38 26 != 0 || fld v 0 32 < 1000)) || ((ctlGet s slctlAddr).getLsbD 7 && ctlGet s a != v) then sliceRefused s
  else ctlPut s a v

/-- A queue shows ERR (R386). -/
def queueErr (s : State) (q : Nat) : State := ctlPut s (queueAddr q 5) (queueWord s q 5 ||| 0x8000000#64)
/-- Reserved bits and device bits of the words of a queue. -/
def queueReserved (k : Nat) : W64 := match k with
  | 0 => 0xFFFF00000000003F#64
  | 1 => 0xFFFFFFFFFFFFFFE0#64
  | 5 => 0xFFFFFFFFF0000000#64
  | 6 => BitVec.allOnes 64
  | 7 => BitVec.allOnes 64
  | _ => 0xFFFF000000000000#64
def queueDevice (k : Nat) : W64 := match k with
  | 3 => 0xFFFFFFFFFFFF#64
  | 4 => 0xFFFFFFFFFFFF#64
  | 5 => 0x8000000#64
  | _ => 0#64
/-- A host write of a queue's word (R386). -/
def queueApply (s : State) (q k : Nat) (v : W64) : State :=
  let tail := fld v 0 48
  if v &&& queueReserved k != 0#64
      || (k == 2 && (tail < fld (queueWord s q 3) 0 48 || fld (queueWord s q 4) 0 48 + 2 ^ fld (queueWord s q 1) 0 5 < tail)) then queueErr s q
  else ctlPut s (queueAddr q k) ((v &&& ~~~queueDevice k) ||| (queueWord s q k &&& queueDevice k))

/-- HCQCTL (R427). -/
def hcqctlApply (s : State) (v : W64) : State :=
  let c := ctlGet s hcqctlAddr
  let c := if v.getLsbD 31 then c &&& ~~~0x80000000#64 else c
  let n := fld v 0 5
  if 15 < n || 2 ^ n < (fld v 32 16 + 2 ^ 16 - fld c 48 16) % 2 ^ 16 then ctlPut s hcqctlAddr (c ||| 0x80000000#64)
  else ctlPut s hcqctlAddr (setFld (setFld c 32 16 (fld v 32 16)) 0 5 n)
/-- FQCTL (R427). -/
def fqctlApply (s : State) (v : W64) : State :=
  let n := fld v 0 5
  if n = 1 ∨ 20 < n then s else ctlPut s fqctlAddr (setFld (ctlGet s fqctlAddr) 0 5 n)
/-- Entries of every TLB of the module: 256 a core and 8,192 a cluster (R15, R16). -/
def tlbEntries : Nat := 768 * 256 + 96 * 8192
/-- A write that names an image area withdraws no translation cached before it (R419): of the pages that the walker took as present until now, the
TLBs may hold any, as many as they have entries for; which they hold is open (log 28). -/
def namedArea (old new : State) : State :=
  let cut := old.pages.filter fun p => (walks old p || old.tlb.contains p) && !walks new p
  { new with tlb := ((cut.mapIdx fun i p => (i, p)).filter fun x => Config.freeBit (old.freeCtr + x.1)).map (fun x => x.2) |>.take tlbEntries
             freeCtr := old.freeCtr + cut.length }
/-- IMGCTL (R419, R427). -/
def imgctlApply (s : State) (v : W64) : State :=
  let b := fld v 34 27 * 2 ^ 21
  let size := fld v 0 3
  let n := 2 ^ 30 * 2 ^ size
  if s.loadDone || (v.getLsbD 3 && (4 < size || !isDram b || !inOneRange b n)) then s
  else namedArea s (ctlPut s imgCtlAddr (v &&& 0x1FFFFFFC0000000F#64))

/-- A word of the image area written (R419): no slice keeps a copy of the old one. -/
def imageWrite (s : State) (off : Nat) (v : W64) : State :=
  match imgArea s with
  | some (b, _) =>
    let x := secBase (b + off)
    devPut (sliceDrop (sliceCleanRange s x 64) x 64) (b + off) (leBytes 8 v.toNat)
  | none => s

/-- Bits of the words that take any value written, but their reserved bits. -/
def plainMask : CtlWord → W64
  | .handler => 0xFFFFE000FFFF0001#64
  | .group 0 => 0x80000000000001FF#64
  | .group _ => 0x01FF01FF01FF01FF#64
  | .hcqbase => 0xFFFFFFFFFFFFFFC0#64
  | .fqbase => 0xFFFFFFFFFFFFFFE0#64
  | .almctl => 1#64
  | .fqhead => 0xFFFFFFFF#64
  | _ => 0#64
/-- A write to a word, by the host or by a SYS-class instruction: the words that only the host writes discard the other's (R352, R373, R386),
and those that only a command or the device writes discard both (R362, R423, R427, R429). -/
def ctlWrite (s : State) (host : Bool) (a : Nat) (v : W64) : State :=
  match ctlWordAt s a with
  | .residency d n k => residencyWrite s d n k v
  | .ring k => ringWrite s k v
  | .queue q k => if host then queueApply s q k v else s
  | .slctl => slctlApply s v
  | .slstart => sliceApply s a v
  | .slentry => sliceApply s a v
  | .hcqctl => hcqctlApply s v
  | .fqctl => fqctlApply s v
  | .imgctl => imgctlApply s v
  | .image off => imageWrite s off v
  | .handler => if host then ctlPut s a (v &&& plainMask .handler) else s
  | .group k => if host then ctlPut s a (v &&& plainMask (.group k)) else s
  | .hcqbase => ctlPut s a (v &&& plainMask .hcqbase)
  | .fqbase => ctlPut s a (v &&& plainMask .fqbase)
  | .almctl => ctlPut s a (v &&& plainMask .almctl)
  | .fqhead => ctlPut s a (v &&& plainMask .fqhead)
  | .miss => s
  | .plstat => s
  | .plver => s
  | .kernel => s
  | .context => s
  | .secstat => s
  | .unbacked => s
/-- A word whose writes are a step of their own. -/
def ctlOwn : CtlWord → Bool
  | .residency _ _ _ => true
  | .ring k => k != 3
  | .queue _ _ => true
  | .slctl => true
  | .slstart => true
  | .slentry => true
  | .hcqctl => true
  | .fqctl => true
  | .imgctl => true
  | .fqhead => true
  | _ => false

/-! The steps that are writes from outside. -/

/-- RESIDENCY_RANGE_WRITE (R97). -/
def execResidencyRangeWrite (addr : Nat) (value : W64) (s : State) : Host.Outcome State Fault Refusal :=
  match ctlWordAt s addr with
  | .residency d n k => if addr % 8 ≠ 0 then .fault .notEnabled else .next (residencyWrite s d n k value)
  | _ => .fault .notEnabled
/-- RGCTL_WRITE (R312). -/
def execRgctlWrite (value : W64) (s : State) : Host.Outcome State Fault Refusal := .next (ringWrite s 0 value)
/-- RGPAT_WRITE (R312). -/
def execRgpatWrite (value : W64) (s : State) : Host.Outcome State Fault Refusal := .next (ringWrite s 1 value)
/-- RGLEN_WRITE (R312). -/
def execRglenWrite (value : W64) (s : State) : Host.Outcome State Fault Refusal := .next (ringWrite s 2 value)
/-- RGERR_WRITE (R312). -/
def execRgerrWrite (value : W64) (s : State) : Host.Outcome State Fault Refusal := .next (ringWrite s 4 value)
/-- SLCTL_WRITE (R394). -/
def execSlctlWrite (value : W64) (s : State) : Host.Outcome State Fault Refusal := .next (slctlApply s value)
/-- SLICE_TABLE_WRITE (R394). -/
def execSliceTableWrite (addr : Nat) (value : W64) (s : State) : Host.Outcome State Fault Refusal :=
  if addr % 8 = 0 ∧ (ctlWordAt s addr = .slstart ∨ ctlWordAt s addr = .slentry) then .next (sliceApply s addr value) else .fault .notEnabled
/-- QUEUE_DOORBELL (R386). -/
def execQueueDoorbell (queue : Nat) (value : W64) (s : State) : Host.Outcome State Fault Refusal :=
  if queue ≤ 32767 then .next (queueApply s queue 2 value) else .fault .notEnabled
/-- QUEUE_DESCRIPTOR_WRITE (R386). -/
def execQueueDescriptorWrite (queue word : Nat) (value : W64) (s : State) : Host.Outcome State Fault Refusal :=
  if queue ≤ 32767 ∧ word < 8 ∧ word ≠ 2 then .next (queueApply s queue word value) else .fault .notEnabled
/-- HCQCTL_WRITE (R427). -/
def execHcqctlWrite (value : W64) (s : State) : Host.Outcome State Fault Refusal := .next (hcqctlApply s value)
/-- FQCTL_WRITE (R427). -/
def execFqctlWrite (value : W64) (s : State) : Host.Outcome State Fault Refusal := .next (fqctlApply s value)
/-- FQHEAD_WRITE (R427). -/
def execFqheadWrite (value : W64) (s : State) : Host.Outcome State Fault Refusal :=
  .next (ctlPut s 0x7F0004000038 (value &&& plainMask .fqhead))
/-- IMGCTL_WRITE (R419, R427). -/
def execImgctlWrite (value : W64) (s : State) : Host.Outcome State Fault Refusal := .next (imgctlApply s value)
/-- CONTROL_SPACE_WRITE (R409): a write from outside to a word with no behaviour of its own; unbacked words discard it. -/
def execControlSpaceWrite (addr : Nat) (value : W64) (s : State) : Host.Outcome State Fault Refusal :=
  if addr % 8 = 0 ∧ isCtl addr = true ∧ ctlOwn (ctlWordAt s addr) = false then .next (ctlWrite s true addr value) else .fault .notEnabled

end Sys2Proof.Machine
end

