-- ==== Sys2Proof/Machine/System.lean ====
section
/-! DEFINITION. The system instructions, opcodes 0xF0 to 0xF6 (R407 to R412). -/

namespace Sys2Proof.Machine

/-! Status registers (R37, R407). -/

/-- A lane-scoped status register. -/
def csrOfLane (l : Lane) (lane num : Nat) : W64 :=
  match num with
  | 1 => BitVec.ofNat 64 lane
  | 2 => BitVec.ofNat 64 (lane / 4)
  | 0x21 => BitVec.ofNat 64 (l.hact.toNat * 256 + l.fcode.toNat)
  | 0x23 => l.tpc
  | _ => l.tinfo
/-- FPCTL and MFLAGS as a word of an issue sees them: with what earlier words of its own issue did, and what ended issues did (R230; log
entry 107). -/
def seenFlags (h : Here) : Gang := h.iss.fops.foldl fApply h.g
/-- A status register of the gang, workgroup, grid or module. -/
def csrOfGang (s : State) (h : Here) (num : Nat) : W64 :=
  match num with
  | 0 => 32#64
  | 3 => BitVec.ofNat 64 h.iss.gang
  | 4 => BitVec.ofNat 64 h.w.wgid
  | 5 => BitVec.ofNat 64 h.w.skeinid
  | 6 => BitVec.ofNat 64 h.w.grid.1
  | 7 => BitVec.ofNat 64 h.w.grid.2.1
  | 8 => BitVec.ofNat 64 h.w.grid.2.2
  | 9 => BitVec.ofNat 64 h.w.gdim.1
  | 0xA => BitVec.ofNat 64 h.w.gdim.2.1
  | 0xB => BitVec.ofNat 64 h.w.gdim.2.2
  | 0xC => BitVec.ofNat 64 h.w.lanes
  | 0x10 => (seenFlags h).mflags.zeroExtend 64
  | 0x11 => (seenFlags h).fpctl.zeroExtend 64
  | 0x20 => BitVec.ofNat 64 h.w.parkt
  | 0x22 => h.w.trapvec
  | 0x30 => s.time1588
  | 0x31 => 0x4131#64
  | 0x32 => BitVec.ofNat 64 h.w.ctx
  | _ => BitVec.ofNat 64 (effPri s h.w)

/-- CSRR (R408): a lane-scoped register lane by lane; any other as a gang operation. -/
def csrrBody (f : FmtS) (h : Here) (tru : LaneMask) (s : State) : Fx :=
  let num := f.csrn.toNat
  let n := if f.imm = 2#16 then 2 else 1
  let d := f.d.toNat
  if csrLane num then { s := updLanes h tru (fun i l => vputs l d n (csrOfLane l i num).toNat) s }
  else if !gangActs h tru then { s := s }
  else
    let x := csrOfGang s h num
    if f.imm = 1#16 then { s := onGang h (putS h d x) s } else { s := updLanes h tru (fun _ l => vputs l d n x.toNat) s }
/-- CSRR (R408). -/
def execCsrr (g : Guard) (f : FmtS) (s : State) : Host.Outcome State Fault Refusal := runWord (.csrr g f) g (csrrBody f) s

/-- The value that a CSRW of a register of the gang or workgroup writes (R408). -/
def csrwValue (f : FmtS) (h : Here) (tru : LaneMask) : W64 :=
  let l := laneOf h.g (lowest (mains h tru))
  if f.imm = 1#16 then srcS h f.a.toNat else BitVec.ofNat 64 (vregs l f.a.toNat (if f.imm = 2#16 then 2 else 1))
/-- Bits that must be zero in MFLAGS, FPCTL and TRAPVEC (R136, R142, R407). -/
def csrReserved (num : Nat) : W64 := match num with
  | 0x10 => 0xFFFFFFFFFFFFFFF0#64
  | 0x11 => 0xFFFFFFFFFFFFFFE0#64
  | _ => 0xFFF0000000000006#64
/-- CSRW (R408): TRAPPC lane by lane, with no clause base; the others as gang operations, FPCTL and MFLAGS as the issue ends (R230). -/
def csrwBody (word : W64) (f : FmtS) (h : Here) (tru : LaneMask) (s : State) : Fx :=
  let num := f.csrn.toNat
  if num = 0x23 then
    { s := updLanes h tru (fun _ l => { l with tpc := BitVec.ofNat 64 (vregs l f.a.toNat (if f.imm = 2#16 then 2 else 1)), tbase := none }) s }
  else if !gangActs h tru then { s := s }
  else
    let x := csrwValue f h tru
    if x &&& csrReserved num ≠ 0#64 then trapFx s .reservedField tru word
    else if num = 0x10 then { s := s, fops := [.setMf (x.setWidth 4)] }
    else if num = 0x11 then { s := s, fops := [.setFp (x.setWidth 5)] }
    else { s := updWg s h.iss.wg fun w => { w with trapvec := x } }
/-- CSRW (R408). -/
def execCsrw (g : Guard) (f : FmtS) (s : State) : Host.Outcome State Fault Refusal := runWord (.csrw g f) g (csrwBody (wordOf (.csrw g f)) f) s

/-! Device control space (R409). -/

/-- The trap of a control-space address. -/
def ctlTrap (word a : W64) : Option (Trap × W64) :=
  if !isCtl a.toNat then some (.privilege, word) else if a.toNat % 8 ≠ 0 then some (.alignment, a) else none
/-- CSRR.ctl (R409). -/
def csrrCtlBody (word : W64) (f : FmtS) (h : Here) (tru : LaneMask) (s : State) : Fx :=
  if !gangActs h tru then { s := s }
  else
    let a := srcS h f.a.toNat
    match ctlTrap word a with
    | some t => trapFx s t.1 tru t.2
    | none => if ctlFenced h.g h.iss.lanes then wantFx (.fence h.iss.lanes) s else { s := onGang h (putS h f.d.toNat (ctlRead s false a.toNat)) s }
/-- CSRR.ctl (R409). -/
def execCsrrCtl (g : Guard) (f : FmtS) (s : State) : Host.Outcome State Fault Refusal :=
  runWord (.csrrCtl g f) g (csrrCtlBody (wordOf (.csrrCtl g f)) f) s
/-- CSRW.ctl (R409): a non-idempotent effect (R395). -/
def csrwCtlBody (word : W64) (f : FmtS) (h : Here) (tru : LaneMask) (s : State) : Fx :=
  if !gangActs h tru then { s := s }
  else
    let a := srcS h f.d.toNat
    match ctlTrap word a with
    | some t => trapFx s t.1 tru t.2
    | none =>
      if ctlFenced h.g h.iss.lanes then wantFx (.fence h.iss.lanes) s
      else { s := markEffect h.iss.wg (ctlWrite s false a.toNat (srcS h f.a.toNat)) }
/-- CSRW.ctl (R409). -/
def execCsrwCtl (g : Guard) (f : FmtS) (s : State) : Host.Outcome State Fault Refusal :=
  runWord (.csrwCtl g f) g (csrwCtlBody (wordOf (.csrwCtl g f)) f) s

/-! TRAP, BKPT, HALTG, RETT and TIMEW (R410 to R412). -/

/-- TRAP (R410). -/
def execTrap (g : Guard) (f : FmtS) (s : State) : Host.Outcome State Fault Refusal :=
  runWord (.trap g f) g (fun _ tru s => trapFx s (.software (f.imm.setWidth 6)) tru (f.imm.zeroExtend 64)) s
/-- BKPT: the lanes park at next (R398, R410). -/
def bkptBody (f : FmtS) (h : Here) (tru : LaneMask) (s : State) : Fx :=
  if tru = 0#32 then { s := s }
  else
    let p := nextPc h
    { s := takeTrapV h.iss.tvec s h.iss.wg h.iss.gang p.1 p.2 (trapAll .breakpoint tru (f.imm.zeroExtend 64)), gone := tru }
/-- BKPT (R410). -/
def execBkpt (g : Guard) (f : FmtS) (s : State) : Host.Outcome State Fault Refusal := runWord (.bkpt g f) g (bkptBody f) s

/-- Where each halted lane of the gang parks: those of the issue at next, the others at their own resume points. -/
def haltPoint (h : Here) (n : Nat) : W64 × Option W64 :=
  if h.iss.lanes.getLsbD n then nextPc h else ((laneOf h.g n).pc, (laneOf h.g n).cbase)
/-- The quad of an issue, for the order of issues that end in one cycle (R202, R230); 0 for a ganged one. -/
def quadOrder (i : Issue) : Nat := i.quad.getD 0
/-- HALTG (R410): the gang's lanes park, one record for each PC; blocked lanes park when released. The issues that end with it make their writes in
ascending quad order, its own among them (R202, R230). -/
def haltgBody (f : FmtS) (h : Here) (tru : LaneMask) (s : State) : Fx :=
  if tru = 0#32 then { s := s }
  else
    let live := lanesIn h.g fun st => isLive st && !isBlocked st
    let blocked := lanesIn h.g isBlocked
    let ended := endedBy h.iss.wg h.iss.gang live s
    let later (i : Issue) : Bool := quadOrder h.iss < quadOrder i
    let s := applyEnds h.iss.wg h.iss.gang (ended.filter fun i => !later i) (dropLanes h.iss.wg h.iss.gang live s)
    let s := updLanes h blocked (fun _ l => { l with halt := some f.imm }) s
    let ns := bitsOf live
    let leads := ns.filter fun n => !ns.any fun k => k < n && (haltPoint h k).1 == (haltPoint h n).1
    let s := leads.foldl (fun s n =>
      let p := haltPoint h n
      let m := live &&& maskOf fun k => (haltPoint h k).1 == p.1
      takeTrapV h.iss.tvec s h.iss.wg h.iss.gang p.1 p.2 (trapAll .gangHalt m (f.imm.zeroExtend 64))) s
    { s := updLanes h live (fun n l => { l with cbase := (haltPoint h n).2 }) s, gone := h.iss.lanes
      jops := (ended.filter later).flatMap fun i => i.jops, fops := (ended.filter later).flatMap fun i => i.fops }
/-- HALTG (R410). -/
def execHaltg (g : Guard) (f : FmtS) (s : State) : Host.Outcome State Fault Refusal := runWord (.haltg g f) g (haltgBody f) s

/-- RETT and RETT.skip (R411). -/
def rettBody (f : FmtS) (h : Here) (tru : LaneMask) (s : State) : Fx :=
  let now := s.cycle
  { s := updLanes h tru (fun _ l => { returnFromTrap s h.w (f.imm.getLsbD 0) l with since := now }) s, gone := tru }
/-- RETT (R411). -/
def execRett (g : Guard) (f : FmtS) (s : State) : Host.Outcome State Fault Refusal := runWord (.rett g f) g (rettBody f) s
/-- TIMEW: the lanes stay blocked until the instant; a past one lets them go on (R412), but for a lane that a HALTG had found blocked here before a
save: it parks as its block releases it (R410). -/
def timewBody (f : FmtS) (h : Here) (tru : LaneMask) (s : State) : Fx :=
  let t := srcS h f.a.toNat
  let halted := maskOf fun n => tru.getLsbD n && (laneOf h.g n).halt.isSome
  if s.time1588.toNat < t.toNat then { s := blockLanes h tru (.time t) s, gone := tru }
  else if halted = 0#32 then { s := s }
  else { s := releaseLanes (blockLanes h halted (.time t) s) h.iss.wg h.iss.gang halted, gone := halted }
/-- TIMEW (R412). -/
def execTimew (g : Guard) (f : FmtS) (s : State) : Host.Outcome State Fault Refusal := runWord (.timew g f) g (timewBody f) s

end Sys2Proof.Machine
end

