-- ==== Sys2Proof/Machine/Life.lean ====
section
/-! DEFINITION. How a workgroup leaves: its own end, its termination and its flush, and what it gives back (R70, R86 to R88, R204, R305, R356,
R357, R396, R400, R436). -/

namespace Sys2Proof.Machine

/-- When the context's last workgroup has left a core, the values left in that core's supply return (R70). -/
def coreLeft (s : State) (core ctx : Nat) : State :=
  if s.wgs.any fun w => w.ctx == ctx && coreOf w == some core then s
  else match (ctxOf s ctx).supplies.find? fun x => x.1 == core with
    | some x =>
      updCtx (x.2.foldl (fun s v => setTicket s ctx v false) s) ctx fun c => { c with supplies := c.supplies.filter fun y => y.1 != core }
    | none => s
/-- The bolt slots of a skein are free again (R403). -/
def freeSlots (s : State) (ctx : Nat) (slots : List Nat) : State :=
  updCtx s ctx fun c => { c with slotsUsed := c.slotsUsed.filter fun x => !slots.contains x }
/-- The slots a saved skein holds. -/
def skeinSlots (k : Skein) : List Nat := match k.st with
  | .saved _ slots => slots
  | _ => []
/-- The issues, waits and continuations of a workgroup leave with it. -/
def dropIssues (s : State) (tag : Nat) : State :=
  { s with issues := s.issues.filter fun i => i.wg != tag
           deferred := s.deferred.filter fun d => d.wg != tag
           rqWaits := s.rqWaits.filter fun r => r.wg != tag
           cont := s.cont.filter fun c => c.wg != tag }
/-- A workgroup is gone: its core is free, its launch, parent or image learns of it, and its skein ends with its last workgroup; a child stays,
ended, until its end reaches the parent (R204, R356, R390, R424). -/
def freeWg (s : State) (tag : Nat) (bad : Bool) : State :=
  match findWg s tag with
  | none => s
  | some w =>
    let s := dropIssues s tag
    let s := match w.kind with
      | .child _ _ => dropImage (updWg s tag fun w => { w with st := .ended }) w.image
      | .handler => dropImage { s with wgs := s.wgs.filter fun x => x.tag != tag } w.image
      | .grid l _ => updLaunch { s with wgs := s.wgs.filter fun x => x.tag != tag } l fun x =>
          { x with endedWgs := x.endedWgs + 1, badWgs := x.badWgs + bad.toNat }
    let s := match coreOf w with
      | some c => coreLeft s c w.ctx
      | none => s
    let s := updSkein s w.skein fun k => { k with wgs := k.wgs.filter fun t => t != tag }
    let s := refreshOwn s
    match findSkein s w.skein with
    | some k =>
      if k.wgs.isEmpty && !s.wgs.any (fun x => x.skein == k.id) then
        { freeSlots s w.ctx (skeinSlots k) with skeins := s.skeins.filter fun x => x.id != k.id }
      else s
    | none => s

/-- The grants a workgroup's gangs took (R436). -/
def grantsOf (s : State) (tag : Nat) : List Grant := s.grants.filter fun g => match g.taker with
  | .gang wg _ _ _ _ _ => wg == tag
  | _ => false
/-- The requests of a workgroup. -/
def reqsOf (s : State) (tag : Nat) : List Req := s.reqs.filter fun r => (takerTag r.taker).1 == tag && r.ctx != 0xFFFF && match r.taker with
  | .gang _ _ _ _ _ _ => true
  | _ => false
/-- Every hank of a workgroup with its range. -/
def hanksOf (w : Wg) : List Hank := (w.gangs.flatMap fun g => g.h) ++ w.w
/-- The lines of a hank's range in a core are invalid (R81). -/
def dropHankLines (core : Nat) (s : State) (ctx : Nat) (k : Hank) : State :=
  (hankExtents s ctx k).foldl (fun s (x : Nat × Nat) => l1Drop s core x.1 x.2) s
/-- The X hanks' ranges of a workgroup as extents (R88). -/
def xExtents (s : State) (w : Wg) : List (Nat × Nat) :=
  ((hanksOf w).filter fun k => k.kind == 1#2 && !k.pending).flatMap fun k => hankExtents s w.ctx k
/-- The write-back of R88: the dirty sectors in its X hanks go home, and the lines are invalid. -/
def writeBackAll (s : State) (w : Wg) : State :=
  match coreOf w with
  | some core => (xExtents s w).foldl (fun s (x : Nat × Nat) => l1Drop (writeBack s core x.1 x.2) core x.1 x.2) s
  | none => s
/-- A grant is released as if by HRET of its whole (R87): its runs' returns go out, and with none left the ticket is free at once. -/
def releaseGrant (s : State) (w : Wg) (g : Grant) : State :=
  let runs := g.runs.filter fun run => (entryOf s g.ctx g.kind run).isSome
  if runs.isEmpty then dropGrant s g
  else if s.rets.any fun r => r.ctx == g.ctx && r.ticket == g.ticket && !r.runs.isEmpty then s
  else
    let r : RetOp := { wg := w.tag, gang := 0, lanes := 0#32, ctx := g.ctx, ticket := g.ticket, kind := g.kind,
                       extents := g.runs.map (fun (run : Run) => (run.pbase * 256, run.grains * 256)), vlo := g.vbase * 256, vbytes := g.grains * 256,
                       runs := runs, seq := s.seq }
    sendReturn s r

/-- Accesses of a gang that the end of its workgroup waits for: its buffer, its write-backs and its atomics (R203, R204). -/
def drained (g : Gang) : Bool :=
  g.unacked == 0 && !g.pend.any fun a => isEntry a.kind || a.kind == .stsp || a.kind == .atom || a.kind == .cas || a.kind == .clean || a.kind == .posted
/-- A workgroup's end may complete: every gang has exited, its commands and children have ended and its buffers are empty (R204, R357). -/
def mayEnd (s : State) (w : Wg) : Bool :=
  (coreOf w).isSome && (List.range w.ngangs).all (gangExited w) && w.mq.isEmpty && w.gangs.all drained
    && !s.eng.any (fun c => c.wg == w.tag) && !s.xfers.any (fun x => x.wg == w.tag)
    && !s.colls.any (fun c => c.wg == w.tag && c.code == 1) && !(List.range 16).any (childRuns w)
    && !s.rets.any (fun r => r.wg == w.tag && !r.sent)
    && !s.reqs.any fun r => match r.taker with
      | .gang wg _ _ _ _ _ => wg == w.tag
      | _ => false
/-- WORKGROUP_END (R204): the write-back of R88 and the returns of its grants; once their homes have acknowledged, the core's resources are
free. -/
def execWorkgroupEnd (wg : Nat) (s : State) : Host.Outcome State Fault Refusal :=
  match findWg s wg with
  | none => .fault .notEnabled
  | some w =>
    let going (g : Grant) : Bool := s.rets.any fun r => r.ctx == g.ctx && r.ticket == g.ticket && !r.runs.isEmpty
    if !mayEnd (tryReturns s) w then .fault .notEnabled
    else
      let s := writeBackAll (tryReturns s) w
      if (grantsOf s wg).isEmpty then .next (freeWg { s with colls := s.colls.filter fun c => c.wg != wg } wg false)
      else if (grantsOf s wg).all going then .fault .notEnabled
      else .next ((grantsOf s wg).foldl (fun s g => releaseGrant s w g) s)

/-- What a workgroup had in flight is discarded: its commands, transfers and returns not yet sent (R305, R400). Commands of a bolt take the places
that come free (R346). -/
def dropCommands (s : State) (tag : Nat) : State :=
  reissue { s with eng := s.eng.filter fun c => c.wg != tag
                   xfers := s.xfers.filter fun x => x.wg != tag
                   colls := s.colls.filter fun c => c.wg != tag
                   rets := s.rets.filter fun r => r.wg != tag || r.sent }
/-- The dirty lines of a workgroup's X hanks in its core are discarded. -/
def dropDirty (s : State) (w : Wg) : State :=
  match coreOf w with
  | some core => (xExtents s w).foldl (fun s (x : Nat × Nat) => l1Drop s core x.1 x.2) s
  | none => s
/-- R436 for one workgroup: its grants are released without write-back and its waiting requests removed; returns on their way complete. -/
def loseAll (s : State) (w : Wg) : State :=
  let s := (reqsOf s w.tag).foldl dropReq s
  let going (g : Grant) : Bool := s.rets.any fun r => r.sent && r.ctx == g.ctx && r.ticket == g.ticket
  dropDirty (((grantsOf s w.tag).filter fun g => !going g).foldl loseGrant s) w
/-- Children that have not been placed leave with their parent. -/
def dropChildReqs (s : State) (tag : Nat) : State :=
  let mine := s.childReqs.filter fun c => c.parent == tag
  mine.foldl (fun s c => dropImage s c.image) { s with childReqs := s.childReqs.filter fun c => c.parent != tag }
/-- A workgroup is terminated (R400): its children first, then its commands, grants and requests; its open records need no answer. -/
def terminate : Nat → State → Nat → Bool → Nat → State
  | 0, s, _, _, _ => s
  | f + 1, s, tag, kill, record =>
    match findWg s tag with
    | none => s
    | some w =>
      let kids := s.wgs.filter fun x => match x.kind with
        | .child p _ => p == tag
        | _ => false
      let s := kids.foldl (fun s k =>
        let s := if k.st == .ended then s else terminate f s k.tag true 0
        let s := match findWg s k.tag with
          | some k => (bitsOf k.lent).foldl (fun s i => returnLent s k tag true i) s
          | none => s
        { s with wgs := s.wgs.filter fun x => x.tag != k.tag }) s
      let s := loseAll (dropCommands (dropChildReqs s tag) tag) ((findWg s tag).getD w)
      let s := closeRecords s tag
      let s := updWg s tag fun w => { w with faulted := !kill, killed := kill, record := record, mq := [] }
      freeWg s tag true
/-- A workgroup is terminated with all its descendants. -/
def terminateWg (s : State) (tag : Nat) (kill : Bool) (record : Nat) : State := terminate (s.wgs.length + 1) s tag kill record

end Sys2Proof.Machine
end

