-- ==== Sys2Proof/Machine/Issue.lean ====
section
/-! DEFINITION. What issues, when, and how a clause starts (R38 to R43, R48 to R52, R63, R148 to R163, R206, R393, R412). -/

namespace Sys2Proof.Machine

/-- A unit that a port may choose: a ganged gang, or a quad's PC group (R393). -/
structure IssueUnit where
  wg : Nat
  gang : Nat
  quad : Option Nat
  lanes : LaneMask
  pri : Nat
  since : Nat
  slot : Nat
  deriving DecidableEq, Repr

/-- The quads of a gang with an issue in flight (R40). -/
def quadsBusy (s : State) (tag gang : Nat) : BitVec 8 :=
  (s.issues.filter fun i => i.wg == tag && i.gang == gang).foldl (fun m i => match i.quad with
    | some q => m ||| (1#8 <<< q)
    | none => 0xFF#8) 0#8
/-- The lanes of a gang that have neither exited nor parked. -/
def liveLanes (g : Gang) : LaneMask := lanesIn g isLive
/-- All lanes of a set stand at one place. -/
def oneKey (g : Gang) (m : LaneMask) : Bool := (bitsOf m).all fun n => keyOf (laneOf g n) == keyOf (laneOf g (lowest m))
/-- Every lane of the gang that has neither exited nor parked stands at one PC and may run, and none is in an issue in flight (R42). -/
def gangStands (s : State) (w : Wg) (core gang : Nat) : Bool :=
  let g := gangOf w gang
  let m := liveLanes g
  m != 0#32 && quadsBusy s w.tag gang == 0#8 && (bitsOf m).all (fun n => isCand s w core gang (laneOf g n)) && oneKey g m
/-- The header that governs a lane's place. -/
def headerAt (s : State) (w : Wg) (l : Lane) : Option W64 := fetch s w (l.cbase.getD l.pc)
/-- A clause that needs the whole gang, at which all 32 lanes stand though some still wait: no group of it issues yet (R63). -/
def wholeWaits (s : State) (w : Wg) (gang : Nat) (l : Lane) : Bool :=
  let g := gangOf w gang
  match headerAt s w l with
  | some x => isHeader x && hdrWhole x && quadsBusy s w.tag gang == 0#8 && (List.range 32).all fun n =>
      isLive (laneOf g n).st && !isBlocked (laneOf g n).st && isPresent w gang n && keyOf (laneOf g n) == keyOf l
  | none => false
/-- The first runnable lane of a quad at or after its pointer (R41). -/
def quadPick (s : State) (w : Wg) (core gang q : Nat) : Option Nat :=
  let g := gangOf w gang
  let ptr := (quadOf g q).ptr
  ((List.range 4).map fun k => 4 * q + (ptr + k) % 4).find? fun n =>
    !wholeWaits s w gang (laneOf g n) && mayRun s w core gang 0#32 n
/-- The earliest cycle at which a lane of a unit became runnable. -/
def sinceOf (g : Gang) (m : LaneMask) : Nat := ((bitsOf m).map fun n => (laneOf g n).since).foldl min (2 ^ 64)
/-- The units of a gang: the gang whole where all its lanes are runnable at one place, else each quad that has a runnable group (R41, R42, R163). -/
def unitsOf (s : State) (w : Wg) (core gang : Nat) : List IssueUnit :=
  let g := gangOf w gang
  let mk (quad : Option Nat) (m : LaneMask) : IssueUnit := ⟨w.tag, gang, quad, m, effPri s w, sinceOf g m, tget 0 w.slots gang⟩
  if gangStands s w core gang && groupReady s w core gang none (liveLanes g) then [mk none (liveLanes g)]
  else
    (List.range 8).filterMap fun q =>
      if (quadsBusy s w.tag gang).getLsbD q then none
      else (quadPick s w core gang q).map fun n => mk (some q) (groupOf s w core gang q n)
/-- Issue has stopped in a skein that is being saved (R404). -/
def stopped (s : State) (w : Wg) : Bool := match findSkein s w.skein with
  | some k => (match k.st with
    | .saving _ _ => true
    | _ => false)
  | none => false
/-- The units that a port of a core may choose from (R393). -/
def portUnits (s : State) (core port : Nat) : List IssueUnit :=
  (s.wgs.filter fun w => coreOf w == some core && !stopped s w).flatMap fun w =>
    (List.range w.ngangs).flatMap fun g => if tget 0 w.slots g % 4 = port then unitsOf s w core g else []
/-- The issues in flight on a port. -/
def portBusy (s : State) (core port : Nat) : List Issue :=
  s.issues.filter fun i => match findWg s i.wg with
    | some w => coreOf w == some core && tget 0 w.slots i.gang % 4 == port
    | none => false
/-- A unit stands before another: its place in an order of keys. -/
def unitLe (a b : IssueUnit) : Bool :=
  a.since < b.since || (a.since == b.since && (a.slot < b.slot || (a.slot == b.slot && a.quad.getD 0 ≤ b.quad.getD 0)))
/-- The least unit. -/
def unitMin (xs : List IssueUnit) : Option IssueUnit := (sortBy unitLe xs).head?
/-- A unit goes on for the lanes that a port owes a continuation (R154; log entry 108). -/
def ofCont (u : IssueUnit) (c : Cont) : Bool := u.wg == c.wg && u.gang == c.gang && (u.lanes &&& c.lanes) != 0#32
/-- The continuation that a port owes (R154). -/
def owedUnit (s : State) (core port : Nat) (us : List IssueUnit) : Option IssueUnit :=
  match s.cont.find? fun c => c.core == core && c.port == port with
  | some c => unitMin (us.filter fun u => ofCont u c)
  | none => none
/-- The choice of R393. -/
def chooseUnit (s : State) (core port : Nat) (us : List IssueUnit) : Option IssueUnit :=
  match unitMin (us.filter fun u => u.since + 896 ≤ s.cycle) with
  | some u => some u
  | none => match owedUnit s core port us with
    | some u => some u
    | none =>
      let top := (us.map fun u => u.pri).foldl max 0
      unitMin (us.filter fun u => u.pri == top)

/-- The round-robin pointers after a unit has been taken (R41, R42). -/
def stepPtr (m : LaneMask) (g : Gang) : Gang :=
  { g with quads := (List.range 8).map fun q =>
      let mine := m &&& (0xF#32 <<< (4 * q))
      if mine == 0#32 then quadOf g q else { quadOf g q with ptr := (lowest mine + 1) % 4 } }
/-- The pointer of a quad issue: one past the lane picked. -/
def pickPtr (q n : Nat) (g : Gang) : Gang :=
  { g with quads := tset {} g.quads q { quadOf g q with ptr := (n + 1) % 4 } }
/-- The unit becomes an issue in flight whose clause has yet to start; its lanes have been issued in this cycle (R393). -/
def takeUnit (s : State) (core port : Nat) (u : IssueUnit) : State :=
  match findWg s u.wg with
  | none => s
  | some w =>
    let l := laneOf (gangOf w u.gang) (lowest u.lanes)
    let i : Issue := { wg := u.wg, gang := u.gang, quad := u.quad, lanes := u.lanes, base := l.cbase.getD l.pc, at_ := l.pc, last := l.pc,
                       started := false, tvec := w.trapvec }
    let now := s.cycle
    let s := updGang s u.wg u.gang fun g =>
      let g := mapLanes u.lanes (fun _ l => { l with st := .ready, since := now }) g
      match u.quad with
      | none => stepPtr u.lanes g
      | some q => match quadPick s w core u.gang q with
        | some n => pickPtr q n g
        | none => g
    { s with issues := i :: s.issues, cont := s.cont.filter fun c => !(c.core == core && c.port == port) || ofCont u c }
/-- The port has placed a slot in this cycle, or an FP64 word still takes it (R438). -/
def portTaken (s : State) (core port : Nat) : Bool := s.turns.any fun t => t.core == core && t.port == port && t.left != 0
/-- PORT_ISSUE_CHOICE (R393): a free port with no issue in flight chooses among its units; while the quad issues of a gang that it has taken
have yet to start, it may take another quad of that gang with them (R43, R438). -/
def execPortIssueChoice (core port : Nat) (s : State) : Host.Outcome State Fault Refusal :=
  let us := match portBusy s core port with
    | [] => portUnits s core port
    | i :: is =>
      if (i :: is).any fun x => x.started then []
      else (portUnits s core port).filter fun u => u.wg == i.wg && u.gang == i.gang && u.quad.isSome
  match (if portTaken s core port then none else chooseUnit s core port us) with
  | some u => .next (takeUnit s core port u)
  | none => .fault .notEnabled

/-! The start of a clause (R148, R151, R152, R156 to R159, R163). -/

/-- What is wrong with one word of a clause before it runs: the first failing check of R159. -/
def wordTrap (hdr x : W64) (last : Bool) : Option Trap :=
  if isHeader x then some .headerClass
  else match decodeOp x with
    | none => some .illegalOpcode
    | some i =>
      if classOfOp (fld x 56 8) != classOfBits (hdrClass hdr) || (isControl i && !last) then some .headerClass
      else if !wellFormed i then some .reservedField
      else none
/-- The first failing word of a clause: its address, trap and INFO. -/
def clauseTrap (s : State) (w : Wg) (base hdr : W64) : Option (W64 × Trap × W64) :=
  let n := hdrCount hdr + 1
  ((List.range n).filterMap fun i =>
    let a := base + 8#64 * BitVec.ofNat 64 (i + 1)
    match fetch s w a with
    | none => some (a, Trap.fetchFault, a)
    | some x => (wordTrap hdr x (i + 1 == n)).map fun t => (a, t, x)).head?
/-- The lanes of the head issue take one trap, and the issue ends with what it has done. -/
def dropHead (s : State) (i : Issue) (pc : W64) (base : Option W64) (t : Trap) (m : LaneMask) (info : W64) : State :=
  takeTrap (setHead (updGang s i.wg i.gang (endWrites i.jops i.fops)) none) i.wg i.gang pc base (trapAll t m info)
/-- The lanes of a gang in issues in flight that have started. -/
def startedLanes (s : State) (tag gang : Nat) : LaneMask :=
  (s.issues.filter fun i => i.wg == tag && i.gang == gang && i.started).foldl (fun m i => m ||| i.lanes) 0#32
/-- The lanes of the gang that stand where the issue stands (R63). -/
def standing (s : State) (w : Wg) (i : Issue) (key : W64 × Option W64) : LaneMask :=
  let g := gangOf w i.gang
  i.lanes ||| ((maskOf fun n => isCand s w ((coreOf w).getD 0) i.gang (laneOf g n) && keyOf (laneOf g n) == key) &&& ~~~startedLanes s i.wg i.gang)
/-- The header of the head issue is good, its slots hold: the checks of the whole clause, then its first word stands next. A clause that
fails a check of its header's registers or of its words takes that trap before the one for a gang that is not whole (log entry 109); the rest of a
clause that was resumed is not checked so again (log entry 127). -/
def startClause (s : State) (w : Wg) (i : Issue) (fresh : Bool) (hdr : W64) : State :=
  let g := gangOf w i.gang
  let key := (i.at_, if fresh then none else some i.base)
  if fresh && headerQuota s g hdr then dropHead s i i.at_ none .quota i.lanes hdr
  else match (if fresh then clauseTrap s w i.base hdr else none) with
    | some (a, t, x) => dropHead s i a (some i.base) t i.lanes x
    | none =>
      if hdrWhole hdr && !(i.quad.isNone && i.lanes == 0xFFFFFFFF#32 && presentMask w i.gang == 0xFFFFFFFF#32) then
        let m := standing s w i key
        dropHead (leaveIssues i.wg i.gang m s) i key.1 key.2 .illegalConvergence m ((fetch s w i.at_).getD hdr)
      else
        let at_ := if fresh then i.base + 8#64 else i.at_
        let lim := 16 * clauseQuota s g
        let s := updGang s i.wg i.gang (mapLanes i.lanes fun _ l =>
          { l with pc := at_, cbase := some i.base, climit := if fresh then lim else l.climit })
        let i : Issue := { i with at_ := at_, first := at_, last := clauseLast i.base hdr, started := true, tvec := w.trapvec, began := g.lanes }
        setHead s (some i)
/-- CLAUSE_START (R148, R151 to R153, R158, R159, R431): the head issue's poisoned lanes trap first, then the checks of its header. -/
def execClauseStart (s : State) : Host.Outcome State Fault Refusal :=
  match s.issues with
  | [] => .fault .notEnabled
  | i :: _ => match findWg s i.wg with
    | none => .fault .notEnabled
    | some w =>
      if i.started then .fault .notEnabled
      else
        let g := gangOf w i.gang
        let fresh := (laneOf g (lowest i.lanes)).cbase.isNone
        let base := if fresh then none else some i.base
        let bad := (bitsOf i.lanes).filter fun n => (laneOf g n).poison.isSome
        if !bad.isEmpty then
          let t : TrapOf := ⟨.hankRevoked, bad.map fun n => (n, ((laneOf g n).poison).getD 0#64)⟩
          let s := updGang s i.wg i.gang (mapLanes (trapMask t) fun _ l => { l with poison := none })
          let left := i.lanes &&& ~~~trapMask t
          .next (takeTrap (setHead s (if left == 0#32 then none else some { i with lanes := left })) i.wg i.gang i.at_ base t)
        else if i.at_.toNat % 8 ≠ 0 then .next (dropHead s i i.at_ base .alignment i.lanes i.at_)
        else match fetch s w i.base with
          | none => .next (dropHead s i i.at_ base .fetchFault i.lanes i.at_)
          | some hdr =>
            if !isHeader hdr then .next (dropHead s i i.at_ base .headerClass i.lanes hdr)
            else match (if fresh then headerTrap w hdr else none) with
              | some t => .next (dropHead s i i.at_ none t i.lanes hdr)
              | none =>
                if fresh && !slotsHold s w i.gang i.lanes hdr then .next (setHead s none)
                else .next (startClause s w i fresh hdr)

/-- The next word of the head issue: the instruction it is, or the state after the trap it raises where it can no longer be read as one. -/
def nextWord (s : State) : Except State Instr :=
  match s.issues with
  | [] => .error s
  | i :: _ => match findWg s i.wg with
    | none => .error (setHead s none)
    | some w => match fetch s w i.at_ with
      | none => .error (dropHead s i i.at_ (some i.base) .fetchFault i.lanes i.at_)
      | some x => match decode x with
        | .ok j => .ok j
        | .error .header => .error (dropHead s i i.at_ (some i.base) .headerClass i.lanes x)
        | .error .illegalOpcode => .error (dropHead s i i.at_ (some i.base) .illegalOpcode i.lanes x)
        | .error .reservedField => .error (dropHead s i i.at_ (some i.base) .reservedField i.lanes x)

/-! Releases. -/

/-- The site a lane is blocked at: REJOIN's address and mask register (R48). -/
def siteOf (l : Lane) : Option (W64 × Nat) := match l.st with
  | .blocked (.rejoin a j) => some (a, j)
  | _ => none
/-- A mask bit does not hold a site: its lane is blocked, parked, exited or absent (R48, R51). -/
def satisfied (st : LaneSt) : Bool := match st with
  | .absent => true
  | .blocked _ => true
  | .parked => true
  | .exited => true
  | _ => false
/-- The lanes of a gang whose sites are satisfied (R48). -/
def rejoined (g : Gang) : LaneMask :=
  maskOf fun n => match siteOf (laneOf g n) with
    | some (_, j) => (bitsOf (tget 0#32 g.j j)).all fun k => satisfied (laneOf g k).st
    | none => false
/-- REJOIN_RELEASE (R48, R51, R202): as a cycle begins, every satisfied site of the gang releases its lanes at once. -/
def execRejoinRelease (wg gang : Nat) (s : State) : Host.Outcome State Fault Refusal :=
  match findWg s wg with
  | none => .fault .notEnabled
  | some w =>
    let m := rejoined (gangOf w gang)
    if !s.dawn || (coreOf w).isNone || m == 0#32 then .fault .notEnabled else .next (releaseLanes s wg gang m)
/-- Some site of a gang that is resident is satisfied. -/
def someRejoined (s : State) : Bool :=
  s.wgs.any fun w => (coreOf w).isSome && (List.range w.ngangs).any fun g => rejoined (gangOf w g) != 0#32
/-- The lanes whose YIELD delay has passed. -/
def yielded (now : Nat) (g : Gang) : LaneMask := maskOf fun n => match (laneOf g n).st with
  | .waiting (.cycles t) => t ≤ now
  | _ => false
/-- YIELD_EXPIRY (R206). -/
def execYieldExpiry (wg gang : Nat) (s : State) : Host.Outcome State Fault Refusal :=
  match findWg s wg with
  | none => .fault .notEnabled
  | some w =>
    let m := yielded s.cycle (gangOf w gang)
    let now := s.cycle
    if (coreOf w).isNone || m == 0#32 then .fault .notEnabled
    else .next (updGang s wg gang (mapLanes m fun _ l => { l with st := .ready, since := now }))
/-- The lanes whose instant has come. -/
def timed (now : W64) (g : Gang) : LaneMask := maskOf fun n => match (laneOf g n).st with
  | .blocked (.time t) => t.toNat ≤ now.toNat
  | _ => false
/-- TIMEW_RELEASE (R412). -/
def execTimewRelease (wg gang : Nat) (s : State) : Host.Outcome State Fault Refusal :=
  match findWg s wg with
  | none => .fault .notEnabled
  | some w =>
    let m := timed s.time1588 (gangOf w gang)
    if (coreOf w).isNone || m == 0#32 then .fault .notEnabled else .next (releaseLanes s wg gang m)

end Sys2Proof.Machine
end

