-- ==== Sys2Proof/Machine/EvMem.lean ====
section
/-! DEFINITION. The steps in which pending accesses perform and fill their registers (R99 to R114, R161, R249 to R253, R431). -/

namespace Sys2Proof.Machine

/-! Filling registers. -/

/-- A result extended to the bytes its destination takes (R167, R247, R250). -/
def extended (sx : Bool) (bytes full : Nat) (data : List Byte) : Nat :=
  if sx then (sextN (8 * bytes) (leNat data) % 2 ^ (8 * full)).toNat else leNat data
/-- Another element of the same destination is still out (R246). -/
def moreToCome (g : Gang) (a : Access) : Bool := a.span.2 != 0 && g.pend.any fun b => b.grp == a.grp && b.seq != a.seq && b.span == a.span
/-- The values of an access written in its destination, in the lanes that have not exited (R161, R203). -/
def fillVals (a : Access) (vals : List (Nat × List Byte)) (g : Gang) : Gang :=
  match a.dst with
  | .none_ => g
  | .pred d => vals.foldl (fun g (x : Nat × List Byte) => mapLanes (notExited g (only x.1)) (fun _ l => pput l d (leNat x.2 != 0)) g) g
  | .scal d n quads =>
    match vals with
    | [] => g
    | x :: _ =>
      let v := extended a.sx a.bytes a.full x.2
      (List.range n).foldl (fun g i => mapQuads quads (fun q => sput q (d + i) (BitVec.ofNat 64 (v / 2 ^ (64 * i)))) g) g
  | .vec d n => vals.foldl (fun g (x : Nat × List Byte) =>
      mapLanes (notExited g (only x.1)) (fun _ l => vputs l d n (extended a.sx a.bytes a.full x.2)) g) g
/-- The F/E bits of registers of a vector destination of several elements, or of a scalar one. -/
def spanFull (a : Access) (full : Bool) (g : Gang) : Gang :=
  let bits {n : Nat} (m : BitVec n) : BitVec n := (List.range a.span.2).foldl (fun m i => putBit m (a.span.1 + i) (!full)) m
  match a.dst with
  | .vec _ _ => mapLanes (notExited g a.lanes) (fun _ l => { l with ve := bits l.ve }) g
  | .scal _ _ quads => mapQuads quads (fun q => { q with se := bits q.se }) g
  | _ => g
/-- The destination of an access written: it turns full with its last element (R161, R246). -/
def fillDst (a : Access) (vals : List (Nat × List Byte)) (g : Gang) : Gang :=
  if a.span.2 = 0 then fillVals a vals g else spanFull a (!moreToCome g a) (fillVals a vals g)
/-- Lanes that read poison take the hank-revoked trap at their next issue (R431), but for helper lanes, whose load returns 0 and whose value
wait ends with no trap (R54). -/
def poisonLanes (w : Wg) (gang : Nat) (a : Access) (g : Gang) : Gang :=
  mapLanes (notExited g (a.lanes &&& ~~~maskOf (isHelper w gang))) (fun _ l => { l with poison := some a.va }) g
/-- The same in a state. -/
def poisonAt (s : State) (tag gang : Nat) (a : Access) : State := match findWg s tag with
  | some w => updGang s tag gang (poisonLanes w gang a)
  | none => s
/-- The result of an access arrives: its destination fills and it leaves the pending ones. -/
def deliverFill (s : State) (tag gang : Nat) (a : Access) (vals : List (Nat × List Byte)) (bad : Bool) : State :=
  let s1 := updGang s tag gang (fillDst a vals)
  let s1 := if bad then poisonAt s1 tag gang a else s1
  settle (dropPend s1 tag gang a.seq) tag gang
/-- The same value for every part of an access. -/
def partsOf (a : Access) (data : List Byte) : List (Nat × List Byte) := a.parts.map fun p => (p.lane, data)
/-- Zeros as long as an access. -/
def zeros (n : Nat) : List Byte := List.replicate n 0#8

/-! Loads and atomics in the core (R99, R114). -/

/-- The bytes a load takes from the store-buffer entry it is served from (R114). -/
def forwarded (b a : Access) : List Byte :=
  let whole := if b.kind == .store then b.data else leBytes b.bytes ((b.parts.map fun p => p.x.toNat).headD 0)
  (whole.drop (a.pa - b.pa)).take a.bytes
/-- The access goes through a hank of a kind. -/
def through (s : State) (w : Wg) (a : Access) (kind : BitVec 2) : Bool := match findGrant s w.ctx a.ticket.toNat with
  | some g => g.kind == kind
  | none => false
/-- A load reads at the core: from L1, or by a fill from the home that L1 keeps unless its hank was returned (R14, R89, R99, R119). -/
def coreFill (s : State) (w : Wg) (core : Nat) (a : Access) (ev : Evict) : State :=
  if (l1Find s core a.pa).isSome then s
  else
    let s := if through s w a 1#2 then s else refreshRemote s a.pa a.bytes
    let hit := through s w a 2#2 && replicaHit s core a.pa
    let s := if through s w a 2#2 then replicaFill s core a.pa else s
    if a.noInstall then (if hit then s else sliceInstall s a.pa) else fillSector s core a.pa hit ev
/-- A read through the core finds no memory behind it: no load returns data of a revoked extent, one of a lost line only from a copy in L1
(R431, R432). -/
def corePoison (s : State) (core : Nat) (a : Access) : Bool := slotDead s a.pa || (poolDead s a.pa && (l1Find s core a.pa).isNone)
/-- A scratchpad store performs (R248): the words it overwrites act as their new bits say. -/
def scratchStore (s : State) (tag gang : Nat) (a : Access) : State :=
  let s := updWg s tag fun w => { w with scratch := puts0 w.scratch (a.pa - 2 ^ 60) a.data }
  settle (dropPend (serveQueues 512 (wakeCounters s tag) tag) tag gang a.seq) tag gang
/-- A write performs at the core that holds an X hank (R99): what the kernel itself writes where a transfer may land is undefined in part (R371). -/
def coreWrite (s : State) (w : Wg) (core : Nat) (a : Access) (bs : List Byte) : State :=
  let r := grantWrite s w.ctx a.ticket.toNat a.pa bs
  l1Write r.1 core a.pa r.2
/-- REGISTER_FILL (R99, R114, R161, R220, R248): the access numbered n of a gang performs where it must, and its destination fills. A load takes
its value from its lane's store-buffer entry when it may, unless it comes late. -/
def execRegisterFill (wg gang n : Nat) (how : Fill) (ev : Evict) (s : State) : Host.Outcome State Fault Refusal :=
  match findWg s wg with
  | none => .fault .notEnabled
  | some w => match coreOf w, findPend (gangOf w gang) n with
    | some core, some a =>
      let g := gangOf w gang
      match a.kind with
      | .stsp => if mayPerform core g a then .next (scratchStore s wg gang a) else .fault .notEnabled
      | .load =>
        if a.place == .scratch then
          (if mayPerform core g a then .next (deliverFill s wg gang a (partsOf a (gets0 w.scratch (a.pa - 2 ^ 60) a.bytes)) false)
          else .fault .notEnabled)
        else if how == .now && (forwarder g a).isSome && mayForward core g a then
          .next (deliverFill s wg gang a (partsOf a (forwarded ((forwarder g a).getD a) a)) false)
        else if !mayPerform core g a || planeHeld s a.pa then .fault .notEnabled
        else if corePoison s core a then .next (deliverFill s wg gang a (partsOf a (zeros a.bytes)) true)
        else
          let s := coreFill s w core a ev
          .next (deliverFill s wg gang a (partsOf a (coreBytes s core a.pa a.bytes)) false)
      | .reply => .next (deliverFill s wg gang a (a.parts.map fun p => (p.lane, p.ret)) a.poison)
      | .cross => match crossFill s.freeCtr w gang a how with
        | none => .fault .notEnabled
        | some r =>
          let s1 := updGang { s with freeCtr := s.freeCtr + 64 } wg gang fun _ => r.1
          let s1 := match r.2 with
            | none => dropPend s1 wg gang n
            | some a => updPend s1 wg gang n fun _ => a
          .next (settle s1 wg gang)
      | _ =>
        let fails := a.kind == .cas && (applyAccess a (coreBytes s core a.pa a.bytes)).1.isNone && mayFail core g a
        if !(a.kind == .atom || a.kind == .cas) || a.place != .core || !(mayPerform core g a || fails) || planeHeld s a.pa
            || returnedLoad w a.seq a.va.toNat a.bytes then
          .fault .notEnabled
        else if corePoison s core a then
          .next (deliverFill (dropWrite s a.pa) wg gang a (partsOf a (zeros a.bytes)) true)
        else
          let s := coreFill s w core { a with noInstall := false } ev
          let r := applyAccess a (coreBytes s core a.pa a.bytes)
          let s := match r.1 with
            | some bs => coreWrite s w core a bs
            | none => s
          .next (deliverFill s wg gang a ((a.parts.map fun p => p.lane).zip r.2) false)
    | _, _ => .fault .notEnabled

/-- An atomic of an issue that has not ended: it does not reach its home before (R413). -/
def uncommitted (s : State) (wg gang : Nat) (a : Access) : Bool :=
  (a.kind == .atom || a.kind == .cas || a.kind == .red) && s.issues.any fun i => i.wg == wg && i.gang == gang && i.fops.any fun o => match o with
    | .effect seq lanes => seq ≤ a.seq && (a.lanes &&& lanes) != 0#32
    | _ => false

/-! The store buffer (R114). -/

/-- Requests from one module to one address of another arrive in issue order (R363): an earlier one that is free to perform goes first. -/
def earlierSent (s : State) (n : Nat) (core : Nat) (a : Access) : Bool :=
  (moduleOf a.pa).isSome && (s.msgs.take n).any fun m => match m with
    | .memReq wg gang seq => (findWg s wg).any fun w => (findPend (gangOf w gang) seq).any fun b =>
      b.pa == a.pa && mayPerform core (gangOf w gang) b && !sentHeld s b
    | _ => false
/-- The plane of a request is not UP: its response finds no way back (R364). -/
def responseLost (s : State) (a : Access) : Bool := match a.plane with
  | some p => !isUp s p
  | none => false
/-- An entry has left the buffer: one to another module stays until its plane brings the acknowledgement (R364). -/
def leaveBuffer (s : State) (wg gang : Nat) (a : Access) : State := match moduleOf a.pa with
  | some m => updPend (keepAnswer s ⟨m, a.seq, [], poolDead s a.pa⟩) wg gang a.seq fun a => { a with kind := .posted, plane := planeOf s a.pa }
  | none => dropPend s wg gang a.seq
/-- STORE_BUFFER_DRAIN (R99, R114, R119, R363): an element of the buffer performs at its place; the entry counts as unacknowledged once its last
element has left. -/
def execStoreBufferDrain (wg gang n : Nat) (ev : Evict) (s : State) : Host.Outcome State Fault Refusal :=
  match findWg s wg with
  | none => .fault .notEnabled
  | some w => match coreOf w, findPend (gangOf w gang) n with
    | some core, some a =>
      let g := gangOf w gang
      if !isEntry a.kind || !mayPerform core g a || 1023 ≤ g.unacked || planeHeld s a.pa || uncommitted s wg gang a
          || returnedLoad w a.seq a.va.toNat a.bytes || earlierSent s s.msgs.length core a then .fault .notEnabled
      else
        let s := if a.place == .core then
            (if corePoison s core a then dropWrite s a.pa
            else
              let s := coreFill s w core { a with noInstall := false } ev
              match (applyAccess a (coreBytes s core a.pa a.bytes)).1 with
              | some bs => coreWrite s w core a bs
              | none => s)
          else
            let s := refreshRemote s a.pa a.bytes
            match (applyAccess a (homeBytes s a.pa a.bytes)).1 with
            | some bs => writeAtHome s a.pa bs
            | none => s
        let last := !g.pend.any fun b => b.grp == a.grp && b.seq != a.seq && isEntry b.kind
        let s := leaveBuffer s wg gang a
        let s := if last then updGang s wg gang (fun g => { g with unacked := g.unacked + 1 }) else s
        .next (settle s wg gang)
    | _, _ => .fault .notEnabled
/-- Atomics with return that have not performed: each counts in the counter already. -/
def atomsOut (g : Gang) : Nat := (g.pend.filter fun a => a.kind == .atom || a.kind == .cas).length
/-- Line write-backs, and atomics performed in other modules, that are not yet acknowledged, oldest first. -/
def ackMarks (g : Gang) : List Access := g.pend.filter fun a => a.kind == .clean || a.kind == .posted
/-- ACCESS_ACK (R114, R255, R364): a place acknowledges an entry, an atomic or a line write-back; over a plane that is not UP none comes. -/
def execAccessAck (wg gang : Nat) (s : State) : Host.Outcome State Fault Refusal :=
  match findWg s wg with
  | none => .fault .notEnabled
  | some w =>
    let g := gangOf w gang
    let marks := ackMarks g
    let ready := marks.filter fun a => !responseLost s a
    let others := atomsOut g + marks.length < g.unacked
    if g.unacked ≤ atomsOut g || (!others && ready.isEmpty) then .fault .notEnabled
    else
      let mark := !ready.isEmpty && (!others || Config.freeBit s.freeCtr)
      let s := { s with freeCtr := s.freeCtr + 1 }
      let s := updGang s wg gang fun g => { g with unacked := g.unacked - 1 }
      .next (settle (if mark then dropPend s wg gang ((ready.head?.map fun a => a.seq).getD 0) else s) wg gang)

/-! The memory-side ALUs (R99, R249 to R253). -/

/-- An access that a home answered: a result on its way. -/
def toReply (rets : List (List Byte)) (bad : Bool) (a : Access) : Access :=
  { a with kind := .reply, poison := bad, parts := a.parts.mapIdx fun i p => { p with ret := tget (zeros a.bytes) rets i } }
/-- One reading of a waiter's element: it goes on, or keeps or takes a watch entry where one is free (R253). -/
def readWatch (s : State) (tag gang : Nat) (a : Access) : State :=
  if poolDead s a.pa then waitvDone (poisonAt s tag gang a) tag gang a
  else if waitvHolds a (homeBytes s a.pa a.bytes) then settle (waitvDone s tag gang a) tag gang
  else if a.sent then s
  else
    let free := watchCount s (homeOf a.pa) < 1024
    updPend s tag gang a.seq fun a => { a with sent := true, watch := free }
/-- The response that the target keeps for a request sent again (R364). -/
def answerOf (s : State) (a : Access) : Option Answer :=
  (moduleOf a.pa).bind fun m => s.answers.find? fun r => r.target == m && r.tag == a.seq
/-- A request performs at its home, which answers it. What another module answers it keeps, for the case that the response is lost on a dead
plane; a request whose response was lost stays until it is sent again (R364, log 119). -/
def performAt (s : State) (wg gang : Nat) (a : Access) : State :=
  let dead := poolDead s a.pa
  let r := applyAccess a (homeBytes s a.pa a.bytes)
  let s := match r.1 with
    | some bs => writeAtHome s a.pa bs
    | none => s
  let rets := if dead then [] else r.2
  let s := match moduleOf a.pa with
    | some m => keepAnswer s ⟨m, a.seq, rets, dead⟩
    | none => s
  if responseLost s a then s else settle (updPend s wg gang a.seq (toReply rets dead)) wg gang
/-- MEMSIDE_ATOMIC (R99): the request that is the n-th message performs at its home. -/
def execMemsideAtomic (n : Nat) (s : State) : Host.Outcome State Fault Refusal :=
  match s.msgs[n]? with
  | some (.memReq wg gang seq) =>
    match findWg s wg with
    | none => .next (dropMsg s n)
    | some w => match findPend (gangOf w gang) seq with
      | none => .next (dropMsg s n)
      | some a => match coreOf w with
        | none => .fault .notEnabled
        | some core =>
          let fails := a.kind == .cas && (applyAccess a (homeBytes s a.pa a.bytes)).1.isNone && a.pa < 2 ^ 48 && mayFail core (gangOf w gang) a
          if !(mayPerform core (gangOf w gang) a || fails) || sentHeld s a || earlierSent s n core a || uncommitted s wg gang a then .fault .notEnabled
          else
            let s := refreshRemote (dropMsg s n) a.pa a.bytes
            match answerOf s a with
            | some r => .next (if responseLost s a then s else settle (updPend s wg gang seq (toReply r.rets r.bad)) wg gang)
            | none => .next (if a.kind == .waitv then readWatch s wg gang a else performAt s wg gang a)
  | _ => .fault .notEnabled
/-- The waiters without a watch entry, and those on elements of other modules, whose homes' writes no step of this module shows: workgroup, gang and
access (R253). -/
def pollers (s : State) : List (Nat × Nat × Access) :=
  (s.wgs.filter fun w => (coreOf w).isSome).flatMap fun w => (List.range w.ngangs).flatMap fun i =>
    ((gangOf w i).pend.filter fun a => a.kind == .waitv && a.sent && (!a.watch || (moduleOf a.pa).isSome)).map fun a => (w.tag, i, a)
/-- WAITV_POLL (R253): the n-th waiter without a watch entry re-reads its element, or another module's home has it read again after a write there. -/
def execWaitvPoll (n : Nat) (s : State) : Host.Outcome State Fault Refusal :=
  match (pollers s)[n]? with
  | some (wg, gang, a) => .next (readWatch (refreshRemote s a.pa a.bytes) wg gang a)
  | none => .fault .notEnabled

end Sys2Proof.Machine
end

