-- ==== Sys2Proof/Machine/EvOwn.lean ====
section
/-! DEFINITION. The messages of the ownership tables, replicas and revocations (R70, R76 to R82, R86, R90, R91, R431). -/

namespace Sys2Proof.Machine

/-- TICKET_SUPPLY_DRAW (R70): a core whose supply of a resident context has room draws one value. -/
def execTicketSupplyDraw (core ctx : Nat) (s : State) : Host.Outcome State Fault Refusal :=
  let mine := ((ctxOf s ctx).supplies.find? fun x => x.1 == core).map fun x => x.2
  if !(s.wgs.any (fun w => w.ctx == ctx && coreOf w == some core)) || 16 ≤ (mine.getD []).length then .fault .notEnabled
  else match drawTicket s ctx with
    | none => .fault .notEnabled
    | some (v, s) =>
      let add (xs : List (Nat × List Nat)) : List (Nat × List Nat) :=
        if xs.any fun x => x.1 == core then xs.map fun x => if x.1 = core then (core, x.2 ++ [v]) else x else (core, [v]) :: xs
      .next (updCtx s ctx fun c => { c with supplies := add c.supplies })

/-- A request of a killed context ends: the host's learns that it was CANCELLED (R77, R86, R428). -/
def cancelReq (s : State) (r : Req) : State :=
  let s := match r.taker with
    | .host addr _ => hostComplete s addr 0 5
    | _ => s
  let s := ringFree { s with reqs := s.reqs.filter fun q => q.id != r.id } r
  freeTicket s r.ctx r.ticket
/-- A home refuses a request, and the reply goes out (R77). -/
def refuse (s : State) (r : Req) (status : Nat) : State := { s with msgs := s.msgs ++ [.refusal r.id status] }
/-- A request that conflicts: the status in fail mode, a waiter in wait mode where the list has room (R77, R78). A queued HBORROW lets the
command ring go on (R428). -/
def conflictRun (s : State) (r : Req) (run : Run) : State :=
  if !r.wait then refuse s r 1
  else if 4096 ≤ (s.waiters.filter fun x => x.home == run.home).length then refuse s r 2
  else
    let x : Waiter := { home := run.home, req := r.id, kind := r.kind, ctx := r.ctx, wgtag := (takerTag r.taker).1, launch := takerLaunch s r.taker,
                        pbase := run.pbase, grains := run.grains }
    refreshOwn { s with waiters := s.waiters ++ [x]
                        reqs := updFirst (fun q => q.id == r.id) (fun q => { q with queued := true }) s.reqs
                        hcqHeld := if s.hcqHeld = some r.id then none else s.hcqHeld }
/-- A home grants a run, or has no free entry (R74, R77). -/
def grantOrFull (s : State) (r : Req) (run : Run) : State := match grantRun s r run with
  | some s => refreshOwn s
  | none => refuse s r 2
/-- A run of another module's memory: entries this module holds decide first, else its home answers as it will (log entry 4). -/
def remoteRequest (s0 s : State) (r : Req) (run : Run) : State :=
  let d := decideRun s r run []
  if d == .self_ then refuse s r 3
  else if d == .conflict then (if r.wait then { s0 with freeCtr := s0.freeCtr + 1 } else refuse s r 1)
  else
    let s1 := { s with freeCtr := s.freeCtr + 1 }
    match Config.freeNat s.freeCtr % 3 with
    | 0 => refreshRemote (grantOrFull s1 r run) (run.pbase * 256) (run.grains * 256)
    | 1 => if r.wait then { s0 with freeCtr := s0.freeCtr + 1 } else refuse s1 r 1
    | _ => refuse s1 r 2
/-- OWNERSHIP_REQUEST (R77, R78): the n-th message, a run's request, reaches its home. -/
def execOwnershipRequest (n : Nat) (s : State) : Host.Outcome State Fault Refusal :=
  match s.msgs[n]? with
  | some (.ownReq id) => match findReq s id with
    | none => .next (dropMsg s n)
    | some r => match r.runs[r.done]? with
      | none => .next (dropMsg s n)
      | some run =>
        let s1 := dropMsg s n
        if 8 ≤ run.home then .next (remoteRequest s s1 r run)
        else match decideRun s1 r run s1.waiters with
          | .self_ => .next (refuse s1 r 3)
          | .conflict => .next (conflictRun s1 r run)
          | .grant => .next (grantOrFull s1 r run)
  | _ => .fault .notEnabled
/-- RUN_GRANT (R76): the n-th message, a grant, reaches the requester: its next run goes out, or the borrow stands. -/
def execRunGrant (n : Nat) (s : State) : Host.Outcome State Fault Refusal :=
  match s.msgs[n]? with
  | some (.runGrant id) => match findReq s id with
    | none => .next (dropMsg s n)
    | some r =>
      let s := dropMsg s n
      if (ctxOf s r.ctx).killed then .next (cancelReq s r)
      else if r.done + 1 < r.runs.length then
        .next { s with reqs := updFirst (fun q => q.id == id) (fun q => { q with done := q.done + 1, queued := false }) s.reqs
                       msgs := s.msgs ++ [.ownReq id] }
      else .next (ringFree (finishReq s r) r)
  | _ => .fault .notEnabled
/-- OWNERSHIP_REFUSAL (R77): the reply reaches the requester, whose granted runs return. -/
def execOwnershipRefusal (n : Nat) (s : State) : Host.Outcome State Fault Refusal :=
  match s.msgs[n]? with
  | some (.refusal id status) => match findReq s id with
    | none => .next (dropMsg s n)
    | some r => .next (failReq (dropMsg s n) r status)
  | _ => .fault .notEnabled
/-- OWNERSHIP_RETURN (R77, R80, R82): a return reaches its home: an X entry shows XRET until its write-back is acknowledged; a share of an S or C
entry is given up; a run of a failed request is free at once, and its last one ends the request. -/
def execOwnershipReturn (n : Nat) (s : State) : Host.Outcome State Fault Refusal :=
  match s.msgs[n]? with
  | some (.ret ctx ticket kind run wg gang) =>
    let s := dropMsg s n
    if kind == 1#2 then
      match entryOf s ctx kind run with
      | some e =>
        .next { s with own := updFirst (fun x => x == e) (fun x => { x with xret := true }) s.own
                       msgs := s.msgs ++ [.wbAck ctx ticket run wg gang] }
      | none => .next (ackReturn s ctx ticket wg gang)
    else .next (ackReturn (lowerEntry s ctx kind run) ctx ticket wg gang)
  | some (.retRun id run) => match findReq s id with
    | none => .next (dropMsg s n)
    | some r => .next (runBack (dropMsg s n) r run)
  | _ => .fault .notEnabled
/-- WRITEBACK_ACK (R82): the home has every sector; the entry is free. -/
def execWritebackAck (n : Nat) (s : State) : Host.Outcome State Fault Refusal :=
  match s.msgs[n]? with
  | some (.wbAck ctx ticket run wg gang) =>
    if s.rets.any fun r => r.sent && r.ctx == ctx && r.ticket == ticket && r.planes.any fun p => !isUp s p.2 then .fault .notEnabled
    else
    let s := dropMsg s n
    let s := match entryOf s ctx 1#2 run with
      | some e => if e.xret then freeEntry s e else s
      | none => s
    .next (ackReturn s ctx ticket wg gang)
  | _ => .fault .notEnabled

/-! Replicas (R90, R91). -/

/-- A cluster leaves the set of a page. -/
def leaveSet (s : State) (page die cluster : Nat) : State :=
  { s with reps := s.reps.map fun p => if p.page = page then { p with set := p.set.filter fun c => (c.1, c.2.1) != (die, cluster) } else p }
/-- COLLAPSE_REQUEST (R91): the cluster drops the page and acknowledges. -/
def execCollapseRequest (n : Nat) (s : State) : Host.Outcome State Fault Refusal :=
  match s.msgs[n]? with
  | some (.collapseReq page seq die cluster run) =>
    let s := dropMsg s n
    .next { s with repLines := s.repLines.filter fun y => !(y.1 == 24 * die + cluster && y.2 / 65536 == page)
                   msgs := s.msgs ++ [.collapseAck page seq die cluster run] }
  | _ => .fault .notEnabled
/-- A message of the collapse of a run. -/
def ofCollapse (run : Run) : Msg → Bool
  | .collapseReq _ _ _ _ r => r == run
  | .collapseAck _ _ _ _ r => r == run
  | _ => false
/-- The collapse of a run, once every acknowledgement is in: its pages' sets are empty, COLL clears and the grant goes out (R91). -/
def endCollapse (s : State) (run : Run) : State :=
  if s.msgs.any (ofCollapse run) then s
  else
    let ps := runReplicas s run
    let s := { s with reps := s.reps.map fun p => if ps.contains p then { p with set := [] } else p }
    match s.own.find? fun e => e.coll && entryRun e == run with
    | none => s
    | some e =>
      let s := { s with own := updFirst (fun x => x == e) (fun x => { x with coll := false }) s.own }
      match s.reqs.find? fun r => r.ctx == e.ctx && r.ticket == e.ticket && r.failing.isNone with
      | some r => { s with msgs := s.msgs ++ [.runGrant r.id] }
      | none => s
/-- COLLAPSE_ACK (R91). -/
def execCollapseAck (n : Nat) (s : State) : Host.Outcome State Fault Refusal :=
  match s.msgs[n]? with
  | some (.collapseAck _ _ _ _ run) => .next (endCollapse (dropMsg s n) run)
  | _ => .fault .notEnabled
/-- REPLICA_EVICTION_NOTICE (R90): a notice with the page's current number removes the cluster; an older one is discarded. -/
def execReplicaEvictionNotice (n : Nat) (s : State) : Host.Outcome State Fault Refusal :=
  match s.msgs[n]? with
  | some (.evictNotice page seq die cluster) =>
    let s := dropMsg s n
    .next (if s.reps.any fun p => p.page == page && p.seq == seq then leaveSet s page die cluster else s)
  | _ => .fault .notEnabled

/-! Kills and revocations (R86, R431). -/

/-- The walk of one table for a context: its entries go, with the dirty lines over X ranges; its waiters leave (R86). -/
def walkTable (s : State) (home ctx : Nat) : State :=
  let mine := s.own.filter fun e => e.home == home && e.ctx == ctx && !e.xret
  let s := mine.foldl (fun s e =>
    let lo := e.pbase * 256
    let n := e.grains * 256
    let s := { s with own := s.own.erase e }
    if e.kind == 1#2 then smear (sliceDrop { s with l1 := s.l1.filter fun c => !rangesMeet c.pa 64 lo n } lo n) lo n else s) s
  let queued := (s.waiters.filter fun x => x.home == home && x.ctx == ctx).filterMap fun x => findReq s x.req
  let s := (queued ++ s.reqs.filter fun r => r.ctx == ctx && !r.queued).foldl cancelReq s
  grantWaiters { s with waiters := s.waiters.filter fun x => !(x.home == home && x.ctx == ctx) } home
/-- KILL_WALK_END (R86): a table's walk ends and it grants its waiters; with the last walk the context's grants and tickets are over. -/
def execKillWalkEnd (home ctx : Nat) (s : State) : Host.Outcome State Fault Refusal :=
  let c := ctxOf s ctx
  if !c.walks.contains home then .fault .notEnabled
  else
    let s := updCtx (walkTable s home ctx) ctx fun c => { c with walks := c.walks.erase home }
    if (ctxOf s ctx).walks.isEmpty then
      let s := (s.grants.filter fun g => g.ctx == ctx).foldl dropGrant { s with own := s.own.filter fun e => !(8 ≤ e.home && e.ctx == ctx) }
      .next (updCtx s ctx fun c => { c with killed := false })
    else .next s
/-- The hanks of a workgroup that bear a ticket become revoked (R431). -/
def revokeHanks (ticket : Nat) (w : Wg) : Wg :=
  let go (k : Hank) : Hank := if k.kind != 0#2 && k.ticket.toNat == ticket then { k with revoked := true } else k
  { w with gangs := w.gangs.map fun g => { g with h := g.h.map go }, w := w.w.map go }
/-- The value waits of a gang on a revoked hank end with the hank-revoked trap (R253); a helper lane's ends with none (R54). -/
def endWaits (tag ticket : Nat) (s : State) (gang : Nat) : State :=
  match findWg s tag with
  | none => s
  | some w =>
    let hit := (gangOf w gang).pend.filter fun a => a.kind == .waitv && a.ticket.toNat == ticket
    hit.foldl (fun s (a : Access) =>
      match findWg s tag with
      | none => s
      | some w =>
        let l := laneOf (gangOf w gang) (lowest a.lanes)
        if isHelper w gang (lowest a.lanes) then waitvDone s tag gang a
        else takeTrap (dropPend s tag gang a.seq) tag gang l.pc l.cbase (trapAll .hankRevoked a.lanes a.va)) s
/-- REVOCATION_NOTICE (R431): a core learns of a revocation; one for a saved workgroup waits for its restore. -/
def execRevocationNotice (n : Nat) (s : State) : Host.Outcome State Fault Refusal :=
  match s.msgs[n]? with
  | some (.revoke wg ctx ticket) => match findWg s wg with
    | none => .next (dropMsg s n)
    | some w =>
      if w.st == .saved then .fault .notEnabled
      else if w.ctx ≠ ctx then .next (dropMsg s n)
      else .next ((List.range 16).foldl (endWaits wg ticket) (updWg (dropMsg s n) wg (revokeHanks ticket)))
  | _ => .fault .notEnabled

end Sys2Proof.Machine
end

