-- ==== Sys2Proof/Machine/Place.lean ====
section
/-! DEFINITION. What a workgroup needs of a core, what waits for a place, the order in which the distributor serves it, and the start of a
workgroup (R33 to R37, R81, R87, R306, R354 to R357, R392, R397). -/

namespace Sys2Proof.Machine

/-! Resources (R62, R392). -/

/-- What workgroups take of a core: gangs, register units, scratchpad bytes, macros, accumulator tiles. -/
structure Need where
  gangs : Nat
  units : Nat
  scratch : Nat
  macs : Nat
  accs : Nat
  deriving DecidableEq, Repr

/-- Two needs together. -/
def needAdd (a b : Need) : Need := ⟨a.gangs + b.gangs, a.units + b.units, a.scratch + b.scratch, a.macs + b.macs, a.accs + b.accs⟩
/-- The sums that a core can hold. -/
def coreHolds (n : Need) : Bool := n.gangs ≤ 16 && n.units ≤ 256 && n.scratch ≤ 0x40000 && n.macs ≤ 16 && n.accs ≤ 32
/-- The need of a workgroup. -/
def needOf (w : Wg) : Need := ⟨w.ngangs, (w.gangs.map fun g => g.quota).foldl (· + ·) 0, w.scratchSize, w.nmacs, w.naccs⟩
/-- The need of a workgroup of a launch. -/
def launchNeed (l : Launch) : Need := ⟨cdiv l.wglanes 32, cdiv l.wglanes 32 * l.quota, l.scratch, l.nmacs, l.naccs⟩
/-- The need of a child or handler, from its descriptor. -/
def descNeed (s : State) (d : Nat) : Need := ⟨descGangs s d, descGangs s d * descQuota s d, descScratch s d, descMacs s d, descAccs s d⟩
/-- What the workgroups resident on a core take. -/
def coreUse (s : State) (core : Nat) : Need :=
  ((s.wgs.filter fun w => coreOf w == some core).map needOf).foldl needAdd ⟨0, 0, 0, 0, 0⟩
/-- Workgroups go on the cores named. -/
def fitsOn (s : State) (xs : List (Nat × Need)) : Bool :=
  xs.all fun x => x.1 < 768 && coreHolds (xs.foldl (fun n (y : Nat × Need) => if y.1 = x.1 then needAdd n y.2 else n) (coreUse s x.1))
/-- All on one cluster (R36). -/
def oneCluster (cores : List Nat) : Bool := cores.all fun c => c / 8 == cores.headD 0 / 8
/-- Workgroups go on cores of a cluster, each on the lowest with which all of them have room: their cores, when there are such. -/
def packOn (s : State) (cluster : Nat) : List Need → List (Nat × Need) → Option (List Nat)
  | [], _ => some []
  | n :: ns, done =>
    (List.range 8).findSome? fun k =>
      if fitsOn s ((8 * cluster + k, n) :: done) then
        (packOn s cluster ns ((8 * cluster + k, n) :: done)).map fun cs => (8 * cluster + k) :: cs
      else none
/-- The first cluster that has room for all of them at once: their cores. -/
def roomFor (s : State) (ns : List Need) : Option (List Nat) := (List.range 96).findSome? fun c => packOn s c ns []
/-- Some cluster has room for all of them at once. -/
def someCluster (s : State) (ns : List Need) : Bool := (roomFor s ns).isSome
/-- An empty cluster could hold n workgroups of a need (R390). -/
def everFits (n : Need) (count : Nat) : Bool :=
  let times (k : Nat) : Need := ⟨k * n.gangs, k * n.units, k * n.scratch, k * n.macs, k * n.accs⟩
  count ≤ 8 * ((List.range 17).filter fun k => 0 < k && coreHolds (times k)).length
/-- The gang slots of a core that are free, lowest first (R393). -/
def freeGangSlots (s : State) (core : Nat) : List Nat :=
  (List.range 16).filter fun k => !s.wgs.any fun w => coreOf w == some core && w.slots.contains k

/-! What waits (R392, R394, R397). -/

/-- A tenant's queues and workgroups are served now. -/
def tenantServed (s : State) (t : Nat) : Bool := !slicing s || sliceTenant s == t
/-- A context that is neither hung nor being killed. -/
def ctxRuns (s : State) (c : Nat) : Bool := !(ctxOf s c).hung && !(ctxOf s c).killed
/-- A launch by number. -/
def findLaunch (s : State) (l : Nat) : Option Launch := s.launches.find? fun x => x.id == l
/-- Workgroups of a grid, and its skeins (R36). -/
def launchTotal (l : Launch) : Nat := l.gdim.1 * l.gdim.2.1 * l.gdim.2.2
def launchSkeins (l : Launch) : Nat := cdiv (launchTotal l) (max l.skeinSize 1)
/-- Workgroups of a skein of a grid. -/
def skeinMembers (l : Launch) (n : Nat) : List Nat :=
  (List.range (min l.skeinSize (launchTotal l - n * l.skeinSize))).map (n * l.skeinSize + ·)
/-- The boost that the entries of a grid's arguments give it (R397). -/
def gridEntries (s : State) (l : Launch) : List OwnEntry := s.own.filter fun e => (sharers s e).any (isTaker none (some l.id))
def launchEff (s : State) (l : Launch) : Nat := (gridEntries s l).foldl (fun m e => max m (entryBoost s e)) l.pri
def launchBoosted (s : State) (l : Launch) : Bool := (gridEntries s l).any fun e => e.boost
/-- A launch that holds every argument and has not ended (R87). -/
def launchOpen (l : Launch) : Bool := (l.st == .borrowing || l.st == .running) && l.args.all fun a => a.ticket.isSome
/-- The skein of a launch that is placed next: the lowest flushed one first; with its place among the saved (R392, R396). -/
def nextSkeinOf (l : Launch) : Option (Nat × Option Nat) := match sortBy (fun a b => a.1 ≤ b.1) l.again with
  | (n, order) :: _ => some (n, some order)
  | [] => if l.nextSkein < launchSkeins l then some (l.nextSkein, none) else none
/-- The workgroups that live in a skein, children included (R357). -/
def skeinWgs (s : State) (k : Nat) : List Wg := s.wgs.filter fun w => w.skein == k && w.st != .ended
/-- A skein with a boosted workgroup (R397). -/
def skeinBoosted (s : State) (k : Nat) : Bool := (skeinWgs s k).any (boosted s)
/-- A saved skein that may be restored: its records are answered, and its context and slice allow it, or a boost of one of its workgroups (R397,
R399, R401). -/
def skeinReady (s : State) (k : Skein) : Bool :=
  (match k.st with
    | .saved _ _ => true
    | _ => false)
    && (k.waitFor.all fun n => s.faults.any fun r => r.no == n && r.answered)
    && (skeinWgs s k.id).all fun w => ctxRuns s w.ctx && (tenantServed s w.tenant || skeinBoosted s k.id)
/-- The effective priority of a skein: that of its workgroups. -/
def skeinPri (s : State) (k : Nat) : Nat := ((skeinWgs s k).map (effPri s)).foldl max 0
/-- The place of a saved skein in the order of saves. -/
def savedOrder (k : Skein) : Nat := match k.st with
  | .saved order _ => order
  | _ => 0

/-- Something that waits for the distributor: a saved skein, or a launch's next skein. -/
structure Waiting where
  /-- The saved skein, or the launch. -/
  skein : Option Nat
  launch : Nat
  pri : Nat
  /-- It comes before every new skein of its priority. -/
  again : Bool
  /-- Order of saves, or turn of the round robin. -/
  key : Nat
  needs : List Need
  deriving DecidableEq, Repr

/-- Saved skeins that wait. -/
def savedWaiting (s : State) : List Waiting :=
  (s.skeins.filter (skeinReady s)).map fun k => ⟨some k.id, 0, skeinPri s k.id, true, savedOrder k, (skeinWgs s k.id).map needOf⟩
/-- The next skein of a launch waits. -/
def launchWaiting (s : State) (l : Launch) : Option Waiting :=
  if launchOpen l && ctxRuns s l.ctx && (tenantServed s l.tenant || launchBoosted s l) then
    (nextSkeinOf l).map fun x =>
      ⟨none, l.id, launchEff s l, x.2.isSome, x.2.getD ((l.queue + 32768 - s.nextQueue) % 32768), (skeinMembers l x.1).map fun _ => launchNeed l⟩
  else none
/-- Everything that waits for the distributor. -/
def allWaiting (s : State) : List Waiting := savedWaiting s ++ s.launches.filterMap (launchWaiting s)
/-- The distributor serves one before another (R392, R397). -/
def servedBefore (a b : Waiting) : Bool :=
  b.pri < a.pri || (a.pri == b.pri && ((a.again && !b.again) || (a.again == b.again && a.key < b.key)))
/-- Nothing that some cluster has room for is served before it. -/
def isNext (s : State) (x : Waiting) : Bool := !(allWaiting s).any fun y => servedBefore y x && someCluster s y.needs

/-- A handler that waits may start on its core (R354). -/
def handlerFits (s : State) (x : AmWait) : Bool :=
  ctxRuns s x.ctx && tenantServed s (ctxTenant s x.ctx) && fitsOn s [(x.core, descNeed s x.desc)]
/-- A child that waits may start on a core (R357). -/
def childFits (s : State) (c : ChildReq) (core : Nat) : Bool :=
  match findWg s c.parent with
  | some p => match coreOf p with
    | some k => core / 8 == k / 8 && ctxRuns s p.ctx && (tenantServed s p.tenant || skeinBoosted s p.skein) && fitsOn s [(core, descNeed s c.desc)]
    | none => false
  | none => false
/-- Handlers and children that go ahead of the distributor on these cores (R354, R357). -/
def aheadOf (s : State) (cores : List Nat) : Bool :=
  (s.amWaits.any fun x => cores.contains x.core && handlerFits s x) || s.childReqs.any fun c => cores.any (childFits s c)

/-! The start of a workgroup (R35, R37, R81, R87, R160, R306, R354 to R356). -/

/-- A gang as it starts: its present and helper lanes at the entry (R35). -/
def freshGang (lanes gang quota now : Nat) (entry : W64) : Gang :=
  { lanes := (List.range 32).map fun n => if 32 * gang + n < 4 * cdiv lanes 4 then { pc := entry, st := .ready, since := now } else {}
    quota := quota }
/-- The hank of an argument for workgroup i (R87). -/
def argHank (a : LArg) (i : Nat) : Hank :=
  let t := a.ticket.getD 0
  if a.kind = 1#2 then
    let lo := i * a.part
    if a.grains ≤ lo then {} else freshHank (a.base + lo) (min ((i + 1) * a.part) a.grains - lo) a.kind t
  else freshHank a.base a.grains a.kind t
/-- A workgroup of a grid as it starts on a core. -/
def startGridWg (l : Launch) (skein number : Nat) (s : State) (x : Nat × Nat) : State :=
  let i := x.1
  let core := x.2
  let n := cdiv l.wglanes 32
  let w : Wg := { tag := s.seq + 1, kind := .grid l.id i, st := .resident core, ctx := l.ctx, tenant := l.tenant, pri := l.pri, sys := l.sys,
                  idem := l.idem, expins := l.expins, wdog := l.wdog, parkt := l.parkt, skein := skein, wgid := i % max l.skeinSize 1,
                  skeinid := number, grid := (i % l.gdim.1, i / l.gdim.1 % l.gdim.2.1, i / (l.gdim.1 * l.gdim.2.1)), gdim := l.gdim,
                  lanes := l.wglanes, ngangs := n, slots := (freeGangSlots s core).take n,
                  gangs := (List.range n).map fun g => freshGang l.wglanes g l.quota s.cycle l.entry, scratchSize := l.scratch, nmacs := l.nmacs,
                  naccs := l.naccs, fslots := l.fslots, image := l.image }
  let w := l.args.foldl (fun w a => putHank w 0 a.hank (received s l.ctx (argHank a i))) w
  let s := l.args.foldl (fun s a => dropHankLines core s l.ctx (argHank a i)) s
  updSkein { s with seq := s.seq + 1, wgs := s.wgs ++ [w] } skein fun k => { k with wgs := k.wgs ++ [w.tag] }
/-- The next skein of a launch starts on cores of one cluster. -/
def startSkein (s : State) (l : Launch) (number : Nat) (cores : List Nat) : State :=
  let id := s.seq
  let old := l.again.any fun x => x.1 == number
  let k : Skein := { id := id, launch := some l.id, number := number, wgs := [], size := (skeinMembers l number).length, ngangs := cdiv l.wglanes 32 }
  let s := { s with seq := s.seq + 1, skeins := s.skeins ++ [k]
                    nextQueue := if old then s.nextQueue else (l.queue + 1) % 32768 }
  let s := updLaunch s l.id fun x => { x with st := .running, nextSkein := if old then x.nextSkein else x.nextSkein + 1
                                              again := x.again.filter fun y => y.1 != number }
  ((skeinMembers l number).zip cores).foldl (startGridWg l id number) s
/-- A child as it starts on a core of its parent's cluster (R355 to R357). -/
def startChild (s : State) (c : ChildReq) (p : Wg) (core : Nat) : State :=
  let d := c.desc
  let n := descGangs s d
  let tag := s.seq + 1
  let w : Wg := { tag := tag, kind := .child c.parent c.slot, st := .resident core, ctx := p.ctx, tenant := p.tenant, pri := p.pri, sys := p.sys,
                  idem := descIdem s d, wdog := p.wdog, parkt := p.parkt, skein := p.skein, lanes := 32 * n, ngangs := n,
                  slots := (freeGangSlots s core).take n,
                  gangs := (List.range n).map fun g => freshGang (32 * n) g (descQuota s d) s.cycle c.entry, scratchSize := descScratch s d,
                  scratch := puts0 [] 0 c.args, nmacs := descMacs s d, naccs := descAccs s d, fslots := p.fslots, image := c.image, lent := c.lend }
  let w := c.hanks.foldl (fun w (x : Nat × Hank) => putHank w 0 (16 + x.1) (received s p.ctx x.2)) w
  let s := c.hanks.foldl (fun s (x : Nat × Hank) => dropHankLines core s p.ctx x.2) s
  let s := { s with seq := tag, wgs := s.wgs ++ [w], childReqs := s.childReqs.filter fun x => x.id != c.id }
  updWg s p.tag fun p => setChild p c.slot (.running tag)
/-- A handler as it starts (R354). -/
def startHandler (s : State) (x : AmWait) : State :=
  let d := x.desc
  let tag := s.seq + 1
  let w : Wg := { tag := tag, kind := .handler, st := .resident x.core, ctx := x.ctx, tenant := ctxTenant s x.ctx, pri := x.pri,
                  idem := descIdem s d, skein := s.seq, lanes := 32, ngangs := 1, slots := (freeGangSlots s x.core).take 1,
                  gangs := [freshGang 32 0 (descQuota s d) s.cycle x.entry], scratchSize := descScratch s d,
                  scratch := puts0 (puts0 [] 0 x.payload) 256 (leBytes 8 x.sender.toNat), nmacs := descMacs s d, naccs := descAccs s d,
                  fslots := (List.range 8).map fun i => descWord s d (18 + i), image := x.image }
  { s with seq := tag, wgs := s.wgs ++ [w], skeins := s.skeins ++ [{ id := tag - 1, launch := none, number := 0, wgs := [tag] }]
           amWaits := s.amWaits.erase x }

/-- WORKGROUP_PLACE (R354, R357, R392, R397): the next skein of a launch, a child, or a handler starts on the cores named. -/
def execWorkgroupPlace (what : PlaceWhat) (cores : List Nat) (s : State) : Host.Outcome State Fault Refusal :=
  match what with
  | .skein l =>
    match findLaunch s l with
    | none => .fault .notEnabled
    | some x => match launchWaiting s x, nextSkeinOf x with
      | some u, some (n, _) =>
        if cores.length = u.needs.length ∧ oneCluster cores ∧ fitsOn s (cores.zip u.needs) = true ∧ isNext s u = true ∧ aheadOf s cores = false then
          .next (refreshOwn (startSkein s x n cores))
        else .fault .notEnabled
      | _, _ => .fault .notEnabled
  | .child n =>
    match s.childReqs[n]?, cores with
    | some c, [core] => match findWg s c.parent with
      | some p => if childFits s c core then .next (refreshOwn (startChild s c p core)) else .fault .notEnabled
      | none => .fault .notEnabled
    | _, _ => .fault .notEnabled
  | .handler core n =>
    match s.amWaits[n]? with
    | some x =>
      let first := (s.amWaits.take n).any fun y => y.core == core && (y.urgent || !x.urgent) && handlerFits s y
      let urgent := !x.urgent && s.amWaits.any fun y => y.core == core && y.urgent && handlerFits s y
      if x.core = core ∧ handlerFits s x = true ∧ first = false ∧ urgent = false then .next (refreshOwn (startHandler s x)) else .fault .notEnabled
    | none => .fault .notEnabled

end Sys2Proof.Machine
end

