-- ==== Sys2Proof/Machine/Distrib.lean ====
section
/-! DEFINITION. Work queues: the entries, records and argument tables that the distributor reads, their refusals, the start and the end of a
launch (R34, R87, R113, R386 to R391, R424). -/

namespace Sys2Proof.Machine

/-! What the distributor reads (R387 to R389). -/

/-- Bytes of a virtual range as their homes hold them; none when a part does not translate or returns poison. -/
def readHomes (s : State) (ctx va n : Nat) : Option (List Byte) := match extentsOf s ctx va n with
  | .ok xs => if xs.any fun x => deadIn s x.1 x.2 then none else some (xs.flatMap fun x => homeBytes s x.1 x.2)
  | .error _ => none
/-- Words of 64 bits of a string of bytes. -/
def wordOfBytes (bs : List Byte) (n : Nat) : Nat := leNat ((bs.drop (8 * n)).take 8)
/-- Some bits of a word are set. -/
def bitsSet (w : Nat) (lo n : Nat) : Bool := bitsN w lo n != 0

/-- The entry at the head of a queue: 64 bytes; none when its ring does not lie in DRAM there (R386). -/
def headEntry (s : State) (q : Nat) : Option (List Byte) :=
  let head := fld (queueWord s q 3) 0 48
  let pa := fld (queueWord s q 0) 6 42 * 64 + 64 * (head % 2 ^ fld (queueWord s q 1) 0 5)
  if isDram pa && isDram (pa + 63) then some (homeBytes s pa 64) else none
/-- A reserved field or value of an entry (R387). -/
def badQueueEntry (e : List Byte) : Bool :=
  let w := wordOfBytes e
  bitsSet (w 0) 8 56 || bitsSet (w 1) 52 12 || bitsSet (w 1) 0 8 || bitsSet (w 2) 52 12 || bitsSet (w 2) 0 3
    || ((List.range 5).any fun i => w (3 + i) != 0) || 1 < bitsN (w 0) 0 8
/-- A reserved field of a record, or too many arguments (R388). -/
def badRecord (r : List Byte) : Bool :=
  let w := wordOfBytes r
  bitsSet (w 0) 31 33 || bitsSet (w 1) 31 1 || bitsSet (w 2) 54 10 || bitsSet (w 2) 25 7 || bitsSet (w 2) 10 6 || bitsSet (w 3) 48 16
    || bitsSet (w 4) 57 7 || bitsSet (w 4) 0 5 || ((List.range 7).any fun i => w (9 + i) != 0) || ((List.range 8).any fun i => w (24 + i) != 0)
    || 16 < bitsN (w 4) 52 5
/-- An argument as its table entry states it (R389). -/
def argOf (t : List Byte) (i : Nat) : LArg :=
  let w (k : Nat) : Nat := wordOfBytes t (4 * i + k)
  { kind := BitVec.ofNat 2 (bitsN (w 1) 32 2), hank := bitsN (w 1) 34 5, base := bitsN (w 0) 8 44, grains := bitsN (w 1) 0 32 + 1,
    part := bitsN (w 2) 0 32 }
/-- A reserved field or value of an argument (R389). -/
def badArg (t : List Byte) (i : Nat) : Bool :=
  let w (k : Nat) : Nat := wordOfBytes t (4 * i + k)
  let a := argOf t i
  bitsSet (w 0) 52 12 || bitsSet (w 0) 0 8 || bitsSet (w 1) 39 25 || bitsSet (w 2) 32 32 || w 3 != 0 || a.kind == 0#2 || 23 < a.hank
    || (if a.kind = 1#2 then a.part == 0 else a.part != 0)
/-- Two arguments that a launch may not have together (R87). -/
def argsClash (a b : LArg) : Bool :=
  a.hank == b.hank || (rangesMeet a.base a.grains b.base b.grains && !(a.kind == b.kind && a.kind != 1#2))
/-- Every pair of a list. -/
def anyPair (xs : List LArg) : Bool := (List.range xs.length).any fun i => match xs[i]? with
  | some a => (xs.drop (i + 1)).any (argsClash a)
  | none => false
/-- A shape outside R33, or a field of word 2 outside its range (R390). -/
def badShape (r : List Byte) : Bool :=
  let w2 := wordOfBytes r 2
  let lanes := bitsN w2 0 10
  let skein := bitsN w2 16 4
  let quota := bitsN w2 20 5
  lanes == 0 || 512 < lanes || skein == 0 || 8 < skein || quota == 0 || 16 < quota || 1024 < bitsN w2 32 11 || 16 < bitsN w2 43 5
    || 32 < bitsN w2 48 6

/-- What is found on a queue's head entry: a status with which it completes at once, or a launch, the entry of its kernel and its dependences. -/
inductive Found where
  | completes (status : Nat)
  | starts (l : Launch) (kidx : Nat) (deps : List (Nat × Nat))

/-- The launch a record describes, without its kernel. -/
def launchOfRecord (s : State) (q : Nat) (e r : List Byte) (args : List LArg) : Launch :=
  let w := wordOfBytes r
  let d := queueWord s q 5
  let wd := bitsN (w 3) 32 16
  { id := s.seq, queue := q, seqno := fld (queueWord s q 3) 0 48, ctx := fld d 0 16, tenant := fld d 16 6, pri := bitsN (w 0) 16 3,
    sys := bitsSet (w 0) 26 1, idem := bitsSet (w 0) 25 1, parkt := bitsN (w 0) 27 4, wdog := if wd = 0 then 2000 else wd,
    expins := bitsN (w 3) 0 32, gdim := (bitsN (w 1) 0 31, bitsN (w 1) 32 16, bitsN (w 1) 48 16), wglanes := bitsN (w 2) 0 10,
    skeinSize := bitsN (w 2) 16 4, quota := bitsN (w 2) 20 5, scratch := bitsN (w 2) 32 11 * 256, nmacs := bitsN (w 2) 43 5,
    naccs := bitsN (w 2) 48 6, fslots := (List.range 8).map fun i => BitVec.ofNat 64 (w (16 + i)), args := args, image := 0, entry := 0#64,
    doneAddr := BitVec.ofNat 64 (bitsN (wordOfBytes e 2) 3 49 * 8), st := .borrowing }
/-- The check of a queue's head entry (R387 to R390). -/
def checkEntry (s : State) (q : Nat) (e : List Byte) : Found :=
  let d := queueWord s q 5
  let ctx := fld d 0 16
  if badQueueEntry e then .completes 3
  else if bitsN (wordOfBytes e 0) 0 8 = 0 then .completes 0
  else if !ctxValid s ctx then .completes 3
  else match readHomes s ctx (bitsN (wordOfBytes e 1) 8 44 * 256) 256 with
    | none => .completes 3
    | some r =>
      let w := wordOfBytes r
      if badRecord r then .completes 3
      else if bitsN (w 0) 19 6 ≠ fld d 16 6 ∨ fld d 22 3 < bitsN (w 0) 16 3 ∨ (bitsSet (w 0) 26 1 && !d.getLsbD 25) = true then .completes 6
      else if badShape r then .completes 1
      else
        let n := bitsN (w 4) 52 5
        match (if n = 0 then some [] else readHomes s ctx (bitsN (w 4) 5 47 * 32) (32 * n)) with
        | none => .completes 3
        | some t =>
          let args := (List.range n).map (argOf t)
          let l := launchOfRecord s q e r args
          let deps := ((List.range 4).filter fun i => bitsSet (w (5 + i)) 63 1).map fun i => (bitsN (w (5 + i)) 48 15, bitsN (w (5 + i)) 0 48)
          if (List.range n).any (badArg t) then .completes 3
          else if anyPair args then .completes 4
          else if launchTotal l = 0 then .completes 0
          else if !everFits (launchNeed l) (min l.skeinSize (launchTotal l)) then .completes 2
          else .starts l (bitsN (w 0) 0 16) deps
/-- Every dependence of an entry has completed (R391). -/
def depsMet (s : State) (deps : List (Nat × Nat)) : Bool := deps.all fun x => x.2 < fld (queueWord s x.1 4) 0 48

/-! Completion (R386, R390). -/

/-- DONESEQ of a queue: below its oldest entry that has not completed. -/
def doneSeq (s : State) (q : Nat) : Nat :=
  ((s.launches.filter fun l => l.queue == q).map fun l => l.seqno).foldl min (fld (queueWord s q 3) 0 48)
/-- DONESEQ written. -/
def putDoneSeq (s : State) (q : Nat) : State := ctlPut s (queueAddr q 4) (setFld (queueWord s q 4) 0 48 (doneSeq s q))
/-- A completion word (R390), for an address other than 0. -/
def completeWord (s : State) (ctx : Nat) (addr : W64) (status count : Nat) : State :=
  if addr = 0#64 then s else writeVirtual s ctx addr.toNat (leBytes 8 (status * 2 ^ 56 + count % 2 ^ 32))
/-- The distributor takes the head entry. -/
def takeHead (s : State) (q : Nat) : State := ctlPut s (queueAddr q 3) (setFld (queueWord s q 3) 0 48 (fld (queueWord s q 3) 0 48 + 1))
/-- The head entry, with its completion word's address, completes without running. -/
def completeHead (s : State) (q : Nat) (addr : W64) (status : Nat) : State :=
  let s := takeHead s q
  putDoneSeq (completeWord s (fld (queueWord s q 5) 0 16) addr status 0) q
/-- The address of an entry's completion word (R387). -/
def doneAddrOf (e : List Byte) : W64 := BitVec.ofNat 64 (bitsN (wordOfBytes e 2) 3 49 * 8)

/-! Starting (R87, R391, R424). -/

/-- An argument that cannot be borrowed (R87). -/
def argRefused (s : State) (ctx : Nat) (a : LArg) : Bool :=
  let va := a.base * 256
  let n := a.grains * 256
  2 ^ 52 < va + n || unborrowable s a.kind va n [] || match extentsOf s ctx va n with
    | .ok xs => unborrowable s a.kind va n xs
    | .error _ => true
/-- The scheduler asks for the borrow of an argument, in wait mode; one that cannot be borrowed ends the launch (R87). -/
def askArg (l : Launch) (s : State) (i : Nat) : State :=
  match l.args[i]? with
  | none => s
  | some a =>
    if argRefused s l.ctx a then updLaunch s l.id fun x => { x with st := .ending 7 }
    else
    let runs := runsOf (extentsD s l.ctx (a.base * 256) (a.grains * 256))
    match startReq s (.grid l.id i) none l.ctx a.kind a.base a.grains runs true with
    | some (_, s) => s
    | none => s
/-- The arguments of a launch that it neither holds nor has asked for (a FULL status, R87). -/
def argsToAsk (s : State) (l : Launch) : List Nat :=
  (List.range l.args.length).filter fun i =>
    (match l.args[i]? with
      | some a => a.ticket.isNone
      | none => false) && !s.reqs.any fun r => r.taker == .grid l.id i
/-- A launch of a queue that has to ask again. -/
def askAgain (s : State) (q : Nat) : Option Launch :=
  s.launches.find? fun l => l.queue == q && l.st == .borrowing && !(argsToAsk s l).isEmpty
/-- A launch starts: its kernel is bound, and its arguments are asked for. -/
def startLaunch (s : State) (q : Nat) (l : Launch) (k : Image × Nat) : State :=
  if l.args.any (argRefused s l.ctx) then completeHead s q l.doneAddr 7
  else
    let l := { l with image := k.1.num, entry := descEntry s k.1 k.2 }
    let s := useImage { takeHead s q with seq := s.seq + 1, launches := s.launches ++ [l] } k.1.num
    (List.range l.args.length).foldl (askArg l) s
/-- The entry that a queue's distributor has checked and holds for its dependences (R391). -/
def heldHead (s : State) (q : Nat) : Option Head := s.heads.find? fun x => x.launch.queue == q
/-- A checked entry starts, or is refused for its kernel, once every dependence has completed; until then the distributor holds it (R391, R424). -/
def startOrHold (s : State) (x : Head) : Host.Outcome State Fault Refusal :=
  let q := x.launch.queue
  if depsMet s x.deps then
    let s := { s with heads := s.heads.filter fun y => y.launch.queue != q, startedNow := x.kidx :: s.startedNow }
    .next (match kernelOf s x.kidx with
      | none => completeHead s q x.launch.doneAddr 5
      | some k => startLaunch s q { x.launch with id := s.seq } k)
  else if (heldHead s q).isSome then .fault .notEnabled
  else .next { s with heads := s.heads ++ [x] }
/-- LAUNCH_START (R34, R87, R386 to R391, R394, R424): the distributor takes the head entry of a queue whose tenant is served, or asks again for an
argument that met a full table. The entry is checked once, as it reaches HEAD. -/
def execLaunchStart (q : Nat) (s : State) : Host.Outcome State Fault Refusal :=
  let d := queueWord s q 5
  match askAgain s q with
  | some l => .next ((argsToAsk s l).foldl (askArg l) s)
  | none =>
    if 32767 < q || !d.getLsbD 26 || fld (queueWord s q 2) 0 48 ≤ fld (queueWord s q 3) 0 48 || !ctxRuns s (fld d 0 16)
      || !tenantServed s (fld d 16 6) then .fault .notEnabled
    else match heldHead s q with
      | some x => startOrHold s x
      | none => match headEntry s q with
        | none => if d.getLsbD 27 then .fault .notEnabled else .next (queueErr s q)
        | some e => match checkEntry s q e with
          | .completes n => .next (completeHead s q (doneAddrOf e) n)
          | .starts l kidx deps => startOrHold s ⟨l, kidx, deps⟩

/-! Ending (R87, R113, R390). -/

/-- The grants that the scheduler took for a launch. -/
def gridGrants (s : State) (l : Nat) : List Grant := s.grants.filter fun g => match g.taker with
  | .grid x _ => x == l
  | _ => false
/-- The requests that the scheduler still has out for a launch. -/
def gridReqs (s : State) (l : Nat) : List Req := s.reqs.filter fun r => match r.taker with
  | .grid x _ => x == l
  | _ => false
/-- The scheduler returns a grant of a grid. -/
def returnGrid (s : State) (g : Grant) : State :=
  let runs := g.runs.filter fun run => (entryOf s g.ctx g.kind run).isSome
  if runs.isEmpty then dropGrant s g
  else if s.rets.any fun r => r.ctx == g.ctx && r.ticket == g.ticket && r.wg == 0 then s
  else sendReturn s { wg := 0, gang := 0, lanes := 0#32, ctx := g.ctx, ticket := g.ticket, kind := g.kind, extents := [], vlo := 0, vbytes := 0,
                      runs := runs, seq := 0 }
/-- A launch that has run or been refused: every workgroup has ended, and nothing of it is in a core. -/
def launchOver (s : State) (l : Launch) : Bool :=
  (match l.st with
    | .running => l.endedWgs == launchTotal l
    | .ending _ => true
    | _ => false) && !s.wgs.any fun w => launchOf w == some l.id
/-- The status of a launch at its end (R390). -/
def endStatus (l : Launch) : Nat := match l.st with
  | .ending n => n
  | _ => if l.badWgs = 0 then 0 else 0x10
/-- The completion word of a launch, its image and DONESEQ (R390, R424). -/
def finishLaunch (s : State) (l : Launch) : State :=
  let s := completeWord s l.ctx l.doneAddr (endStatus l) l.badWgs
  putDoneSeq (dropImage { s with launches := s.launches.filter fun x => x.id != l.id } l.image) l.queue
/-- LAUNCH_COMPLETE (R87, R113, R390): a launch that is over returns its borrows; once they are home it completes. -/
def execLaunchComplete (id : Nat) (s : State) : Host.Outcome State Fault Refusal :=
  match findLaunch s id with
  | none => .fault .notEnabled
  | some l =>
    if !launchOver s l || (ctxOf s l.ctx).killed then .fault .notEnabled
    else if (gridGrants s id).isEmpty && (gridReqs s id).isEmpty then .next (finishLaunch s l)
    else if (gridReqs s id).isEmpty && (gridGrants s id).all fun g => s.rets.any fun r => r.ctx == g.ctx && r.ticket == g.ticket && r.wg == 0 then
      .fault .notEnabled
    else .next ((gridGrants s id).foldl returnGrid ((gridReqs s id).foldl dropReq s))

end Sys2Proof.Machine
end

