-- ==== Sys2Proof/Machine/Sched.lean ====
section
/-! DEFINITION. Time slices, pre-emption, saves and restores, the watchdog, the kill of a context, and the fault ring (R86, R303, R304, R329,
R330, R346, R394 to R404, R413, R414, R427). -/

namespace Sys2Proof.Machine

/-! Time slices (R329, R394). -/

/-- The slice that holds an offset from the start of the cycle, in entry order. -/
def sliceWalk (s : State) : Nat → Nat → Nat → Option Nat
  | 0, _, _ => none
  | n + 1, e, t =>
    let len := fld (sliceWord s e) 0 32 * 1000
    if t < len then some e else sliceWalk s n (e + 1) (t - len)
/-- The slice table's cycle in ns. -/
def sliceCycle (s : State) (n : Nat) : Nat := ((List.range n).map fun e => fld (sliceWord s e) 0 32 * 1000).foldl (· + ·) 0
/-- The entry whose slice the 1588 clock is in; none before START. -/
def sliceIndex (s : State) : Option Nat :=
  let n := fld (ctlGet s slctlAddr) 0 7
  let start := (ctlGet s slstartAddr).toNat
  let t := s.time1588.toNat
  if t < start then none else sliceWalk s n 0 ((t - start) % max (sliceCycle s n) 1)
/-- SLICE_SWITCH (R329, R394): at its instant another entry is in force; the ring of a new tenant begins its pattern afresh. -/
def execSliceSwitch (s : State) : Host.Outcome State Fault Refusal :=
  match sliceIndex s with
  | none => .fault .notEnabled
  | some i =>
    if !(ctlGet s slctlAddr).getLsbD 7 || i == s.slice then .fault .notEnabled
    else
      let s' := { s with slice := i }
      .next (if s.ring.running && ringTenant s' != ringTenant s then ringStart s' else s')

/-! Pre-emption (R395, R396, R413). -/

/-- The three actions of R395. -/
inductive Row where
  | drain | flush | save
  deriving DecidableEq, Repr
/-- A workgroup holds an ARMED or LOADING subscription (R329). -/
def awaitsFrame (w : Wg) : Bool := w.subs.any fun x => x.st == .armed || x.st == .loading
/-- The row of R395's table that applies to a workgroup: words retired, resident time at the clock as it runs, and the effects performed. -/
def rowOf (s : State) (sw : Bool) (w : Wg) : Row :=
  if sw && awaitsFrame w then .save
  else if 0 < w.retired ∧ w.expins ≠ 0 ∧ (w.expins - w.retired) * w.resident ≤ 50 * s.clockMHz * w.retired then .drain
  else if w.idem && 10 * w.retired < w.expins && !w.nonIdem then .flush
  else .save
/-- The action on a skein from the rows of its own workgroups; at a slice switch one of them, or a child, that waits for a frame is saved whatever
the rest (R329). -/
def skeinRow (s : State) (sw : Bool) (k : Nat) (ws : List Wg) : Row :=
  if sw && (skeinWgs s k).any awaitsFrame then .save
  else if ws.all fun w => rowOf s sw w == .drain then .drain
  else if ws.all fun w => rowOf s sw w == .flush then .flush
  else .save
/-- A workgroup is flushed (R396): what it holds is discarded and released without write-back; no record of it needs an answer any more. -/
def flushWg (s : State) (tag : Nat) : State :=
  match findWg s tag with
  | none => s
  | some w =>
    let s := loseAll (dropCommands (dropChildReqs s tag) tag) w
    let s := dropIssues (closeRecords s tag) tag
    let s := match w.kind with
      | .grid _ _ => s
      | _ => dropImage s w.image
    let s := { s with wgs := s.wgs.filter fun x => x.tag != tag, heldCredits := s.heldCredits.filter fun c => c.1 != tag }
    match coreOf w with
    | some core => coreLeft s core w.ctx
    | none => s
/-- A skein is flushed: its workgroups are placed again later, together. -/
def flushSkein (s : State) (k : Skein) : State :=
  let s := (skeinWgs s k.id).foldl (fun s w => flushWg s w.tag) s
  let order := s.seq
  let s := { s with seq := order + 1, skeins := s.skeins.filter fun x => x.id != k.id }
  let s := refreshOwn s
  match k.launch with
  | some l => updLaunch s l fun x => { x with again := x.again ++ [(k.number, order)] }
  | none => s
/-- A skein begins to drain, or to be saved. -/
def setSkein (s : State) (k : Nat) (st : SkeinSt) : State := updSkein s k fun x => { x with st := st }
/-- The skein's own workgroups: children go with it (R357). -/
def ownWgs (s : State) (k : Skein) : List Wg := (skeinWgs s k.id).filter fun w => match w.kind with
  | .child _ _ => false
  | _ => true
/-- A slice switch takes the cores of a skein: its tenant is not the one now served, and nothing it holds is boosted (R394, R397). -/
def switchedOut (s : State) (ws : List Wg) : Bool := !ws.isEmpty && ws.all fun w => !tenantServed s w.tenant && !boosted s w
/-- Something of higher priority waits for cores that the skein stands on, and has no room (R395). -/
def outranked (s : State) (k : Nat) (ws : List Wg) : Bool :=
  let pri := skeinPri s k
  let cores := ws.filterMap coreOf
  ((allWaiting s).any fun x => pri < x.pri && !someCluster s x.needs)
    || (s.amWaits.any fun x => pri < x.pri && cores.contains x.core && ctxRuns s x.ctx && tenantServed s (ctxTenant s x.ctx) && !handlerFits s x)
    || s.childReqs.any fun c => match findWg s c.parent with
      | some p => match coreOf p with
        | some pc =>
          p.skein != k && pri < effPri s p && (cores.any fun x => x / 8 == pc / 8) && ctxRuns s p.ctx && tenantServed s p.tenant
            && !((List.range 8).any fun i => childFits s c (8 * (pc / 8) + i))
        | none => false
      | none => false
/-- A decision is open on a skein: it runs, or it drains and at a slice switch waits for a frame that will not come (R329). -/
def decides (s : State) (sw : Bool) (k : Skein) : Bool := match k.st with
  | .running => true
  | .draining _ => sw && (skeinWgs s k.id).any awaitsFrame
  | _ => false
/-- PREEMPTION_DECISION (R395, R396, R413): a skein whose cores are needed drains, is flushed, or is saved. -/
def execPreemptionDecision (skein : Nat) (sw : Bool) (s : State) : Host.Outcome State Fault Refusal :=
  match findSkein s skein with
  | none => .fault .notEnabled
  | some k =>
    let ws := ownWgs s k
    if !decides s sw k || ws.isEmpty || !(if sw then switchedOut s ws else outranked s skein ws) then .fault .notEnabled
    else .next (match skeinRow s sw skein ws with
      | .drain => setSkein s skein (.draining s.time1588.toNat)
      | .flush => flushSkein s k
      | .save => setSkein s skein (.saving false s.time1588.toNat))
/-- DRAIN_TIMEOUT (R396): 100 µs after the decision what has not exited is saved. -/
def execDrainTimeout (skein : Nat) (s : State) : Host.Outcome State Fault Refusal :=
  match findSkein s skein with
  | none => .fault .notEnabled
  | some k => match k.st with
    | .draining t =>
      if s.time1588.toNat < t + 100000 then .fault .notEnabled else .next (setSkein s skein (.saving false s.time1588.toNat))
    | _ => .fault .notEnabled

/-! Saves (R88, R115, R303, R402 to R404). -/

/-- The address of a bolt slot, and whether DRAM holds it. -/
def slotAddr (s : State) (ctx n : Nat) : Nat := ctxSave s ctx + n * 2 ^ 21
def slotOk (s : State) (ctx n : Nat) : Bool := isDram (slotAddr s ctx n) && isDram (slotAddr s ctx n + (2 ^ 21 - 1))
/-- The first n free slots of a context's save area; none when there are not so many. -/
def freeBolts (s : State) (ctx n : Nat) : Option (List Nat) :=
  let used := (ctxOf s ctx).slotsUsed
  let xs := ((List.range (min (ctxSlots s ctx) (used.length + n))).filter fun k => !used.contains k && slotOk s ctx k).take n
  if xs.length = n then some xs else none
/-- Bytes of a bolt's opaque body (R403): with its header it fits a slot. -/
def bodyBytes (stamp : Nat) : Nat := (Config.boltSize stamp).toNat % (2 ^ 21 - 31)
/-- The first 32 bytes of a bolt with its COMPLETE bit, its body's bytes and their CRC-32C (R403). -/
def boltHeader (hung complete : Bool) (tag body : Nat) (crc : W32) : List Byte :=
  leBytes 8 (hung.toNat * 2 ^ 33 + complete.toNat * 2 ^ 32 + 0x4131 * 2 ^ 16 + 1) ++ leBytes 8 (tag % 2 ^ 24 * 2 ^ 16) ++ leBytes 8 (32 + body)
    ++ leBytes 8 crc.toNat
/-- A bolt written in a slot: the body, which R403 leaves opaque, then the header over it. -/
def writeBolt (s : State) (slot : Nat) (hung complete : Bool) (tag stamp : Nat) : State :=
  let n := bodyBytes stamp
  let s := smear (sliceDrop s slot (32 + n)) slot (32 + n)
  homeWrites s slot (boltHeader hung complete tag n (crc32c (homeBytes s (slot + 32) n)))
/-- A lane as the bolt keeps it: a value wait and TIMEW begin afresh at their words (R253, R412). -/
def savedLane (l : Lane) : Lane := match l.st with
  | .blocked .value => { l with st := .ready }
  | .blocked (.time _) => { l with st := .ready }
  | _ => l
/-- A gang as the bolt keeps it: its value waits are gone. -/
def savedGang (g : Gang) : Gang := { g with lanes := g.lanes.map savedLane, pend := g.pend.filter fun a => a.kind != .waitv }
/-- The requests of value waits leave with them. -/
def dropWaitvs (s : State) (w : Wg) : State :=
  { s with msgs := s.msgs.filter fun m => match m with
      | .memReq wg gang seq => !(wg == w.tag && (gangOf w gang).pend.any fun a => a.seq == seq && a.kind == .waitv)
      | _ => true }
/-- Nothing in flight holds the save of a workgroup up, and the cycle of its last fault record has ended (R115, R404, R414). -/
def settled (s : State) (w : Wg) : Bool :=
  (coreOf w).isSome && (w.gangs.all fun g => g.unacked == 0) && !(s.issues.any fun i => i.wg == w.tag)
    && !s.faults.any fun r => r.fresh && r.wgtag == w.tag
/-- A workgroup is written into a bolt and leaves its core. -/
def saveWg (hung : Bool) (s : State) (x : Wg × Nat) : State :=
  let w := x.1
  let stamp := s.seq
  let s := writeBackAll (dropWaitvs { s with seq := stamp + 1 } w) w
  let s := match coreOf w with
    | some core => (s.rets.filter fun r => r.wg == w.tag && !r.sent && r.kind == 1#2).foldl
        (fun s r => r.extents.foldl (fun s (e : Nat × Nat) => l1Drop (writeBack s core e.1 e.2) core e.1 e.2) s) s
    | none => s
  let s := writeBolt s (slotAddr s w.ctx x.2) hung true w.tag stamp
  let s := updCtx s w.ctx fun c => { c with slotsUsed := x.2 :: c.slotsUsed }
  let s := updWg s w.tag fun w => { w with st := .saved, bolt := some (x.2, stamp), slots := [], records := [], gangs := w.gangs.map savedGang }
  let s := reissue { s with cont := s.cont.filter fun c => c.wg != w.tag
                            eng := s.eng.map fun (c : EngCmd) => if c.wg = w.tag then { c with cluster := boltCluster } else c }
  match coreOf w with
  | some core => coreLeft s core w.ctx
  | none => s
/-- The context of a skein's workgroups. -/
def skeinCtx (ws : List Wg) : Nat := (ws.head?.map fun w => w.ctx).getD 0
/-- SKEIN_SAVE (R88, R115, R303, R404): once everything in flight has settled, and each workgroup has a slot, the skein is saved whole. -/
def execSkeinSave (skein : Nat) (s : State) : Host.Outcome State Fault Refusal :=
  match findSkein s skein with
  | none => .fault .notEnabled
  | some k =>
    let ws := skeinWgs s skein
    match k.st, freeBolts s (skeinCtx ws) ws.length with
    | .saving hung _, some slots =>
      if ws.isEmpty || !ws.all (settled s) then .fault .notEnabled
      else
        let order := s.seq
        .next (refreshOwn (setSkein ((ws.zip slots).foldl (saveWg hung) s) skein (.saved order slots)))
    | _, _ => .fault .notEnabled

/-! Restores (R304, R330, R346, R397, R404). -/

/-- A restore accepts a bolt (R404). -/
def boltGood (s : State) (w : Wg) : Bool := match w.bolt with
  | some (slot, stamp) =>
    let h := homeBytes s (slotAddr s w.ctx slot) 32
    bitsSet (wordOfBytes h 0) 32 1 && bitsN (wordOfBytes h 0) 16 16 == 0x4131 && bitsN (wordOfBytes h 0) 0 16 == 1
      && wordOfBytes h 2 == 32 + bodyBytes stamp
      && bitsN (wordOfBytes h 3) 0 32 == (crc32c (homeBytes s (slotAddr s w.ctx slot + 32) (bodyBytes stamp))).toNat
  | none => false
/-- A ring-loaded macro returns PENDING, with the reload of its tile (R304, R330). -/
def restoredMac (w : Wg) (now m : Nat) : Mac :=
  let x := macOf w m
  if x.inside && x.psrc == 1#2 then
    let y := { x with inside := false, reload := some (x.tile, x.gen), reloadAt := now, taking := none }
    if (firstRel w m).isSome then y else { y with st := .pending, src := 1#2 }
  else if x.reload.isSome then { x with reloadAt := now, taking := none, st := if x.st == .bad then .pending else x.st }
  else x
/-- A subscription re-armed (R330). -/
def restoredSub (now : Nat) (x : Sub) : Sub :=
  if x.st == .armed || x.st == .loading then { x with st := .armed, armedAt := now, frame := none } else x
/-- A command of the matrix unit: one on a ring tile starts afresh when its macro reloads (R304). -/
def restoredCmd (w : Wg) (c : MCmd) : MCmd := match c.mac with
  | some m => if (macOf w m).psrc == 1#2 && c.started then { c with started := false, aBytes := [] } else c
  | none => c
/-- The hanks of a workgroup that resumes on a core: those whose grant was revoked meanwhile show it, and no line of their ranges is left in the
core from before (R81, R99, R431). -/
def receiveAll (s : State) (tag core : Nat) : State :=
  match findWg s tag with
  | none => s
  | some w =>
    let s := (hanksOf w).foldl (fun s k => dropHankLines core s w.ctx k) s
    updWg s tag fun w => { w with gangs := w.gangs.map fun g => { g with h := g.h.map (received s w.ctx) }, w := w.w.map (received s w.ctx) }
/-- A workgroup resumes on a core. -/
def restoreWg (s : State) (x : Wg × Nat) : State :=
  let now := s.cycle
  let core := x.2
  let slots := freeGangSlots s core
  let s := updWg s x.1.tag fun w =>
    { w with st := .resident core, bolt := none, slots := slots.take w.ngangs
             gangs := w.gangs.map fun g => { g with lanes := g.lanes.map fun l => { l with since := now }
                                                    pend := g.pend.map fun a => { a with ord := isEntry a.kind } }
             macs := (List.range w.nmacs).map (restoredMac w now), subs := w.subs.map (restoredSub now), mq := w.mq.map (restoredCmd w) }
  let s := reissue (receiveAll s x.1.tag core)
  let mine := s.heldCredits.filter fun c => c.1 == x.1.tag
  mine.foldl (fun s (c : Nat × W64 × Nat) => credit s c.1 c.2.1.toNat c.2.2) { s with heldCredits := s.heldCredits.filter fun c => c.1 != x.1.tag }
/-- A saved skein as it waits for the distributor. -/
def savedUnit (s : State) (k : Skein) : Waiting := ⟨some k.id, 0, skeinPri s k.id, true, savedOrder k, (skeinWgs s k.id).map needOf⟩
/-- SKEIN_RESTORE (R304, R392, R397, R399, R404): a saved skein resumes together on one cluster; a workgroup whose bolt is refused is
terminated. -/
def execSkeinRestore (skein : Nat) (cores : List Nat) (s : State) : Host.Outcome State Fault Refusal :=
  match findSkein s skein with
  | none => .fault .notEnabled
  | some k =>
    let ws := skeinWgs s skein
    let u := savedUnit s k
    if skeinReady s k && cores.length == ws.length && oneCluster cores && fitsOn s (cores.zip u.needs) && isNext s u && !aheadOf s cores then
      let bad := ws.filter fun w => !boltGood s w
      let pairs := (ws.zip cores).filter fun x => boltGood s x.1
      let s := freeSlots s (skeinCtx ws) (skeinSlots k)
      let s := updSkein (refreshOwn (pairs.foldl restoreWg s)) skein fun x => { x with st := .running, waitFor := [], causeAt := none }
      .next (bad.foldl (fun s w => terminateWg s w.tag false 0) s)
    else .fault .notEnabled

/-! The kill of a context (R86, R390, R402). -/

/-- A workgroup of a killed context leaves: nothing of it is returned, for the walks free its entries. -/
def discardWg (s : State) (w : Wg) : State :=
  let s := dropIssues (dropCommands (dropChildReqs s w.tag) w.tag) w.tag
  let s := match w.kind with
    | .grid _ _ => s
    | _ => if w.st == WgSt.ended then s else dropImage s w.image
  let s := { s with wgs := s.wgs.filter fun x => x.tag != w.tag, heldCredits := s.heldCredits.filter fun c => c.1 != w.tag }
  match coreOf w with
  | some core => coreLeft s core w.ctx
  | none => s
/-- A context is killed: its workgroups, requests and handlers in waiting go, its launches end with a status, and every table's walk begins. -/
def killContext (s : State) (ctx status : Nat) : State :=
  let ws := s.wgs.filter fun w => w.ctx == ctx
  let s := ws.foldl discardWg s
  let s := (s.reqs.filter fun r => r.ctx == ctx && !r.queued).foldl cancelReq s
  let s := (s.amWaits.filter fun x => x.ctx == ctx).foldl (fun s x => dropImage s x.image) s
  let gone (k : Skein) : Bool := ws.any fun w => w.skein == k.id
  let s := { s with
    amWaits := s.amWaits.filter fun x => x.ctx != ctx
    skeins := s.skeins.filter fun k => !gone k
    faults := s.faults.map fun r => if r.ctx = ctx then { r with answered := true } else r
    heads := s.heads.filter fun x => x.launch.ctx != ctx
    launches := s.launches.map fun l => if l.ctx = ctx then { l with st := .ending status, again := [] } else l }
  updCtx (refreshOwn s) ctx fun c => { c with killed := true, hung := false, walks := List.range 5, slotsUsed := [] }
/-- A save that stalls leaves its bolts unfinished where it had slots to write (R402). -/
def stallBolts (s : State) (hung : Bool) (ws : List Wg) : State :=
  match freeBolts s (skeinCtx ws) ws.length with
  | some slots => (ws.zip slots).foldl (fun s (x : Wg × Nat) => writeBolt { s with seq := s.seq + 1 } (slotAddr s x.1.ctx x.2) hung false x.1.tag s.seq) s
  | none => s
/-- SAVE_STALL_KILL (R402): a save that has written no bolt for 10 ms, for want of a slot or by a fault of the save area, kills the context. -/
def execSaveStallKill (skein : Nat) (s : State) : Host.Outcome State Fault Refusal :=
  match findSkein s skein with
  | none => .fault .notEnabled
  | some k =>
    let ws := skeinWgs s skein
    let ctx := skeinCtx ws
    match k.st with
    | .saving hung t =>
      if ws.isEmpty || s.time1588.toNat < t + 10000000 then .fault .notEnabled
      else .next (killContext (stallBolts s hung ws) ctx 0x11)
    | _ => .fault .notEnabled

/-! The watchdog (R401, R402). -/

/-- The watchdog limit of a workgroup in cycles. -/
def wdogCycles (s : State) (w : Wg) : Nat := w.wdog * 1000 * s.clockMHz
/-- A skein of a hung context is saved; one being saved already goes on. -/
def hangSkein (now : Nat) (k : Skein) : Skein := match k.st with
  | .running => { k with st := .saving true now }
  | .draining _ => { k with st := .saving true now }
  | _ => k
/-- The record of a hung context: of the workgroup whose watchdog expired, of no gang, lane or PC, with the limit in ms (R401, R405, log 123). -/
def hangRecord (s : State) (w : Wg) : FaultRec :=
  { no := s.faults.length, wgsave := false, nest := false, code := 0xF0#8, gang := 0, wgtag := w.tag, ctx := w.ctx, lanes := 0#32, pc := 0#64,
    info := BitVec.ofNat 64 w.wdog, fresh := true }
/-- WATCHDOG_EXPIRY (R401, R402): a context is declared hung, unless the workgroup is being saved: then after the save. -/
def execWatchdogExpiry (wg : Nat) (s : State) : Host.Outcome State Fault Refusal :=
  match findWg s wg with
  | none => .fault .notEnabled
  | some w =>
    if w.st == .ended || w.idle < wdogCycles s w || !ctxRuns s w.ctx || stopped s w then .fault .notEnabled
    else
      let now := s.time1588.toNat
      let mine := (s.wgs.filter fun x => x.ctx == w.ctx && (coreOf x).isSome).map fun x => x.skein
      let s := updCtx s w.ctx fun c => { c with hung := true }
      .next { s with faults := s.faults ++ [hangRecord s w]
                     skeins := s.skeins.map fun k => if mine.contains k.id then hangSkein now k else k }

/-! The fault ring (R398, R427). -/

/-- The 32 bytes of a record (R398). -/
def recordImage (r : FaultRec) : List Byte :=
  leBytes 8 (r.wgsave.toNat * 2 ^ 53 + r.nest.toNat * 2 ^ 52 + r.code.toNat * 2 ^ 44 + r.gang % 16 * 2 ^ 40 + r.wgtag % 2 ^ 24 * 2 ^ 16 + r.ctx % 2 ^ 16)
    ++ leBytes 8 r.lanes.toNat ++ leBytes 8 r.pc.toNat ++ leBytes 8 r.info.toNat
/-- FAULT_RECORD_WRITE (R414, R427): the oldest record not yet written goes into the ring once the cycle that sent it has ended and the ring has
room, and an interrupt is raised. -/
def execFaultRecordWrite (s : State) : Host.Outcome State Fault Refusal :=
  match s.faults.find? fun r => !r.written with
  | none => .fault .notEnabled
  | some r =>
    if r.fresh || fqSize s ≤ fqCount s then .fault .notEnabled
    else
      let tail := fld (ctlGet s fqctlAddr) 32 32
      let s := hostPut s (fld (ctlGet s 0x7F0004000010) 5 59 * 32 + 32 * (tail % fqSize s)) (recordImage r)
      let s := ctlPut s fqctlAddr (setFld (ctlGet s fqctlAddr) 32 32 (tail + 1))
      .next { s with faults := updFirst (fun x => x.no == r.no) (fun x => { x with written := true }) s.faults, interrupts := s.interrupts + 1 }

end Sys2Proof.Machine
end

