-- ==== Sys2Proof/Machine/Security.lean ====
section
/-! DEFINITION. The functions of the security block that R418, R419, R421 and R425 name and do not define: SHA-256, HMAC-SHA-256 and ECDSA on
P-256, as the standards that bear these names give them (PRESUMED, log entry 10). The keys are the part's own and have no value here. -/

namespace Sys2Proof.Machine

/-- The round constants of SHA-256. -/
def shaK : List Nat :=
  [0x428a2f98, 0x71374491, 0xb5c0fbcf, 0xe9b5dba5, 0x3956c25b, 0x59f111f1, 0x923f82a4, 0xab1c5ed5]
  ++ [0xd807aa98, 0x12835b01, 0x243185be, 0x550c7dc3, 0x72be5d74, 0x80deb1fe, 0x9bdc06a7, 0xc19bf174]
  ++ [0xe49b69c1, 0xefbe4786, 0x0fc19dc6, 0x240ca1cc, 0x2de92c6f, 0x4a7484aa, 0x5cb0a9dc, 0x76f988da]
  ++ [0x983e5152, 0xa831c66d, 0xb00327c8, 0xbf597fc7, 0xc6e00bf3, 0xd5a79147, 0x06ca6351, 0x14292967]
  ++ [0x27b70a85, 0x2e1b2138, 0x4d2c6dfc, 0x53380d13, 0x650a7354, 0x766a0abb, 0x81c2c92e, 0x92722c85]
  ++ [0xa2bfe8a1, 0xa81a664b, 0xc24b8b70, 0xc76c51a3, 0xd192e819, 0xd6990624, 0xf40e3585, 0x106aa070]
  ++ [0x19a4c116, 0x1e376c08, 0x2748774c, 0x34b0bcb5, 0x391c0cb3, 0x4ed8aa4a, 0x5b9cca4f, 0x682e6ff3]
  ++ [0x748f82ee, 0x78a5636f, 0x84c87814, 0x8cc70208, 0x90befffa, 0xa4506ceb, 0xbef9a3f7, 0xc67178f2]
/-- The value the chaining words start from. -/
def shaInit : List W32 := [0x6a09e667, 0xbb67ae85, 0x3c6ef372, 0xa54ff53a, 0x510e527f, 0x9b05688c, 0x1f83d9ab, 0x5be0cd19]
/-- The value of bytes, the first most significant. -/
def beNat (bs : List Byte) : Nat := bs.foldl (fun x b => 256 * x + b.toNat) 0
/-- A number as n bytes, the most significant first. -/
def beBytes (n x : Nat) : List Byte := (leBytes n x).reverse
/-- A message with its padding to whole 64-byte blocks. -/
def shaPad (bs : List Byte) : List Byte :=
  bs ++ 0x80#8 :: List.replicate ((119 - bs.length % 64) % 64) 0#8 ++ beBytes 8 (8 * bs.length)
/-- One more word of the message schedule; the words stand newest first. -/
def shaExtend (w : List W32) : List W32 :=
  let a := w.getD 1 0
  let b := w.getD 14 0
  ((a.rotateRight 17 ^^^ a.rotateRight 19 ^^^ a >>> 10) + w.getD 6 0 + (b.rotateRight 7 ^^^ b.rotateRight 18 ^^^ b >>> 3) + w.getD 15 0) :: w
/-- One round on the eight working words. -/
def shaRound (v : List W32) (kw : Nat × W32) : List W32 := match v with
  | [a, b, c, d, e, f, g, h] =>
    let t := h + (e.rotateRight 6 ^^^ e.rotateRight 11 ^^^ e.rotateRight 25) + (e &&& f ^^^ ~~~e &&& g) + BitVec.ofNat 32 kw.1 + kw.2
    let u := (a.rotateRight 2 ^^^ a.rotateRight 13 ^^^ a.rotateRight 22) + (a &&& b ^^^ a &&& c ^^^ b &&& c)
    [t + u, a, b, c, d + t, e, f, g]
  | _ => v
/-- One 64-byte block taken into the chaining words. -/
def shaBlock (v : List W32) (blk : List Byte) : List W32 :=
  let first := (List.range 16).map fun i => BitVec.ofNat 32 (beNat ((blk.drop (4 * i)).take 4))
  let w := (List.range 48).foldl (fun w _ => shaExtend w) first.reverse
  List.zipWith (· + ·) v ((shaK.zip w.reverse).foldl shaRound v)
/-- SHA-256 of bytes; the digest's first byte is the most significant. -/
def sha256 (bs : List Byte) : BitVec 256 :=
  let m := shaPad bs
  let v := (List.range (m.length / 64)).foldl (fun v i => shaBlock v ((m.drop (64 * i)).take 64)) shaInit
  BitVec.ofNat 256 (v.foldl (fun x y => 2 ^ 32 * x + y.toNat) 0)
/-- A digest as the bytes it is. -/
def digestBytes (d : BitVec 256) : List Byte := beBytes 32 d.toNat
/-- HMAC-SHA-256 under the device's image key of 32 bytes (R419). -/
def imageSeal (bs : List Byte) : BitVec 256 :=
  let pad (x : Byte) : List Byte := (digestBytes Config.imageKey).map (· ^^^ x) ++ List.replicate 32 x
  sha256 (pad 0x5c#8 ++ digestBytes (sha256 (pad 0x36#8 ++ bs)))

/-! The curve P-256. -/

/-- The prime of the curve's field. -/
def curveP : Nat := 2 ^ 256 - 2 ^ 224 + 2 ^ 192 + 2 ^ 96 - 1
/-- The order of its base point. -/
def curveN : Nat := 0xffffffff00000000ffffffffffffffffbce6faada7179e84f3b9cac2fc632551
/-- Its base point. -/
def curveG : Nat × Nat :=
  (0x6b17d1f2e12c4247f8bce6e563a440f277037d812deb33a0f4a13945d898c296, 0x4fe342e2fe1a7f9b8ee7eb4a7c0f9e162bce33576b315ececbb6406837bf51f5)
/-- x to the power e modulo m, over the n low bits of e. -/
def powMod (m : Nat) : Nat → Nat → Nat → Nat
  | 0, _, _ => 1
  | n + 1, x, e => let y := powMod m n (x * x % m) (e / 2); if e % 2 = 1 then x * y % m else y
/-- The inverse modulo a prime of at most 256 bits. -/
def invMod (m x : Nat) : Nat := powMod m 256 (x % m) (m - 2)
/-- The sum of two points; none is the point at infinity. -/
def addPoint (u v : Option (Nat × Nat)) : Option (Nat × Nat) := match u, v with
  | none, _ => v
  | _, none => u
  | some (x1, y1), some (x2, y2) =>
    let p := curveP
    let meet (k : Nat) : Option (Nat × Nat) :=
      let x := (k * k + 2 * p - x1 - x2) % p
      some (x, (k * (x1 + p - x) + p - y1) % p)
    if x1 ≠ x2 then meet ((y2 + p - y1) * invMod p (x2 + p - x1) % p)
    else if (y1 + y2) % p = 0 then none
    else meet ((3 * x1 * x1 + p - 3) * invMod p (2 * y1) % p)
/-- A multiple of a point, over the n low bits of the factor. -/
def mulPoint : Nat → Nat → Option (Nat × Nat) → Option (Nat × Nat)
  | 0, _, _ => none
  | n + 1, k, u => let v := mulPoint n (k / 2) (addPoint u u); if k % 2 = 1 then addPoint u v else v
/-- A signature r, s on a digest verifies under a public key. -/
def ecdsaHolds (key : Nat × Nat) (digest : BitVec 256) (r s : Nat) : Bool :=
  let ok (x : Nat) : Bool := 0 < x && x < curveN
  let w := invMod curveN s
  ok r && ok s && match addPoint (mulPoint 256 (digest.toNat * w % curveN) (some curveG)) (mulPoint 256 (r * w % curveN) (some key)) with
    | some (x, _) => x % curveN == r
    | none => false
/-- KEYID names a key present in the key store, and the 64 bytes are a signature under it (R415, R418). -/
def signedBy (keyid : Nat) (digest : BitVec 256) (sig : List Byte) : Bool := match Config.keyStore keyid with
  | some key => ecdsaHolds key digest (leNat (sig.take 32)) (leNat (sig.drop 32))
  | none => false
/-- The identity key's secret number and its public point (R425). -/
def identitySecret : Nat := 1 + Config.identitySecret % (curveN - 1)
def identityPoint : Nat × Nat := (mulPoint 256 identitySecret (some curveG)).getD (0, 0)
/-- The identity key's signature r, s on a digest, with the nonce that the security block draws (R425). -/
def identitySign (digest : BitVec 256) : Nat × Nat :=
  let k := 1 + Config.signNonce digest % (curveN - 1)
  let r := ((mulPoint 256 k (some curveG)).getD (0, 0)).1 % curveN
  (r, invMod curveN k * (digest.toNat + r * identitySecret) % curveN)

end Sys2Proof.Machine
end

