-- ==== Sys2Proof/Machine/Loader.lean ====
section
/-! DEFINITION. The host command ring, code loading, the kernel indirection table, the fuse counter, attestation and the alarm (R415 to R428,
R435). -/

namespace Sys2Proof.Machine

/-! The command ring (R427, R428). -/

/-- The host address of the command at HEAD. -/
def headAddr (s : State) : Nat :=
  let c := ctlGet s hcqctlAddr
  fld (ctlGet s 0x7F0004000000) 6 58 * 64 + 64 * (fld c 48 16 % 2 ^ fld c 0 5)
/-- A word of the command at HEAD. -/
def cmdWord (s : State) (n : Nat) : W64 := hostWord s (headAddr s + 8 * n)
def cmdArg (s : State) (n : Nat) : Nat := (cmdWord s n).toNat
/-- CMD of the command at HEAD; none while the ring is empty, held by an HBORROW, or a FUSEUP is not complete. -/
def headCmd (s : State) : Option Nat :=
  let c := ctlGet s hcqctlAddr
  if fld c 32 16 = fld c 48 16 ∨ s.hcqHeld.isSome = true ∨ s.fuseBusy.isSome = true then none else some (fld (cmdWord s 0) 0 8)
/-- The ring takes the command at HEAD. -/
def takeCmd (s : State) : State := ctlPut s hcqctlAddr (setFld (ctlGet s hcqctlAddr) 48 16 (fld (ctlGet s hcqctlAddr) 48 16 + 1))
/-- The command at HEAD, as it stood in the first state, completes in the second. -/
def endCmdAt (s0 s : State) (status result : Nat) : State := takeCmd (hostComplete s (cmdArg s0 6) status result)
/-- A command runs when it stands at HEAD and no kill is being waited for. -/
def asCommand (cmd : Nat) (f : State → State) (s : State) : Host.Outcome State Fault Refusal :=
  if headCmd s = some cmd ∧ s.killing = none then .next (f s) else .fault .notEnabled
/-- A command that only completes. -/
def answer (s : State) (status : Nat) : State := endCmdAt s s status 0

/-! Objects (R415 to R417). -/

/-- A word of the object, and the fields of its header. -/
def objWord (s : State) (a n : Nat) : W64 := hostWord s (a + 8 * n)
structure Header where
  size : Nat
  nkern : Nat
  life : Nat
  desc : Nat
  code : Nat × Nat
  const : Nat × Nat
  rel : Nat × Nat
  secver : Nat
  step : Nat
  keyid : Nat
  deriving DecidableEq, Repr
/-- The header of an object. -/
def headerOf (s : State) (a : Nat) : Header :=
  let hi (n : Nat) : Nat := fld (objWord s a n) 32 32
  let lo (n : Nat) : Nat := fld (objWord s a n) 0 32
  { size := hi 1, nkern := fld (objWord s a 1) 0 16, life := hi 2, desc := lo 2, code := (hi 3, lo 3), const := (hi 4, lo 4), rel := (hi 5, lo 5),
    secver := fld (objWord s a 0) 16 16, step := fld (objWord s a 0) 0 16, keyid := fld (objWord s a 1) 16 3 }
/-- A descriptor outside its limits (R417), from its words. -/
def badDesc (w : Nat → W64) (codesz : Nat) : Bool :=
  let x := w 1
  let arg (k : Nat) : Bool := fld (w k) 8 24 != 0 || ((w k).getLsbD 7 && (fld (w k) 5 2 == 0 || 23 < fld (w k) 0 5))
  fld (w 0) 32 32 != 0 || fld (w 0) 0 32 % 8 != 0 || codesz ≤ fld (w 0) 0 32 || fld x 41 23 != 0 || fld x 0 4 != 0
    || fld x 36 4 == 0 || 8 < fld x 36 4 || fld x 31 5 == 0 || 16 < fld x 31 5 || fld x 26 5 == 0 || 16 < fld x 26 5 || 16 < fld x 21 5
    || 32 < fld x 15 6 || 1024 < fld x 4 11 || (List.range 16).any fun i => arg (2 + i)
/-- A relocation that names no section, or a word outside it. -/
def badRel (h : Header) (x : W64) : Bool :=
  1 < fld x 48 16 || (if fld x 48 16 = 0 then h.code.2 else h.const.2) < fld x 0 48 + 8
/-- The first check of R418, with that of R416 on the opcodes of headers. -/
def malformed (s : State) (a len : Nat) : Bool :=
  let h := headerOf s a
  let sec (off n : Nat) : Bool := off % 64 != 0 || h.size < off + n
  len < 128 || fld (objWord s a 0) 32 32 != 0x314F5244 || len < h.size || h.size < 128 || fld (objWord s a 1) 19 13 != 0 || h.nkern == 0
    || 4096 < h.nkern || objWord s a 6 != 0#64 || objWord s a 7 != 0#64 || h.code.2 % 8 != 0 || sec h.life 64 || sec h.desc (256 * h.nkern)
    || sec h.code.1 h.code.2 || sec h.const.1 h.const.2 || sec h.rel.1 (8 * h.rel.2)
    || hostBytes s (a + h.life + 62) 2 != [0#8, 0#8]
    || ((List.range h.nkern).any fun k => badDesc (fun n => hostWord s (a + h.desc + 256 * k + 8 * n)) h.code.2)
    || (List.range h.rel.2).any fun k => badRel h (hostWord s (a + h.rel.1 + 8 * k))
/-- The lifetime code of an opcode (R416). -/
def lifeOf (s : State) (a : Nat) (op : Nat) : Nat := bitsN (hostByte s (a + (headerOf s a).life + op / 4)).toNat (2 * (op % 4)) 2
/-- An opcode that Drelan 1.0 assigns (R176). -/
def assigned (op : Nat) : Bool := (decodeOp (BitVec.ofNat 64 (op * 2 ^ 56))).isSome
/-- The fifth check of R418. -/
def badLife (s : State) (a : Nat) : Bool :=
  let h := headerOf s a
  ((List.range 0xF8).any fun op => let c := lifeOf s a op; !(c == 0 || (c == 1 && assigned op)))
    || (List.range (h.code.2 / 8)).any fun i =>
      let x := hostWord s (a + h.code.1 + 8 * i)
      !isHeader x && lifeOf s a (fld x 56 8) != 1

/-! Resident images (R419 to R421). -/

/-- A size as a number of 64 KiB units, in bytes. -/
def up64k (n : Nat) : Nat := cdiv n 65536 * 65536
/-- The ranges of the image area that an image takes. -/
def imageRanges (im : Image) : List (Nat × Nat) := [im.code, im.const, im.desc].map fun x => (x.1, up64k x.2)
/-- The lowest place of the image area with n bytes free. -/
def findRoom (s : State) (n : Nat) : Option Nat :=
  let used := s.images.flatMap imageRanges
  let size := match imgArea s with
    | some (_, m) => m
    | none => 0
  let ok (o : Nat) : Bool := o + n ≤ size && used.all fun u => !rangesMeet o n u.1 u.2
  ((sortBy (fun a b => a ≤ b) (0 :: used.map fun u => u.1 + u.2)).filter ok).head?
/-- The lowest free directory number. -/
def freeNumber (s : State) : Option Nat := (List.range 4096).find? fun n => (imageOf s n).isNone
/-- The bytes that an image's tag is over. -/
def imageBytes (s : State) (im : Image) : List Byte := match imgArea s with
  | some (b, _) => [im.code, im.const, im.desc].flatMap fun x => devBytes s (b + x.1) x.2
  | none => []
/-- The key store is erased (R426). -/
def keysErased (s : State) : Bool := (ctlGet s secstatAddr).getLsbD 8
/-- The seal of an image holds (R421, R426). -/
def sealHolds (s : State) (im : Image) : Bool := !keysErased s && im.tagged == imageSeal (imageBytes s im)
/-- The address of an entry of the table. -/
def kernelAddr (k : Nat) : Nat := 0x7F0002000000 + 16 * k
/-- V of an entry cleared. -/
def clearKernel (s : State) (k : Nat) : State := ctlPut s (kernelAddr k) (setFld (ctlGet s (kernelAddr k)) 63 1 0)
/-- The entries of the table whose second word passes a test. -/
def kernelsThat (s : State) (p : W64 → Bool) : List Nat :=
  ((s.ctl.filter fun c => inUnits c.1 0x7F0002000000 16 65536 && c.1 % 16 == 0).map fun c => (c.1 - 0x7F0002000000) / 16).filter fun k =>
    p (ctlGet s (kernelAddr k + 8))
/-- An image leaves: at once, or with its last user; no entry of the table binds its number from then on (R421, R424). -/
def evictImage (s : State) (n : Nat) : State :=
  let s := (kernelsThat s fun x => fld x 0 12 == n).foldl clearKernel s
  { s with images := (s.images.filter fun im => !(im.num == n && im.uses == 0)).map fun im => if im.num = n then { im with doomed := true } else im }
/-- Bytes of the image area written. -/
def areaPut (s : State) (off : Nat) (bs : List Byte) : State := match imgArea s with
  | some (b, _) => devPut (sliceDrop s (b + off) bs.length) (b + off) bs
  | none => s
/-- A section relocated: the image address of the section is added to each word named (R415, R420). -/
def relocated (words : List W64) (kind at_ : Nat) (bs : List Byte) : List Byte :=
  words.foldl (fun bs x =>
    if fld x 48 16 = kind then
      let o := fld x 0 48
      patch bs o (leBytes 8 (leNat ((bs.drop o).take 8) + windowBase + at_))
    else bs) bs
/-- An accepted object becomes a resident image (R419, R421). -/
def install (s : State) (a num at_ : Nat) (digest : BitVec 256) : State :=
  let h := headerOf s a
  let rels := (List.range h.rel.2).map fun k => hostWord s (a + h.rel.1 + 8 * k)
  let o1 := at_ + up64k h.code.2
  let o2 := o1 + up64k h.const.2
  let s := areaPut s at_ (relocated rels 0 at_ (hostBytes s (a + h.code.1) h.code.2))
  let s := areaPut s o1 (relocated rels 1 o1 (hostBytes s (a + h.const.1) h.const.2))
  let s := areaPut s o2 (hostBytes s (a + h.desc) (256 * h.nkern))
  let im : Image := { num := num, digest := digest, secver := h.secver, code := (at_, h.code.2), const := (o1, h.const.2), desc := (o2, 256 * h.nkern) }
  { s with images := s.images ++ [{ im with tagged := imageSeal (imageBytes s im) }], loadDone := true }
/-- What a LOAD gives: the state, its status and result (R418, R419, R421). -/
def loadObject (s : State) (a len : Nat) : State × Nat × Nat :=
  let h := headerOf s a
  if (imgArea s).isNone then (s, 6, 0)
  else if malformed s a len then (s, 1, 0)
  else
    let digest := sha256 (hostBytes s a h.size)
    let old := s.images.find? fun im => im.digest == digest && im.secver == h.secver && !im.doomed
    let known := !keysErased s && (Config.keyStore h.keyid).isSome
    let signed := known && signedBy h.keyid (sha256 (hostBytes s a (h.size - 64))) (hostBytes s (a + (h.size - 64)) 64)
    if !known || (old.isNone && !signed) then (s, 2, 0)
    else if h.step ≠ 0x4131 then (s, 3, 0)
    else if h.secver < s.fuse then (s, 4, 0)
    else if badLife s a then (s, 5, 0)
    else match freeNumber s, findRoom s (up64k h.code.2 + up64k h.const.2 + up64k (256 * h.nkern)) with
      | some n, some at_ => match old with
        | some im => if sealHolds s im then (s, 0, im.num) else (evictImage s im.num, 2, 0)
        | none => (install s a n at_ digest, 0, n)
      | _, _ => (s, 6, 0)
/-- LOAD (R418 to R421, R428). A command of no known number stands at HEAD as LOAD would, and is malformed. -/
def execLoad (s : State) : Host.Outcome State Fault Refusal :=
  match headCmd s with
  | none => .fault .notEnabled
  | some n =>
    if s.killing ≠ none then .fault .notEnabled
    else if n = 1 then
      let r := loadObject s (cmdArg s 1) (cmdArg s 2)
      .next (endCmdAt s r.1 r.2.1 r.2.2)
    else if n = 0 ∨ 0xF < n then .next (answer s 1)
    else .fault .notEnabled
/-- UNLOAD (R421, R428). -/
def execUnload (s : State) : Host.Outcome State Fault Refusal :=
  asCommand 2 (fun s => match imageOf s (cmdArg s 1) with
    | none => answer s 9
    | some im => if im.uses = 0 then endCmdAt s (evictImage s im.num) 0 0 else answer s 7) s

/-! The kernel indirection table (R423, R424, R435). -/

/-- An entry bound to a descriptor of an image. -/
def bindKernel (s : State) (k : Nat) (im : Image) (n : Nat) : State :=
  ctlPut (ctlPut s (kernelAddr k) (BitVec.ofNat 64 (2 ^ 63 + (im.desc.1 + 256 * n)))) (kernelAddr k + 8) (BitVec.ofNat 64 (im.secver * 2 ^ 32 + im.num))
/-- REPLACE (R424, R428, R435): it comes before every launch that binds its entry in the same cycle. -/
def execReplace (s : State) : Host.Outcome State Fault Refusal :=
  if headCmd s = some 3 ∧ s.startedNow.contains (cmdArg s 1) then .fault .notEnabled
  else asCommand 3 (fun s =>
    let k := cmdArg s 1
    if 65535 < k then answer s 1
    else if (cmdWord s 3).getLsbD 63 then endCmdAt s (clearKernel s k) 0 0
    else match liveImage s (cmdArg s 2) with
      | none => answer s 9
      | some im =>
        if im.secver < s.fuse then answer s 4
        else if im.desc.2 ≤ 256 * cmdArg s 3 then answer s 1
        else endCmdAt s (bindKernel s k im (cmdArg s 3)) 0 0) s

/-! The fuse counter (R422). -/

/-- FUSEUP (R422): the blowing of fuses begins; the command completes with it. -/
def execFuseup (s : State) : Host.Outcome State Fault Refusal :=
  asCommand 0xC (fun s => if 64 < cmdArg s 1 then answer s 1 else { s with fuseBusy := some (cmdArg s 1), fuseBy := s.time1588.toNat + 50000000 }) s
/-- The entries of the table bound to an image below a security version. -/
def oldKernels (s : State) (v : Nat) : List Nat := kernelsThat s fun x => fld x 32 16 < v
/-- FUSE_BLOW_COMPLETE (R422). -/
def execFuseBlowComplete (s : State) : Host.Outcome State Fault Refusal :=
  match s.fuseBusy with
  | none => .fault .notEnabled
  | some v =>
    let s1 := (oldKernels s v).foldl clearKernel { s with fuse := max s.fuse v, fuseBusy := none }
    let s2 := (s1.images.filter fun im => im.secver < v).foldl (fun s im => evictImage s im.num) s1
    .next (endCmdAt s s2 0 0)

/-! Attestation and the alarm (R425, R426). -/

/-- Bytes 0 to 191 of a report. -/
def reportBody (s : State) (nonce : List Byte) : List Byte :=
  let c := ctlGet s secstatAddr
  let order := sortBy (fun (a b : Image) => a.num ≤ b.num) s.images
  nonce ++ leBytes 8 0x4131 ++ leBytes 8 (s.fuse % 256) ++ leBytes 8 (2 * (c.getLsbD 8).toNat + (c.getLsbD 7).toNat) ++ leBytes 8 s.images.length
    ++ digestBytes (sha256 (order.flatMap fun im => digestBytes im.digest ++ leBytes 2 im.secver))
    ++ leBytes 32 identityPoint.1 ++ leBytes 32 identityPoint.2 ++ leBytes 32 0
/-- ATTEST (R425). -/
def execAttest (s : State) : Host.Outcome State Fault Refusal :=
  asCommand 0xD (fun s =>
    if keysErased s then answer s 8
    else
      let body := reportBody s (hostBytes s (cmdArg s 1) 32)
      let sig := identitySign (sha256 body)
      endCmdAt s (hostPut s (cmdArg s 2) (body ++ leBytes 32 sig.1 ++ leBytes 32 sig.2)) 0 0) s
/-- SECURITY_ALARM (R426). -/
def execSecurityAlarm (s : State) : Host.Outcome State Fault Refusal :=
  let erase := (ctlGet s 0x7F0004000030).getLsbD 0
  let s := { s with notices := s.notices + 1 }
  .next (ctlPut s secstatAddr (ctlGet s secstatAddr ||| (if erase then 0x180#64 else 0x80#64)))

end Sys2Proof.Machine
end

