-- ==== Sys2Proof/Machine/HostCmd.lean ====
section
/-! DEFINITION. Host commands on contexts, borrows, workgroups, fault records and pool extents; CXL.mem; the thermal limit (R92, R400, R401,
R428 to R432, R434). -/

namespace Sys2Proof.Machine

/-! Contexts (R429). -/

/-- A context that CTXSET made valid. -/
def knownCtx (s : State) (c : Nat) : Bool := c ≤ 0xFFFE && ctxValid s c
/-- An entry that CTXSET refuses. -/
def badCtx (s : State) (c : Nat) (w : Nat → W64) : Bool :=
  let tmap := fld (w 3) 13 35 * 2 ^ 13
  0xFFFE < c || fld (w 0) 54 9 != 0 || fld (w 0) 0 12 != 0 || fld (w 1) 48 16 != 0 || fld (w 1) 0 21 != 0 || fld (w 2) 32 32 != 0
    || fld (w 3) 48 16 != 0 || fld (w 3) 0 13 != 0 || !isDram (fld (w 0) 12 36 * 2 ^ 12) || !isDram (fld (w 1) 21 27 * 2 ^ 21) || !isDram tmap
    || meetsImages s tmap 8192
/-- CTXSET (R428, R429). -/
def execCtxset (s : State) : Host.Outcome State Fault Refusal :=
  asCommand 4 (fun s =>
    let c := cmdArg s 1
    let w (n : Nat) : W64 := cmdWord s (2 + n)
    if badCtx s c w then answer s 1
    else
      let s1 := (List.range 4).foldl (fun x n => ctlPut x (0x7F0003000000 + 32 * c + 8 * n) (w n)) s
      endCmdAt s s1 0 0) s

/-! Host borrows (R92, R428). -/

/-- A physical range that one kind of memory backs, or that lies in control space. -/
def hostRange (pa n : Nat) : Bool :=
  pa + n ≤ 2 ^ 48 && ((isDram pa && pa + n ≤ dramTop) || (isCtl pa && isCtl (pa + n - 1)) || (isPool pa)
    || match vaultOf pa with
      | some d => vaultOf (pa + n - 1) == some d
      | none => false)
/-- A physical range cut where its home changes. -/
def hostExtents (pa n : Nat) : List (Nat × Nat) :=
  if isDram pa then (List.range 4).filterMap fun d => overlap (pa, n) (d * dieBytes, dieBytes) else [(pa, n)]
/-- HBORROW (R92, R428): refused at once, or asked for; the ring waits for the grant, or until a run is queued. -/
def hostBorrow (s : State) : State :=
  let c := cmdArg s 1
  let k := cmdArg s 2
  let pa := cmdArg s 3
  let grains := cmdArg s 4
  let xs := hostExtents pa (256 * grains)
  if !knownCtx s c then answer s 9
  else if k = 0 ∨ 3 < k ∨ pa % 256 ≠ 0 ∨ grains = 0 ∨ 2 ^ 32 < grains ∨ hostRange pa (256 * grains) = false then answer s 1
  else if unborrowable s (BitVec.ofNat 2 k) (2 ^ 60) 0 xs then endCmdAt s s 0 4
  else match startReq s (.host (cmdArg s 6) (cmdArg s 7)) none c (BitVec.ofNat 2 k) (pa / 256) grains (runsOf xs) ((cmdWord s 5).getLsbD 0) with
    | none => endCmdAt s s 0 2
    | some (id, s) => { takeCmd s with hcqHeld := some id }
/-- HBORROW (R92, R428). -/
def execHborrow (s : State) : Host.Outcome State Fault Refusal := asCommand 5 hostBorrow s
/-- The host's grant over a range (R428). -/
def hostGrant (s : State) (c pa grains : Nat) : Option Grant :=
  s.grants.find? fun g => g.ctx == c && g.vbase * 256 == pa && g.grains == grains && match g.taker with
    | .host _ _ => true
    | _ => false
/-- HRETURN (R92, R428): every share of the borrow is given up, and its ticket is free. -/
def execHreturn (s : State) : Host.Outcome State Fault Refusal :=
  asCommand 6 (fun s => match hostGrant s (cmdArg s 1) (cmdArg s 2) (cmdArg s 3) with
    | none => answer s 9
    | some g => endCmdAt s (dropGrant (g.runs.foldl (fun s run => lowerEntry s g.ctx g.kind run) s) g) 0 0) s

/-- A CXL.mem access lies under host borrows of a permitting kind (R92). -/
def hostCovers (s : State) (pa n : Nat) (write : Bool) : Bool :=
  let runs := (s.grants.filter fun g => (match g.taker with
    | .host _ _ => true
    | _ => false) && (g.kind == 1#2 || (!write && g.kind == 2#2))).flatMap fun g => g.runs.filter fun r => (entryOf s g.ctx g.kind r).isSome
  (List.range (cdiv (pa % 256 + n) 256)).all fun i => runs.any fun r => r.pbase ≤ pa / 256 + i && pa / 256 + i < r.pbase + r.grains
/-- A page-table entry written: it stands for the one before at its place (R25). -/
def putPage (ps : List PageMap) (p : PageMap) : List PageMap := p :: ps.filter fun q => !(q.ctx == p.ctx && q.va == p.va && q.size == p.size)
/-- CXL_MEM_ACCESS (R92, R359, R427): served under a host borrow; otherwise a read returns poison, and a write is dropped and reported. A write
to page tables, which lie in DRAM, changes the pages that it names. -/
def execCxlMemAccess (a : CxlAccess) (s : State) : Host.Outcome State Fault Refusal :=
  let n := match a.data with
    | some d => d.length
    | none => a.len
  if n = 0 ∨ !(isBacked a.pa) ∨ !(isBacked (a.pa + n - 1)) then .fault .notEnabled
  else match a.data with
    | some d => .next (if hostCovers s a.pa n true then
          { writeAtHome s a.pa d with pages := if isDram a.pa then a.tables.foldl putPage s.pages else s.pages }
        else { s with notices := s.notices + 1 })
    | none => .next (if hostCovers s a.pa n false && !deadIn s a.pa n then hostPut s a.hostAddr (homeBytes s a.pa n)
        else { s with hostMem := memClear s.hostMem a.hostAddr n })

/-! Kills and terminations (R86, R400, R401). -/

/-- The status of the launches of a context that is killed (R390). -/
def killStatus (s : State) (c : Nat) : Nat := if (ctxOf s c).hung then 0x12 else 0x11
/-- The command at HEAD kills a context, and waits until every walk has ended (R86). -/
def killStep (s : State) (c : Nat) : State :=
  let s := if (ctxOf s c).killed then s else killContext s c (killStatus s c)
  { s with killing := some c }
/-- The kill that the ring waits for is over. -/
def killOver (s : State) : Bool := match s.killing with
  | some c => !(ctxOf s c).killed
  | none => false
/-- KILL (R86, R428): it begins, and completes when the walks have ended. -/
def execKill (s : State) : Host.Outcome State Fault Refusal :=
  if headCmd s ≠ some 7 then .fault .notEnabled
  else if s.killing ≠ none then (if killOver s then .next (endCmdAt s { s with killing := none } 0 0) else .fault .notEnabled)
  else if knownCtx s (cmdArg s 1) then .next (killStep s (cmdArg s 1))
  else .next (answer s 9)
/-- WGTERM (R400, R428). -/
def execWgterm (s : State) : Host.Outcome State Fault Refusal :=
  asCommand 8 (fun s => match s.wgs.find? fun w => w.ctx == cmdArg s 1 && w.tag % 2 ^ 24 == cmdArg s 2 && w.st != WgSt.ended with
    | none => answer s 9
    | some w => endCmdAt s (terminateWg s w.tag true 0) 0 0) s

/-! Answers to fault records (R400, R401, R428). -/

/-- A record that awaits its answer. -/
def openRecord (s : State) (n : Nat) : Option FaultRec := s.faults.find? fun r => r.no == n && r.written && !r.answered
/-- A record answered. -/
def answered (s : State) (n : Nat) : State := { s with faults := updFirst (fun r => r.no == n) (fun r => { r with answered := true }) s.faults }
/-- The record of an engine command, or of the watchdog. -/
def isEngineRec (r : FaultRec) : Bool := r.code == 0x20#8 && r.lanes == 0#32
def isHangRec (r : FaultRec) : Bool := r.code == 0xF0#8
/-- The lanes of a record that are parked. -/
def recordLanes (w : Wg) (r : FaultRec) : LaneMask := r.lanes &&& lanesIn (gangOf w r.gang) fun st => st == .parked
/-- The lanes of a record runnable, at a PC (R400). -/
def unpark (s : State) (r : FaultRec) (at_ : Lane → W64 × Option W64) : State :=
  match findWg s r.wgtag with
  | none => s
  | some w =>
    let now := s.cycle
    updGang s r.wgtag r.gang (mapLanes (recordLanes w r) fun _ l => { l with pc := (at_ l).1, cbase := (at_ l).2, st := .ready, since := now })
/-- The context is no longer hung: its watchdog counters are clear (R401). -/
def unhang (s : State) (c : Nat) : State :=
  updCtx { s with wgs := s.wgs.map fun w => if w.ctx = c then { w with idle := 0 } else w } c fun x => { x with hung := false }
/-- Where SKIP sends a lane; none when there is no word to skip (R400). -/
def skipTo (s : State) (w : Wg) (l : Lane) : Option (W64 × Option W64) :=
  match fetch s w l.pc with
  | none => none
  | some x => match l.cbase with
    | some b => some (afterWord s w l.pc b)
    | none => if isHeader x then some (clauseNext l.pc x, none) else none
/-- An answer to the record that the command names. -/
def asAnswer (cmd : Nat) (f : State → FaultRec → State) (s : State) : Host.Outcome State Fault Refusal :=
  asCommand cmd (fun s => match openRecord s (cmdArg s 1) with
    | none => answer s 9
    | some r => if !isHangRec r && (findWg s r.wgtag).isNone then answer s 9 else f s r) s
/-- RESUME's effect. -/
def resumeRecord (s : State) (r : FaultRec) : State :=
  if isHangRec r then unhang s r.ctx
  else if isEngineRec r then (match r.cmd with
    | some id =>
      let free (c : MCmd) : MCmd := { c with suspended := none }
      updWg (updEng s id fun c => { c with suspended := none }) r.wgtag fun w => { w with mq := updFirst (fun x => x.id == id) free w.mq }
    | none => s)
  else unpark s r fun l => (l.pc, l.cbase)
/-- RESUME (R344, R400, R401, R428). -/
def execResume (s : State) : Host.Outcome State Fault Refusal :=
  asAnswer 9 (fun s r => endCmdAt s (answered (resumeRecord s r) r.no) 0 0) s
/-- SKIP (R400, R428). -/
def execSkip (s : State) : Host.Outcome State Fault Refusal :=
  asAnswer 0xA (fun s r =>
    if isHangRec r || isEngineRec r then answer s 1
    else if r.code = 0x30#8 ∨ r.code = 0x31#8 then endCmdAt s (answered (resumeRecord s r) r.no) 0 0
    else match findWg s r.wgtag with
      | none => answer s 9
      | some w => match skipTo s w (laneOf (gangOf w r.gang) (lowest (recordLanes w r))) with
        | none => answer s 1
        | some p => endCmdAt s (answered (unpark s r fun _ => p) r.no) 0 0) s
/-- An MLD whose fault is declared unserviceable fails as one that reads poison does (log 129). -/
def failMld (s : State) (tag id : Nat) : State := match (findWg s tag).bind fun w => (findCmd w id).map fun c => (w, c) with
  | some (w, c) => match c.kind, c.mac with
    | .mld _ hank _ _ _ _ _, some m => mldFails s w c m hank
    | _, _ => s
  | none => s
/-- FAIL's effect on a record of lanes or of an engine. -/
def failRecord (s : State) (r : FaultRec) : State :=
  if isEngineRec r then (match r.cmd, r.cmd.bind (findEng s) with
    | _, some c => failEng s c
    | some id, none => failMld s r.wgtag id
    | none, none => s)
  else terminateWg s r.wgtag false r.no
/-- FAIL (R344, R357, R400, R401, R428): of a watchdog record, it kills the context, as KILL does. -/
def execFail (s : State) : Host.Outcome State Fault Refusal :=
  if headCmd s = some 0xB ∧ s.killing ≠ none then
    (if killOver s then .next (endCmdAt s { s with killing := none } 0 0) else .fault .notEnabled)
  else asAnswer 0xB (fun s r => if isHangRec r then killStep s r.ctx else endCmdAt s (answered (failRecord s r) r.no) 0 0) s

/-! Pool extents (R430 to R432). -/

/-- The device a pool extent lies on, as the fabric manager has laid it out. -/
def extentDevice (n : Nat) : Nat := Config.freeNat (2 ^ 64 + n)
/-- The IOD revokes what is mapped at a window slot, at one instant: entries over it are freed, their waiters refused, their holders told
(R431). -/
def revokeSlot (s : State) (w : Nat) : State :=
  let lo := (poolBase + w * 2 ^ 30) / 256
  let over_ (r : Run) : Bool := r.home == 4 && rangesMeet r.pbase r.grains lo (2 ^ 22)
  let s := { s with extents := s.extents.map fun (e : Nat × Nat × Nat × Bool) => if e.2.1 = w then (e.1, w, e.2.2.1, true) else e }
  let hit := s.own.filter fun e => over_ (entryRun e)
  let tickets := (s.grants.filter fun g => g.runs.any over_).map fun g => (g.ctx, g.ticket)
  let holds (x : Wg) (t : Nat × Nat) : Bool := x.ctx == t.1 && (hanksOf x).any fun k => k.kind != 0#2 && k.ticket.toNat == t.2
  let told := s.wgs.flatMap fun x => (tickets.filter (holds x)).map fun t => Msg.revoke x.tag t.1 t.2
  let refused := (s.waiters.filter fun x => over_ (waiterRun x)).map fun x => Msg.refusal x.req 4
  grantWaiters { s with own := s.own.filter fun e => !hit.contains e
                        grants := s.grants.map fun (g : Grant) => { g with revoked := g.revoked || g.runs.any over_ }
                        reqs := s.reqs.map fun (r : Req) => { r with revoked := r.revoked || r.held.any over_ }
                        waiters := s.waiters.filter fun x => !over_ (waiterRun x)
                        msgs := s.msgs ++ told ++ refused } 4
/-- Extents in force that a test names, by slot. -/
def slotsOf (s : State) (p : Nat × Nat × Nat × Bool → Bool) : List Nat := (s.extents.filter fun e => !e.2.2.2 && p e).map fun e => e.2.1
/-- EXTMAP (R428, R430): what the extent holds there is not known to this module. -/
def execExtmap (s : State) : Host.Outcome State Fault Refusal :=
  asCommand 0xE (fun s =>
    let n := cmdArg s 1
    let w := cmdArg s 2
    if 131071 < w then answer s 1
    else if !(slotsOf s fun e => e.2.1 == w).isEmpty then answer s 7
    else
      let s1 := smear { s with extents := (n, w, extentDevice n, false) :: s.extents.filter fun e => e.2.1 != w } (poolBase + w * 2 ^ 30) (2 ^ 30)
      endCmdAt s s1 0 0) s
/-- EXTUNMAP (R428, R431). -/
def execExtunmap (s : State) : Host.Outcome State Fault Refusal :=
  asCommand 0xF (fun s =>
    if (slotsOf s fun e => e.1 == cmdArg s 1 && e.2.1 == cmdArg s 2).isEmpty then answer s 9 else endCmdAt s (revokeSlot s (cmdArg s 2)) 0 0) s
/-- EXTENT_TAKEBACK (R431). -/
def execExtentTakeback (extent : Nat) (s : State) : Host.Outcome State Fault Refusal :=
  let ws := slotsOf s fun e => e.1 == extent
  if ws.isEmpty then .fault .notEnabled else .next (ws.foldl revokeSlot s)
/-- POOL_FATAL_ERROR (R432): every extent of the device is revoked, and the host is told; or the lines named, of extents of the device, are
lost. -/
def execPoolFatalError (x : PoolFault) (s : State) : Host.Outcome State Fault Refusal := match x with
  | .metadata device =>
    let s := { s with notices := s.notices + 1 }
    .next ((slotsOf s fun e => e.2.2.1 == device).foldl revokeSlot s)
  | .lines device ranges =>
    if ranges.all fun r => r.offset + r.bytes ≤ 2 ^ 30 && extentDevice r.extent == device then .next { s with lost := ranges ++ s.lost }
    else .fault .notEnabled

/-- THERMAL_LIMIT (R434): the arithmetic clock steps down by 125 MHz, or back, and the step is reported. -/
def execThermalLimit (up : Bool) (s : State) : Host.Outcome State Fault Refusal :=
  if (if up then 1750 < s.clockMHz + 125 else s.clockMHz ≤ 125) then .fault .notEnabled
  else .next { s with clockMHz := if up then s.clockMHz + 125 else s.clockMHz - 125, sideband := s.sideband + 1 }

end Sys2Proof.Machine
end

