-- ==== Sys2Proof/Machine/Scalar.lean ====
section
/-! DEFINITION. The scalar instructions and the control transfers, opcodes 0x00 to 0x1F (R187 to R206). -/

namespace Sys2Proof.Machine

/-- NOP has no effect (R205). -/
def execNop (g : Guard) (f : FmtT) (s : State) : Host.Outcome State Fault Refusal :=
  runWord (.nop g f) g (fun _ _ s => { s := s }) s

/-! Scalar arithmetic (R189 to R192). -/

/-- A scalar word of format T from its sources A, B and C and its MOD (R190). -/
def scalT (i : Instr) (g : Guard) (f : FmtT) (sem : W64 → W64 → W64 → W64) (s : State) : Host.Outcome State Fault Refusal :=
  runWord i g (scalBody f.d.toNat fun h => sem (srcS h f.a.toNat) (srcS h f.b.toNat) (srcS h f.c.toNat)) s

/-- Bits [127:64] of the exact product (R190). -/
def smulhSem (u : Bool) (a b : W64) : W64 :=
  if u then BitVec.ofNat 64 (a.toNat * b.toNat / 2 ^ 64) else ofInt 64 (a.toInt * b.toInt / 2 ^ 64)
/-- The lesser (R190). -/
def sminSem (u : Bool) (a b : W64) : W64 := if (if u then a.toNat ≤ b.toNat else a.toInt ≤ b.toInt) then a else b
/-- The greater (R190). -/
def smaxSem (u : Bool) (a b : W64) : W64 := if (if u then b.toNat ≤ a.toNat else b.toInt ≤ a.toInt) then a else b
/-- The condition codes of SCMP, VCMP and WAITV on integers (R190, R216, R253). -/
def ccInt (cc : Nat) (a b : Int) : Bool :=
  match cc with
  | 0 => a == b
  | 1 => a != b
  | 2 => a < b
  | 3 => a ≤ b
  | 4 => b < a
  | 5 => b ≤ a
  | _ => false
/-- SCMP (R190). -/
def scmpSem (m : BitVec 14) (a b : W64) : W64 :=
  if (if modBit m 3 then ccInt (modBits m 0 3) a.toNat b.toNat else ccInt (modBits m 0 3) a.toInt b.toInt) then 1#64 else 0#64
/-- SDIV (R191). -/
def sdivSem (u rem : Bool) (a b : W64) : W64 :=
  if b = 0#64 then (if rem then a else 0xFFFFFFFFFFFFFFFF#64)
  else if u then (if rem then BitVec.ofNat 64 (a.toNat % b.toNat) else BitVec.ofNat 64 (a.toNat / b.toNat))
  else if rem then ofInt 64 (a.toInt.tmod b.toInt) else ofInt 64 (a.toInt.tdiv b.toInt)

/-- SMOV (R190). -/
def execSmov (g : Guard) (f : FmtT) (s : State) : Host.Outcome State Fault Refusal := scalT (.smov g f) g f (fun a _ _ => a) s
/-- SADD (R190). -/
def execSadd (g : Guard) (f : FmtT) (s : State) : Host.Outcome State Fault Refusal := scalT (.sadd g f) g f (fun a b _ => a + b) s
/-- SSUB (R190). -/
def execSsub (g : Guard) (f : FmtT) (s : State) : Host.Outcome State Fault Refusal := scalT (.ssub g f) g f (fun a b _ => a - b) s
/-- SMUL (R190). -/
def execSmul (g : Guard) (f : FmtT) (s : State) : Host.Outcome State Fault Refusal := scalT (.smul g f) g f (fun a b _ => a * b) s
/-- SMULH (R190). -/
def execSmulh (g : Guard) (f : FmtT) (s : State) : Host.Outcome State Fault Refusal :=
  scalT (.smulh g f) g f (fun a b _ => smulhSem (modBit f.mod 0) a b) s
/-- SAND (R190). -/
def execSand (g : Guard) (f : FmtT) (s : State) : Host.Outcome State Fault Refusal := scalT (.sand g f) g f (fun a b _ => a &&& b) s
/-- SOR (R190). -/
def execSor (g : Guard) (f : FmtT) (s : State) : Host.Outcome State Fault Refusal := scalT (.sor g f) g f (fun a b _ => a ||| b) s
/-- SXOR (R190). -/
def execSxor (g : Guard) (f : FmtT) (s : State) : Host.Outcome State Fault Refusal := scalT (.sxor g f) g f (fun a b _ => a ^^^ b) s
/-- SSHL (R190). -/
def execSshl (g : Guard) (f : FmtT) (s : State) : Host.Outcome State Fault Refusal :=
  scalT (.sshl g f) g f (fun a b _ => a <<< (b.toNat % 64)) s
/-- SSHR (R190). -/
def execSshr (g : Guard) (f : FmtT) (s : State) : Host.Outcome State Fault Refusal :=
  scalT (.sshr g f) g f (fun a b _ => a >>> (b.toNat % 64)) s
/-- SSRA (R190). -/
def execSsra (g : Guard) (f : FmtT) (s : State) : Host.Outcome State Fault Refusal :=
  scalT (.ssra g f) g f (fun a b _ => a.sshiftRight (b.toNat % 64)) s
/-- SMIN (R190). -/
def execSmin (g : Guard) (f : FmtT) (s : State) : Host.Outcome State Fault Refusal :=
  scalT (.smin g f) g f (fun a b _ => sminSem (modBit f.mod 0) a b) s
/-- SMAX (R190). -/
def execSmax (g : Guard) (f : FmtT) (s : State) : Host.Outcome State Fault Refusal :=
  scalT (.smax g f) g f (fun a b _ => smaxSem (modBit f.mod 0) a b) s
/-- SCLZ (R190). -/
def execSclz (g : Guard) (f : FmtT) (s : State) : Host.Outcome State Fault Refusal :=
  scalT (.sclz g f) g f (fun a _ _ => BitVec.ofNat 64 (64 - bitLen a.toNat)) s
/-- SPOPC (R190). -/
def execSpopc (g : Guard) (f : FmtT) (s : State) : Host.Outcome State Fault Refusal :=
  scalT (.spopc g f) g f (fun a _ _ => BitVec.ofNat 64 (popN 64 a.toNat)) s
/-- SCMP (R190). -/
def execScmp (g : Guard) (f : FmtT) (s : State) : Host.Outcome State Fault Refusal :=
  scalT (.scmp g f) g f (fun a b _ => scmpSem f.mod a b) s
/-- SSEL (R190). -/
def execSsel (g : Guard) (f : FmtT) (s : State) : Host.Outcome State Fault Refusal :=
  scalT (.ssel g f) g f (fun a b c => if c = 0#64 then b else a) s
/-- SDIV (R191). -/
def execSdiv (g : Guard) (f : FmtT) (s : State) : Host.Outcome State Fault Refusal :=
  scalT (.sdiv g f) g f (fun a b _ => sdivSem (modBit f.mod 0) (modBit f.mod 1) a b) s
/-- SMOVI, SMOVI.u and SMOVI.hi (R192). -/
def smoviSem (f : FmtI) (old : W64) : W64 :=
  if f.a = 0#8 then f.imm.signExtend 64 else if f.a = 1#8 then f.imm.zeroExtend 64 else f.imm ++ old.extractLsb' 0 32
/-- SMOVI (R192). -/
def execSmovi (g : Guard) (f : FmtI) (s : State) : Host.Outcome State Fault Refusal :=
  runWord (.smovi g f) g (scalBody f.d.toNat fun h => smoviSem f (srcS h f.d.toNat)) s
/-- SADDI (R192). -/
def execSaddi (g : Guard) (f : FmtI) (s : State) : Host.Outcome State Fault Refusal :=
  runWord (.saddi g f) g (scalBody f.d.toNat fun h => srcS h f.a.toNat + f.imm.signExtend 64) s

/-! Control transfers (R193 to R198). -/

/-- Lanes take a new PC at a clause boundary (R193). -/
def moveLanes (h : Here) (m : LaneMask) (pcOf : Lane → W64) (s : State) : State :=
  let now := s.cycle
  updLanes h m (fun _ l => { l with pc := pcOf l, cbase := none, since := now }) s
/-- The lanes of a set go to one target, and leave the issue; the others go to next. -/
def branchFx (h : Here) (m : LaneMask) (target : W64) (s : State) : Fx := { s := moveLanes h m (fun _ => target) s, gone := m }
/-- A relative target: words from the branch word (R169, R193). -/
def relTarget (h : Here) (words : Int) : W64 := h.iss.at_ + ofInt 64 (8 * words)

/-- JMP (R194). -/
def execJmp (g : Guard) (f : FmtB) (s : State) : Host.Outcome State Fault Refusal :=
  runWord (.jmp g f) g (fun h tru s => branchFx h tru (relTarget h f.off.toInt) s) s
/-- BRZ (R196). -/
def execBrz (g : Guard) (f : FmtI) (s : State) : Host.Outcome State Fault Refusal :=
  runWord (.brz g f) g (fun h tru s => branchFx h (if srcS h f.a.toNat = 0#64 then tru else 0#32) (relTarget h f.imm.toInt) s) s
/-- BRNZ (R196). -/
def execBrnz (g : Guard) (f : FmtI) (s : State) : Host.Outcome State Fault Refusal :=
  runWord (.brnz g f) g (fun h tru s => branchFx h (if srcS h f.a.toNat = 0#64 then 0#32 else tru) (relTarget h f.imm.toInt) s) s
/-- BRV: a named mask gains every active lane, whichever way its guard sends it (R195). -/
def execBrv (g : Guard) (f : FmtB) (s : State) : Host.Outcome State Fault Refusal :=
  runWord (.brv g f) g (fun h tru s =>
    let fx := branchFx h tru (relTarget h f.off.toInt) s
    if f.j.getLsbD 3 then fx else { fx with jop := some ⟨.add, f.j.toNat % 8, h.iss.lanes⟩ }) s
/-- CALL: next goes to the pair vD, and the target is relative by a signed IMM32, or the pair vA (R197; log entry 132). -/
def callBody (f : FmtI) (h : Here) (tru : LaneMask) (s : State) : Fx :=
  let next := (nextPc h).1
  let target (l : Lane) : W64 := if f.a = 0xFF#8 then relTarget h f.imm.toInt else BitVec.ofNat 64 (vregs l f.a.toNat 2)
  let s := moveLanes h tru target s
  { s := updLanes h tru (fun _ l => vputs l f.d.toNat 2 next.toNat) s, gone := tru }
/-- CALL (R197). -/
def execCall (g : Guard) (f : FmtI) (s : State) : Host.Outcome State Fault Refusal := runWord (.call g f) g (callBody f) s
/-- RET (R198). -/
def execRet (g : Guard) (f : FmtT) (s : State) : Host.Outcome State Fault Refusal :=
  runWord (.ret g f) g (fun h tru s =>
    { s := moveLanes h tru (fun l => BitVec.ofNat 64 (vregs l f.a.toNat 2)) s, gone := tru }) s

/-! Rejoin masks (R199 to R202). -/

/-- REJOIN: every active lane becomes blocked at the site (R199). -/
def execRejoin (g : Guard) (f : FmtB) (s : State) : Host.Outcome State Fault Refusal :=
  runWord (.rejoin g f) g (fun h tru s => { s := blockLanes h tru (.rejoin h.iss.at_ (f.j.toNat % 8)) s, gone := tru }) s
/-- The operand of JMSET, JMADD and JMDEL (R200). -/
def jmOperand (f : FmtT) (h : Here) (tru : LaneMask) : LaneMask :=
  if modBit f.mod 2 then tru else (srcS h f.a.toNat).extractLsb' 0 32
/-- JMSET, JMADD and JMDEL take effect when the guard is true in some active lane (R200). -/
def jmBody (k : JKind) (f : FmtT) (h : Here) (tru : LaneMask) (s : State) : Fx :=
  if tru = 0#32 then { s := s } else { s := s, jop := some ⟨k, f.d.toNat, jmOperand f h tru⟩ }
/-- JMSET (R200). -/
def execJmset (g : Guard) (f : FmtT) (s : State) : Host.Outcome State Fault Refusal := runWord (.jmset g f) g (jmBody .set f) s
/-- JMADD (R200). -/
def execJmadd (g : Guard) (f : FmtT) (s : State) : Host.Outcome State Fault Refusal := runWord (.jmadd g f) g (jmBody .add f) s
/-- JMDEL (R200). -/
def execJmdel (g : Guard) (f : FmtT) (s : State) : Host.Outcome State Fault Refusal := runWord (.jmdel g f) g (jmBody .del f) s
/-- The mask JMQRY reads: the states as they were at the start of the cycle in which the word issues (R201; log entry 106). -/
def jmqrySem (f : FmtT) (h : Here) : W64 :=
  let m : LaneMask := match modBits f.mod 0 2 with
    | 0 => tget 0#32 h.g.j f.a.toNat
    | 1 => h.g.seenExit
    | _ => h.g.seenPark
  m.zeroExtend 64
/-- JMQRY (R201). -/
def execJmqry (g : Guard) (f : FmtT) (s : State) : Host.Outcome State Fault Refusal :=
  runWord (.jmqry g f) g (scalBody f.d.toNat (jmqrySem f)) s

/-- EXIT: the lanes whose guard is true leave the issue, and the helper lanes with the last present ones (R203, R204). -/
def exitBody (h : Here) (tru : LaneMask) (s : State) : Fx :=
  let s := exitLanes s h.iss.wg h.iss.gang tru
  let out := match findWg s h.iss.wg with
    | some w => lanesIn (gangOf w h.iss.gang) fun st => st == .exited
    | none => tru
  { s := s, gone := h.iss.lanes &&& out }
/-- EXIT (R203, R204). -/
def execExit (g : Guard) (f : FmtT) (s : State) : Host.Outcome State Fault Refusal :=
  runWord (.exit g f) g exitBody s
/-- YIELD: each active lane goes to next; one whose guard is true waits there until its delay has passed (R206). -/
def yieldBody (f : FmtT) (h : Here) (tru : LaneMask) (s : State) : Fx :=
  let until_ := s.cycle + 8 * f.mod.toNat + 1
  let now := s.cycle
  let s := if f.mod = 0#14 then s else
    updLanes h tru (fun _ l => { l with pc := (nextPc h).1, cbase := none, st := .waiting (.cycles until_), since := now }) s
  { s := s, gone := if f.mod = 0#14 then 0#32 else tru, carry := false }
/-- YIELD (R206). -/
def execYield (g : Guard) (f : FmtT) (s : State) : Host.Outcome State Fault Refusal := runWord (.yield g f) g (yieldBody f) s

end Sys2Proof.Machine
end

