-- ==== Sys2Proof/Machine/VecInt.lean ====
section
/-! DEFINITION. The vector integer, bit, comparison and predicate instructions, opcodes 0x20 to 0x43 (R207 to R218). -/

namespace Sys2Proof.Machine

/-- A result of one vector register. -/
def out32 (d : BitVec 8) (x : W32) : LaneOut := { v := some (d.toNat, 1, x.toNat) }
/-- A result of one predicate. -/
def outP (d : BitVec 8) (b : Bool) : LaneOut := { p := some (d.toNat, b) }

/-- A vector word of 32-bit operands A, B and C to a 32-bit D (R208, R209). -/
def intT (i : Instr) (g : Guard) (f : FmtT) (sem : W32 → W32 → W32 → W32) (s : State) : Host.Outcome State Fault Refusal :=
  runWord i g (vecBody (wordOf i) fun h l =>
    out32 f.d (sem (vreg l f.a.toNat) (BitVec.ofNat 32 (srcV h l f.bs f.b 1)) (BitVec.ofNat 32 (srcV h l f.cs f.c 1)))) s

/-- An exact integer clamped to an interval. -/
def clampI (lo hi x : Int) : Int := if x < lo then lo else if hi < x then hi else x
/-- The sum as MOD[1:0] writes it (R210). -/
def addSat (m : Nat) (a b : W32) : W32 :=
  if m = 1 then ofInt 32 (clampI (-2147483648) 2147483647 (a.toInt + b.toInt))
  else if m = 2 then ofInt 32 (clampI 0 4294967295 (a.toNat + b.toNat : Nat))
  else a + b
/-- The difference as MOD[1:0] writes it (R210). -/
def subSat (m : Nat) (a b : W32) : W32 :=
  if m = 1 then ofInt 32 (clampI (-2147483648) 2147483647 (a.toInt - b.toInt))
  else if m = 2 then ofInt 32 (clampI 0 4294967295 ((a.toNat : Int) - (b.toNat : Int)))
  else a - b
/-- Bits [63:32] of the exact product (R209). -/
def vmulhSem (u : Bool) (a b : W32) : W32 :=
  if u then BitVec.ofNat 32 (a.toNat * b.toNat / 2 ^ 32) else ofInt 32 (a.toInt * b.toInt / 2 ^ 32)
/-- A rotated left, or right (R209). -/
def vrotSem (r : Bool) (a b : W32) : W32 := if r then a.rotateRight (b.toNat % 32) else a.rotateLeft (b.toNat % 32)
/-- The lesser (R209). -/
def vminSem (u : Bool) (a b : W32) : W32 := if (if u then a.toNat ≤ b.toNat else a.toInt ≤ b.toInt) then a else b
/-- The greater (R209). -/
def vmaxSem (u : Bool) (a b : W32) : W32 := if (if u then b.toNat ≤ a.toNat else b.toInt ≤ a.toInt) then a else b
/-- The absolute value (R209). -/
def vabsSem (sat : Bool) (a : W32) : W32 :=
  if a = 0x80000000#32 ∧ sat then 0x7FFFFFFF#32 else if a.toInt < 0 then 0#32 - a else a
/-- The negation (R209). -/
def vnegSem (sat : Bool) (a : W32) : W32 := if a = 0x80000000#32 ∧ sat then 0x7FFFFFFF#32 else 0#32 - a
/-- The field's offset and width (R214). -/
def bfWidth (b c : W32) : Nat := min (min (c.toNat % 64) 32) (32 - b.toNat % 32)
/-- VBFE (R214). -/
def vbfeSem (sx : Bool) (a b c : W32) : W32 :=
  let w := bfWidth b c
  let x := bitsN a.toNat (b.toNat % 32) w
  if w = 0 then 0#32 else if sx then ofInt 32 (sextN w x) else BitVec.ofNat 32 x
/-- VBFI into the old value of D (R214). -/
def vbfiSem (d a b c : W32) : W32 :=
  let m : W32 := BitVec.ofNat 32 ((2 ^ bfWidth b c - 1) * 2 ^ (b.toNat % 32))
  (d &&& ~~~m) ||| ((a <<< (b.toNat % 32)) &&& m)
/-- One result byte of VPERM4; none raises the reserved-field trap on the lane (R215). -/
def permByte (a b : W32) (sel : Nat) : Option Nat :=
  let x := bitsN (a.toNat + 2 ^ 32 * b.toNat) (8 * (sel % 8)) 8
  match sel / 8 with
  | 0 => some x
  | 1 => some (if x < 128 then 0 else 255)
  | 2 => some 0
  | _ => none
/-- VPERM4 (R215). -/
def vperm4Sem (d : BitVec 8) (a b c : W32) : LaneOut :=
  match permByte a b (fld c 0 5), permByte a b (fld c 5 5), permByte a b (fld c 10 5), permByte a b (fld c 15 5) with
  | some x0, some x1, some x2, some x3 => out32 d (BitVec.ofNat 32 (x0 + 2 ^ 8 * x1 + 2 ^ 16 * x2 + 2 ^ 24 * x3))
  | _, _, _, _ => { trap := some .reservedField }
/-- A comparison combined with pC (R216, R234). -/
def combine (m : Nat) (c pc : Bool) : Bool := if m = 1 then c && pc else if m = 2 then c || pc else c

/-- VMOV, VMOV.s and VMOV.s.hi (R209). -/
def execVmov (g : Guard) (f : FmtT) (s : State) : Host.Outcome State Fault Refusal :=
  runWord (.vmov g f) g (vecBody (wordOf (.vmov g f)) fun h l =>
    out32 f.d (if modBit f.mod 0 then (if modBit f.mod 1 then (srcS h f.a.toNat).extractLsb' 32 32 else (srcS h f.a.toNat).extractLsb' 0 32)
      else vreg l f.a.toNat)) s
/-- VMOVI (R211). -/
def execVmovi (g : Guard) (f : FmtI) (s : State) : Host.Outcome State Fault Refusal :=
  runWord (.vmovi g f) g (vecBody (wordOf (.vmovi g f)) fun _ _ => out32 f.d f.imm) s

/-- VADD (R209, R210). -/
def execVadd (g : Guard) (f : FmtT) (s : State) : Host.Outcome State Fault Refusal :=
  intT (.vadd g f) g f (fun a b _ => addSat (modBits f.mod 0 2) a b) s

/-- VSUB (R209, R210). -/
def execVsub (g : Guard) (f : FmtT) (s : State) : Host.Outcome State Fault Refusal :=
  intT (.vsub g f) g f (fun a b _ => subSat (modBits f.mod 0 2) a b) s

/-- VMUL (R209). -/
def execVmul (g : Guard) (f : FmtT) (s : State) : Host.Outcome State Fault Refusal :=
  intT (.vmul g f) g f (fun a b _ => a * b) s

/-- VMULH (R209). -/
def execVmulh (g : Guard) (f : FmtT) (s : State) : Host.Outcome State Fault Refusal :=
  intT (.vmulh g f) g f (fun a b _ => vmulhSem (modBit f.mod 0) a b) s

/-- VMAD (R213). -/
def execVmad (g : Guard) (f : FmtT) (s : State) : Host.Outcome State Fault Refusal :=
  intT (.vmad g f) g f (fun a b c => a * b + c) s

/-- VAND (R209). -/
def execVand (g : Guard) (f : FmtT) (s : State) : Host.Outcome State Fault Refusal :=
  intT (.vand g f) g f (fun a b _ => a &&& b) s

/-- VOR (R209). -/
def execVor (g : Guard) (f : FmtT) (s : State) : Host.Outcome State Fault Refusal :=
  intT (.vor g f) g f (fun a b _ => a ||| b) s

/-- VXOR (R209). -/
def execVxor (g : Guard) (f : FmtT) (s : State) : Host.Outcome State Fault Refusal :=
  intT (.vxor g f) g f (fun a b _ => a ^^^ b) s

/-- VNOT (R209). -/
def execVnot (g : Guard) (f : FmtT) (s : State) : Host.Outcome State Fault Refusal :=
  intT (.vnot g f) g f (fun a _ _ => ~~~a) s

/-- VANDN (R209). -/
def execVandn (g : Guard) (f : FmtT) (s : State) : Host.Outcome State Fault Refusal :=
  intT (.vandn g f) g f (fun a b _ => a &&& ~~~b) s

/-- VSHL (R209). -/
def execVshl (g : Guard) (f : FmtT) (s : State) : Host.Outcome State Fault Refusal :=
  intT (.vshl g f) g f (fun a b _ => a <<< (b.toNat % 32)) s

/-- VSHR (R209). -/
def execVshr (g : Guard) (f : FmtT) (s : State) : Host.Outcome State Fault Refusal :=
  intT (.vshr g f) g f (fun a b _ => a >>> (b.toNat % 32)) s

/-- VSRA (R209). -/
def execVsra (g : Guard) (f : FmtT) (s : State) : Host.Outcome State Fault Refusal :=
  intT (.vsra g f) g f (fun a b _ => a.sshiftRight (b.toNat % 32)) s

/-- VROT (R209). -/
def execVrot (g : Guard) (f : FmtT) (s : State) : Host.Outcome State Fault Refusal :=
  intT (.vrot g f) g f (fun a b _ => vrotSem (modBit f.mod 0) a b) s

/-- VMIN (R209). -/
def execVmin (g : Guard) (f : FmtT) (s : State) : Host.Outcome State Fault Refusal :=
  intT (.vmin g f) g f (fun a b _ => vminSem (modBit f.mod 0) a b) s

/-- VMAX (R209). -/
def execVmax (g : Guard) (f : FmtT) (s : State) : Host.Outcome State Fault Refusal :=
  intT (.vmax g f) g f (fun a b _ => vmaxSem (modBit f.mod 0) a b) s

/-- VABS (R209). -/
def execVabs (g : Guard) (f : FmtT) (s : State) : Host.Outcome State Fault Refusal :=
  intT (.vabs g f) g f (fun a _ _ => vabsSem (modBit f.mod 0) a) s

/-- VNEG (R209). -/
def execVneg (g : Guard) (f : FmtT) (s : State) : Host.Outcome State Fault Refusal :=
  intT (.vneg g f) g f (fun a _ _ => vnegSem (modBit f.mod 0) a) s

/-- VCLZ (R209). -/
def execVclz (g : Guard) (f : FmtT) (s : State) : Host.Outcome State Fault Refusal :=
  intT (.vclz g f) g f (fun a _ _ => BitVec.ofNat 32 (32 - bitLen a.toNat)) s

/-- VPOPC (R209). -/
def execVpopc (g : Guard) (f : FmtT) (s : State) : Host.Outcome State Fault Refusal :=
  intT (.vpopc g f) g f (fun a _ _ => BitVec.ofNat 32 (popN 32 a.toNat)) s

/-- VBREV (R209). -/
def execVbrev (g : Guard) (f : FmtT) (s : State) : Host.Outcome State Fault Refusal :=
  intT (.vbrev g f) g f (fun a _ _ => BitVec.ofNat 32 (revN 32 a.toNat)) s

/-- VBFE (R214). -/
def execVbfe (g : Guard) (f : FmtT) (s : State) : Host.Outcome State Fault Refusal :=
  intT (.vbfe g f) g f (fun a b c => vbfeSem (modBit f.mod 0) a b c) s

/-- VADDC and VSUBB: D and pC from A, B and the carry (R212). -/
def carrySem (sub : Bool) (f : FmtT) (h : Here) (l : Lane) : LaneOut :=
  let a : Int := (vreg l f.a.toNat).toNat
  let b : Int := srcV h l f.bs f.b 1
  let cin : Int := if modBit f.mod 0 then 0 else if preg l f.c.toNat then 1 else 0
  let t := if sub then a - b - cin else a + b + cin
  { v := some (f.d.toNat, 1, (ofInt 32 t).toNat), p := some (f.c.toNat, if sub then t < 0 else 2 ^ 32 ≤ t) }
/-- VADDC (R212). -/
def execVaddc (g : Guard) (f : FmtT) (s : State) : Host.Outcome State Fault Refusal :=
  runWord (.vaddc g f) g (vecBody (wordOf (.vaddc g f)) (carrySem false f)) s
/-- VSUBB (R212). -/
def execVsubb (g : Guard) (f : FmtT) (s : State) : Host.Outcome State Fault Refusal :=
  runWord (.vsubb g f) g (vecBody (wordOf (.vsubb g f)) (carrySem true f)) s
/-- VMADW (R213). -/
def execVmadw (g : Guard) (f : FmtT) (s : State) : Host.Outcome State Fault Refusal :=
  runWord (.vmadw g f) g (vecBody (wordOf (.vmadw g f)) fun h l =>
    let a := vreg l f.a.toNat
    let b : W32 := BitVec.ofNat 32 (srcV h l f.bs f.b 1)
    let c := srcV h l f.cs f.c 2
    let p : Int := if modBit f.mod 0 then (a.toNat * b.toNat : Nat) else a.toInt * b.toInt
    { v := some (f.d.toNat, 2, (ofInt 64 (p + c)).toNat) }) s
/-- VBFI (R214). -/
def execVbfi (g : Guard) (f : FmtT) (s : State) : Host.Outcome State Fault Refusal :=
  runWord (.vbfi g f) g (vecBody (wordOf (.vbfi g f)) fun h l =>
    out32 f.d (vbfiSem (vreg l f.d.toNat) (vreg l f.a.toNat) (BitVec.ofNat 32 (srcV h l f.bs f.b 1)) (BitVec.ofNat 32 (srcV h l f.cs f.c 1)))) s
/-- VPERM4 (R215). -/
def execVperm4 (g : Guard) (f : FmtT) (s : State) : Host.Outcome State Fault Refusal :=
  runWord (.vperm4 g f) g (vecBody (wordOf (.vperm4 g f)) fun h l =>
    vperm4Sem f.d (vreg l f.a.toNat) (BitVec.ofNat 32 (srcV h l f.bs f.b 1)) (BitVec.ofNat 32 (srcV h l f.cs f.c 1))) s
/-- VCMP (R216). -/
def execVcmp (g : Guard) (f : FmtT) (s : State) : Host.Outcome State Fault Refusal :=
  runWord (.vcmp g f) g (vecBody (wordOf (.vcmp g f)) fun h l =>
    let a := vreg l f.a.toNat
    let b : W32 := BitVec.ofNat 32 (srcV h l f.bs f.b 1)
    let c := if modBit f.mod 3 then ccInt (modBits f.mod 0 3) a.toNat b.toNat else ccInt (modBits f.mod 0 3) a.toInt b.toInt
    outP f.d (combine (modBits f.mod 4 2) c (preg l f.c.toNat))) s
/-- VSEL (R217). -/
def execVsel (g : Guard) (f : FmtT) (s : State) : Host.Outcome State Fault Refusal :=
  runWord (.vsel g f) g (vecBody (wordOf (.vsel g f)) fun h l =>
    out32 f.d (if preg l f.c.toNat then vreg l f.a.toNat else BitVec.ofNat 32 (srcV h l f.bs f.b 1))) s
/-- PAND (R218). -/
def execPand (g : Guard) (f : FmtT) (s : State) : Host.Outcome State Fault Refusal :=
  runWord (.pand g f) g (vecBody (wordOf (.pand g f)) fun _ l => outP f.d (preg l f.a.toNat && preg l f.b.toNat)) s
/-- POR (R218). -/
def execPor (g : Guard) (f : FmtT) (s : State) : Host.Outcome State Fault Refusal :=
  runWord (.por g f) g (vecBody (wordOf (.por g f)) fun _ l => outP f.d (preg l f.a.toNat || preg l f.b.toNat)) s
/-- PXOR (R218). -/
def execPxor (g : Guard) (f : FmtT) (s : State) : Host.Outcome State Fault Refusal :=
  runWord (.pxor g f) g (vecBody (wordOf (.pxor g f)) fun _ l => outP f.d (preg l f.a.toNat != preg l f.b.toNat)) s
/-- PNOT (R218). -/
def execPnot (g : Guard) (f : FmtT) (s : State) : Host.Outcome State Fault Refusal :=
  runWord (.pnot g f) g (vecBody (wordOf (.pnot g f)) fun _ l => outP f.d (!preg l f.a.toNat)) s

end Sys2Proof.Machine
end

