-- ==== Sys2Proof/Machine/VecFloat.lean ====
section
/-! DEFINITION. The vector floating-point and conversion instructions, opcodes 0x50 to 0x78 (R228 to R242). -/

namespace Sys2Proof.Machine

/-- A lane's result of n registers, with its exceptions and flushes (R230). -/
def frOut (d : BitVec 8) (n : Nat) (flushed : Bool) (r : FR) : LaneOut :=
  { v := some (d.toNat, n, r.bits), flags := r.flags, mflags := unflOf (flushed || r.unfl) }

/-- The operands A, B and C of a floating-point word as read, and flushed under .ftz; whether one was flushed (R229, R231). -/
def fpOpnds (h : Here) (l : Lane) (f : FmtT) (fmt : Fmt) (n k : Nat) (ftz : Bool) : Nat × Nat × Nat × Bool :=
  let a := vregs l f.a.toNat n
  let b := if k ≥ 2 then srcV h l f.bs f.b n else 0
  let c := if k ≥ 3 then srcV h l f.cs f.c n else 0
  (flushIn fmt ftz a, flushIn fmt ftz b, flushIn fmt ftz c, ftz && (isSub fmt a || isSub fmt b || isSub fmt c))

/-- A correctly rounded operation of k operands (R231, R235). -/
def fpSem (fmt : Fmt) (n k : Nat) (sem : Nat → FV → FV → FV → Ex) (f : FmtT) (h : Here) (l : Lane) : LaneOut :=
  let rm := modBits f.mod 0 2
  let ftz := modBit f.mod 2
  let x := fpOpnds h l f fmt n k ftz
  frOut f.d n x.2.2.2 (finish fmt rm ftz (sem rm (unpack fmt x.1) (unpack fmt x.2.1) (unpack fmt x.2.2.1)))
/-- A word of a correctly rounded operation. -/
def fpT (i : Instr) (g : Guard) (f : FmtT) (fmt : Fmt) (n k : Nat) (sem : Nat → FV → FV → FV → Ex) (s : State) :
    Host.Outcome State Fault Refusal :=
  runWord i g (vecBody (wordOf i) (fpSem fmt n k sem f)) s
/-- The lesser or the greater (R139, R231). -/
def mmSem (fmt : Fmt) (n : Nat) (greater : Bool) (f : FmtT) (h : Here) (l : Lane) : LaneOut :=
  let x := fpOpnds h l f fmt n 2 (modBit f.mod 2)
  frOut f.d n x.2.2.2 (minMax fmt greater x.1 x.2.1)
/-- A comparison (R234): FTZ is MOD[3]. -/
def cmpSem (fmt : Fmt) (n : Nat) (f : FmtT) (h : Here) (l : Lane) : LaneOut :=
  let x := fpOpnds h l f fmt n 2 (modBit f.mod 3)
  let c := ccFp (modBits f.mod 0 3) (unpack fmt x.1) (unpack fmt x.2.1)
  { p := some (f.d.toNat, combine (modBits f.mod 4 2) c.1 (preg l f.c.toNat)), flags := if c.2 then fNV else 0#5, mflags := unflOf x.2.2.2 }
/-- A result flushed after an operation that does not round (R232). -/
def flushOut (ftz : Bool) (r : FR) : FR :=
  if ftz && isSub fp32 r.bits then ⟨flushIn fp32 true r.bits, r.flags ||| fUF ||| fNX, true⟩ else r
/-- A function of R146 under its flushing form (R232). -/
def transSem (op : Nat) (f : FmtT) (h : Here) (l : Lane) : LaneOut :=
  let ftz := modBit f.mod 2
  let x := fpOpnds h l f fp32 1 1 ftz
  frOut f.d 1 x.2.2.2 (flushOut ftz (transcendental op (BitVec.ofNat 32 x.1)))
/-- The two elements of a packed operation (R236). -/
def halfSem (k : Nat) (sem : Nat → FV → FV → FV → Ex) (f : FmtT) (h : Here) (l : Lane) : LaneOut :=
  let rm := modBits f.mod 0 2
  let ftz := modBit f.mod 2
  let fmt := if modBit f.mod 3 then bf16 else fp16
  let a := vregs l f.a.toNat 1
  let b := if k ≥ 2 then srcV h l f.bs f.b 1 else 0
  let c := if k ≥ 3 then srcV h l f.cs f.c 1 else 0
  let part (e : Nat) : FR × Bool :=
    let x := bitsN a (16 * e) 16
    let y := bitsN b (16 * e) 16
    let z := bitsN c (16 * e) 16
    (finish fmt rm ftz (sem rm (unpack fmt (flushIn fmt ftz x)) (unpack fmt (flushIn fmt ftz y)) (unpack fmt (flushIn fmt ftz z))),
      ftz && (isSub fmt x || isSub fmt y || isSub fmt z))
  let p := part 0
  let q := part 1
  { v := some (f.d.toNat, 1, p.1.bits + 2 ^ 16 * q.1.bits), flags := p.1.flags ||| q.1.flags,
    mflags := unflOf (p.2 || q.2 || p.1.unfl || q.1.unfl) }

/-- FADD (R231, R232). -/
def execFadd (g : Guard) (f : FmtT) (s : State) : Host.Outcome State Fault Refusal :=
  fpT (.fadd g f) g f fp32 1 2 (fun rm a b _ => addEx rm a b) s
/-- FSUB (R231, R232). -/
def execFsub (g : Guard) (f : FmtT) (s : State) : Host.Outcome State Fault Refusal :=
  fpT (.fsub g f) g f fp32 1 2 (fun rm a b _ => addEx rm a (negFV b)) s
/-- FMUL (R231, R232). -/
def execFmul (g : Guard) (f : FmtT) (s : State) : Host.Outcome State Fault Refusal :=
  fpT (.fmul g f) g f fp32 1 2 (fun _ a b _ => mulEx a b) s
/-- FFMA (R231, R232). -/
def execFfma (g : Guard) (f : FmtT) (s : State) : Host.Outcome State Fault Refusal :=
  fpT (.ffma g f) g f fp32 1 3 (fun rm a b c => fmaEx rm a b c) s
/-- FDIV (R231, R232). -/
def execFdiv (g : Guard) (f : FmtT) (s : State) : Host.Outcome State Fault Refusal :=
  fpT (.fdiv g f) g f fp32 1 2 (fun _ a b _ => divEx 24 a b) s
/-- FSQRT (R231, R232). -/
def execFsqrt (g : Guard) (f : FmtT) (s : State) : Host.Outcome State Fault Refusal :=
  fpT (.fsqrt g f) g f fp32 1 1 (fun _ a _ _ => sqrtEx 24 a) s
/-- FMIN (R231, R232). -/
def execFmin (g : Guard) (f : FmtT) (s : State) : Host.Outcome State Fault Refusal :=
  runWord (.fmin g f) g (vecBody (wordOf (.fmin g f)) (mmSem fp32 1 false f)) s
/-- FMAX (R231, R232). -/
def execFmax (g : Guard) (f : FmtT) (s : State) : Host.Outcome State Fault Refusal :=
  runWord (.fmax g f) g (vecBody (wordOf (.fmax g f)) (mmSem fp32 1 true f)) s
/-- FCMP (R234). -/
def execFcmp (g : Guard) (f : FmtT) (s : State) : Host.Outcome State Fault Refusal :=
  runWord (.fcmp g f) g (vecBody (wordOf (.fcmp g f)) (cmpSem fp32 1 f)) s
/-- DADD (R235). -/
def execDadd (g : Guard) (f : FmtT) (s : State) : Host.Outcome State Fault Refusal :=
  fpT (.dadd g f) g f fp64 2 2 (fun rm a b _ => addEx rm a b) s
/-- DSUB (R235). -/
def execDsub (g : Guard) (f : FmtT) (s : State) : Host.Outcome State Fault Refusal :=
  fpT (.dsub g f) g f fp64 2 2 (fun rm a b _ => addEx rm a (negFV b)) s
/-- DMUL (R235). -/
def execDmul (g : Guard) (f : FmtT) (s : State) : Host.Outcome State Fault Refusal :=
  fpT (.dmul g f) g f fp64 2 2 (fun _ a b _ => mulEx a b) s
/-- DFMA (R235). -/
def execDfma (g : Guard) (f : FmtT) (s : State) : Host.Outcome State Fault Refusal :=
  fpT (.dfma g f) g f fp64 2 3 (fun rm a b c => fmaEx rm a b c) s
/-- DDIV (R235). -/
def execDdiv (g : Guard) (f : FmtT) (s : State) : Host.Outcome State Fault Refusal :=
  fpT (.ddiv g f) g f fp64 2 2 (fun _ a b _ => divEx 53 a b) s
/-- DSQRT (R235). -/
def execDsqrt (g : Guard) (f : FmtT) (s : State) : Host.Outcome State Fault Refusal :=
  fpT (.dsqrt g f) g f fp64 2 1 (fun _ a _ _ => sqrtEx 53 a) s
/-- DMIN (R235). -/
def execDmin (g : Guard) (f : FmtT) (s : State) : Host.Outcome State Fault Refusal :=
  runWord (.dmin g f) g (vecBody (wordOf (.dmin g f)) (mmSem fp64 2 false f)) s
/-- DMAX (R235). -/
def execDmax (g : Guard) (f : FmtT) (s : State) : Host.Outcome State Fault Refusal :=
  runWord (.dmax g f) g (vecBody (wordOf (.dmax g f)) (mmSem fp64 2 true f)) s
/-- DCMP (R234). -/
def execDcmp (g : Guard) (f : FmtT) (s : State) : Host.Outcome State Fault Refusal :=
  runWord (.dcmp g f) g (vecBody (wordOf (.dcmp g f)) (cmpSem fp64 2 f)) s
/-- FRCP (R146, R147, R232). -/
def execFrcp (g : Guard) (f : FmtT) (s : State) : Host.Outcome State Fault Refusal :=
  runWord (.frcp g f) g (vecBody (wordOf (.frcp g f)) (transSem 0x57 f)) s
/-- FRSQ (R146, R147, R232). -/
def execFrsq (g : Guard) (f : FmtT) (s : State) : Host.Outcome State Fault Refusal :=
  runWord (.frsq g f) g (vecBody (wordOf (.frsq g f)) (transSem 0x58 f)) s
/-- FEXP2 (R146, R147, R232). -/
def execFexp2 (g : Guard) (f : FmtT) (s : State) : Host.Outcome State Fault Refusal :=
  runWord (.fexp2 g f) g (vecBody (wordOf (.fexp2 g f)) (transSem 0x5B f)) s
/-- FLOG2 (R146, R147, R232). -/
def execFlog2 (g : Guard) (f : FmtT) (s : State) : Host.Outcome State Fault Refusal :=
  runWord (.flog2 g f) g (vecBody (wordOf (.flog2 g f)) (transSem 0x5C f)) s
/-- FSIN (R146, R147, R232). -/
def execFsin (g : Guard) (f : FmtT) (s : State) : Host.Outcome State Fault Refusal :=
  runWord (.fsin g f) g (vecBody (wordOf (.fsin g f)) (transSem 0x5D f)) s
/-- FCOS (R146, R147, R232). -/
def execFcos (g : Guard) (f : FmtT) (s : State) : Host.Outcome State Fault Refusal :=
  runWord (.fcos g f) g (vecBody (wordOf (.fcos g f)) (transSem 0x5E f)) s
/-- FTANH (R146, R147, R232). -/
def execFtanh (g : Guard) (f : FmtT) (s : State) : Host.Outcome State Fault Refusal :=
  runWord (.ftanh g f) g (vecBody (wordOf (.ftanh g f)) (transSem 0x5F f)) s
/-- HADD2 (R236). -/
def execHadd2 (g : Guard) (f : FmtT) (s : State) : Host.Outcome State Fault Refusal :=
  runWord (.hadd2 g f) g (vecBody (wordOf (.hadd2 g f)) (halfSem 2 (fun rm a b _ => addEx rm a b) f)) s
/-- HMUL2 (R236). -/
def execHmul2 (g : Guard) (f : FmtT) (s : State) : Host.Outcome State Fault Refusal :=
  runWord (.hmul2 g f) g (vecBody (wordOf (.hmul2 g f)) (halfSem 2 (fun _ a b _ => mulEx a b) f)) s
/-- HFMA2 (R236). -/
def execHfma2 (g : Guard) (f : FmtT) (s : State) : Host.Outcome State Fault Refusal :=
  runWord (.hfma2 g f) g (vecBody (wordOf (.hfma2 g f)) (halfSem 3 (fun rm a b c => fmaEx rm a b c) f)) s
/-- FSCALE (R231). -/
def execFscale (g : Guard) (f : FmtT) (s : State) : Host.Outcome State Fault Refusal :=
  runWord (.fscale g f) g (vecBody (wordOf (.fscale g f)) fun h l =>
    let ftz := modBit f.mod 2
    let x := fpOpnds h l f fp32 1 1 ftz
    frOut f.d 1 x.2.2.2 (finish fp32 (modBits f.mod 0 2) ftz (scaleEx (unpack fp32 x.1) (sextN 32 (srcV h l f.bs f.b 1))))) s
/-- FFRC (R232). -/
def execFfrc (g : Guard) (f : FmtT) (s : State) : Host.Outcome State Fault Refusal :=
  runWord (.ffrc g f) g (vecBody (wordOf (.ffrc g f)) fun h l =>
    let x := fpOpnds h l f fp32 1 1 (modBit f.mod 2)
    frOut f.d 1 x.2.2.2 (fracOf fp32 x.1)) s
/-- FRND (R232). -/
def execFrnd (g : Guard) (f : FmtT) (s : State) : Host.Outcome State Fault Refusal :=
  runWord (.frnd g f) g (vecBody (wordOf (.frnd g f)) fun h l =>
    let x := fpOpnds h l f fp32 1 1 (modBit f.mod 2)
    frOut f.d 1 x.2.2.2 (rndInt fp32 (modBits f.mod 0 2) x.1)) s
/-- FCLASS (R233). -/
def execFclass (g : Guard) (f : FmtT) (s : State) : Host.Outcome State Fault Refusal :=
  runWord (.fclass g f) g (vecBody (wordOf (.fclass g f)) fun _ l =>
    { v := some (f.d.toNat, 1, if modBit f.mod 0 then classOf fp64 (vregs l f.a.toNat 2) else classOf fp32 (vregs l f.a.toNat 1)) }) s

/-- The formats f32, f64, f16 and bf16 of R237. -/
def cvtFmt (n : Nat) : Fmt := match n with
  | 0 => fp32
  | 1 => fp64
  | 2 => fp16
  | _ => bf16
/-- A floating-point source of a conversion: its half, its whole register, or a pair (R237). -/
def cvtSrc (l : Lane) (a : BitVec 8) (n : Nat) (high : Bool) : Nat :=
  if n = 1 then vregs l a.toNat 2 else if is16 n then bitsN (vreg l a.toNat).toNat (if high then 16 else 0) 16 else (vreg l a.toNat).toNat
/-- A floating-point result of a conversion written to D (R237). -/
def cvtOut (l : Lane) (d : BitVec 8) (n : Nat) (high : Bool) (x : Nat) : Nat × Nat × Nat :=
  if n = 1 then (d.toNat, 2, x)
  else if is16 n && high then (d.toNat, 1, (vreg l d.toNat).toNat % 2 ^ 16 + 2 ^ 16 * x)
  else (d.toNat, 1, x)
/-- A value as an exact value before a rounding. -/
def fvEx : FV → Ex
  | .nan s => .nan s
  | .inf n => .inf n false
  | .fin n m e => .num n m e false
/-- CVTFF (R237). -/
def cvtffSem (f : FmtT) (_ : Here) (l : Lane) : LaneOut :=
  let dst := modBits f.mod 5 2
  let src := modBits f.mod 3 2
  let ftz := modBit f.mod 2
  let x := cvtSrc l f.a src (modBit f.mod 7)
  let r := finish (cvtFmt dst) (modBits f.mod 0 2) ftz (fvEx (unpack (cvtFmt src) (flushIn (cvtFmt src) ftz x)))
  { v := some (cvtOut l f.d dst (modBit f.mod 8) r.bits), flags := r.flags, mflags := unflOf (r.unfl || (ftz && isSub (cvtFmt src) x)) }
/-- CVTFF (R237). -/
def execCvtff (g : Guard) (f : FmtT) (s : State) : Host.Outcome State Fault Refusal :=
  runWord (.cvtff g f) g (vecBody (wordOf (.cvtff g f)) (cvtffSem f)) s
/-- The integer formats of R238: least and greatest value. -/
def intRange (n : Nat) : Int × Int := match n with
  | 0 => (-2 ^ 31, 2 ^ 31 - 1)
  | 1 => (0, 2 ^ 32 - 1)
  | 2 => (-2 ^ 63, 2 ^ 63 - 1)
  | 3 => (0, 2 ^ 64 - 1)
  | 4 => (-2 ^ 15, 2 ^ 15 - 1)
  | 5 => (0, 2 ^ 16 - 1)
  | 6 => (-2 ^ 7, 2 ^ 7 - 1)
  | _ => (0, 2 ^ 8 - 1)
/-- CVTFI (R145, R238). -/
def cvtfiSem (f : FmtT) (_ : Here) (l : Lane) : LaneOut :=
  let n := modBits f.mod 5 3
  let src := modBits f.mod 3 2
  let r := toInt (modBits f.mod 0 2) (intRange n).1 (intRange n).2 (unpack (cvtFmt src) (cvtSrc l f.a src (modBit f.mod 8)))
  { v := some (f.d.toNat, iw n, (ofInt 64 r.1).toNat), flags := r.2 }
/-- CVTFI (R238). -/
def execCvtfi (g : Guard) (f : FmtT) (s : State) : Host.Outcome State Fault Refusal :=
  runWord (.cvtfi g f) g (vecBody (wordOf (.cvtfi g f)) (cvtfiSem f)) s
/-- The integer source of CVTIF (R239). -/
def cvtInt (l : Lane) (a : BitVec 8) (n : Nat) : Int :=
  let x := vregs l a.toNat (iw n)
  match n with
  | 0 => sextN 32 x
  | 1 => x
  | 2 => sextN 64 x
  | 3 => x
  | 4 => sextN 16 x
  | 5 => (x % 2 ^ 16 : Nat)
  | 6 => sextN 8 x
  | _ => (x % 2 ^ 8 : Nat)
/-- CVTIF (R239). -/
def cvtifSem (f : FmtT) (_ : Here) (l : Lane) : LaneOut :=
  let dst := modBits f.mod 6 2
  let r := finish (cvtFmt dst) (modBits f.mod 0 2) false (ofIntEx (cvtInt l f.a (modBits f.mod 3 3)))
  { v := some (cvtOut l f.d dst (modBit f.mod 8) r.bits), flags := r.flags }
/-- CVTIF (R239). -/
def execCvtif (g : Guard) (f : FmtT) (s : State) : Host.Outcome State Fault Refusal :=
  runWord (.cvtif g f) g (vecBody (wordOf (.cvtif g f)) (cvtifSem f)) s

/-- The register bits of an element at position k replaced, the others kept or cleared (R240, R241). -/
def putElem (z : Bool) (old : Nat) (w k x : Nat) : Nat :=
  if z then x * 2 ^ (w * k) else old - bitsN old (w * k) w * 2 ^ (w * k) + x * 2 ^ (w * k)
/-- CVTQ on one lane (R241). -/
def cvtqSem (slot : W64) (f : FmtT) (h : Here) (l : Lane) : LaneOut :=
  let e8 := modBit f.mod 9
  let ftz := modBit f.mod 3
  let a := (vreg l f.a.toNat).toNat
  let x := fvEx (unpack fp32 (flushIn fp32 ftz a))
  let x := if modBit f.mod 4 then mulEx (exFV x) (unpack fp32 (srcV h l f.bs f.b 1)) else x
  let x := match x with
    | .nan _ => .nan false
    | y => if isNan (unpack fp32 a) then .nan false else y
  let fmt := slotFmt (slotAfmt slot)
  let r := if e8 then scaleOf x else slotConv fmt (slotCrnd slot) (slotCovf slot) x
  let flush := ftz && !e8 && isSub fmt r.1
  let e := if flush then flushIn fmt true r.1 else r.1
  let unfl := (ftz && isSub fp32 a) || flush
  let w := elemWidth e8 slot
  { v := some (f.d.toNat, 1, putElem (modBit f.mod 8) (vreg l f.d.toNat).toNat w (modBits f.mod 5 3) e),
    mflags := (r.2 ||| unflOf unfl) &&& slotFen slot }
/-- CVTDQ on one lane (R242): OVF32 is set by the overflow, also where CRND gives the largest finite value (log entry 133). -/
def cvtdqSem (slot : W64) (f : FmtT) (h : Here) (l : Lane) : LaneOut :=
  let e8 := modBit f.mod 9
  let ftz := modBit f.mod 3
  let w := elemWidth e8 slot
  let fmt := slotFmt (slotAfmt slot)
  let e := bitsN (vreg l f.a.toNat).toNat (w * modBits f.mod 5 3) w
  let sub := ftz && !e8 && isSub fmt e
  let v : FV := if e8 then (if e = 255 then .nan false else .fin false 1 ((e : Int) - 127)) else unpack fmt (if sub then flushIn fmt true e else e)
  let x := if modBit f.mod 4 then mulEx v (unpack fp32 (srcV h l f.bs f.b 1)) else fvEx v
  let r := finish fp32 (if e8 then 0 else slotCrnd slot) ftz x
  let ev := unflOf (sub || r.unfl) ||| (if r.flags &&& fOF != 0#5 then mOVF32 else 0#4) ||| (if r.bits = nanBits fp32 then mNANP else 0#4)
  { v := some (f.d.toNat, 1, r.bits), mflags := ev &&& slotFen slot }
/-- A slot conversion: the format-slot trap of R240 on every active lane, or the conversion lane by lane. -/
def slotWord (i : Instr) (g : Guard) (f : FmtT) (sem : W64 → FmtT → Here → Lane → LaneOut) (s : State) : Host.Outcome State Fault Refusal :=
  runWord i g (fun h tru s =>
    let slot := tget 0#64 h.w.fslots (modBits f.mod 0 3)
    let e8 := modBit f.mod 9
    if !convSlotOk e8 slot || 32 ≤ elemWidth e8 slot * modBits f.mod 5 3 then { s := s, traps := [trapAll .formatSlot tru slot] }
    else vecBody (wordOf i) (sem slot f) h tru s) s
/-- CVTQ (R241). -/
def execCvtq (g : Guard) (f : FmtT) (s : State) : Host.Outcome State Fault Refusal := slotWord (.cvtq g f) g f cvtqSem s
/-- CVTDQ (R242). -/
def execCvtdq (g : Guard) (f : FmtT) (s : State) : Host.Outcome State Fault Refusal := slotWord (.cvtdq g f) g f cvtdqSem s

end Sys2Proof.Machine
end

