-- ==== Sys2Proof/Machine/Dispatch.lean ====
section
/-! DEFINITION. The dispatch: one arm per row of the opcode table, each one direct call of its meaning. -/

namespace Sys2Proof.Machine

def exec (i : Instr) (s : State) : Host.Outcome State Fault Refusal :=
  match i with
  | .nop g f => Sys2Proof.Machine.execNop g f s
  | .smov g f => Sys2Proof.Machine.execSmov g f s
  | .smovi g f => Sys2Proof.Machine.execSmovi g f s
  | .sadd g f => Sys2Proof.Machine.execSadd g f s
  | .saddi g f => Sys2Proof.Machine.execSaddi g f s
  | .ssub g f => Sys2Proof.Machine.execSsub g f s
  | .smul g f => Sys2Proof.Machine.execSmul g f s
  | .smulh g f => Sys2Proof.Machine.execSmulh g f s
  | .sand g f => Sys2Proof.Machine.execSand g f s
  | .sor g f => Sys2Proof.Machine.execSor g f s
  | .sxor g f => Sys2Proof.Machine.execSxor g f s
  | .sshl g f => Sys2Proof.Machine.execSshl g f s
  | .sshr g f => Sys2Proof.Machine.execSshr g f s
  | .ssra g f => Sys2Proof.Machine.execSsra g f s
  | .smin g f => Sys2Proof.Machine.execSmin g f s
  | .smax g f => Sys2Proof.Machine.execSmax g f s
  | .sclz g f => Sys2Proof.Machine.execSclz g f s
  | .spopc g f => Sys2Proof.Machine.execSpopc g f s
  | .scmp g f => Sys2Proof.Machine.execScmp g f s
  | .ssel g f => Sys2Proof.Machine.execSsel g f s
  | .sdiv g f => Sys2Proof.Machine.execSdiv g f s
  | .jmp g f => Sys2Proof.Machine.execJmp g f s
  | .brz g f => Sys2Proof.Machine.execBrz g f s
  | .brnz g f => Sys2Proof.Machine.execBrnz g f s
  | .brv g f => Sys2Proof.Machine.execBrv g f s
  | .call g f => Sys2Proof.Machine.execCall g f s
  | .ret g f => Sys2Proof.Machine.execRet g f s
  | .rejoin g f => Sys2Proof.Machine.execRejoin g f s
  | .jmset g f => Sys2Proof.Machine.execJmset g f s
  | .jmadd g f => Sys2Proof.Machine.execJmadd g f s
  | .jmdel g f => Sys2Proof.Machine.execJmdel g f s
  | .jmqry g f => Sys2Proof.Machine.execJmqry g f s
  | .exit g f => Sys2Proof.Machine.execExit g f s
  | .yield g f => Sys2Proof.Machine.execYield g f s
  | .vmov g f => Sys2Proof.Machine.execVmov g f s
  | .vmovi g f => Sys2Proof.Machine.execVmovi g f s
  | .vadd g f => Sys2Proof.Machine.execVadd g f s
  | .vaddc g f => Sys2Proof.Machine.execVaddc g f s
  | .vsub g f => Sys2Proof.Machine.execVsub g f s
  | .vsubb g f => Sys2Proof.Machine.execVsubb g f s
  | .vmul g f => Sys2Proof.Machine.execVmul g f s
  | .vmulh g f => Sys2Proof.Machine.execVmulh g f s
  | .vmad g f => Sys2Proof.Machine.execVmad g f s
  | .vmadw g f => Sys2Proof.Machine.execVmadw g f s
  | .vand g f => Sys2Proof.Machine.execVand g f s
  | .vor g f => Sys2Proof.Machine.execVor g f s
  | .vxor g f => Sys2Proof.Machine.execVxor g f s
  | .vnot g f => Sys2Proof.Machine.execVnot g f s
  | .vandn g f => Sys2Proof.Machine.execVandn g f s
  | .vshl g f => Sys2Proof.Machine.execVshl g f s
  | .vshr g f => Sys2Proof.Machine.execVshr g f s
  | .vsra g f => Sys2Proof.Machine.execVsra g f s
  | .vrot g f => Sys2Proof.Machine.execVrot g f s
  | .vmin g f => Sys2Proof.Machine.execVmin g f s
  | .vmax g f => Sys2Proof.Machine.execVmax g f s
  | .vabs g f => Sys2Proof.Machine.execVabs g f s
  | .vneg g f => Sys2Proof.Machine.execVneg g f s
  | .vclz g f => Sys2Proof.Machine.execVclz g f s
  | .vpopc g f => Sys2Proof.Machine.execVpopc g f s
  | .vbrev g f => Sys2Proof.Machine.execVbrev g f s
  | .vbfe g f => Sys2Proof.Machine.execVbfe g f s
  | .vbfi g f => Sys2Proof.Machine.execVbfi g f s
  | .vperm4 g f => Sys2Proof.Machine.execVperm4 g f s
  | .vcmp g f => Sys2Proof.Machine.execVcmp g f s
  | .vsel g f => Sys2Proof.Machine.execVsel g f s
  | .pand g f => Sys2Proof.Machine.execPand g f s
  | .por g f => Sys2Proof.Machine.execPor g f s
  | .pxor g f => Sys2Proof.Machine.execPxor g f s
  | .pnot g f => Sys2Proof.Machine.execPnot g f s
  | .xquad g f => Sys2Proof.Machine.execXquad g f s
  | .xlane g f => Sys2Proof.Machine.execXlane g f s
  | .xbcast g f => Sys2Proof.Machine.execXbcast g f s
  | .xread g f => Sys2Proof.Machine.execXread g f s
  | .xred g f => Sys2Proof.Machine.execXred g f s
  | .xscan g f => Sys2Proof.Machine.execXscan g f s
  | .xvote g f => Sys2Proof.Machine.execXvote g f s
  | .xmatch g f => Sys2Proof.Machine.execXmatch g f s
  | .fadd g f => Sys2Proof.Machine.execFadd g f s
  | .fsub g f => Sys2Proof.Machine.execFsub g f s
  | .fmul g f => Sys2Proof.Machine.execFmul g f s
  | .ffma g f => Sys2Proof.Machine.execFfma g f s
  | .fmin g f => Sys2Proof.Machine.execFmin g f s
  | .fmax g f => Sys2Proof.Machine.execFmax g f s
  | .fcmp g f => Sys2Proof.Machine.execFcmp g f s
  | .frcp g f => Sys2Proof.Machine.execFrcp g f s
  | .frsq g f => Sys2Proof.Machine.execFrsq g f s
  | .fsqrt g f => Sys2Proof.Machine.execFsqrt g f s
  | .fdiv g f => Sys2Proof.Machine.execFdiv g f s
  | .fexp2 g f => Sys2Proof.Machine.execFexp2 g f s
  | .flog2 g f => Sys2Proof.Machine.execFlog2 g f s
  | .fsin g f => Sys2Proof.Machine.execFsin g f s
  | .fcos g f => Sys2Proof.Machine.execFcos g f s
  | .ftanh g f => Sys2Proof.Machine.execFtanh g f s
  | .ffrc g f => Sys2Proof.Machine.execFfrc g f s
  | .frnd g f => Sys2Proof.Machine.execFrnd g f s
  | .fclass g f => Sys2Proof.Machine.execFclass g f s
  | .fscale g f => Sys2Proof.Machine.execFscale g f s
  | .dadd g f => Sys2Proof.Machine.execDadd g f s
  | .dsub g f => Sys2Proof.Machine.execDsub g f s
  | .dmul g f => Sys2Proof.Machine.execDmul g f s
  | .dfma g f => Sys2Proof.Machine.execDfma g f s
  | .dmin g f => Sys2Proof.Machine.execDmin g f s
  | .dmax g f => Sys2Proof.Machine.execDmax g f s
  | .dcmp g f => Sys2Proof.Machine.execDcmp g f s
  | .ddiv g f => Sys2Proof.Machine.execDdiv g f s
  | .dsqrt g f => Sys2Proof.Machine.execDsqrt g f s
  | .hadd2 g f => Sys2Proof.Machine.execHadd2 g f s
  | .hmul2 g f => Sys2Proof.Machine.execHmul2 g f s
  | .hfma2 g f => Sys2Proof.Machine.execHfma2 g f s
  | .cvtff g f => Sys2Proof.Machine.execCvtff g f s
  | .cvtfi g f => Sys2Proof.Machine.execCvtfi g f s
  | .cvtif g f => Sys2Proof.Machine.execCvtif g f s
  | .cvtq g f => Sys2Proof.Machine.execCvtq g f s
  | .cvtdq g f => Sys2Proof.Machine.execCvtdq g f s
  | .ld g f => Sys2Proof.Machine.execLd g f s
  | .st g f => Sys2Proof.Machine.execSt g f s
  | .lds g f => Sys2Proof.Machine.execLds g f s
  | .sts g f => Sys2Proof.Machine.execSts g f s
  | .ldsp g f => Sys2Proof.Machine.execLdsp g f s
  | .stsp g f => Sys2Proof.Machine.execStsp g f s
  | .ldc g f => Sys2Proof.Machine.execLdc g f s
  | .hborx g f => Sys2Proof.Machine.execHborx g f s
  | .hbors g f => Sys2Proof.Machine.execHbors g f s
  | .hborc g f => Sys2Proof.Machine.execHborc g f s
  | .hreb g f => Sys2Proof.Machine.execHreb g f s
  | .hsplit g f => Sys2Proof.Machine.execHsplit g f s
  | .hmerge g f => Sys2Proof.Machine.execHmerge g f s
  | .hret g f => Sys2Proof.Machine.execHret g f s
  | .hgive g f => Sys2Proof.Machine.execHgive g f s
  | .hqry g f => Sys2Proof.Machine.execHqry g f s
  | .hankOpDeferred n => Sys2Proof.Machine.execHankOpDeferred n s
  | .atom g f => Sys2Proof.Machine.execAtom g f s
  | .atomcas g f => Sys2Proof.Machine.execAtomcas g f s
  | .red g f => Sys2Proof.Machine.execRed g f s
  | .waitv g f => Sys2Proof.Machine.execWaitv g f s
  | .fence g f => Sys2Proof.Machine.execFence g f s
  | .clnr g f => Sys2Proof.Machine.execClnr g f s
  | .invr g f => Sys2Proof.Machine.execInvr g f s
  | .bara g f => Sys2Proof.Machine.execBara g f s
  | .barw g f => Sys2Proof.Machine.execBarw g f s
  | .acset g f => Sys2Proof.Machine.execAcset g f s
  | .acadd g f => Sys2Proof.Machine.execAcadd g f s
  | .acwait g f => Sys2Proof.Machine.execAcwait g f s
  | .qdef g f => Sys2Proof.Machine.execQdef g f s
  | .qpush g f => Sys2Proof.Machine.execQpush g f s
  | .qpop g f => Sys2Proof.Machine.execQpop g f s
  | .qstat g f => Sys2Proof.Machine.execQstat g f s
  | .rqset g f => Sys2Proof.Machine.execRqset g f s
  | .rqsetComplete wg gang => Sys2Proof.Machine.execRqsetComplete wg gang s
  | .rcfence g f => Sys2Proof.Machine.execRcfence g f s
  | .mld g f => Sys2Proof.Machine.execMld g f s
  | .mma g f => Sys2Proof.Machine.execMma g f s
  | .mmat g f => Sys2Proof.Machine.execMmat g f s
  | .mzero g f => Sys2Proof.Machine.execMzero g f s
  | .mrd g f => Sys2Proof.Machine.execMrd g f s
  | .mwr g f => Sys2Proof.Machine.execMwr g f s
  | .mbatch g f => Sys2Proof.Machine.execMbatch g f s
  | .mwait g f => Sys2Proof.Machine.execMwait g f s
  | .mstat g f => Sys2Proof.Machine.execMstat g f s
  | .mrel g f => Sys2Proof.Machine.execMrel g f s
  | .matrixCommandStart wg n parity => Sys2Proof.Machine.execMatrixCommandStart wg n parity s
  | .matrixCommandComplete wg n => Sys2Proof.Machine.execMatrixCommandComplete wg n s
  | .mldComplete wg n => Sys2Proof.Machine.execMldComplete wg n s
  | .msub g f => Sys2Proof.Machine.execMsub g f s
  | .munsub g f => Sys2Proof.Machine.execMunsub g f s
  | .msubq g f => Sys2Proof.Machine.execMsubq g f s
  | .rstat g f => Sys2Proof.Machine.execRstat g f s
  | .cpy g f => Sys2Proof.Machine.execCpy g f s
  | .cpyt g f => Sys2Proof.Machine.execCpyt g f s
  | .cpyq g f => Sys2Proof.Machine.execCpyq g f s
  | .msop g f => Sys2Proof.Machine.execMsop g f s
  | .amsend g f => Sys2Proof.Machine.execAmsend g f s
  | .spawn g f => Sys2Proof.Machine.execSpawn g f s
  | .waitch g f => Sys2Proof.Machine.execWaitch g f s
  | .xfer g f => Sys2Proof.Machine.execXfer g f s
  | .cred g f => Sys2Proof.Machine.execCred g f s
  | .cbcast g f => Sys2Proof.Machine.execCbcast g f s
  | .cgath g f => Sys2Proof.Machine.execCgath g f s
  | .cwait g f => Sys2Proof.Machine.execCwait g f s
  | .cqry g f => Sys2Proof.Machine.execCqry g f s
  | .csrr g f => Sys2Proof.Machine.execCsrr g f s
  | .csrw g f => Sys2Proof.Machine.execCsrw g f s
  | .csrrCtl g f => Sys2Proof.Machine.execCsrrCtl g f s
  | .csrwCtl g f => Sys2Proof.Machine.execCsrwCtl g f s
  | .trap g f => Sys2Proof.Machine.execTrap g f s
  | .rett g f => Sys2Proof.Machine.execRett g f s
  | .bkpt g f => Sys2Proof.Machine.execBkpt g f s
  | .haltg g f => Sys2Proof.Machine.execHaltg g f s
  | .timew g f => Sys2Proof.Machine.execTimew g f s
  | .portIssueChoice core port => Sys2Proof.Machine.execPortIssueChoice core port s
  | .registerFill wg gang n how ev => Sys2Proof.Machine.execRegisterFill wg gang n how ev s
  | .rejoinRelease wg gang => Sys2Proof.Machine.execRejoinRelease wg gang s
  | .yieldExpiry wg gang => Sys2Proof.Machine.execYieldExpiry wg gang s
  | .timewRelease wg gang => Sys2Proof.Machine.execTimewRelease wg gang s
  | .workgroupEnd wg => Sys2Proof.Machine.execWorkgroupEnd wg s
  | .ticketSupplyDraw core ctx => Sys2Proof.Machine.execTicketSupplyDraw core ctx s
  | .ownershipRequest n => Sys2Proof.Machine.execOwnershipRequest n s
  | .runGrant n => Sys2Proof.Machine.execRunGrant n s
  | .ownershipReturn n => Sys2Proof.Machine.execOwnershipReturn n s
  | .writebackAck n => Sys2Proof.Machine.execWritebackAck n s
  | .collapseRequest n => Sys2Proof.Machine.execCollapseRequest n s
  | .collapseAck n => Sys2Proof.Machine.execCollapseAck n s
  | .replicaEvictionNotice n => Sys2Proof.Machine.execReplicaEvictionNotice n s
  | .killWalkEnd home ctx => Sys2Proof.Machine.execKillWalkEnd home ctx s
  | .revocationNotice n => Sys2Proof.Machine.execRevocationNotice n s
  | .storeBufferDrain wg gang n ev => Sys2Proof.Machine.execStoreBufferDrain wg gang n ev s
  | .accessAck wg gang => Sys2Proof.Machine.execAccessAck wg gang s
  | .memsideAtomic n => Sys2Proof.Machine.execMemsideAtomic n s
  | .waitvPoll n => Sys2Proof.Machine.execWaitvPoll n s
  | .frameArrival n bad => Sys2Proof.Machine.execFrameArrival n bad s
  | .ringLoadComplete wg handle => Sys2Proof.Machine.execRingLoadComplete wg handle s
  | .stagingCopy entry => Sys2Proof.Machine.execStagingCopy entry s
  | .rgctlWrite value => Sys2Proof.Machine.execRgctlWrite value s
  | .slctlWrite value => Sys2Proof.Machine.execSlctlWrite value s
  | .copyPiece n => Sys2Proof.Machine.execCopyPiece n s
  | .msopLine n => Sys2Proof.Machine.execMsopLine n s
  | .amAccept n => Sys2Proof.Machine.execAmAccept n s
  | .amReply n => Sys2Proof.Machine.execAmReply n s
  | .workgroupPlace what cores => Sys2Proof.Machine.execWorkgroupPlace what cores s
  | .childEnd wg => Sys2Proof.Machine.execChildEnd wg s
  | .linkNotice module link st => Sys2Proof.Machine.execLinkNotice module link st s
  | .planeResendTimeout plane => Sys2Proof.Machine.execPlaneResendTimeout plane s
  | .ackSend link => Sys2Proof.Machine.execAckSend link s
  | .xferPacket pkt => Sys2Proof.Machine.execXferPacket pkt s
  | .xferAck n status => Sys2Proof.Machine.execXferAck n status s
  | .collectivePacket pkt => Sys2Proof.Machine.execCollectivePacket pkt s
  | .confirmationRound coll => Sys2Proof.Machine.execConfirmationRound coll s
  | .queueDoorbell queue value => Sys2Proof.Machine.execQueueDoorbell queue value s
  | .launchStart queue => Sys2Proof.Machine.execLaunchStart queue s
  | .launchComplete launch => Sys2Proof.Machine.execLaunchComplete launch s
  | .preemptionDecision skein sw => Sys2Proof.Machine.execPreemptionDecision skein sw s
  | .drainTimeout skein => Sys2Proof.Machine.execDrainTimeout skein s
  | .skeinSave skein => Sys2Proof.Machine.execSkeinSave skein s
  | .skeinRestore skein cores => Sys2Proof.Machine.execSkeinRestore skein cores s
  | .watchdogExpiry wg => Sys2Proof.Machine.execWatchdogExpiry wg s
  | .saveStallKill skein => Sys2Proof.Machine.execSaveStallKill skein s
  | .hcqctlWrite value => Sys2Proof.Machine.execHcqctlWrite value s
  | .fqctlWrite value => Sys2Proof.Machine.execFqctlWrite value s
  | .fqheadWrite value => Sys2Proof.Machine.execFqheadWrite value s
  | .imgctlWrite value => Sys2Proof.Machine.execImgctlWrite value s
  | .controlSpaceWrite addr value => Sys2Proof.Machine.execControlSpaceWrite addr value s
  | .ownershipRefusal n => Sys2Proof.Machine.execOwnershipRefusal n s
  | .ringBorrowReturn n => Sys2Proof.Machine.execRingBorrowReturn n s
  | .queueDescriptorWrite queue word value => Sys2Proof.Machine.execQueueDescriptorWrite queue word value s
  | .residencyRangeWrite addr value => Sys2Proof.Machine.execResidencyRangeWrite addr value s
  | .segmentFrameArrival frame => Sys2Proof.Machine.execSegmentFrameArrival frame s
  | .rgpatWrite value => Sys2Proof.Machine.execRgpatWrite value s
  | .rglenWrite value => Sys2Proof.Machine.execRglenWrite value s
  | .rgerrWrite value => Sys2Proof.Machine.execRgerrWrite value s
  | .flitReceive link flit => Sys2Proof.Machine.execFlitReceive link flit s
  | .ackReceive link seq bitmap => Sys2Proof.Machine.execAckReceive link seq bitmap s
  | .linkLock link lo hi => Sys2Proof.Machine.execLinkLock link lo hi s
  | .lossOfLock link => Sys2Proof.Machine.execLossOfLock link s
  | .trainingTimeout link => Sys2Proof.Machine.execTrainingTimeout link s
  | .slotReservation links slots => Sys2Proof.Machine.execSlotReservation links slots s
  | .starvationToken router input => Sys2Proof.Machine.execStarvationToken router input s
  | .xferResend n => Sys2Proof.Machine.execXferResend n s
  | .epochExchange ex => Sys2Proof.Machine.execEpochExchange ex s
  | .memberLostTimeout coll module => Sys2Proof.Machine.execMemberLostTimeout coll module s
  | .extentTakeback extent => Sys2Proof.Machine.execExtentTakeback extent s
  | .poolFatalError device => Sys2Proof.Machine.execPoolFatalError device s
  | .cxlMemAccess acc => Sys2Proof.Machine.execCxlMemAccess acc s
  | .thermalLimit up => Sys2Proof.Machine.execThermalLimit up s
  | .portEnable link => Sys2Proof.Machine.execPortEnable link s
  | .sliceTableWrite addr value => Sys2Proof.Machine.execSliceTableWrite addr value s
  | .clauseStart => Sys2Proof.Machine.execClauseStart s
  | .frameInject => Sys2Proof.Machine.execFrameInject s
  | .sliceSwitch => Sys2Proof.Machine.execSliceSwitch s
  | .faultRecordWrite => Sys2Proof.Machine.execFaultRecordWrite s
  | .load => Sys2Proof.Machine.execLoad s
  | .unload => Sys2Proof.Machine.execUnload s
  | .replace => Sys2Proof.Machine.execReplace s
  | .ctxset => Sys2Proof.Machine.execCtxset s
  | .hborrow => Sys2Proof.Machine.execHborrow s
  | .hreturn => Sys2Proof.Machine.execHreturn s
  | .kill => Sys2Proof.Machine.execKill s
  | .wgterm => Sys2Proof.Machine.execWgterm s
  | .resume => Sys2Proof.Machine.execResume s
  | .skip => Sys2Proof.Machine.execSkip s
  | .fail => Sys2Proof.Machine.execFail s
  | .fuseup => Sys2Proof.Machine.execFuseup s
  | .fuseBlowComplete => Sys2Proof.Machine.execFuseBlowComplete s
  | .attest => Sys2Proof.Machine.execAttest s
  | .extmap => Sys2Proof.Machine.execExtmap s
  | .extunmap => Sys2Proof.Machine.execExtunmap s
  | .securityAlarm => Sys2Proof.Machine.execSecurityAlarm s
  | .reset => Sys2Proof.Machine.execReset s

end Sys2Proof.Machine
end

