-- ==== Sys2Proof/Machine/Order.lean ====
section
/-! DEFINITION. What moves next when the agenda names nothing: one order among the many that the spec allows (log entry 3). -/

namespace Sys2Proof.Machine

/-- An event that lets no cache line leave. -/
def noEvict : Evict := ⟨[], [], []⟩
/-- The step that handles the n-th message. -/
def msgStep (n : Nat) : Msg → Instr
  | .ownReq _ => .ownershipRequest n
  | .runGrant _ => .runGrant n
  | .refusal _ _ => .ownershipRefusal n
  | .ret _ _ _ _ _ _ => .ownershipReturn n
  | .wbAck _ _ _ _ _ => .writebackAck n
  | .retRun _ _ => .ownershipReturn n
  | .collapseReq _ _ _ _ _ => .collapseRequest n
  | .collapseAck _ _ _ _ _ => .collapseAck n
  | .evictNotice _ _ _ _ => .replicaEvictionNotice n
  | .revoke _ _ _ => .revocationNotice n
  | .memReq _ _ _ => .memsideAtomic n
  | .am _ _ _ _ _ _ _ _ _ _ _ => .amAccept n
  | .amReply _ _ _ _ _ => .amReply n
/-- The messages in flight. -/
def msgSteps (s : State) : List Instr := s.msgs.mapIdx msgStep
/-- The steps of one gang. -/
def gangSteps (w : Wg) (i : Nat) : List Instr :=
  [.yieldExpiry w.tag i, .timewRelease w.tag i, .rqsetComplete w.tag i]
    ++ (gangOf w i).pend.flatMap (fun a => [Instr.registerFill w.tag i a.seq .now noEvict, .storeBufferDrain w.tag i a.seq noEvict])
    ++ [.accessAck w.tag i]
/-- The steps of one workgroup. -/
def wgSteps (w : Wg) : List Instr :=
  (List.range w.ngangs).flatMap (gangSteps w)
    ++ w.mq.flatMap (fun c => [Instr.matrixCommandStart w.tag c.id false, .matrixCommandComplete w.tag c.id, .mldComplete w.tag c.id])
    ++ (List.range (4 * w.nmacs)).map (fun h => .ringLoadComplete w.tag h) ++ (List.range w.nmacs).map (fun m => .ringLoadComplete w.tag (64 + m))
    ++ [.watchdogExpiry w.tag, .childEnd w.tag, .workgroupEnd w.tag]
/-- The steps of the engines, the collectives and the links. -/
def unitSteps (s : State) : List Instr :=
  (List.range s.deferred.length).map Instr.hankOpDeferred
    ++ s.eng.flatMap (fun c => [Instr.copyPiece c.id, .msopLine c.id])
    ++ (List.range (packetsOut s).length).filterMap (fun n => match (packetsOut s)[n]? with
      | some (id, p) =>
        if s.xfers.any fun x => x.id == id && (findWg s x.wg).any fun w => xferAway s w x p then some (Instr.xferAck n 0) else none
      | none => none)
    ++ s.colls.flatMap (fun c => ((List.range c.marks.length).filter fun k => c.code == 1 && !c.given.contains k).map (fun k =>
        Instr.collectivePacket { group := c.group, number := c.number, epoch := c.epoch, chunk := k, sender := s.module, kind := .contribution, data := [] })
      ++ (s.collPkts.filter fun p => p.group == c.group && p.number == c.number).map Instr.collectivePacket
      ++ (c.held.filter fun p => p.epoch ≤ c.epoch).map Instr.collectivePacket ++ [.confirmationRound c.id])
    ++ (List.range 40).filterMap (fun p =>
      if (isUp s p || (linkOf s p).st == .failed) && liveUp s s.module p != isUp s p then some (Instr.linkNotice s.module p (linkOf s p).st) else none)
    ++ (List.range 48).filterMap (fun p => if (linkOf s p).acks = 0 then none else some (Instr.ackSend p))
    ++ ((((remoteOut s).filterMap fun x => x.2.2.plane) ++ s.rets.flatMap fun r => r.planes.map fun p => p.2).dedup.filter fun p =>
      ((remoteOut s).any fun x => overdue s p x.2.2) || s.rets.any (retOverdue s p)).map Instr.planeResendTimeout
    ++ (List.range (pollers s).length).filterMap (fun n => match (pollers s)[n]? with
      | some (_, _, a) => if waitvHolds a (homeBytes s a.pa a.bytes) then some (Instr.waitvPoll n) else none
      | none => none)
/-- The steps of the ring. -/
def ringSteps (s : State) : List Instr :=
  if !s.ring.running && s.ring.frames.isEmpty then []
  else
    (List.range s.ring.frames.length).flatMap (fun n => [Instr.frameArrival n false, .ringBorrowReturn n])
      ++ (List.range (fld (ctlGet s rgleadAddr) 0 16 + 1)).map (fun k => Instr.stagingCopy ((s.ring.pos + k) % max 1 (patternNow s).2)) ++ [.frameInject]
/-- The command at the head of the host's ring. -/
def hostSteps (s : State) : List Instr := match headCmd s with
  | some 2 => [.unload]
  | some 3 => [.replace]
  | some 4 => [.ctxset]
  | some 5 => [.hborrow]
  | some 6 => [.hreturn]
  | some 7 => [.kill]
  | some 8 => [.wgterm]
  | some 9 => [.resume]
  | some 10 => [.skip]
  | some 11 => [.fail]
  | some 12 => [.fuseup]
  | some 13 => [.attest]
  | some 14 => [.extmap]
  | some 15 => [.extunmap]
  | some _ => [.load]
  | none => [.fuseBlowComplete]
/-- Queues that are enabled. -/
def openQueues (s : State) : List Nat :=
  (s.ctl.filter fun c => inUnits c.1 0x7F0001000000 0x40 32768 && c.1 % 0x40 == 0x28 && c.2.getLsbD 26).map fun c => (c.1 - 0x7F0001000000) / 0x40
/-- The steps of the scheduler. -/
def schedSteps (s : State) : List Instr :=
  [.sliceSwitch] ++ s.skeins.flatMap (fun k => [Instr.preemptionDecision k.id true, .drainTimeout k.id, .skeinSave k.id, .saveStallKill k.id])
    ++ [.faultRecordWrite] ++ s.ctxs.flatMap (fun c => c.walks.map fun h => Instr.killWalkEnd h c.num)
    ++ s.launches.map (fun l => .launchComplete l.id)
    ++ ((openQueues s).filter fun q => (askAgain s q).isNone).map Instr.launchStart
/-- What waits for a core, where there is room. -/
def placeSteps (s : State) : List Instr :=
  s.amWaits.mapIdx (fun n x => Instr.workgroupPlace (.handler x.core n) [])
    ++ (List.range s.childReqs.length).flatMap (fun n => match (s.childReqs[n]?).bind (fun c => (findWg s c.parent).bind coreOf) with
      | some core => (List.range 8).map fun i => Instr.workgroupPlace (.child n) [8 * (core / 8) + i]
      | none => [])
    ++ (allWaiting s).filterMap fun x => (roomFor s x.needs).map fun cs => match x.skein with
      | some k => Instr.skeinRestore k cs
      | none => Instr.workgroupPlace (.skein x.launch) cs
/-- A decision for something of higher priority, one skein at a time. -/
def pushSteps (s : State) : List Instr :=
  if s.skeins.any fun k => k.st != .running && (match k.st with
    | .saved _ _ => false
    | _ => true) then []
  else s.skeins.map fun k => .preemptionDecision k.id false
/-- The ports of the cores that hold workgroups. -/
def portSteps (s : State) : List Instr :=
  ((s.wgs.filterMap coreOf).dedup).flatMap fun c => (List.range 4).map fun p => Instr.portIssueChoice c p
/-- Launches that met a full table ask again. -/
def retrySteps (s : State) : List Instr := ((openQueues s).filter fun q => (askAgain s q).isSome).map Instr.launchStart

/-- The first of some steps that the state offers. -/
def firstOf (s : State) : List Instr → Option State
  | [] => none
  | i :: is => match exec i s with
    | .next s' => some s'
    | _ => firstOf s is
/-- The first of several groups of steps that has one. -/
def firstGroup (s : State) : List (State → List Instr) → Option State
  | [] => none
  | g :: gs => match firstOf s (g s) with
    | some s' => some s'
    | none => firstGroup s gs
/-- The first packet of a transfer that can leave and has not left yet. -/
def firstSend (s : State) : Option State :=
  (List.range (packetsOut s).length).findSome? fun n => match (packetsOut s)[n]? with
    | some (id, p) =>
      if s.xfers.any fun x => x.id == id && x.sent.any fun y => y.1 == p then none
      else match execXferResend n s with
        | .next s' => some s'
        | _ => none
    | none => none
/-- The step that comes by itself; none when nothing can move but time. -/
def ownStep (s : State) : Option State :=
  match firstGroup s [msgSteps, fun s => s.wgs.flatMap wgSteps] with
  | some s' => some s'
  | none => match firstSend s with
    | some s' => some s'
    | none => firstGroup s [unitSteps, hostSteps, schedSteps, placeSteps, pushSteps, ringSteps]

end Sys2Proof.Machine
end

