-- ==== Sys2Proof/Machine/Clock.lean ====
section
/-! DEFINITION. Time, the word of an issue that executes next, and the memory in which a single instruction is laid out to be fetched. -/

namespace Sys2Proof.Machine

/-- The lanes of a gang in issues in flight. -/
def issuedLanes (s : State) (tag gang : Nat) : LaneMask :=
  (s.issues.filter fun i => i.wg == tag && i.gang == gang).foldl (fun m i => m ||| i.lanes) 0#32
/-- The lanes of a gang that are runnable and not in an issue (R393). -/
def waitingLanes (s : State) (w : Wg) (core gang : Nat) : LaneMask :=
  let busy := issuedLanes s w.tag gang
  maskOf fun n => !busy.getLsbD n && mayRun s w core gang busy n
/-- A gang as a cycle begins: the lanes that have exited or parked are noted (R201), and the age of every lane that is not runnable begins anew
(R393). -/
def passGang (s : State) (w : Wg) (i : Nat) (g : Gang) : Gang :=
  let now := s.cycle
  let m := match coreOf w with
    | some core => waitingLanes s w core i
    | none => 0#32
  mapLanes (~~~m) (fun _ l => { l with since := now })
    { g with seenExit := lanesIn g fun st => st == .exited, seenPark := lanesIn g fun st => st == .parked }
/-- A workgroup as a cycle begins. -/
def passWg (s : State) (cycles : Nat) (w : Wg) : Wg :=
  let w := { w with gangs := w.gangs.mapIdx fun i g => passGang s w i g }
  if (coreOf w).isSome then { w with resident := w.resident + cycles, idle := w.idle + cycles } else w
/-- A TLB may lose any entry at any time (R15, R16; log 28). -/
def loseTlb (s : State) : State :=
  { s with tlb := ((s.tlb.mapIdx fun i p => (i, p)).filter fun x => Config.freeBit (s.freeCtr + x.1)).map fun x => x.2
           freeCtr := s.freeCtr + s.tlb.length }
/-- Time passes: the clocks advance, and the counters of the workgroups that are resident (R395, R401, R412); a cycle that ends has its test of
parked lanes (R414); as a new cycle begins, the slots of the last are free but for the second of an FP64 word, sites stand to be evaluated, the
lanes that have exited or parked are noted, and no starvation token is left over (R48, R201, R365, R438). -/
def passTime (s : State) (cycles ns : Nat) : State :=
  if cycles = 0 then { s with time1588 := s.time1588 + BitVec.ofNat 64 ns }
  else
    let s := loseTlb (cycleEnd s)
    let s : State := { s with cycle := s.cycle + cycles, time1588 := s.time1588 + BitVec.ofNat 64 ns, dawn := true
                              tokens := [], startedNow := []
                              turns := (s.turns.map fun t => { t with fresh := false, left := t.left - cycles }).filter fun t => t.left != 0 }
    { s with wgs := s.wgs.map (passWg s cycles) }
/-- The ns of some cycles from now on, at the arithmetic clock (R434). -/
def nsOf (s : State) (cycles : Nat) : Nat := (s.cycle + cycles) * 1000 / max s.clockMHz 1 - s.cycle * 1000 / max s.clockMHz 1
/-- Cycles pass. -/
def passCycles (s : State) (cycles : Nat) : State := passTime s cycles (nsOf s cycles)

/-! Whose turn it is (R43, R257, R273, R284, R438). -/

/-- The bits of a word that words packed with it agree in: OP and every field that names registers (R43; log entry 110). -/
def packMask (op : Nat) : W64 :=
  if op ∈ [0x02, 0x04, 0x16, 0x17, 0x19, 0x21] then 0xFF00FFFF00000000#64
  else if op ∈ [0x15, 0x18, 0x1B] then 0xFF00F00000000000#64
  else if (0x80 ≤ op && op ≤ 0x86) || (0x91 ≤ op && op ≤ 0x94) || op == 0x96 || op == 0x97 then 0xFF00FFFFFF000000#64
  else if 0xA8 ≤ op && op ≤ 0xAB then 0xFF00FFFFFFF00000#64
  else if 0xF0 ≤ op then 0xFF00FFFFFFFF0000#64
  else 0xFF00FFFFFFFFC000#64
/-- The word that an issue executes next; 0 where none can be fetched. -/
def currentWord (s : State) (i : Issue) : W64 := ((findWg s i.wg).bind fun w => fetch s w i.at_).getD 0#64
/-- What a slot's words agree in. -/
def packKey (x : W64) : W64 := x &&& packMask (fld x 56 8)
/-- The slots that a word takes: two for FP64 (R235, R438). -/
def slotsTaken (x : W64) : Nat := if 0x68 ≤ fld x 56 8 ∧ fld x 56 8 ≤ 0x70 then 2 else 1
/-- The quad of an issue; 0 for a ganged one. -/
def quadNo (i : Issue) : Nat := i.quad.getD 0
/-- Words an issue has executed. -/
def posOf (i : Issue) : Nat := (i.at_ - i.first).toNat / 8
/-- The core and port of an issue. -/
def portAt (s : State) (i : Issue) : Option (Nat × Nat) :=
  (findWg s i.wg).bind fun w => (coreOf w).map fun c => (c, tget 0 w.slots i.gang % 4)
/-- The slot that the next word of an issue takes; one that was packed into an earlier quad's takes none of its own. -/
def turnOf (s : State) (i : Issue) : Option Turn :=
  (portAt s i).map fun p => { core := p.1, port := p.2, wg := i.wg, gang := i.gang, quad := quadNo i, key := packKey (currentWord s i),
                              left := if i.packed then 0 else slotsTaken (currentWord s i) }
/-- What has gone in this cycle lets another word go: its port has no other slot unless the word was packed, and of its workgroup only a word of a
later gang, or of a later quad of its gang, comes after it. -/
def lets (t u : Turn) : Bool :=
  (t.core != u.core || t.port != u.port || t.left == 0 || u.left == 0)
    && (t.wg != u.wg || !t.fresh || t.gang < u.gang || (t.gang == u.gang && t.quad < u.quad))
/-- Two issues of a gang stand at words of one position that share a slot (R43). -/
def packs (s : State) (i j : Issue) : Bool :=
  i.wg == j.wg && i.gang == j.gang && i.started && j.started && posOf i == posOf j && quadNo i < quadNo j
    && packKey (currentWord s i) == packKey (currentWord s j)
/-- Another issue of the same gang does not stand before one: clauses start in ascending quad order, then words go position by position, in
ascending quad order at each. -/
def yields (i j : Issue) : Bool :=
  if i.started then j.started && (posOf i < posOf j || (posOf i == posOf j && quadNo i ≤ quadNo j)) else j.started || quadNo i ≤ quadNo j
/-- It is the n-th issue's turn: to start its clause, or to place its next word in this cycle. -/
def inTurn (s : State) (n : Nat) : Bool :=
  match s.issues[n]? with
  | none => false
  | some i => match turnOf s i with
    | none => false
    | some u =>
      (dropNth s.issues n).all (fun j => j.wg != i.wg || j.gang != i.gang || yields i j) && (!i.started || s.turns.all fun t => lets t u)
/-- The head issue takes its slot, and the words of later quads that agree with its word share it, wherever between them a word does not; each of
them goes when the words before it have gone, so that results are those of separate issues in quad order (R43, R438). -/
def takeTurn (s : State) : State :=
  match s.issues with
  | i :: is =>
    if !i.started then s
    else
      let s1 := { s with turns := (turnOf s i).toList ++ s.turns }
      { s1 with issues := { i with packed := false } :: is.map fun j => if !i.packed && packs s i j then { j with packed := true } else j }
  | [] => s

/-! How far time may pass (R48, R206, R393, R412, R438). -/

/-- The ports of the cores that hold workgroups. -/
def usedPorts (s : State) : List (Nat × Nat) := ((s.wgs.filterMap coreOf).dedup).flatMap fun c => (List.range 4).map fun p => (c, p)
/-- A free port has a unit to choose (R393). -/
def choiceDue (s : State) : Bool :=
  (usedPorts s).any fun p => !portTaken s p.1 p.2 && (portBusy s p.1 p.2).isEmpty && !(portUnits s p.1 p.2).isEmpty
/-- The cycles in which frames reach their next stops (R439), and in which a ring group of one member decides its frames and gives them back (R331,
R332). -/
def ringDue (s : State) : List Nat :=
  (s.ring.frames.filter fun f => decide (f.reached ≤ 100)).map (fun f => f.first + f.reached)
    ++ if !alone s then []
    else
      (if s.ring.running then (dueSlot s).toList.map fun a => slotDue s a - 2048 else [])
        ++ (s.ring.frames.filter fun f => f.borrow.isSome).map fun f => f.last + f.src + 1
/-- The cycles by which steps must have come: the ends of YIELD delays, what the ring does in an exact cycle, and the watchdogs (R206, R331, R332,
R401). -/
def dueCycles (s : State) : List Nat :=
  ringDue s ++ (s.wgs.filter fun w => (coreOf w).isSome && ctxRuns s w.ctx && !stopped s w).map (fun w => s.cycle + (wdogCycles s w - w.idle))
    ++ (s.wgs.filter fun w => (coreOf w).isSome).flatMap fun w => w.gangs.flatMap fun g => g.lanes.filterMap fun l => match l.st with
    | .waiting (.cycles t) => some t
    | _ => none
/-- The next instant at which a slice begins, while slicing is in force (R394). -/
def sliceInstant (s : State) : List Nat :=
  let n := fld (ctlGet s slctlAddr) 0 7
  let start := (ctlGet s slstartAddr).toNat
  let t := s.time1588.toNat
  if !(ctlGet s slctlAddr).getLsbD 7 then []
  else if t < start then [start]
  else if sliceIndex s != some s.slice then [t]
  else
    let round := (t - start) / max (sliceCycle s n) 1 * sliceCycle s n
    (List.range n).filterMap fun e => let x := start + round + sliceCycle s (e + 1); if t < x then some x else none
/-- What bounds a skein's drain or save (R396, R402): it must have ended by then, or its time-out comes. -/
def skeinInstant (s : State) (k : Skein) : Option Nat :=
  let ws := skeinWgs s k.id
  match k.st with
  | .draining t => some (t + 100000)
  | .saving _ t => if ws.isEmpty then none else some (t + 10000000)
  | _ => none
/-- The instants of TIME1588 by which steps must have come: slice switches, the ends of drains and stalled saves, of FUSEUP, and of TIMEW, each
TIMEW within 100 ns (R394, R396, R402, R412, R422). -/
def dueTimes (s : State) : List Nat :=
  sliceInstant s ++ s.skeins.filterMap (skeinInstant s) ++ (if s.fuseBusy.isSome then [s.fuseBy] else [])
    ++ (s.wgs.filter fun w => (coreOf w).isSome).flatMap fun w => w.gangs.flatMap fun g => g.lanes.filterMap fun l => match l.st with
    | .blocked (.time t) => some (t.toNat + 100)
    | _ => none
/-- A slice switch has taken the cores of a skein: its decision comes before time passes (R394, R413). -/
def decisionDue (s : State) : Bool := (ctlGet s slctlAddr).getLsbD 7 && s.skeins.any fun k => decides s true k && switchedOut s (ownWgs s k)
/-- Cycles may pass: none, or one at a time while anything issues and no port has a word or a choice left for this cycle, and never beyond the
cycle or instant in which a step is due. -/
def mayPass (s : State) (cycles ns : Nat) : Bool :=
  (dueTimes s).all (fun t => s.time1588.toNat + ns ≤ t) && (cycles == 0 || (
    !(List.range s.issues.length).any (inTurn s) && !choiceDue s && !decisionDue s && !(s.dawn && someRejoined s)
      && (cycles == 1 || (s.issues.isEmpty && s.turns.isEmpty && !someRejoined s))
      && (dueCycles s).all fun d => s.cycle + cycles ≤ d))

/-- The n-th issue in flight stands first. -/
def toHead (s : State) (n : Nat) : State :=
  match s.issues[n]? with
  | some i => { s with issues := i :: dropNth s.issues n }
  | none => { s with issues := [] }
/-- The head issue goes on: its clause starts, or its next word executes. -/
def stepIssue (s : State) : Host.Outcome State Fault Refusal :=
  match s.issues with
  | [] => .fault .noIssue
  | i :: _ =>
    if i.started then
      match nextWord s with
      | .ok j => exec j s
      | .error s' => .next s'
    else exec .clauseStart s
/-- A move that releases lanes at REJOIN sites. -/
def isRelease : Move → Bool
  | .event (.rejoinRelease _ _) => true
  | _ => false
/-- A move may come now: as a cycle begins, the satisfied sites release their lanes before anything else (R48); a word waits for its turn, and a
decision on pre-emption for the end of the cycle's words (R413). -/
def mayMove (s : State) (m : Move) : Bool :=
  (isRelease m || !(s.dawn && someRejoined s)) && match m with
    | .event .clauseStart => inTurn s 0
    | .event (.preemptionDecision _ _) => !(List.range s.issues.length).any (inTurn s) && !choiceDue s
    | .event i => (encode i).isNone
    | .word n => inTurn s n
/-- What moves, moves: an issue takes its slot and goes on, or a step comes. -/
def move (s : State) (m : Move) : Host.Outcome State Fault Refusal :=
  let s := { s with dawn := s.dawn && isRelease m }
  match m with
  | .event i => exec i s
  | .word n => stepIssue (takeTurn (toHead s n))
/-- The first entry of the agenda: time that may pass, then a move that may come. -/
def stepTick (t : Tick) (s : State) : Host.Outcome State Fault Refusal :=
  if mayPass s t.cycles t.ns && mayMove (passTime s t.cycles t.ns) t.move then move (passTime s t.cycles t.ns) t.move else .fault .notEnabled
/-- The releases at REJOIN sites. -/
def releaseSteps (s : State) : List Instr := s.wgs.flatMap fun w => (List.range w.ngangs).map fun g => .rejoinRelease w.tag g
/-- An issue stands before another in the order of a cycle: by workgroup, gang and quad. -/
def issueLe (s : State) (a b : Nat) : Bool :=
  let key (n : Nat) : Nat := match s.issues[n]? with
    | some i => (i.wg * 16 + i.gang) * 8 + quadNo i
    | none => 0
  key a ≤ key b
/-- The issue that goes next when the agenda is empty. -/
def nextIssue (s : State) : Option Nat := (sortBy (issueLe s) ((List.range s.issues.length).filter (inTurn s))).head?
/-- With no agenda: the releases due, the choices of the ports, the words of this cycle in order, the steps that come by themselves, or time. -/
def stepFree (s : State) : Host.Outcome State Fault Refusal :=
  match (if s.dawn then firstOf s (releaseSteps s) else none) with
  | some s' => .next s'
  | none =>
    let s := { s with dawn := false }
    match firstOf s (portSteps s) with
    | some s' => .next s'
    | none => match nextIssue s with
      | some n => move s (.word n)
      | none => match ownStep s with
        | some s' => .next s'
        | none =>
          let s := passCycles s 1
          match firstGroup s [retrySteps] with
          | some s' => .next s'
          | none => .next s

/-! A word laid out to run next (log entry 5). -/

/-- The header of a clause of one word: the word's class, and U set where the class needs the whole gang (R149). -/
def headerFor (x : W64) : W64 :=
  let cls : BitVec 3 := match classOfOp (fld x 56 8) with
    | some .mem => 1#3
    | some .matrix => 2#3
    | some .async => 3#3
    | some .sys => 4#3
    | _ => 0#3
  31#5 ++ cls ++ ((if cls == 2#3 then 0x0C000000000000#56 else 0x08000000000000#56) : BitVec 56)
/-- The image that holds the clause: 16 bytes of code at the start of the image area. -/
def soloImage (s : State) : Image := { num := s.seq, digest := 0, secver := 0, code := (0, 16), const := (0, 0), desc := (0, 0), uses := 1 }
/-- A workgroup of one gang alone on core 0, all lanes at the word, with every register, macro and tile of the core. -/
def soloWg (s : State) : Wg :=
  let l : Lane := { pc := BitVec.ofNat 64 (windowBase + 8), cbase := some (BitVec.ofNat 64 windowBase), climit := 256, st := .ready, since := s.cycle }
  { tag := s.seq + 1, kind := .handler, st := .resident 0, ctx := 0, tenant := 0, pri := 0, sys := true, skein := s.seq, slots := [0],
    gangs := [{ lanes := List.replicate 32 l, quota := 16 }], scratchSize := 0x40000, nmacs := 16, naccs := 32, image := s.seq }
/-- The issue of that word, started. -/
def soloIssue (s : State) : Issue :=
  { wg := s.seq + 1, gang := 0, quad := none, lanes := 0xFFFFFFFF#32, base := BitVec.ofNat 64 windowBase,
    at_ := BitVec.ofNat 64 (windowBase + 8), last := BitVec.ofNat 64 (windowBase + 8), started := true,
    first := BitVec.ofNat 64 (windowBase + 8) }
/-- The image area open, where it is not. -/
def openArea (s : State) : State := if (imgArea s).isSome then s else ctlPut s imgCtlAddr 8#64
/-- The word in memory and all that its fetch needs. -/
def installWord (s : State) (x : W64) : State :=
  let o := openArea s
  let b := ((imgArea o).getD (0, 0)).1
  let o := devPut o b (leBytes 8 (headerFor x).toNat ++ leBytes 8 x.toNat)
  { o with images := soloImage s :: s.images, wgs := soloWg s :: s.wgs, issues := soloIssue s :: s.issues
           skeins := { id := s.seq, launch := none, number := 0, wgs := [s.seq + 1] } :: s.skeins
           seq := s.seq + 2, agenda := ⟨0, 0, .word 0⟩ :: s.agenda, turns := [], dawn := false }

end Sys2Proof.Machine
end

