-- ==== Sys2Proof/Machine/Step.lean ====
section
/-! DEFINITION. One step of the module, and the state in which its next step runs a word laid out in memory. -/

namespace Sys2Proof.Machine

/-- One step: the first entry of the agenda, or where it is empty the default order's choice (log entry 3). -/
def step (s : State) : Host.Outcome State Fault Refusal :=
  match s.agenda with
  | t :: ts => stepTick t { s with agenda := ts }
  | [] => stepFree s

/-- A word stands in a resident image as a clause of its own, a workgroup of one gang is resident on core 0, its clause has started, and the
agenda names its word as what moves next (log entry 5). -/
def State.withFetchWord (s : State) (nbits w : Nat) : State := installWord s (BitVec.ofNat 64 (w % 2 ^ nbits))

end Sys2Proof.Machine
end

