-- ==== Sys2Proof/Safety.lean ====
section
/-! DEFINITION. The terms in which claims are stated: what of a state is well formed, when a word runs with nothing in its way, and what a
word leaves alone. -/

namespace Sys2Proof.Machine

/-! Well-formed memories. -/

/-- Control-space words stand in rising order and none is 0. -/
def ctlWf : Nat → List (Nat × W64) → Bool
  | _, [] => true
  | lo, (a, v) :: r => lo ≤ a && v != 0#64 && ctlWf (a + 1) r
/-- Every memory of the state is in its canonical form. -/
def Tidy (s : State) : Prop := Memory.wf s.mem = true ∧ Memory.wf s.hostMem = true ∧ ctlWf 0 s.ctl = true ∧ s.wgs.all (fun w => Memory.wf0 w.scratch) = true

/-! The parts of a state that a word of an issue works on. -/

/-- The gang of a place, in another state. -/
def gangAt (s : State) (h : Here) : Gang := match findWg s h.iss.wg with
  | some w => gangOf w h.iss.gang
  | none => {}
/-- A lane of that gang. -/
def laneAt (s : State) (h : Here) (n : Nat) : Lane := laneOf (gangAt s h) n
/-- A quad of that gang. -/
def quadAt (s : State) (h : Here) (q : Nat) : Quad := quadOf (gangAt s h) q

/-- A word runs with nothing in its way: an issue stands at the head, the guard can be read and is not the one that never holds, and no lane
takes the privilege, quota or empty-read trap or holds the word (R159 to R162), and a gang operation follows no HGIVE or HREB of its gang that still
waits (R278). -/
structure Ready (i : Instr) (gd : Guard) (h : Here) (s : State) : Prop where
  place : here s = some h
  active : h.iss.lanes ≠ 0#32
  mayRun : ¬(gd.pred = 0#4 ∧ gd.pn = true)
  guardFull : guardEmpty h gd = false
  privileged : privMask i h (trueMask h gd) = 0#32
  quota : quotaMask h (operandsOf i) (checked i h (trueMask h gd)) = 0#32
  macros : macQuota i h (trueMask h gd) = 0#32
  full : holdsWord h gd (operandsOf i) = false
  filled : emptyMask h gd (operandsOf i) (checked i h (trueMask h gd)) = 0#32
  inOrder : (isGangOp i && givePending s h.iss.wg h.iss.gang) = false

/-- The issue at the head has ended between two states. -/
def issueOver (s t : State) : Bool := decide (t.issues.length < s.issues.length)
/-- The place with writes added that wait for the end of its issue (R230, R320). -/
def Here.withOps (h : Here) (ops : List FOp) : Here := { h with iss := { h.iss with fops := h.iss.fops ++ ops } }
/-- The same with mask writes added (R202). -/
def Here.withMasks (h : Here) (ops : List JOp) : Here := { h with iss := { h.iss with jops := h.iss.jops ++ ops } }
/-- The state with the record of the workgroup as the place has it, and where the issue has ended the subscriptions and effects that it had
pending (R320, R413). -/
def settledTo (h : Here) (s t : State) : State :=
  if issueOver s t then endSubs h.iss.wg h.iss.gang h.iss.fops (putWg s h.w) else putWg s h.w
/-- What an issue of a word leaves alone: all that is neither a workgroup, an issue in flight nor a continuation; the other workgroups, the
other gangs, and of its own workgroup all but the gangs and the two counters of R395 and R401. Where the issue has ended, what it had pending
has come first. -/
structure Elsewhere (h : Here) (s t : State) : Prop where
  state : t = { settledTo h s t with wgs := t.wgs, issues := t.issues, cont := t.cont }
  others : ∀ tag, tag ≠ h.iss.wg → findWg t tag = findWg s tag
  own : ∃ w w0, findWg t h.iss.wg = some w ∧ findWg (settledTo h s t) h.iss.wg = some w0 ∧
    w = { w0 with gangs := w.gangs, retired := h.w.retired + 1, idle := w.idle } ∧ ∀ k, k ≠ h.iss.gang → gangOf w k = gangOf h.w k
/-- The issue has moved past its word: to the next word of the clause, or away after the last (R148). -/
def IssueOn (h : Here) (s t : State) : Prop :=
  t.issues = if atLast h then s.issues.tail else { h.iss with at_ := h.iss.at_ + 8#64 } :: s.issues.tail
/-- A lane that went on to the next word with nothing changed but some registers (R46, R148). -/
def LaneOn (h : Here) (l l' : Lane) : Prop :=
  l' = { l with v := l'.v, ve := l'.ve, p := l'.p, pe := l'.pe, pc := (nextPc h).1, cbase := (nextPc h).2, since := l'.since }
/-- Vector registers unchanged but for those named. -/
def VecKept (l l' : Lane) (d n : Nat) : Prop := ∀ r, r < d ∨ d + n ≤ r → vreg l' r = vreg l r ∧ vempty l' r = vempty l r
/-- Predicates unchanged. -/
def PredKept (l l' : Lane) : Prop := l'.p = l.p ∧ l'.pe = l.pe
/-- Predicates unchanged but for one. -/
def PredKeptBut (l l' : Lane) (d : Nat) : Prop := ∀ r, r ≠ d → preg l' r = preg l r ∧ pempty l' r = pempty l r

/-- The lanes of a vector word: those outside the issue stay; those in it go on; where the guard is true n registers from d are full and hold
the value given, and no other register changed. -/
def VecLanes (gd : Guard) (h : Here) (s t : State) (d n : Nat) (val : Lane → Nat) : Prop :=
  ∀ k, k < 32 →
    (h.iss.lanes.getLsbD k = false → laneAt t h k = laneAt s h k) ∧
    (h.iss.lanes.getLsbD k = true → LaneOn h (laneAt s h k) (laneAt t h k) ∧ PredKept (laneAt s h k) (laneAt t h k) ∧
      VecKept (laneAt s h k) (laneAt t h k) d (if guardOn gd (laneAt s h k) then n else 0)) ∧
    (h.iss.lanes.getLsbD k = true → guardOn gd (laneAt s h k) = true →
      vregs (laneAt t h k) d n = val (laneAt s h k) % 2 ^ (32 * n) ∧ ∀ j, j < n → vempty (laneAt t h k) (d + j) = false)
/-- The lanes of a word that writes n registers with a value that depends on the lane's number too. -/
def VecLanesAt (gd : Guard) (h : Here) (s t : State) (d n : Nat) (val : Nat → Lane → Nat) : Prop :=
  ∀ k, k < 32 →
    (h.iss.lanes.getLsbD k = false → laneAt t h k = laneAt s h k) ∧
    (h.iss.lanes.getLsbD k = true → LaneOn h (laneAt s h k) (laneAt t h k) ∧ PredKept (laneAt s h k) (laneAt t h k) ∧
      VecKept (laneAt s h k) (laneAt t h k) d (if guardOn gd (laneAt s h k) then n else 0)) ∧
    (h.iss.lanes.getLsbD k = true → guardOn gd (laneAt s h k) = true →
      vregs (laneAt t h k) d n = val k (laneAt s h k) % 2 ^ (32 * n) ∧ ∀ j, j < n → vempty (laneAt t h k) (d + j) = false)
/-- The lanes of a word that writes one predicate. -/
def PredLanes (gd : Guard) (h : Here) (s t : State) (d : Nat) (val : Lane → Bool) : Prop :=
  ∀ k, k < 32 →
    (h.iss.lanes.getLsbD k = false → laneAt t h k = laneAt s h k) ∧
    (h.iss.lanes.getLsbD k = true → LaneOn h (laneAt s h k) (laneAt t h k) ∧ VecKept (laneAt s h k) (laneAt t h k) 0 0 ∧
      PredKeptBut (laneAt s h k) (laneAt t h k) (if guardOn gd (laneAt s h k) then d else 0)) ∧
    (h.iss.lanes.getLsbD k = true → guardOn gd (laneAt s h k) = true →
      preg (laneAt t h k) d = (d == 0 || val (laneAt s h k)) ∧ pempty (laneAt t h k) d = false)
/-- The lanes of a word that writes no lane register. -/
def PlainLanes (h : Here) (s t : State) : Prop :=
  ∀ k, k < 32 →
    (h.iss.lanes.getLsbD k = false → laneAt t h k = laneAt s h k) ∧
    (h.iss.lanes.getLsbD k = true → LaneOn h (laneAt s h k) (laneAt t h k) ∧ PredKept (laneAt s h k) (laneAt t h k) ∧
      VecKept (laneAt s h k) (laneAt t h k) 0 0)
/-- A rejoin mask with bits set, added or removed (R200). -/
def maskWrite (k : JKind) (j : Nat) (m : LaneMask) (js : List W32) : List W32 :=
  tset 0#32 js j (match k with
    | .set => m
    | .add => tget 0#32 js j ||| m
    | .del => tget 0#32 js j &&& ~~~m)
/-- Writes pending in an issue, in order. -/
def maskWrites (ops : List JOp) (js : List W32) : List W32 := ops.foldl (fun js o => maskWrite o.kind o.j o.m js) js
/-- FPCTL and MFLAGS after a write to them; a raised flag stays (R230). -/
def flagWrite (o : FOp) (x : BitVec 5 × BitVec 4) : BitVec 5 × BitVec 4 := match o with
  | .raise fp mf => (x.1 ||| fp, x.2 ||| mf)
  | .setFp y => (y, x.2)
  | .setMf y => (x.1, y)
  | _ => x
/-- Writes pending in an issue, in order. -/
def flagWrites (ops : List FOp) (x : BitVec 5 × BitVec 4) : BitVec 5 × BitVec 4 := ops.foldl (fun x o => flagWrite o x) x
/-- A gang that is as given but for its lanes and quads; where the issue has ended, the writes that it had pending to the rejoin masks and to
FPCTL and MFLAGS have come (R202, R230). -/
def GangHas (h : Here) (s t : State) (g' : Gang) : Prop :=
  gangAt t h =
    (if issueOver s t then
      { g' with lanes := (gangAt t h).lanes, quads := (gangAt t h).quads, j := maskWrites h.iss.jops g'.j
                fpctl := (flagWrites h.iss.fops (g'.fpctl, g'.mflags)).1, mflags := (flagWrites h.iss.fops (g'.fpctl, g'.mflags)).2 }
    else { g' with lanes := (gangAt t h).lanes, quads := (gangAt t h).quads })
/-- Of the gang nothing but lanes and quads changed, and the issue gained the flags given, to be ORed into FPCTL and MFLAGS at its end. -/
def GangOn (h : Here) (s t : State) (fp : BitVec 5) (mf : BitVec 4) : Prop := GangHas (h.withOps (raises fp mf)) s t (gangAt s h)
/-- The lanes whose flags count: guard true and no helper (R138, R230). -/
def flagLanes (gd : Guard) (h : Here) : List Nat := (bitsOf (trueMask h gd)).filter fun k => !isHelper h.w h.iss.gang k
/-- The flags of those lanes together. -/
def flagsOf {w : Nat} (gd : Guard) (h : Here) (f : Lane → BitVec w) : BitVec w :=
  (flagLanes gd h).foldl (fun m k => m ||| f (laneOf h.g k)) 0#w
/-- The quads as they were. -/
def QuadsKept (h : Here) (s t : State) : Prop := ∀ q, q < 8 → quadAt t h q = quadAt s h q
/-- A scalar register written full in the quads that the issue stands for, where some active lane's guard is true; no other changed (R187). -/
def ScalQuads (gd : Guard) (h : Here) (s t : State) (d : Nat) (val : W64) : Prop :=
  ∀ q, q < 8 → (quadAt t h q).ptr = (quadAt s h q).ptr ∧
    ∀ r, (sreg (quadAt t h q) r, sempty (quadAt t h q) r) =
      if trueMask h gd ≠ 0#32 ∧ (dstQuads h).getLsbD q = true ∧ r = d then (val, false) else (sreg (quadAt s h q) r, sempty (quadAt s h q) r)

/-- A vector word's whole effect: its result, and everything else left alone. -/
structure VecDone (gd : Guard) (h : Here) (s t : State) (d n : Nat) (val : Lane → Nat) (fp : Lane → BitVec 5 := fun _ => 0#5)
    (mf : Lane → BitVec 4 := fun _ => 0#4) : Prop where
  lanes : VecLanes gd h s t d n val
  quads : QuadsKept h s t
  gang : GangOn h s t (flagsOf gd h fp) (flagsOf gd h mf)
  issue : IssueOn (h.withOps (raises (flagsOf gd h fp) (flagsOf gd h mf))) s t
  elsewhere : Elsewhere h s t
/-- A predicate word's whole effect. -/
structure PredDone (gd : Guard) (h : Here) (s t : State) (d : Nat) (val : Lane → Bool) (fp : Lane → BitVec 5 := fun _ => 0#5) : Prop where
  lanes : PredLanes gd h s t d val
  quads : QuadsKept h s t
  gang : GangOn h s t (flagsOf gd h fp) 0#4
  issue : IssueOn (h.withOps (raises (flagsOf gd h fp) 0#4)) s t
  elsewhere : Elsewhere h s t
/-- A scalar word's whole effect. -/
structure ScalDone (gd : Guard) (h : Here) (s t : State) (d : Nat) (val : W64) : Prop where
  quads : ScalQuads gd h s t d val
  lanes : PlainLanes h s t
  gang : GangOn h s t 0#5 0#4
  issue : IssueOn h s t
  elsewhere : Elsewhere h s t

/-! What the tables of the spec say a word computes, written from the tables: MOD, then the sources A, B and C. -/

/-- The lesser, and the greater, in a reading (R190, R209). -/
def lesser {w : Nat} (u : Bool) (a b : BitVec w) : BitVec w := if (if u then b.ult a else b.slt a) then b else a
def greater {w : Nat} (u : Bool) (a b : BitVec w) : BitVec w := if (if u then a.ult b else a.slt b) then b else a
/-- The condition codes of R190 on words, in a reading. -/
def ccHolds {w : Nat} (cc : BitVec 3) (u : Bool) (a b : BitVec w) : Bool :=
  let lt (x y : BitVec w) : Bool := if u then x.ult y else x.slt y
  match cc.toNat with
  | 0 => a == b
  | 1 => a != b
  | 2 => lt a b
  | 3 => !lt b a
  | 4 => lt b a
  | 5 => !lt a b
  | _ => false
/-- The high half of the exact product (R190, R209). -/
def mulHigh {w : Nat} (u : Bool) (a b : BitVec w) : BitVec w :=
  ((if u then a.setWidth (2 * w) * b.setWidth (2 * w) else a.signExtend (2 * w) * b.signExtend (2 * w)).extractLsb' w w)
/-- The number of one bits, and of leading zero bits. -/
def onesIn {w : Nat} (a : BitVec w) : Nat := ((List.range w).filter fun i => a.getLsbD i).length
def zerosAbove {w : Nat} (a : BitVec w) : Nat := ((List.range w).takeWhile fun i => !a.getLsbD (w - 1 - i)).length
/-- SDIV (R191). -/
def divides (u rem : Bool) (a b : W64) : W64 :=
  if b = 0#64 then (if rem then a else BitVec.allOnes 64)
  else match u, rem with
    | true, false => a / b
    | true, true => a % b
    | false, false => a.sdiv b
    | false, true => a.srem b

/-- The scalar instructions of R190 and R191. -/
def scalarTable : List ((Guard → FmtT → Instr) × (BitVec 14 → W64 → W64 → W64 → W64)) :=
  [(.smov, fun _ a _ _ => a), (.sadd, fun _ a b _ => a + b), (.ssub, fun _ a b _ => a - b), (.smul, fun _ a b _ => a * b),
    (.smulh, fun m a b _ => mulHigh (m.getLsbD 0) a b), (.sand, fun _ a b _ => a &&& b), (.sor, fun _ a b _ => a ||| b),
    (.sxor, fun _ a b _ => a ^^^ b), (.sshl, fun _ a b _ => a <<< (b &&& 63#64)), (.sshr, fun _ a b _ => a >>> (b &&& 63#64)),
    (.ssra, fun _ a b _ => a.sshiftRight' (b &&& 63#64)), (.smin, fun m a b _ => lesser (m.getLsbD 0) a b),
    (.smax, fun m a b _ => greater (m.getLsbD 0) a b), (.sclz, fun _ a _ _ => BitVec.ofNat 64 (zerosAbove a)),
    (.spopc, fun _ a _ _ => BitVec.ofNat 64 (onesIn a)),
    (.scmp, fun m a b _ => if ccHolds (m.extractLsb' 0 3) (m.getLsbD 3) a b then 1#64 else 0#64),
    (.ssel, fun _ a b c => if c ≠ 0#64 then a else b), (.sdiv, fun m a b _ => divides (m.getLsbD 0) (m.getLsbD 1) a b)]

/-- The operands B and C of a vector word: a register of the lane, or bits [31:0] of a scalar register (R208). -/
def opndB (h : Here) (f : FmtT) (l : Lane) : W32 := if f.bs then (srcS h f.b.toNat).setWidth 32 else vreg l f.b.toNat
def opndC (h : Here) (f : FmtT) (l : Lane) : W32 := if f.cs then (srcS h f.c.toNat).setWidth 32 else vreg l f.c.toNat
/-- An exact integer clamped. -/
def clamped (lo hi x : Int) : Int := max lo (min hi x)
/-- The sum and the difference as MOD[1:0] writes them (R210). -/
def sumAs (m : BitVec 14) (a b : W32) : W32 := match (m.extractLsb' 0 2).toNat with
  | 1 => BitVec.ofInt 32 (clamped (-2 ^ 31) (2 ^ 31 - 1) (a.toInt + b.toInt))
  | 2 => BitVec.ofInt 32 (clamped 0 (2 ^ 32 - 1) (a.toNat + b.toNat))
  | _ => a + b
def diffAs (m : BitVec 14) (a b : W32) : W32 := match (m.extractLsb' 0 2).toNat with
  | 1 => BitVec.ofInt 32 (clamped (-2 ^ 31) (2 ^ 31 - 1) (a.toInt - b.toInt))
  | 2 => BitVec.ofInt 32 (clamped 0 (2 ^ 32 - 1) ((a.toNat : Int) - b.toNat))
  | _ => a - b
/-- The width of the field of R214: offset o, length B[5:0] cut at 32 and at bit 31. -/
def fieldWidth (o c : Nat) : Nat := min (min (c % 64) 32) (32 - o)
/-- VBFE (R214). -/
def fieldOf (s : Bool) (a b c : W32) : W32 :=
  let o := b.toNat % 32
  let x := (a >>> o) &&& BitVec.ofNat 32 (2 ^ fieldWidth o c.toNat - 1)
  if s && fieldWidth o c.toNat != 0 && a.getLsbD (o + fieldWidth o c.toNat - 1) then x ||| ~~~BitVec.ofNat 32 (2 ^ fieldWidth o c.toNat - 1) else x
/-- VBFI (R214): bits inside the field from A, the others kept. -/
def fieldInto (d a b c : W32) : W32 :=
  let o := b.toNat % 32
  let m := BitVec.ofNat 32 (2 ^ fieldWidth o c.toNat - 1) <<< o
  (d &&& ~~~m) ||| (a <<< o &&& m)

/-- The vector integer instructions of R209, R213, R214 and R217 that write one register, on A, B, C and the old value of D. -/
def vectorTable : List ((Guard → FmtT → Instr) × (BitVec 14 → W32 → W32 → W32 → W32 → W32)) :=
  [(.vadd, fun m a b _ _ => sumAs m a b), (.vsub, fun m a b _ _ => diffAs m a b), (.vmul, fun _ a b _ _ => a * b),
    (.vmulh, fun m a b _ _ => mulHigh (m.getLsbD 0) a b), (.vmad, fun _ a b c _ => a * b + c), (.vand, fun _ a b _ _ => a &&& b),
    (.vor, fun _ a b _ _ => a ||| b), (.vxor, fun _ a b _ _ => a ^^^ b), (.vnot, fun _ a _ _ _ => ~~~a),
    (.vandn, fun _ a b _ _ => a &&& ~~~b), (.vshl, fun _ a b _ _ => a <<< (b &&& 31#32)), (.vshr, fun _ a b _ _ => a >>> (b &&& 31#32)),
    (.vsra, fun _ a b _ _ => a.sshiftRight' (b &&& 31#32)),
    (.vrot, fun m a b _ _ => if m.getLsbD 0 then a.rotateRight (b.toNat % 32) else a.rotateLeft (b.toNat % 32)),
    (.vmin, fun m a b _ _ => lesser (m.getLsbD 0) a b), (.vmax, fun m a b _ _ => greater (m.getLsbD 0) a b),
    (.vabs, fun m a _ _ _ => if m.getLsbD 0 && a == BitVec.intMin 32 then BitVec.intMax 32 else if a.msb then -a else a),
    (.vneg, fun m a _ _ _ => if m.getLsbD 0 && a == BitVec.intMin 32 then BitVec.intMax 32 else -a),
    (.vclz, fun _ a _ _ _ => BitVec.ofNat 32 (zerosAbove a)), (.vpopc, fun _ a _ _ _ => BitVec.ofNat 32 (onesIn a)),
    (.vbrev, fun _ a _ _ _ => a.reverse), (.vbfe, fun m a b c _ => fieldOf (m.getLsbD 0) a b c),
    (.vbfi, fun _ a b c d => fieldInto d a b c)]

/-- The predicate instructions of R218, and VSEL's choice, on pA and pB. -/
def predTable : List ((Guard → FmtT → Instr) × (Bool → Bool → Bool)) :=
  [(.pand, fun a b => a && b), (.por, fun a b => a || b), (.pxor, fun a b => a != b), (.pnot, fun a _ => !a)]

/-! Floating point: each operation's exact result before its one rounding, from the values read (R231, R235). -/

/-- The correctly rounded instructions: format, registers of an operand, how many operands, exact result. -/
def floatTable : List ((Guard → FmtT → Instr) × Fmt × Nat × Nat × (Nat → FV → FV → FV → Ex)) :=
  [(.fadd, fp32, 1, 2, fun rm a b _ => addEx rm a b), (.fsub, fp32, 1, 2, fun rm a b _ => addEx rm a (negFV b)),
    (.fmul, fp32, 1, 2, fun _ a b _ => mulEx a b), (.ffma, fp32, 1, 3, fun rm a b c => fmaEx rm a b c),
    (.fdiv, fp32, 1, 2, fun _ a b _ => divEx 24 a b), (.fsqrt, fp32, 1, 1, fun _ a _ _ => sqrtEx 24 a),
    (.dadd, fp64, 2, 2, fun rm a b _ => addEx rm a b), (.dsub, fp64, 2, 2, fun rm a b _ => addEx rm a (negFV b)),
    (.dmul, fp64, 2, 2, fun _ a b _ => mulEx a b), (.dfma, fp64, 2, 3, fun rm a b c => fmaEx rm a b c),
    (.ddiv, fp64, 2, 2, fun _ a b _ => divEx 53 a b), (.dsqrt, fp64, 2, 1, fun _ a _ _ => sqrtEx 53 a)]
/-- A source of n registers, or of 32 n bits of a scalar register (R228). -/
def opndN (h : Here) (scal : Bool) (r : BitVec 8) (n : Nat) (l : Lane) : Nat :=
  if scal then (srcS h r.toNat).toNat % 2 ^ (32 * n) else vregs l r.toNat n
/-- The operand as the operation sees it: under .ftz a subnormal is a zero of its sign (R141, R229). -/
def readAs (fmt : Fmt) (ftz : Bool) (x : Nat) : FV :=
  if ftz && isSub fmt x then .fin (x / 2 ^ (fmtWidth fmt - 1) % 2 == 1) 0 (fmtQmin fmt) else unpack fmt x

/-! Floating-point values as exact numbers (R122, R139). -/

/-- 2 ^ e. -/
def twoTo (e : Int) : Rat := if 0 ≤ e then 2 ^ e.toNat else 1 / 2 ^ (-e).toNat
/-- The number a finite value is. -/
def ratOf : FV → Option Rat
  | .fin n m e => some ((if n then -1 else 1) * m * twoTo e)
  | _ => none
/-- An exact result before its rounding stands for a number: it is that number, or it lies within its last place and has p + 2 bits. -/
def stands (p : Nat) (x : Ex) (v : Rat) : Prop :=
  match x with
  | .num n m e sticky =>
    let lo : Rat := m * twoTo e
    if sticky then 2 ^ (p + 1) ≤ m ∧ lo < (if n then -v else v) ∧ (if n then -v else v) < lo + twoTo e
    else (if n then -v else v) = lo
  | _ => False
/-- An encoding's value is the right rounding of a number among the finite values of its format (R139, R140). -/
def roundsTo (f : Fmt) (rm : Nat) (v r : Rat) : Prop :=
  ∀ y q, ratOf (unpack f y) = some q →
    match rm with
    | 0 => |r - v| ≤ |q - v|
    | 1 => |r| ≤ |v| ∧ (|q| ≤ |v| → |q| ≤ |r|) ∧ 0 ≤ r * v
    | 2 => v ≤ r ∧ (v ≤ q → r ≤ q)
    | _ => r ≤ v ∧ (q ≤ v → q ≤ r)
/-- Of two values as near, rounding to the nearest takes the one whose encoding is even (R139, R140). -/
def tiesEven (f : Fmt) (rm : Nat) (v r : Rat) (bits : Nat) : Prop :=
  rm = 0 → ∀ y q, ratOf (unpack f y) = some q → q ≠ r → |r - v| = |q - v| → bits % 2 = 0
/-- The right rounding of a number whose magnitude is above a format's largest finite value is above it too (R143). -/
def overTop (f : Fmt) (rm : Nat) (v : Rat) : Prop :=
  let top : Rat := ((fmtMax f).1 : Rat) * twoTo (fmtMax f).2
  let gap : Rat := twoTo (fmtMax f).2
  if rm = 1 ∨ (rm = 2 ∧ v < 0) ∨ (rm = 3 ∧ 0 < v) then top + gap ≤ |v|
  else if rm = 0 then top + gap / 2 < |v| ∨ (|v| = top + gap / 2 ∧ (fmtMax f).1 % 2 = 1)
  else top < |v|
/-- The element that a slot conversion gives for a number of a sign, under CRND and COVF: the rounding, or the table's result of an overflow
(R143). -/
def Narrowed (f : Fmt) (rm : Nat) (covf n : Bool) (v : Rat) (x : Nat) : Prop :=
  let top : Rat := (if n then -1 else 1) * (fmtMax f).1 * twoTo (fmtMax f).2
  (overTop f rm v → if f = e2m1 ∨ covf = false ∨ rm = 1 ∨ (rm = 2 ∧ n = true) ∨ (rm = 3 ∧ n = false) then ratOf (unpack f x) = some top
    else if f = e4m3 then x = 0x7F else unpack f x = .inf n) ∧
  (¬overTop f rm v → ∃ r, ratOf (unpack f x) = some r ∧ negOf (unpack f x) = n ∧ roundsTo f rm v r ∧ tiesEven f rm v r x)
/-- An encoding is the rounding of a number to the nearest value of its format, an even one at a tie (R139, R140). -/
def Nearest (f : Fmt) (v : Rat) (bits : Nat) : Prop := ∃ r, ratOf (unpack f bits) = some r ∧ roundsTo f 0 v r ∧ tiesEven f 0 v r bits

/-! The numbers of matrix sums, written from the tables of R122 to R132. -/

/-- An element of a matrix format as a number; none for an infinity or NaN (R122, R126). -/
def elemNum (fmt x : Nat) : Option Rat :=
  if fmt = 6 then some (((BitVec.ofNat 8 x).toInt : Int) : Rat) else if fmt = 7 then some (x : Rat) else ratOf (unpack (slotFmt fmt) x)
/-- A NaN of a matrix format (R122). -/
def elemNan (fmt x : Nat) : Bool := 1 ≤ fmt && fmt ≤ 5 && isNan (unpack (slotFmt fmt) x)
/-- An E8M0 scale as a number (R124). -/
def e8Num (b : Byte) : Option Rat := if b = 0xFF#8 then none else some (twoTo ((b.toNat : Int) - 127))
/-- Bits of an element in memory (R125). -/
def elemBits (fmt : Nat) : Nat := [16, 16, 16, 8, 8, 4, 8, 8].getD fmt 8
/-- The sum of the first r + 1 of some numbers in order, each partial sum rounded to FP32 (R376). -/
def ChainSum (v : Nat → Rat) : Nat → Rat → Prop
  | 0, x => x = v 0
  | r + 1, x => ∃ q b, ChainSum v r q ∧ ¬overTop fp32 0 (q + v (r + 1)) ∧ ratOf (unpack fp32 b) = some x ∧ Nearest fp32 (q + v (r + 1)) b
/-- A field of a block of bytes, from a bit on (R5, R125). -/
def bitsAt (bs : List Byte) (lo n : Nat) : Nat := leNat bs / 2 ^ lo % 2 ^ n
/-- Element (i, k) of the A block of a slot, and its scales (R131, R288). -/
def aElem (slot : W64) (bs : List Byte) (t : Bool) (i k : Nat) : Nat :=
  let w := elemBits (slot.extractLsb' 0 4).toNat
  bitsAt bs (w * (if t then 32 * k + i else 128 * i + k)) w
def aScale (slot : W64) (bs : List Byte) (i k : Nat) : Byte :=
  BitVec.ofNat 8 (bitsAt bs (4096 * elemBits (slot.extractLsb' 0 4).toNat + 8 * (4 * i + k / 32)) 8)
def aRow (slot : W64) (bs : List Byte) (i : Nat) : Nat := bitsAt bs (4096 * elemBits (slot.extractLsb' 0 4).toNat + 32 * i) 32
/-- Element (k, n) of the tile in a macro, and its scales (R132). -/
def bElem (m : Mac) (k n : Nat) : Nat := (tget 0#16 m.cells (128 * k + n)).toNat
def bScale (m : Mac) (k n : Nat) : Byte := tget 0#8 m.scales (4 * n + k / 32)
/-- A product of one sum, of A's scaled element and B's (R133). -/
def product (slot : W64) (m : Mac) (bs : List Byte) (t : Bool) (i n k : Nat) : Option Rat := do
  let a ← elemNum (slot.extractLsb' 0 4).toNat (aElem slot bs t i k)
  let b ← elemNum m.pfmt.toNat (bElem m k n)
  let ea ← if slot.extractLsb' 18 2 = 2#2 then e8Num (aScale slot bs i k) else some 1
  let eb ← if slot.extractLsb' 20 2 = 2#2 then e8Num (bScale m k n) else some 1
  some ((a * ea) * (b * eb))
/-- The exact sum of the first k products. -/
def sumOf (slot : W64) (m : Mac) (bs : List Byte) (t : Bool) (i n : Nat) : Nat → Option Rat
  | 0 => some 0
  | k + 1 => do some ((← sumOf slot m bs t i n k) + (← product slot m bs t i n k))
/-- The FP32 scale of a row, and that of the tile (R131, R132). -/
def rowScale (slot : W64) (bs : List Byte) (i : Nat) : Option Rat := if slot.extractLsb' 18 2 = 1#2 then ratOf (unpack fp32 (aRow slot bs i)) else some 1
def tileScale (slot : W64) (m : Mac) : Option Rat := if slot.extractLsb' 20 2 = 1#2 then ratOf (unpack fp32 m.scale.toNat) else some 1
/-- A NaN stands among the elements and scales that apply to one result (R134). -/
def nanIn (slot : W64) (m : Mac) (bs : List Byte) (t : Bool) (i n : Nat) : Bool :=
  (List.range 128).any (fun k => elemNan (slot.extractLsb' 0 4).toNat (aElem slot bs t i k) || elemNan m.pfmt.toNat (bElem m k n)
    || (slot.extractLsb' 18 2 == 2#2 && aScale slot bs i k == 0xFF#8) || (slot.extractLsb' 20 2 == 2#2 && bScale m k n == 0xFF#8))
  || (slot.extractLsb' 18 2 == 1#2 && isNan (unpack fp32 (aRow slot bs i))) || (slot.extractLsb' 20 2 == 1#2 && isNan (unpack fp32 m.scale.toNat))
/-- The operands of a floating-point word of k operands, as encodings. -/
def floatOpnds (h : Here) (f : FmtT) (n k : Nat) (l : Lane) : List Nat :=
  [vregs l f.a.toNat n, if 2 ≤ k then opndN h f.bs f.b n l else 0, if 3 ≤ k then opndN h f.cs f.c n l else 0]
/-- A flush of one of some encodings (R141). -/
def flushes (fmt : Fmt) (ftz : Bool) (xs : List Nat) : Bool := ftz && xs.any fun x => isSub fmt x
/-- UNFL among the flags of MFLAGS. -/
def unflBit (b : Bool) : BitVec 4 := if b then 8#4 else 0#4

/-! Words whose results come later. -/

/-- The lanes of a word whose result comes later: in the lanes of a set n registers from d are empty, with the values they had (R161). -/
def MarkLanes (h : Here) (s t : State) (m : LaneMask) (d n : Nat) : Prop :=
  ∀ k, k < 32 →
    (h.iss.lanes.getLsbD k = false → laneAt t h k = laneAt s h k) ∧
    (h.iss.lanes.getLsbD k = true → LaneOn h (laneAt s h k) (laneAt t h k) ∧ PredKept (laneAt s h k) (laneAt t h k) ∧
      (laneAt t h k).v = (laneAt s h k).v ∧
      ∀ r, r < 256 → vempty (laneAt t h k) r = (vempty (laneAt s h k) r || (m.getLsbD k && d ≤ r && r < d + n)))
/-- The accesses given joined those of the gang, numbered in order; of the gang nothing else changed but lanes and quads, and of the state nothing
but what the second one has changed already. -/
def Joined (h : Here) (s s' t : State) (xs : List Access) : Prop :=
  ∃ new : List Access, (new.map fun a => { a with seq := 0, grp := 0 }) = xs ∧
    (new.map fun a => a.seq) = (List.range xs.length).map (s.seq + ·) ∧
    GangHas h s t { gangAt s h with pend := (gangAt s h).pend ++ new } ∧ Elsewhere h { s' with seq := s.seq + xs.length } t

/-! Memory words (R243 to R248). -/

/-- An access of n bytes at an address through a hank passes every check (R71, R100, R243, R363). -/
structure AccessOk (s : State) (ctx : Nat) (k : Hank) (u : Use) (ea n : Nat) : Prop where
  held : k.pending = false ∧ k.kind ≠ 0#2 ∧ k.revoked = false
  kind : match u with
    | .load => k.kind = 1#2 ∨ k.kind = 2#2
    | .store => k.kind = 1#2 ∧ k.rebs = 0#4
    | .atomic => k.kind = 3#2 ∨ (k.kind = 1#2 ∧ k.rebs = 0#4)
    | .common => k.kind = 3#2
    | .engRead => k.kind = 1#2 ∨ k.kind = 2#2
    | .engWrite => k.kind = 1#2 ∧ k.rebs = 0#4
  range : k.base.toNat * 256 ≤ ea ∧ ea + n ≤ (k.base.toNat + k.len.toNat + 1) * 256
  aligned : ea % min n 8 = 0
  mapped : ∀ i, i < n → i % 8 = 0 → (translate s ctx (ea + i)).any (reachable s) = true
/-- The key of a translated address. -/
def keyAt (s : State) (ctx va : Nat) : Nat := (translate s ctx va).getD 0
/-- Offset, key and bytes of each element of an access of n bytes (R100). -/
def pieces (s : State) (ctx ea n : Nat) : List (Nat × Nat × Nat) :=
  (List.range ((n + 7) / 8)).map fun i => (i, keyAt s ctx (ea + 8 * i), min n 8)
/-- The hank a format-M word names, and its bytes, registers, and effective address for an offset (R167, R168, R243). -/
def hankIn (h : Here) (g : Guard) (f : FmtM) : Hank := getHank h.w h.iss.gang (if g.fe.getLsbD 2 then 16 + f.h.toNat else f.h.toNat)
def widthOf (f : FmtM) : Nat := 2 ^ f.w.toNat
def regsOf (f : FmtM) : Nat := (widthOf f + 3) / 4
def addrOf (k : Hank) (off : W64) (imm : W64) : Nat := (BitVec.ofNat 64 (k.base.toNat * 256) + off + imm).toNat
/-- A lane's offset register. -/
def offOf (f : FmtM) (l : Lane) : W64 := if f.a = 0xFF#8 then 0#64 else (vreg l f.a.toNat).zeroExtend 64
/-- The address of the words of R244, whose immediate is OFF12. -/
def addr12 (k : Hank) (f : FmtM) (l : Lane) : Nat := addrOf k (offOf f l) ((f.imm.extractLsb' 0 12).signExtend 64)
/-- The lanes for which a word acts that helper lanes do not perform (R53). -/
def mainLanes (h : Here) (g : Guard) : LaneMask := trueMask h g &&& ~~~helperMask h
/-- Scalar registers of the quads an issue stands for turn empty (R161, R187). -/
def MarkQuads (h : Here) (s t : State) (d n : Nat) : Prop :=
  ∀ q, q < 8 → (quadAt t h q).ptr = (quadAt s h q).ptr ∧ (quadAt t h q).s = (quadAt s h q).s ∧
    ∀ r, r < 64 → sempty (quadAt t h q) r = (sempty (quadAt s h q) r || ((dstQuads h).getLsbD q && d ≤ r && r < d + n))
/-- The issue goes on with the lanes that are left (R148). -/
def IssueLeft (h : Here) (s t : State) (m : LaneMask) : Prop :=
  if m = 0#32 ∨ atLast h = true then t.issues = s.issues.tail
  else t.issues = { h.iss with lanes := m, at_ := h.iss.at_ + 8#64 } :: s.issues.tail
/-- The place with another record of the workgroup. -/
def Here.withW (h : Here) (w : Wg) : Here := { h with w := w }
/-- The place after an instruction has named the counter word at an offset (R269). -/
def Here.noted (h : Here) (off : Nat) : Here := h.withW { h.w with bars := off :: h.w.bars.filter fun o => o != off }
/-- The workgroup of a place, in a state. -/
def wgAt (s : State) (h : Here) : Wg := (findWg s h.iss.wg).getD h.w
/-- Scratchpad words written, and no other byte of it; nothing else outside the gangs changed. -/
def ScrWritten (h : Here) (s t : State) (xs : List (Nat × Nat)) : Prop :=
  Elsewhere (h.withW { h.w with scratch := (wgAt t h).scratch }) s t ∧
    ∀ a, get0 (wgAt t h).scratch a = match xs.reverse.find? fun x => x.1 ≤ a && a < x.1 + 8 with
      | some x => BitVec.ofNat 8 (x.2 / 2 ^ (8 * (a - x.1)))
      | none => get0 h.w.scratch a
/-- No lane of the workgroup, nor of its skein, waits on a counter or a queue: a change of one releases nothing (R265, R273). -/
def NoneWaits (h : Here) (s : State) : Prop :=
  h.w.qwait = [] ∧ ∀ w ∈ s.wgs, ∀ g ∈ w.gangs, ∀ l ∈ g.lanes, (counterWait l).isNone = true

/-- Where byte i of a range stands, by its extents. -/
def byteOf : List (Nat × Nat) → Nat → Option Nat
  | [], _ => none
  | (k, n) :: r, i => if i < n then some (k + i) else byteOf r (i - n)
/-- A copied sector meets one of some extents. -/
def touches (xs : List (Nat × Nat)) (c : Sector) : Bool := xs.any fun x => rangesMeet c.pa 64 x.1 x.2
/-- A home slice holds a clean copy of a byte. -/
def cleanCopy (s : State) (a : Nat) : Bool := (sliceFind s a).any fun c => !c.dirty
/-- Extents cleaned down to memory for a core (R255): its dirty bytes in them, and those of the home slices, are the home's and no copy of them is
dirty; nothing else has changed at a home, where a clean copy that left its slice shows the memory behind it, or in an L1. -/
structure Cleaned (core : Nat) (s t : State) (xs : List (Nat × Nat)) : Prop where
  home : ∀ a, (let x := if inRanges xs a then engByte s core a else homeByte s a
    homeByte t a = x ∨ (x = homeByte s a ∧ cleanCopy s a = true ∧ homeByte t a = devByte s a))
  l1 : ∀ c ∈ s.l1, (if c.owner = core ∧ touches xs c = true then { c with dirty := false } else c) ∈ t.l1
  clean : ∀ c ∈ t.l1 ++ t.slices, touches xs c = true → c.owner = core ∨ c ∈ t.slices → c.dirty = false
/-- Extents invalidated for a core (R256): its L1 and the home slices hold no copy of them, every other copy stands, and every byte of every home is
what it was, or where a clean copy was dropped what the memory behind it holds. -/
structure Invalidated (core : Nat) (s t : State) (xs : List (Nat × Nat)) : Prop where
  home : ∀ a, homeByte t a = if inRanges xs a && cleanCopy s a then devByte s a else homeByte s a
  l1 : t.l1 = s.l1.filter fun c => !(c.owner == core && touches xs c)
  slices : t.slices = s.slices.filter fun c => !touches xs c
/-- A core's dirty bytes in some extents are the home's, and no sector of its L1 there is dirty; nothing else has changed at a home, where a clean
copy that left its slice shows the memory behind it (R82). -/
structure SentHome (core : Nat) (s t : State) (xs : List (Nat × Nat)) : Prop where
  home : ∀ a, (let x := if (l1Find s core a).any (touches xs) then engByte s core a else homeByte s a
    homeByte t a = x ∨ (x = homeByte s a ∧ cleanCopy s a = true ∧ homeByte t a = devByte s a))
  clean : ∀ c ∈ t.l1, c.owner = core → touches xs c = true → c.dirty = false

/-! Hank words and the ownership tables (R68 to R80). -/

/-- Some scalar registers of the quads an issue stands for written full; no other changed. -/
def ScalRegs (h : Here) (s t : State) (val : Nat → Option W64) : Prop :=
  ∀ q, q < 8 → (quadAt t h q).ptr = (quadAt s h q).ptr ∧ ∀ r, r < 64 →
    (sreg (quadAt t h q) r, sempty (quadAt t h q) r) =
      match if (dstQuads h).getLsbD q then val r else none with
      | some v => (v, false)
      | none => (sreg (quadAt s h q) r, sempty (quadAt s h q) r)
/-- The name of a hank in its workgroup: h0 to h15 belong to a gang, w0 to w7 to all. -/
def hankKey (gang n : Nat) : Nat × Nat := (if n < 16 then gang else 0, n)
/-- Some hanks of the workgroup written, and nothing else of it changed but what is given of every gang. -/
structure HankDone (h : Here) (s t : State) (xs : List ((Nat × Nat) × Hank)) (f : Gang → Gang := id) : Prop where
  hanks : ∀ gang n, gang < 16 → n < 24 →
    getHank (wgAt t h) gang n = ((xs.find? fun x => x.1 == hankKey gang n).map fun x => x.2).getD (getHank h.w gang n)
  gangs : ∀ k, k ≠ h.iss.gang → gangOf (wgAt t h) k = { f (gangOf h.w k) with h := (gangOf (wgAt t h) k).h }
  mine : GangHas h s t { f (gangAt s h) with h := (gangAt t h).h }
  lanes : PlainLanes h s t
  quads : QuadsKept h s t
  issue : IssueOn h s t
  elsewhere : Elsewhere (h.withW { h.w with gangs := (wgAt t h).gangs, w := (wgAt t h).w }) s t
/-- A hank that a hank operation may name: full, not revoked, with no engine command in flight. -/
def HankReady (k : Hank) : Prop := k.pending = false ∧ k.kind ≠ 0#2 ∧ k.revoked = false ∧ k.eng = 0#6
/-- No entry of the tables overlaps an X entry of its home (R73, R78). -/
def Exclusive (s : State) : Prop :=
  s.own.Pairwise fun a b => runsMeet (entryRun a) (entryRun b) = true → a.kind ≠ 1#2 ∧ b.kind ≠ 1#2

/-! Matrix and engine words. -/

/-- A word that runs and only changes the record of its workgroup: the gangs as before, but for pending mask writes. -/
structure WgDone (h : Here) (s t s' : State) (w : Wg) : Prop where
  lanes : PlainLanes h s t
  quads : QuadsKept h s t
  gang : GangOn h s t 0#5 0#4
  issue : IssueOn h s t
  elsewhere : Elsewhere (h.withW w) s' t
/-- A matrix command as a word leaves it for the matrix unit (R284). -/
def cmdOf (h : Here) (s : State) (mac : Option Nat) (kind : MKind) : MCmd :=
  { id := s.seq, gang := h.iss.gang, mac := mac, kind := kind, seq := s.seq, lanes := h.iss.lanes, pc := h.iss.at_ }
/-- The valid count of a format-X word (R286). -/
def validOf (h : Here) (f : FmtX) : Nat := if f.vc = 0xFF#8 then 32 else (srcS h f.vc.toNat).toNat

/-! Words that move lanes, or take them away. -/

/-- The lanes of a control word: one it takes goes to its target at a clause boundary, the others go on. -/
def BranchLanes (h : Here) (s t : State) (taken : Lane → Bool) (target : Lane → W64) : Prop :=
  ∀ k, k < 32 →
    (h.iss.lanes.getLsbD k = false → laneAt t h k = laneAt s h k) ∧
    (h.iss.lanes.getLsbD k = true → taken (laneAt s h k) = true →
      laneAt t h k = { laneAt s h k with pc := target (laneAt s h k), cbase := none, since := (laneAt t h k).since }) ∧
    (h.iss.lanes.getLsbD k = true → taken (laneAt s h k) = false →
      laneAt t h k = { laneAt s h k with pc := (nextPc h).1, cbase := (nextPc h).2, since := (laneAt t h k).since })
/-- The lanes of a word that holds some of them in a state of their own, others going on. -/
def HeldLanes (h : Here) (s t : State) (held : Lane → Bool) (st : LaneSt) : Prop :=
  ∀ k, k < 32 →
    (h.iss.lanes.getLsbD k = false → laneAt t h k = laneAt s h k) ∧
    (h.iss.lanes.getLsbD k = true → held (laneAt s h k) = true → laneAt t h k = { laneAt s h k with st := st }) ∧
    (h.iss.lanes.getLsbD k = true → held (laneAt s h k) = false →
      laneAt t h k = { laneAt s h k with pc := (nextPc h).1, cbase := (nextPc h).2, since := (laneAt t h k).since })
/-- Of the gang nothing but lanes changed, and the issue gained the mask writes given, for its end (R202). -/
def MasksAre (h : Here) (s t : State) (ops : List JOp) : Prop :=
  GangHas (h.withMasks ops) s t (gangAt s h) ∧ (gangAt t h).quads = (gangAt s h).quads

/-! A clause that a static check refuses. -/

/-- A word that holds a reserved value stands n words after the first of a clause, at its first issue, whose header and earlier words pass (R159). -/
def RefusedAt (x : W64) (s : State) (i : Issue) (rest : List Issue) (w : Wg) (hdr : W64) (n : Nat) : Prop :=
  s.issues = i :: rest ∧ findWg s i.wg = some w ∧ i.started = false ∧ i.lanes ≠ 0#32 ∧ i.at_.toNat % 8 = 0 ∧ i.base = i.at_ ∧
  (∀ k, k < 32 → i.lanes.getLsbD k = true → (laneOf (gangOf w i.gang) k).cbase = none ∧ (laneOf (gangOf w i.gang) k).poison = none) ∧
  fetch s w i.base = some hdr ∧ isHeader hdr = true ∧ headerTrap w hdr = none ∧ headerQuota s (gangOf w i.gang) hdr = false ∧
  slotsHold s w i.gang i.lanes hdr = true ∧
  n ≤ hdrCount hdr ∧ classOfBits (hdrClass hdr) = classOfOp (fld x 56 8) ∧ (∀ j, decodeOp x = some j → isControl j = true → n = hdrCount hdr) ∧
  fetch s w (i.base + 8#64 * BitVec.ofNat 64 (n + 1)) = some x ∧
  ∀ m, m < n → ∃ y, fetch s w (i.base + 8#64 * BitVec.ofNat 64 (m + 1)) = some y ∧ wordTrap hdr y false = none
/-- A lane of the gang of an issue, in a state after. -/
def laneAfter (t : State) (i : Issue) (w : Wg) (k : Nat) : Lane := laneOf (gangOf ((findWg t i.wg).getD w) i.gang) k
/-- Such a word ends the issue, and each of its lanes enters its handler or parks at that word, under the reserved-field trap with the word as INFO
(R159, R173, R406). Of the register limit that the lane keeps this says nothing. -/
def ReservedTrap (x : W64) : Prop :=
  ∀ (s : State) (i : Issue) (rest : List Issue) (w : Wg) (hdr : W64) (n : Nat), RefusedAt x s i rest w hdr n →
    (let a := i.base + 8#64 * BitVec.ofNat 64 (n + 1)
    ∃ t, exec .clauseStart s = .next t ∧ t.issues = rest ∧ ∀ k, k < 32 → laneAfter t i w k =
      (let l := laneOf (gangOf w i.gang) k
      if i.lanes.getLsbD k = false then l
      else if w.trapvec.getLsbD 0 && !l.hact then
        { l with tpc := a, tbase := some i.base, tlimit := (laneAfter t i w k).tlimit, fcode := 2#8, hact := true, tinfo := x,
                 pc := w.trapvec &&& 0xFFFFFFFFFFFF8#64, cbase := none, st := .ready }
      else { l with pc := a, cbase := some i.base, st := .parked, halt := none }))

end Sys2Proof.Machine
end

