-- ==== Sys2Proof/Certificates/Slice0/Obligations.lean ====
section
/-! DEFINITION. The statements for the provers. -/

open Sys2Proof Sys2Proof.Machine

/-! Scalar and control words. -/

/-- R190 to R192, R201: every scalar instruction of format T writes what its row of the table says to D in the quads its issue stands for, when its
guard is true in some active lane; no other register, flag, byte or gang changes. SMOVI in its three forms, SADDI, and JMQRY of a mask, of the
exited and of the parked lanes do the same; the lanes that JMQRY sees are noted as each cycle begins, which is log entry 106's reading of R201. -/
def Obligations.ScalarResults : Prop :=
  (∀ (g : Guard) (f : FmtT) (h : Here) (s : State), ∀ p ∈ scalarTable, Ready (p.1 g f) g h s →
    ∃ t, exec (p.1 g f) s = .next t ∧
      ScalDone g h s t f.d.toNat (p.2 f.mod (srcS h f.a.toNat) (srcS h f.b.toNat) (srcS h f.c.toNat))) ∧
  (∀ (g : Guard) (h : Here) (s : State),
    (∀ f : FmtI, Ready (.smovi g f) g h s → f.a.toNat ≤ 2 → ∃ t, exec (.smovi g f) s = .next t ∧ ScalDone g h s t f.d.toNat
      (match f.a.toNat with
        | 0 => f.imm.signExtend 64
        | 1 => f.imm.zeroExtend 64
        | _ => f.imm ++ (srcS h f.d.toNat).extractLsb' 0 32)) ∧
    (∀ f : FmtI, Ready (.saddi g f) g h s → ∃ t, exec (.saddi g f) s = .next t ∧
      ScalDone g h s t f.d.toNat (srcS h f.a.toNat + f.imm.signExtend 64)) ∧
    (∀ f : FmtT, Ready (.jmqry g f) g h s → (f.mod.extractLsb' 0 2).toNat ≤ 2 → ∃ t, exec (.jmqry g f) s = .next t ∧
      ScalDone g h s t f.d.toNat ((match (f.mod.extractLsb' 0 2).toNat with
        | 0 => tget 0#32 h.g.j f.a.toNat
        | 1 => h.g.seenExit
        | _ => h.g.seenPark).zeroExtend 64))) ∧
  ∀ (s : State) (cycles ns : Nat), cycles ≠ 0 → ∀ w ∈ (passTime s cycles ns).wgs, ∀ g ∈ w.gangs,
    g.seenExit = (maskOf fun k => (laneOf g k).st == LaneSt.exited) ∧ g.seenPark = maskOf fun k => (laneOf g k).st == LaneSt.parked

/-- R194, R205: JMP sends every active lane to its target, or with PN set passes; NOP passes. A word of either opcode with a reserved field, and
no other, is refused, and every active lane of a clause that reaches such a word takes the reserved-field trap. -/
def Obligations.JumpsAndNops : Prop :=
  (∀ (g : Guard) (h : Here) (s : State), g.pred = 0#4 → here s = some h → h.iss.lanes ≠ 0#32 → ∀ f : FmtB,
    (g.pn = false → Ready (.jmp g f) g h s → atLast h = true → ∃ t, exec (.jmp g f) s = .next t ∧
      BranchLanes h s t (fun _ => true) (fun _ => h.iss.at_ + 8#64 * f.off.signExtend 64) ∧
      MasksAre h s t [] ∧ t.issues = s.issues.tail ∧ Elsewhere h s t) ∧
    (g.pn = true → ∃ t, exec (.jmp g f) s = .next t ∧
      PlainLanes h s t ∧ QuadsKept h s t ∧ GangOn h s t 0#5 0#4 ∧ IssueOn h s t ∧ Elsewhere h s t)) ∧
  (∀ (g : Guard) (f : FmtT) (h : Here) (s : State), here s = some h → h.iss.lanes ≠ 0#32 → guardEmpty h g = false →
    ∃ t, exec (.nop g f) s = .next t ∧ PlainLanes h s t ∧ QuadsKept h s t ∧ GangOn h s t 0#5 0#4 ∧ IssueOn h s t ∧ Elsewhere h s t) ∧
  (∀ x : W64, x.extractLsb' 56 8 = 0x15#8 → decode x =
    if x.extractLsb' 52 4 = 0#4 ∧ x.extractLsb' 48 3 = 0#3 ∧ x.extractLsb' 44 4 = 8#4 then .ok (.jmp (guardOf x) (fmtBOf x))
    else .error .reservedField) ∧
  (∀ x : W64, x.extractLsb' 56 8 = 0#8 → decode x =
    if x.extractLsb' 0 51 = 0#51 then .ok (.nop (guardOf x) ⟨0, 0, 0, 0, false, false, 0⟩) else .error .reservedField) ∧
  decode 0#64 = .ok (.nop ⟨0, false, 0⟩ ⟨0, 0, 0, 0, false, false, 0⟩) ∧
  ∀ x : W64, x.extractLsb' 56 8 = 0#8 ∨ x.extractLsb' 56 8 = 0x15#8 → decode x = .error .reservedField → ReservedTrap x

/-- R45, R189, R203, R206: any word under the guard that never holds only passes; EXIT makes each lane whose guard is true exited; YIELD
has it wait at the next clause until 8 × MOD cycles have passed after this one. -/
def Obligations.ExitAndYield : Prop :=
  (∀ (h : Here) (s : State), here s = some h → h.iss.lanes ≠ 0#32 →
    (∀ i x, encode i = some x → (guardOf x).pred = 0#4 → (guardOf x).pn = true → ∃ t, exec i s = .next t ∧
      PlainLanes h s t ∧ QuadsKept h s t ∧ GangOn h s t 0#5 0#4 ∧ IssueOn h s t ∧ Elsewhere h s t)) ∧
  (∀ (g : Guard) (f : FmtT) (h : Here) (s : State), atLast h = true →
    (Ready (.exit g f) g h s → ∃ t, exec (.exit g f) s = .next t ∧
      (let leaves (k : Nat) : Bool := h.iss.lanes.getLsbD k && guardOn g (laneAt s h k)
      let over_ : Bool := (List.range 32).all fun k => !isPresent h.w h.iss.gang k || isGone (laneAt s h k).st || leaves k
      let out (k : Nat) : Bool := leaves k || over_ && isHelper h.w h.iss.gang k
      let mine (i : Issue) : Bool := i.wg == h.iss.wg && i.gang == h.iss.gang
      t.issues = ((s.issues.tail.map fun i => if mine i then { i with lanes := i.lanes &&& ~~~(if over_ then helperMask h else 0#32) } else i).filter
        fun i => !(mine i && i.lanes == 0#32)) ∧
      ∀ k, k < 32 → (out k = true → (laneAt t h k).st = .exited) ∧
        (h.iss.lanes.getLsbD k = true → out k = false → (laneAt t h k).pc = h.iss.at_ + 8#64))) ∧
    (Ready (.yield g f) g h s → ∃ t, exec (.yield g f) s = .next t ∧ t.issues = s.issues.tail ∧ Elsewhere h s t ∧ QuadsKept h s t ∧ GangOn h s t 0#5 0#4 ∧
      ∀ k, k < 32 → (h.iss.lanes.getLsbD k = false → laneAt t h k = laneAt s h k) ∧
        (h.iss.lanes.getLsbD k = true → laneAt t h k = { laneAt s h k with
          pc := h.iss.at_ + 8#64, cbase := none, since := (laneAt t h k).since,
          st := if guardOn g (laneAt s h k) && f.mod != 0#14 then .waiting (.cycles (s.cycle + 8 * f.mod.toNat + 1)) else (laneAt s h k).st })))

/-- R195 to R198: BRZ, BRNZ, BRV and RET send the lanes they take to their targets, each the last word of its clause. CALL writes next into
the pair of each lane it takes, which goes to the target; vA is read before vD is written, and its IMM32 is signed (log entry 132). -/
def Obligations.Branches : Prop :=
  (∀ (g : Guard) (h : Here) (s : State), atLast h = true →
    (∀ f : FmtI, Ready (.brz g f) g h s → ∃ t, exec (.brz g f) s = .next t ∧
      BranchLanes h s t (fun l => guardOn g l && srcS h f.a.toNat == 0#64) (fun _ => h.iss.at_ + 8#64 * f.imm.signExtend 64) ∧
      MasksAre h s t [] ∧ t.issues = s.issues.tail ∧ Elsewhere h s t) ∧
    (∀ f : FmtI, Ready (.brnz g f) g h s → ∃ t, exec (.brnz g f) s = .next t ∧
      BranchLanes h s t (fun l => guardOn g l && srcS h f.a.toNat != 0#64) (fun _ => h.iss.at_ + 8#64 * f.imm.signExtend 64) ∧
      MasksAre h s t [] ∧ t.issues = s.issues.tail ∧ Elsewhere h s t) ∧
    (∀ f : FmtB, Ready (.brv g f) g h s → ∃ t, exec (.brv g f) s = .next t ∧
      BranchLanes h s t (guardOn g) (fun _ => h.iss.at_ + 8#64 * f.off.signExtend 64) ∧
      MasksAre h s t (if f.j.getLsbD 3 then [] else [⟨.add, f.j.toNat % 8, h.iss.lanes⟩]) ∧
      t.issues = s.issues.tail ∧ Elsewhere h s t) ∧
    (∀ f : FmtT, Ready (.ret g f) g h s → ∃ t, exec (.ret g f) s = .next t ∧
      BranchLanes h s t (guardOn g) (fun l => vreg l (f.a.toNat + 1) ++ vreg l f.a.toNat) ∧
      MasksAre h s t [] ∧ t.issues = s.issues.tail ∧ Elsewhere h s t)) ∧
  (∀ (g : Guard) (f : FmtI) (h : Here) (s : State), atLast h = true → Ready (.call g f) g h s → ∃ t, exec (.call g f) s = .next t ∧
    (∀ k, k < 32 → (h.iss.lanes.getLsbD k = false → laneAt t h k = laneAt s h k) ∧
      (h.iss.lanes.getLsbD k = true → guardOn g (laneAt s h k) = false → LaneOn h (laneAt s h k) (laneAt t h k) ∧
        VecKept (laneAt s h k) (laneAt t h k) 0 0 ∧ PredKept (laneAt s h k) (laneAt t h k)) ∧
      (h.iss.lanes.getLsbD k = true → guardOn g (laneAt s h k) = true →
        (laneAt t h k).pc = (if f.a = 0xFF#8 then h.iss.at_ + 8#64 * f.imm.signExtend 64
          else vreg (laneAt s h k) (f.a.toNat + 1) ++ vreg (laneAt s h k) f.a.toNat) ∧
        (laneAt t h k).cbase = none ∧ (laneAt t h k).st = (laneAt s h k).st ∧
        vreg (laneAt t h k) (f.d.toNat + 1) ++ vreg (laneAt t h k) f.d.toNat = h.iss.at_ + 8#64 ∧
        vempty (laneAt t h k) f.d.toNat = false ∧ vempty (laneAt t h k) (f.d.toNat + 1) = false ∧
        VecKept (laneAt s h k) (laneAt t h k) f.d.toNat 2 ∧ PredKept (laneAt s h k) (laneAt t h k))) ∧
    QuadsKept h s t ∧ GangOn h s t 0#5 0#4 ∧ t.issues = s.issues.tail ∧ Elsewhere h s t)

/-- R199, R200, R202: REJOIN blocks every active lane at its site; JMSET, JMADD and JMDEL leave the write of their mask, when the guard
is true in some active lane, for the end of the issue, when the masks take such writes in their order. -/
def Obligations.RejoinAndMasks : Prop :=
  ∀ (g : Guard) (h : Here) (s : State),
    (∀ f : FmtB, atLast h = true → g.pred = 0#4 → Ready (.rejoin g f) g h s → ∃ t, exec (.rejoin g f) s = .next t ∧
      HeldLanes h s t (fun _ => true) (.blocked (.rejoin h.iss.at_ (f.j.toNat % 8))) ∧ MasksAre h s t [] ∧
      t.issues = s.issues.tail ∧ Elsewhere h s t) ∧
    ∀ p ∈ ([(.jmset, .set), (.jmadd, .add), (.jmdel, .del)] : List ((Guard → FmtT → Instr) × JKind)), ∀ f : FmtT, Ready (p.1 g f) g h s →
      ∃ t, exec (p.1 g f) s = .next t ∧ PlainLanes h s t ∧ QuadsKept h s t ∧ Elsewhere h s t ∧
        (let m := if f.mod.getLsbD 2 then trueMask h g else (srcS h f.a.toNat).extractLsb' 0 32
        let ops : List JOp := if trueMask h g = 0#32 then [] else [⟨p.2, f.d.toNat, m⟩]
        IssueOn (h.withMasks ops) s t ∧ MasksAre h s t ops)

/-! Vector words. -/

/-- R209, R210, R213, R214: every vector integer instruction that writes one register writes what its row of the table says, in each active
lane whose guard is true; no other register, flag or byte changes. -/
def Obligations.VectorResults : Prop :=
  ∀ (g : Guard) (f : FmtT) (h : Here) (s : State), ∀ p ∈ vectorTable, Ready (p.1 g f) g h s →
    ∃ t, exec (p.1 g f) s = .next t ∧ VecDone g h s t f.d.toNat 1
      fun l => (p.2 f.mod (vreg l f.a.toNat) (opndB h f l) (opndC h f l) (vreg l f.d.toNat)).toNat

/-- R209, R211, R213, R215: VMOV in its three forms, VMOVI and VMADW; each result byte of VPERM4 is the byte its selector names, its sign, or 0,
where no selector is 11xxx. -/
def Obligations.VectorMoves : Prop :=
  ∀ (g : Guard) (h : Here) (s : State),
    (∀ f : FmtT, Ready (.vmov g f) g h s → ∃ t, exec (.vmov g f) s = .next t ∧ VecDone g h s t f.d.toNat 1 fun l =>
      if f.mod.getLsbD 0 then ((srcS h f.a.toNat) >>> (if f.mod.getLsbD 1 then 32 else 0)).toNat else (vreg l f.a.toNat).toNat) ∧
    (∀ f : FmtI, Ready (.vmovi g f) g h s → ∃ t, exec (.vmovi g f) s = .next t ∧ VecDone g h s t f.d.toNat 1 fun _ => f.imm.toNat) ∧
    (∀ f : FmtT, Ready (.vmadw g f) g h s → ∃ t, exec (.vmadw g f) s = .next t ∧ VecDone g h s t f.d.toNat 2 fun l =>
      ((if f.mod.getLsbD 0 then (vreg l f.a.toNat).setWidth 64 * (opndB h f l).setWidth 64
        else (vreg l f.a.toNat).signExtend 64 * (opndB h f l).signExtend 64)
        + if f.cs then srcS h f.c.toNat else vreg l (f.c.toNat + 1) ++ vreg l f.c.toNat).toNat) ∧
    (∀ f : FmtT, Ready (.vperm4 g f) g h s →
      (∀ k i, k < 32 → i < 4 → h.iss.lanes.getLsbD k = true → (opndC h f (laneAt s h k)).extractLsb' (5 * i + 3) 2 ≠ 3#2) →
      ∃ (t : State) (val : Lane → Nat), exec (.vperm4 g f) s = .next t ∧ VecDone g h s t f.d.toNat 1 val ∧
        ∀ k, k < 32 → h.iss.lanes.getLsbD k = true → guardOn g (laneAt s h k) = true → ∀ i, i < 4 →
          (let l := laneAt s h k
          let src : BitVec 64 := opndB h f l ++ vreg l f.a.toNat
          let x := src.extractLsb' (8 * ((opndC h f l).extractLsb' (5 * i) 3).toNat) 8
          (vreg (laneAt t h k) f.d.toNat).extractLsb' (8 * i) 8 = match ((opndC h f l).extractLsb' (5 * i + 3) 2).toNat with
            | 0 => x
            | 1 => if x.msb then 0xFF#8 else 0#8
            | _ => 0#8))

/-- R217: VSEL takes A in the lanes whose pC is 1 and B, a register or a scalar, in the others; C is a predicate, and a word with CS or MOD set is
refused and raises the reserved-field trap. -/
def Obligations.Selects : Prop :=
  (∀ (g : Guard) (f : FmtT) (h : Here) (s : State), Ready (.vsel g f) g h s → ∃ t, exec (.vsel g f) s = .next t ∧
    VecDone g h s t f.d.toNat 1 fun l => (if preg l f.c.toNat then vreg l f.a.toNat else opndB h f l).toNat) ∧
  ∀ x : W64, x.extractLsb' 56 8 = 0x3E#8 →
    (∀ i, decode x = .ok i → i = .vsel (guardOf x) (fmtTOf x) ∧ (fmtTOf x).c.toNat < 16) ∧
    (x.getLsbD 14 = true ∨ x.extractLsb' 0 14 ≠ 0#14 → decode x = .error .reservedField) ∧
    (decode x = .error .reservedField → ReservedTrap x)

/-- R212: VADDC and VSUBB write the sum or difference with the carry read from pC, and the carry out to pC; p0 reads 1 and discards it. -/
def Obligations.Carries : Prop :=
  ∀ (g : Guard) (f : FmtT) (h : Here) (s : State), f.c.toNat < 16 →
    ∀ p ∈ ([(.vaddc, false), (.vsubb, true)] : List ((Guard → FmtT → Instr) × Bool)), Ready (p.1 g f) g h s →
    ∃ t, exec (p.1 g f) s = .next t ∧ QuadsKept h s t ∧ GangOn h s t 0#5 0#4 ∧ IssueOn h s t ∧ Elsewhere h s t ∧
      ∀ k, k < 32 →
        (h.iss.lanes.getLsbD k = false → laneAt t h k = laneAt s h k) ∧
        (h.iss.lanes.getLsbD k = true → LaneOn h (laneAt s h k) (laneAt t h k) ∧
          (let on := guardOn g (laneAt s h k)
          let l := laneAt s h k
          let cin := if f.mod.getLsbD 0 then 0 else (preg l f.c.toNat).toNat
          VecKept l (laneAt t h k) f.d.toNat (if on then 1 else 0) ∧ PredKeptBut l (laneAt t h k) (if on then f.c.toNat else 0) ∧
          (on = true → vempty (laneAt t h k) f.d.toNat = false ∧ pempty (laneAt t h k) f.c.toNat = false ∧
            if p.2 then
              vreg (laneAt t h k) f.d.toNat = vreg l f.a.toNat - opndB h f l - BitVec.ofNat 32 cin ∧
              (f.c ≠ 0#8 → preg (laneAt t h k) f.c.toNat = decide ((vreg l f.a.toNat).toNat < (opndB h f l).toNat + cin))
            else
              vreg (laneAt t h k) f.d.toNat = vreg l f.a.toNat + opndB h f l + BitVec.ofNat 32 cin ∧
              (f.c ≠ 0#8 → preg (laneAt t h k) f.c.toNat = decide (2 ^ 32 ≤ (vreg l f.a.toNat).toNat + (opndB h f l).toNat + cin)))))

/-- R216, R218: the predicate instructions and VCMP. A write to p0 is discarded. -/
def Obligations.PredicateResults : Prop :=
  ∀ (g : Guard) (f : FmtT) (h : Here) (s : State), f.d.toNat < 16 →
    (∀ p ∈ predTable, Ready (p.1 g f) g h s → ∃ t, exec (p.1 g f) s = .next t ∧
      PredDone g h s t f.d.toNat fun l => p.2 (preg l f.a.toNat) (preg l f.b.toNat)) ∧
    (Ready (.vcmp g f) g h s → ∃ t, exec (.vcmp g f) s = .next t ∧ PredDone g h s t f.d.toNat fun l =>
      let c := ccHolds (f.mod.extractLsb' 0 3) (f.mod.getLsbD 3) (vreg l f.a.toNat) (opndB h f l)
      match (f.mod.extractLsb' 4 2).toNat with
      | 1 => c && preg l f.c.toNat
      | 2 => c || preg l f.c.toNat
      | _ => c)

/-! Floating-point words. -/

/-- R231, R232, R235 (and R228, R229, R230): a correctly rounded FP32 or FP64 word writes its exact result rounded once by MOD[1:0], and its
exceptions and flushes join FPCTL and MFLAGS. -/
def Obligations.FloatResults : Prop :=
  ∀ (g : Guard) (f : FmtT) (h : Here) (s : State), ∀ p ∈ floatTable, Ready (p.1 g f) g h s →
    ∃ t, exec (p.1 g f) s = .next t ∧
      (let rm := (f.mod.extractLsb' 0 2).toNat
      let ftz := f.mod.getLsbD 2
      let fmt := p.2.1
      let n := p.2.2.1
      let k := p.2.2.2.1
      let res (l : Lane) : FR :=
        let x := (floatOpnds h f n k l).map (readAs fmt ftz)
        finish fmt rm ftz (p.2.2.2.2 rm (x.getD 0 (.nan false)) (x.getD 1 (.nan false)) (x.getD 2 (.nan false)))
      VecDone g h s t f.d.toNat n (fun l => (res l).bits) (fun l => (res l).flags)
        (fun l => unflBit (flushes fmt ftz (floatOpnds h f n k l) || (res l).unfl)))

/-- R139, R140: the rounding of an exact result that a finite value of the format can bound gives the right rounding of the number, in every mode; of
two values as near, rounding to nearest gives the even one; and NX is raised exactly where the result is not the number. R131 to R135: the numbers of
one MMA, from the values in its block, its tile and its accumulator. A NaN among the elements and scales of a result, or in its accumulator, gives the
canonical NaN. Otherwise the exact sum of the 128 products, times the row's scale and the tile's, is rounded once to FP32 to the nearest even, the
accumulator plus that term once more, and a narrow accumulator's result once to its own format, held as its exact widening and clamped at the largest
finite value (log entry 23). Rows from the count on stay. -/
def Obligations.FloatRounding : Prop :=
  (∀ fmt ∈ [fp64, fp32, fp16, bf16], ∀ (rm : Nat) (n : Bool) (m : Nat) (e : Int) (sticky : Bool) (v : Rat), rm < 4 →
    stands fmt.p (.num n m e sticky) v →
    (let top : Rat := ((fmtMax fmt).1 : Rat) * twoTo (fmtMax fmt).2
    |v| ≤ top → ∃ r, ratOf (unpack fmt (finish fmt rm false (.num n m e sticky)).bits) = some r ∧ roundsTo fmt rm v r ∧
      tiesEven fmt rm v r (finish fmt rm false (.num n m e sticky)).bits ∧ ((finish fmt rm false (.num n m e sticky)).flags.getLsbD 0 = true ↔ r ≠ v))) ∧
  (∀ (wg n : Nat) (w : Wg) (c : MCmd) (core : Nat) (s : State), findWg s wg = some w → findCmd w n = some c → coreOf w = some core →
    (∀ x ∈ w.mq, c.id ≤ x.id) → (w.mq.map fun x => x.id).Nodup →
    ∀ a fs off rows tr m, c.kind = .mma a fs off rows tr → c.mac = some m → c.started = true → c.fail = 0 →
    (let slot := tget 0#64 w.fslots fs
    let mac := macOf w m
    let accf := slot.extractLsb' 16 2
    matSlotOk slot = true → mac.pfmt = slot.extractLsb' 4 4 →
    ∃ t, exec (.matrixCommandComplete wg n) s = .next t ∧ ∀ i j, i < 32 → j < 128 →
      (let old := accElem w a i j
      let new := accElem ((findWg t wg).getD w) a i j
      (rows ≤ i → new = old) ∧
      (i < rows → nanIn slot mac c.aBytes tr i j = true ∨ isNan (unpack fp32 old.toNat) = true → new = 0x7FC00000#32) ∧
      (i < rows → ∀ sum sA sB q, sumOf slot mac c.aBytes tr i j 128 = some sum → rowScale slot c.aBytes i = some sA → tileScale slot mac = some sB →
        ratOf (unpack fp32 old.toNat) = some q → ¬overTop fp32 0 (sum * sA * sB) →
        ∃ b1 r1, ratOf (unpack fp32 b1) = some r1 ∧ Nearest fp32 (sum * sA * sB) b1 ∧
          (¬overTop fp32 0 (q + r1) →
            (accf = 0#2 → Nearest fp32 (q + r1) new.toNat) ∧
            ∀ f, (accf = 1#2 ∧ f = bf16) ∨ (accf = 2#2 ∧ f = fp16) → ∃ b2 r2, ratOf (unpack fp32 b2) = some r2 ∧ Nearest fp32 (q + r1) b2 ∧
              (¬overTop f 0 r2 → ∃ b3 r3, ratOf (unpack f b3) = some r3 ∧ Nearest f r2 b3 ∧ ratOf (unpack fp32 new.toNat) = some r3) ∧
              (overTop f 0 r2 → ratOf (unpack fp32 new.toNat) = some ((if r2 < 0 then -1 else 1) * (fmtMax f).1 * twoTo (fmtMax f).2)))))))

/-- R231, R235: the exact results are those of the numbers: sum, difference, product, fused sum, quotient and square root; of an irrational root the
result is the bits before it, one place wide, with p + 2 of them. -/
def Obligations.FloatExactness : Prop :=
  ∀ (rm : Nat) (a b c : FV) (x y z : Rat), ratOf a = some x → ratOf b = some y → ratOf c = some z → ∀ p,
    stands p (addEx rm a b) (x + y) ∧ stands p (addEx rm a (negFV b)) (x - y) ∧ stands p (mulEx a b) (x * y) ∧
    stands p (fmaEx rm a b c) (x * y + z) ∧ (y ≠ 0 → stands p (divEx p a b) (x / y)) ∧
    (∀ v : Rat, 0 ≤ v → v * v = x → stands p (sqrtEx p a) v) ∧
    (0 ≤ x → match sqrtEx p a with
      | .num n m e sticky =>
        let lo : Rat := m * twoTo e
        if sticky then n = false ∧ 2 ^ (p + 1) ≤ m ∧ lo * lo < x ∧ x < (lo + twoTo e) * (lo + twoTo e) else lo * lo = x
      | _ => False)

/-- R231 to R235: FMIN, FMAX, DMIN, DMAX, FCMP and DCMP: a signalling NaN raises NV, and the ordered comparisons raise it for any NaN. FSCALE,
FRND, FFRC and FCLASS. -/
def Obligations.FloatOrder : Prop :=
  (∀ (g : Guard) (f : FmtT) (h : Here) (s : State),
    (∀ p ∈ ([(.fmin, fp32, 1, false), (.fmax, fp32, 1, true), (.dmin, fp64, 2, false), (.dmax, fp64, 2, true)] :
        List ((Guard → FmtT → Instr) × Fmt × Nat × Bool)), Ready (p.1 g f) g h s → ∃ t, exec (p.1 g f) s = .next t ∧
      (let ftz := f.mod.getLsbD 2
      let fmt := p.2.1
      let raw (l : Lane) : List Nat := floatOpnds h f p.2.2.1 2 l
      let a (l : Lane) : FV := readAs fmt ftz ((raw l).getD 0 0)
      let b (l : Lane) : FV := readAs fmt ftz ((raw l).getD 1 0)
      ∃ val : Lane → Nat, VecDone g h s t f.d.toNat p.2.2.1 val
          (fun l => if a l = .nan true ∨ b l = .nan true then 16#5 else 0#5) (fun l => unflBit (flushes fmt ftz (raw l))) ∧
        ∀ l, unpack fmt (val l) =
          if isNan (a l) && isNan (b l) then .nan false
          else if isNan (a l) then b l
          else if isNan (b l) then a l
          else if (if p.2.2.2 then belowFV (a l) (b l) else belowFV (b l) (a l)) then b l else a l)) ∧
    (f.d.toNat < 16 → ∀ p ∈ ([(.fcmp, fp32, 1), (.dcmp, fp64, 2)] : List ((Guard → FmtT → Instr) × Fmt × Nat)),
      Ready (p.1 g f) g h s → ∃ t, exec (p.1 g f) s = .next t ∧
      (let ftz := f.mod.getLsbD 3
      let raw (l : Lane) : List Nat := floatOpnds h f p.2.2 2 l
      let a (l : Lane) : FV := readAs p.2.1 ftz ((raw l).getD 0 0)
      let b (l : Lane) : FV := readAs p.2.1 ftz ((raw l).getD 1 0)
      let un (l : Lane) : Bool := isNan (a l) || isNan (b l)
      let sig (l : Lane) : Bool := a l == .nan true || b l == .nan true
      let holds (l : Lane) : Bool := match (f.mod.extractLsb' 0 3).toNat with
        | 0 => !un l && cmpFV (a l) (b l) == .eq
        | 1 => un l || cmpFV (a l) (b l) != .eq
        | 2 => !un l && cmpFV (a l) (b l) == .lt
        | 3 => !un l && cmpFV (a l) (b l) != .gt
        | 4 => !un l && cmpFV (a l) (b l) == .gt
        | 5 => !un l && cmpFV (a l) (b l) != .lt
        | 6 => un l
        | _ => !un l
      let nv (l : Lane) : Bool := match (f.mod.extractLsb' 0 3).toNat with
        | 2 => un l
        | 3 => un l
        | 4 => un l
        | 5 => un l
        | _ => sig l
      PredLanes g h s t f.d.toNat (fun l => match (f.mod.extractLsb' 4 2).toNat with
          | 1 => holds l && preg l f.c.toNat
          | 2 => holds l || preg l f.c.toNat
          | _ => holds l) ∧
        QuadsKept h s t ∧ Elsewhere h s t ∧
        (let fp := flagsOf g h fun l => if nv l then 16#5 else 0#5
        let mf := flagsOf g h fun l => unflBit (flushes p.2.1 ftz (raw l))
        IssueOn (h.withOps (raises fp mf)) s t ∧ GangOn h s t fp mf)))) ∧
  (∀ (g : Guard) (f : FmtT) (h : Here) (s : State),
    (let rm := (f.mod.extractLsb' 0 2).toNat
    let ftz := f.mod.getLsbD 2
    let raw (l : Lane) : Nat := (vreg l f.a.toNat).toNat
    let a (l : Lane) : FV := readAs fp32 ftz (raw l)
    (Ready (.fscale g f) g h s → ∃ t, exec (.fscale g f) s = .next t ∧
      (let res (l : Lane) : FR := finish fp32 rm ftz (match a l with
        | .nan q => .nan q
        | .inf n => .inf n false
        | .fin n m e => .num n m (e + (opndB h f l).toInt) false)
      VecDone g h s t f.d.toNat 1 (fun l => (res l).bits) (fun l => (res l).flags)
        (fun l => unflBit (flushes fp32 ftz [raw l] || (res l).unfl)))) ∧
    (∀ p ∈ ([(.frnd, false), (.ffrc, true)] : List ((Guard → FmtT → Instr) × Bool)), Ready (p.1 g f) g h s →
      ∃ t val, exec (p.1 g f) s = .next t ∧
        VecDone g h s t f.d.toNat 1 val (fun l => if a l = .nan true then 16#5 else 0#5) (fun l => unflBit (flushes fp32 ftz [raw l])) ∧
        ∀ l, match a l with
          | .nan _ => val l = 0x7FC00000
          | .inf n => val l = if p.2 then (if n then 0x80000000 else 0) else (if n then 0xFF800000 else 0x7F800000)
          | .fin n m e => ∃ r : Rat, ratOf (unpack fp32 (val l)) = some r ∧ negOf (unpack fp32 (val l)) = n ∧
              let x : Rat := (if n then -1 else 1) * m * twoTo e
              if p.2 then ∃ k : Int, x = r + k ∧ |r| < 1 ∧ 0 ≤ r * x
              else ∃ k : Int, r = k ∧ (match rm with
                | 0 => |r - x| ≤ 1 / 2 ∧ (|r - x| = 1 / 2 → k % 2 = 0)
                | 1 => |r| ≤ |x| ∧ |r - x| < 1
                | 2 => x ≤ r ∧ r < x + 1
                | _ => r ≤ x ∧ x < r + 1)) ∧
    (Ready (.fclass g f) g h s → ∃ t, exec (.fclass g f) s = .next t ∧ VecDone g h s t f.d.toNat 1 fun l =>
      let fmt := if f.mod.getLsbD 0 then fp64 else fp32
      let x := vregs l f.a.toNat (if f.mod.getLsbD 0 then 2 else 1)
      2 ^ (match unpack fmt x with
        | .nan q => if q then 8 else 9
        | .inf n => if n then 0 else 7
        | .fin n m _ => if m = 0 then (if n then 3 else 4) else if m < 2 ^ (fmt.p - 1) then (if n then 2 else 5) else (if n then 1 else 6)))))

/-- R146, R147: FRCP, FRSQ, FEXP2, FLOG2, FSIN, FCOS and FTANH write one register in each active lane whose guard is true. Each is one function of
its input bits, the same in every state, with the special results of the table; FRCP is within one unit of the last place; FSIN, FCOS and FTANH
stay within 1. Under .ftz input and result are flushed (R232). -/
def Obligations.Transcendentals : Prop :=
  (∀ (g : Guard) (f : FmtT) (h : Here) (s : State),
    ∀ op ∈ ([.frcp, .frsq, .fexp2, .flog2, .fsin, .fcos, .ftanh] : List (Guard → FmtT → Instr)), Ready (op g f) g h s →
      ∃ (t : State) (val : Lane → Nat) (fp : Lane → BitVec 5) (mf : Lane → BitVec 4), exec (op g f) s = .next t ∧
        VecDone g h s t f.d.toNat 1 val fp mf) ∧
  ∃ F : Nat → W32 → FR,
    (∀ (g : Guard) (f : FmtT) (h : Here) (s : State), ∀ p ∈ ([(.frcp, 0), (.frsq, 1), (.fexp2, 2), (.flog2, 3), (.fsin, 4), (.fcos, 5),
        (.ftanh, 6)] : List ((Guard → FmtT → Instr) × Nat)), Ready (p.1 g f) g h s → ∃ t, exec (p.1 g f) s = .next t ∧
      (let ftz := f.mod.getLsbD 2
      let raw (l : Lane) : W32 := vreg l f.a.toNat
      let res (l : Lane) : FR := F p.2 (if flushes fp32 ftz [(raw l).toNat] then raw l &&& 0x80000000#32 else raw l)
      let cut (l : Lane) : Bool := flushes fp32 ftz [(res l).bits]
      VecDone g h s t f.d.toNat 1 (fun l => if cut l then (res l).bits / 2 ^ 31 * 2 ^ 31 else (res l).bits)
        (fun l => if cut l then (res l).flags ||| 3#5 else (res l).flags)
        (fun l => unflBit (flushes fp32 ftz [(raw l).toNat] || cut l)))) ∧
    (∀ op x, op < 7 → (∀ q, unpack fp32 x.toNat = .nan q → F op x = ⟨0x7FC00000, if q then 16#5 else 0#5, false⟩)) ∧
    (∀ p ∈ ([(0, 0xFF800000#32, 0x80000000, 0#5), (0, 0x80000000#32, 0xFF800000, 8#5), (0, 0#32, 0x7F800000, 8#5), (0, 0x7F800000#32, 0, 0#5),
        (1, 0xFF800000#32, 0x7FC00000, 16#5), (1, 0x80000000#32, 0xFF800000, 8#5), (1, 0#32, 0x7F800000, 8#5), (1, 0x7F800000#32, 0, 0#5),
        (2, 0xFF800000#32, 0, 0#5), (2, 0x80000000#32, 0x3F800000, 0#5), (2, 0#32, 0x3F800000, 0#5), (2, 0x7F800000#32, 0x7F800000, 0#5),
        (3, 0xFF800000#32, 0x7FC00000, 16#5), (3, 0x80000000#32, 0xFF800000, 8#5), (3, 0#32, 0xFF800000, 8#5),
        (3, 0x7F800000#32, 0x7F800000, 0#5), (4, 0xFF800000#32, 0x7FC00000, 16#5), (4, 0x80000000#32, 0x80000000, 0#5), (4, 0#32, 0, 0#5),
        (4, 0x7F800000#32, 0x7FC00000, 16#5), (5, 0xFF800000#32, 0x7FC00000, 16#5), (5, 0x80000000#32, 0x3F800000, 0#5),
        (5, 0#32, 0x3F800000, 0#5), (5, 0x7F800000#32, 0x7FC00000, 16#5), (6, 0xFF800000#32, 0xBF800000, 0#5),
        (6, 0x80000000#32, 0x80000000, 0#5), (6, 0#32, 0, 0#5), (6, 0x7F800000#32, 0x3F800000, 0#5)] :
        List (Nat × W32 × Nat × BitVec 5)), F p.1 p.2.1 = ⟨p.2.2.1, p.2.2.2, false⟩) ∧
    (∀ x : W32, x.msb = true → isNan (unpack fp32 x.toNat) = false → x ≠ 0x80000000#32 →
      F 1 x = ⟨0x7FC00000, 16#5, false⟩ ∧ F 3 x = ⟨0x7FC00000, 16#5, false⟩) ∧
    (∀ (x : W32) (v : Rat), ratOf (unpack fp32 x.toNat) = some v → v ≠ 0 →
      if |v| ≤ twoTo (-128) then F 0 x = ⟨if v < 0 then 0xFF800000 else 0x7F800000, 4#5, false⟩
      else ∃ r, ratOf (unpack fp32 (F 0 x).bits) = some r ∧ ∃ e : Int, -126 ≤ e ∧ (twoTo e ≤ |1 / v| ∨ e = -126) ∧ |1 / v| < twoTo (e + 1) ∧
        |r - 1 / v| ≤ twoTo (e - 23)) ∧
    (∀ op ∈ [4, 5, 6], ∀ (x : W32) (v r : Rat), ratOf (unpack fp32 x.toNat) = some v → ratOf (unpack fp32 (F op x).bits) = some r → |r| ≤ 1)

/-- R236: the packed words compute on two FP16 or BF16 elements, each rounded once. -/
def Obligations.PackedHalves : Prop :=
  ∀ (g : Guard) (f : FmtT) (h : Here) (s : State),
    ∀ p ∈ ([(.hadd2, 2, fun rm a b _ => addEx rm a b), (.hmul2, 2, fun _ a b _ => mulEx a b), (.hfma2, 3, fmaEx)] :
      List ((Guard → FmtT → Instr) × Nat × (Nat → FV → FV → FV → Ex))), Ready (p.1 g f) g h s → ∃ t, exec (p.1 g f) s = .next t ∧
      (let rm := (f.mod.extractLsb' 0 2).toNat
      let ftz := f.mod.getLsbD 2
      let fmt := if f.mod.getLsbD 3 then bf16 else fp16
      let part (e : Nat) (l : Lane) : List Nat := (floatOpnds h f 1 p.2.1 l).map fun x => x / 2 ^ (16 * e) % 2 ^ 16
      let res (e : Nat) (l : Lane) : FR :=
        let x := (part e l).map (readAs fmt ftz)
        finish fmt rm ftz (p.2.2 rm (x.getD 0 (.nan false)) (x.getD 1 (.nan false)) (x.getD 2 (.nan false)))
      VecDone g h s t f.d.toNat 1 (fun l => (res 0 l).bits + 2 ^ 16 * (res 1 l).bits) (fun l => (res 0 l).flags ||| (res 1 l).flags)
        (fun l => unflBit (flushes fmt ftz (part 0 l ++ part 1 l) || (res 0 l).unfl || (res 1 l).unfl)))

/-- R237 to R239: CVTFF, CVTFI and CVTIF: one rounding of the value read, into a register, a pair or the half that MOD names. -/
def Obligations.Conversions : Prop :=
  ∀ (g : Guard) (f : FmtT) (h : Here) (s : State),
    (let rm := (f.mod.extractLsb' 0 2).toNat
    let fmtOf (n : Nat) : Fmt := [fp32, fp64, fp16, bf16].getD n fp32
    let src (n : Nat) (high : Bool) (l : Lane) : Nat :=
      if n = 1 then vregs l f.a.toNat 2 else if n = 0 then (vreg l f.a.toNat).toNat
      else (vreg l f.a.toNat).toNat / (if high then 2 ^ 16 else 1) % 2 ^ 16
    let into (n : Nat) (l : Lane) (x : Nat) : Nat := if n ≥ 2 ∧ f.mod.getLsbD 8 then (vreg l f.d.toNat).toNat % 2 ^ 16 + 2 ^ 16 * x else x
    let regs (n : Nat) : Nat := if n = 1 then 2 else 1
    (Ready (.cvtff g f) g h s → ∃ t, exec (.cvtff g f) s = .next t ∧
      (let dn := (f.mod.extractLsb' 5 2).toNat
      let sn := (f.mod.extractLsb' 3 2).toNat
      let ftz := f.mod.getLsbD 2
      let res (l : Lane) : FR := finish (fmtOf dn) rm ftz (match readAs (fmtOf sn) ftz (src sn (f.mod.getLsbD 7) l) with
        | .nan q => .nan q
        | .inf n => .inf n false
        | .fin n m e => .num n m e false)
      VecDone g h s t f.d.toNat (regs dn) (fun l => into dn l (res l).bits) (fun l => (res l).flags)
        (fun l => unflBit ((res l).unfl || flushes (fmtOf sn) ftz [src sn (f.mod.getLsbD 7) l])))) ∧
    (Ready (.cvtfi g f) g h s → ∃ t, exec (.cvtfi g f) s = .next t ∧
      (let n := (f.mod.extractLsb' 5 3).toNat
      let sn := (f.mod.extractLsb' 3 2).toNat
      let lo : Int := [-2 ^ 31, 0, -2 ^ 63, 0, -2 ^ 15, 0, -2 ^ 7, 0].getD n 0
      let hi : Int := [2 ^ 31 - 1, 2 ^ 32 - 1, 2 ^ 63 - 1, 2 ^ 64 - 1, 2 ^ 15 - 1, 2 ^ 16 - 1, 2 ^ 7 - 1, 2 ^ 8 - 1].getD n 0
      ∃ (val : Lane → Int) (fl : Lane → BitVec 5),
        VecDone g h s t f.d.toNat (if n = 2 ∨ n = 3 then 2 else 1) (fun l => (val l % 2 ^ 64).toNat) fl ∧
        ∀ l, match unpack (fmtOf sn) (src sn (f.mod.getLsbD 8) l) with
          | .nan _ => val l = 0 ∧ fl l = 16#5
          | .inf n => val l = (if n then lo else hi) ∧ fl l = 16#5
          | .fin n m e =>
            let x : Rat := (if n then -1 else 1) * m * twoTo e
            ∃ k : Int, (match rm with
                | 0 => |(k : Rat) - x| ≤ 1 / 2 ∧ (|(k : Rat) - x| = 1 / 2 → k % 2 = 0)
                | 1 => |(k : Rat)| ≤ |x| ∧ |(k : Rat) - x| < 1
                | 2 => x ≤ k ∧ (k : Rat) < x + 1
                | _ => (k : Rat) ≤ x ∧ x < k + 1) ∧
              val l = clamped lo hi k ∧ fl l = if k < lo ∨ hi < k then 16#5 else if (k : Rat) = x then 0#5 else 1#5)) ∧
    (Ready (.cvtif g f) g h s → ∃ t, exec (.cvtif g f) s = .next t ∧
      (let n := (f.mod.extractLsb' 3 3).toNat
      let dn := (f.mod.extractLsb' 6 2).toNat
      let w := [32, 32, 64, 64, 16, 16, 8, 8].getD n 0
      let raw (l : Lane) : Nat := vregs l f.a.toNat (if w = 64 then 2 else 1) % 2 ^ w
      let x (l : Lane) : Int := if n % 2 = 0 ∧ 2 ^ (w - 1) ≤ raw l then (raw l : Int) - 2 ^ w else raw l
      let res (l : Lane) : FR := finish (fmtOf dn) rm false (.num (x l < 0) (x l).natAbs 0 false)
      VecDone g h s t f.d.toNat (regs dn) (fun l => into dn l (res l).bits) (fun l => (res l).flags))))

/-- R240 to R242: under a slot supported for conversion use and an element inside the register, CVTQ and CVTDQ run; CVTDQ of a supported
element that is neither scaled nor flushed gives its value; CVTQ replaces its element and keeps or clears the other bits: unflushed, the element is
the rounding of the value, or of the product with a finite scale, or what R143's table gives for an overflow, an infinity or a NaN. Otherwise every
lane takes the format-slot trap: it enters its handler, or parks at the word. -/
def Obligations.SlotConversions : Prop :=
  ∀ (g : Guard) (f : FmtT) (h : Here) (s : State),
    (let slot := tget 0#64 h.w.fslots (f.mod.extractLsb' 0 3).toNat
    let e8 := f.mod.getLsbD 9
    let w := if e8 then 8 else [8, 16, 16, 8, 8, 4].getD (slot.extractLsb' 0 4).toNat 8
    let pos := w * (f.mod.extractLsb' 5 3).toNat
    let fits := convSlotOk e8 slot = true ∧ pos < 32
    (Ready (.cvtq g f) g h s → fits → ∃ (t : State) (val : Lane → Nat) (mf : Lane → BitVec 4), exec (.cvtq g f) s = .next t ∧
      VecDone g h s t f.d.toNat 1 val (fun _ => 0#5) (fun l => mf l &&& slot.extractLsb' 32 4) ∧
      ∀ l, (∀ i, i < 32 → i < pos ∨ pos + w ≤ i →
          (val l).testBit i = (!f.mod.getLsbD 8 && (vreg l f.d.toNat).getLsbD i)) ∧
        (e8 = true → f.mod.getLsbD 4 = false → val l / 2 ^ pos % 2 ^ w = match readAs fp32 (f.mod.getLsbD 3) (vreg l f.a.toNat).toNat with
          | .fin false m e => if m = 0 then 0xFF else
              (clamped 0 254 (e + bitLen m - 1 + 127)).toNat
          | _ => 0xFF) ∧
        (e8 = false → f.mod.getLsbD 3 = false →
          (let fmt := slotFmt (slot.extractLsb' 0 4).toNat
          let rm := (slot.extractLsb' 25 2).toNat
          let covf := slot.getLsbD 24
          let x := val l / 2 ^ pos % 2 ^ w
          let num (n : Bool) (m : Nat) (e : Int) : Rat := (if n then -1 else 1) * m * twoTo e
          match unpack fp32 (vreg l f.a.toNat).toNat, (if f.mod.getLsbD 4 then unpack fp32 (opndB h f l).toNat else .fin false 1 0) with
          | .nan _, _ => x = [0, 0x7FC0, 0x7E00, 0x7F, 0x7E, 0].getD (slot.extractLsb' 0 4).toNat 0
          | .inf n, .fin _ (_ + 1) _ => f.mod.getLsbD 4 = false →
              if fmt = e2m1 ∨ covf = false then ratOf (unpack fmt x) = some (num n (fmtMax fmt).1 (fmtMax fmt).2)
              else if fmt = e4m3 then x = 0x7F else unpack fmt x = .inf n
          | .fin n m e, .fin n' m' e' => Narrowed fmt rm covf (n != n') (num n m e * num n' m' e') x
          | _, _ => True))) ∧
    (Ready (.cvtdq g f) g h s → fits → ∃ (t : State) (val : Lane → Nat) (mf : Lane → BitVec 4), exec (.cvtdq g f) s = .next t ∧
      VecDone g h s t f.d.toNat 1 val (fun _ => 0#5) (fun l => mf l &&& slot.extractLsb' 32 4) ∧
      (f.mod.getLsbD 4 = false → f.mod.getLsbD 3 = false → ∀ l,
        (let x := (vreg l f.a.toNat).toNat / 2 ^ pos % 2 ^ w
        if e8 then (if x = 255 then val l = 0x7FC00000 else ratOf (unpack fp32 (val l)) = some (twoTo ((x : Int) - 127)))
        else match unpack (slotFmt (slot.extractLsb' 0 4).toNat) x with
          | .nan _ => val l = 0x7FC00000
          | .inf n => val l = if n then 0xFF800000 else 0x7F800000
          | .fin n m e => ratOf (unpack fp32 (val l)) = some ((if n then -1 else 1) * m * twoTo e) ∧ negOf (unpack fp32 (val l)) = n))) ∧
    (∀ p ∈ ([.cvtq, .cvtdq] : List (Guard → FmtT → Instr)), Ready (p g f) g h s → ¬fits → ∃ t, exec (p g f) s = .next t ∧
      ∀ k, k < 32 → h.iss.lanes.getLsbD k = true → guardOn g (laneAt s h k) = true → (laneAt t h k).v = (laneAt s h k).v ∧
        if handled { h.w with trapvec := h.iss.tvec } .formatSlot (laneAt s h k) then
          (laneAt t h k).fcode = 0x11#8 ∧ (laneAt t h k).tinfo = slot ∧ (laneAt t h k).tpc = h.iss.at_ ∧ (laneAt t h k).hact = true
        else (laneAt t h k).st = .parked ∧ (laneAt t h k).pc = h.iss.at_ ∧ (laneAt t h k).cbase = some h.iss.base))

/-! Cross-lane words. -/

/-- R219 to R223: where the source lanes are running and full, XQUAD gives each lane the A of its source lane within the issue, and so do XLANE,
XBCAST and XREAD in a quad's issue for a source lane of the same quad. For another source lane, or in a ganged issue, they mark D empty, and the
word stays pending for those lanes with the value that each source lane has, or, in a lane outside the issue, that it had when the issue began
(log entries 13 and 25). -/
def Obligations.CrossReads : Prop :=
  ∀ (g : Guard) (f : FmtT) (h : Here) (s : State) (src : Nat → Nat),
    ∀ p ∈ ([(.xquad, 0), (.xlane, 1), (.xbcast, 2), (.xread, 3)] : List ((Guard → FmtT → Instr) × Nat)), Ready (p.1 g f) g h s →
    (∀ n, n < 32 → src n = match p.2 with
      | 0 => 4 * (n / 4) + [n % 4 ^^^ 1, n % 4 ^^^ 2, n % 4 ^^^ 3].getD (f.mod.extractLsb' 0 3).toNat ((f.mod.extractLsb' 3 2).toNat)
      | 1 =>
        let d := if f.mod.getLsbD 2 then 32 / 2 ^ (f.mod.extractLsb' 3 3).toNat else (f.mod.extractLsb' 3 7).toNat
        (match (f.mod.extractLsb' 0 2).toNat with
          | 0 => if n ^^^ d < 32 then n ^^^ d else n
          | 1 => if n < d then n else n - d
          | 2 => if 32 ≤ n + d then n else n + d
          | _ => (n + d) % 32)
      | 2 => (if f.mod.getLsbD 7 then (srcS h f.b.toNat).toNat % 128 else (f.mod.extractLsb' 0 7).toNat) % 32
      | _ => (opndB h f (laneAt s h n)).toNat % 32) →
    (∀ n, n < 32 → (trueMask h g).getLsbD n = true → isLive (laneAt s h (src n)).st = true ∧ vempty (laneAt s h (src n)) f.a.toNat = false) →
    (let long (n : Nat) : Bool := p.2 != 0 && (h.iss.quad.isNone || src n / 4 != n / 4)
    let after : LaneMask := maskOf fun n => (trueMask h g).getLsbD n && long n
    let from_ : LaneMask := maskOf fun m => (bitsOf after).any fun n => src n == m
    ∃ (t : State) (parts : List Part), exec (p.1 g f) s = .next t ∧ QuadsKept h s t ∧ IssueOn h s t ∧
      Joined h s { s with freeCtr := t.freeCtr } t (if after = 0#32 then [] else
        [{ seq := 0, kind := .cross, lanes := after, dst := .vec f.d.toNat 1, word := some (p.1 g f),
           data := (List.range 32).map fun n => BitVec.ofNat 8 (src n), parts := parts }]) ∧
      (parts.map fun q => q.lane) = bitsOf from_ ∧
      (∀ q ∈ parts, q = { lane := q.lane, ret := leBytes 4 (vreg (laneAt s h q.lane) f.a.toNat).toNat } ∨
        (h.iss.lanes.getLsbD q.lane = false ∧ h.iss.began ≠ [] ∧ vempty (tget {} h.iss.began q.lane) f.a.toNat = false ∧
          q = { lane := q.lane, x := 1#64, y := (vreg (tget {} h.iss.began q.lane) f.a.toNat).zeroExtend 64 })) ∧
      ∀ k, k < 32 →
        (h.iss.lanes.getLsbD k = false → laneAt t h k = laneAt s h k) ∧
        (h.iss.lanes.getLsbD k = true → LaneOn h (laneAt s h k) (laneAt t h k) ∧ PredKept (laneAt s h k) (laneAt t h k) ∧
          VecKept (laneAt s h k) (laneAt t h k) f.d.toNat (if guardOn g (laneAt s h k) then 1 else 0) ∧
          (guardOn g (laneAt s h k) = true →
            if long k then (laneAt t h k).v = (laneAt s h k).v ∧ vempty (laneAt t h k) f.d.toNat = true
            else vreg (laneAt t h k) f.d.toNat = vreg (laneAt s h (src k)) f.a.toNat ∧ vempty (laneAt t h k) f.d.toNat = false)))

/-- R224 to R227: with no helper lane and full sources, XRED and XSCAN of the integer sum, XVOTE and XMATCH give the sums, the votes and the
matching lanes of the lanes whose guard is true, within a quad's issue; ganged, any of the four marks its destination empty and stays pending. -/
def Obligations.CrossCombines : Prop :=
  ∀ (g : Guard) (f : FmtT) (h : Here) (s : State), trueMask h g ≠ 0#32 →
    (h.iss.quad = none → ∀ p ∈ ([.xred, .xscan, .xvote, .xmatch] : List (Guard → FmtT → Instr)), Ready (p g f) g h s →
      (∀ n, n < 32 → vempty (laneAt s h n) f.a.toNat = false ∧ pempty (laneAt s h n) f.a.toNat = false) →
      ∃ t, exec (p g f) s = .next t ∧ IssueOn h s t ∧
        (let vote : Bool := decide (p g f = .xvote g f)
        let scal : Bool := vote && decide ((f.mod.extractLsb' 0 2).toNat = 2)
        Joined h s s t [{ seq := 0, kind := .cross, lanes := trueMask h g, word := some (p g f), parts := (bitsOf (trueMask h g)).map fun n =>
          { lane := n, ret := leBytes 4 (if vote then (preg (laneAt s h n) f.a.toNat).toNat else (vreg (laneAt s h n) f.a.toNat).toNat) } }] ∧
        (scal = true → MarkQuads h s t f.d.toNat 1 ∧ PlainLanes h s t) ∧ (scal = false → QuadsKept h s t) ∧
        (vote = false → MarkLanes h s t (trueMask h g) f.d.toNat 1) ∧
        (vote = true → scal = false → f.d ≠ 0#8 → ∀ k, k < 32 → pempty (laneAt t h k) f.d.toNat =
          (pempty (laneAt s h k) f.d.toNat || (trueMask h g).getLsbD k)))) ∧
    (h.iss.quad.isSome = true → trueMask h g &&& helperMask h = 0#32 →
    (let tru := bitsOf (trueMask h g)
    let val (n : Nat) : W32 := vreg (laneAt s h n) f.a.toNat
    let seg := 32 / 2 ^ (f.mod.extractLsb' 4 3).toNat
    let width := if seg = 0 then 1 else seg
    let vecs (t : State) (r : Nat → W32) : Prop :=
      QuadsKept h s t ∧ IssueOn h s t ∧ Elsewhere h s t ∧ GangOn h s t 0#5 0#4 ∧ ∀ k, k < 32 →
        (h.iss.lanes.getLsbD k = false → laneAt t h k = laneAt s h k) ∧
        (h.iss.lanes.getLsbD k = true → LaneOn h (laneAt s h k) (laneAt t h k) ∧ PredKept (laneAt s h k) (laneAt t h k) ∧
          VecKept (laneAt s h k) (laneAt t h k) f.d.toNat (if guardOn g (laneAt s h k) then 1 else 0) ∧
          (guardOn g (laneAt s h k) = true → vreg (laneAt t h k) f.d.toNat = r k ∧ vempty (laneAt t h k) f.d.toNat = false))
    let full := ∀ n ∈ tru, vempty (laneAt s h n) f.a.toNat = false
    let sum (ns : List Nat) : W32 := BitVec.ofNat 32 ((ns.map fun n => (val n).toNat).sum)
    (Ready (.xred g f) g h s → f.mod.extractLsb' 0 4 = 0#4 → full → ∃ t, exec (.xred g f) s = .next t ∧
      vecs t fun k => sum (tru.filter fun n => n / width == k / width)) ∧
    (Ready (.xscan g f) g h s → f.mod.extractLsb' 0 4 = 0#4 → full → ∃ t, exec (.xscan g f) s = .next t ∧
      vecs t fun k => sum (tru.filter fun n => n / width == k / width && (if f.mod.getLsbD 7 then n < k else n ≤ k))) ∧
    (Ready (.xmatch g f) g h s → full → ∃ t, exec (.xmatch g f) s = .next t ∧
      vecs t fun k => maskOf fun n => tru.contains n && val n == val k) ∧
    (Ready (.xvote g f) g h s → (∀ n ∈ tru, pempty (laneAt s h n) f.a.toNat = false) → f.d.toNat < 64 → ∃ t, exec (.xvote g f) s = .next t ∧
      (let ballot := maskOf fun n => tru.contains n && preg (laneAt s h n) f.a.toNat
      match (f.mod.extractLsb' 0 2).toNat with
        | 0 => f.d.toNat < 16 → PredDone g h s t f.d.toNat fun _ => ballot != 0#32
        | 1 => f.d.toNat < 16 → PredDone g h s t f.d.toNat fun _ => ballot == trueMask h g
        | _ => ScalDone g h s t f.d.toNat (ballot.zeroExtend 64)))))

/-! Memory words. -/

/-- R246, R247: LD and LDS mark their registers empty and leave one pending load an element, at the address of R243, in lane order; nothing
else changes. LD acts for each lane, LDS once for the issue. -/
def Obligations.Loads : Prop :=
  ∀ (g : Guard) (f : FmtM) (h : Here) (s : State),
    (let k := hankIn h g f
    let imm := f.imm.signExtend 64
    (Ready (.ld g f) g h s → (∀ n, n < 32 → (trueMask h g).getLsbD n = true →
        AccessOk s h.w.ctx k .load (addrOf k (offOf f (laneAt s h n)) imm) (widthOf f)) →
      ∃ t, exec (.ld g f) s = .next t ∧ MarkLanes h s t (trueMask h g) f.d.toNat (regsOf f) ∧ QuadsKept h s t ∧ IssueOn h s t ∧
        Joined h s s t ((bitsOf (trueMask h g)).flatMap fun n =>
          (pieces s h.w.ctx (addrOf k (offOf f (laneAt s h n)) imm) (widthOf f)).map fun e =>
            { seq := 0, kind := .load, lanes := 1#32 <<< n, parts := [{ lane := n }],
              va := BitVec.ofNat 64 (addrOf k (offOf f (laneAt s h n)) imm + 8 * e.1), pa := e.2.1, bytes := e.2.2, sx := f.sx, full := max 4 e.2.2,
              place := .core, dst := .vec (f.d.toNat + 2 * e.1) (if e.2.2 = 8 then 2 else 1),
              span := (f.d.toNat, if widthOf f ≤ 8 then 0 else regsOf f), ticket := k.ticket })) ∧
    (let ea := addrOf k (if f.a = 0xFF#8 then 0#64 else (srcS h f.a.toNat) &&& 0xFFFFFFFF#64) imm
    Ready (.lds g f) g h s → trueMask h g ≠ 0#32 → AccessOk s h.w.ctx k .load ea (widthOf f) →
      ∃ t, exec (.lds g f) s = .next t ∧ MarkQuads h s t f.d.toNat ((widthOf f + 7) / 8) ∧ PlainLanes h s t ∧ IssueOn h s t ∧
        Joined h s s t ((pieces s h.w.ctx ea (widthOf f)).map fun e =>
          { seq := 0, kind := .load, lanes := trueMask h g, va := BitVec.ofNat 64 (ea + 8 * e.1), pa := e.2.1, bytes := e.2.2, sx := f.sx, full := 8,
            parts := [{ lane := lowest (trueMask h g) }], place := .core, dst := .scal (f.d.toNat + e.1) 1 (dstQuads h),
            span := (f.d.toNat, if widthOf f ≤ 8 then 0 else (widthOf f + 7) / 8), ticket := k.ticket })))

/-- R114, R246, R247: ST and STS put one entry an element into the store buffer, with the bytes of the registers, at the address of R243; no byte
of memory changes before it drains. Helper lanes store nothing. -/
def Obligations.Stores : Prop :=
  ∀ (g : Guard) (f : FmtM) (h : Here) (s : State), (∀ a ∈ h.g.pend, a.kind = .red → a.relForm = false) →
    (let k := hankIn h g f
    let imm := f.imm.signExtend 64
    let m := mainLanes h g
    (Ready (.st g f) g h s → bufferUse h.g + (bitsOf m).length ≤ 64 → (∀ n, n < 32 → m.getLsbD n = true →
        AccessOk s h.w.ctx k .store (addrOf k (offOf f (laneAt s h n)) imm) (widthOf f)) →
      ∃ t, exec (.st g f) s = .next t ∧ PlainLanes h s t ∧ QuadsKept h s t ∧ IssueOn h s t ∧
        Joined h s s t ((bitsOf m).flatMap fun n =>
          (pieces s h.w.ctx (addrOf k (offOf f (laneAt s h n)) imm) (widthOf f)).map fun e =>
            { seq := 0, kind := .store, lanes := 1#32 <<< n, parts := [{ lane := n }],
              va := BitVec.ofNat 64 (addrOf k (offOf f (laneAt s h n)) imm + 8 * e.1), pa := e.2.1, bytes := e.2.2,
              data := leBytes e.2.2 (vregs (laneAt s h n) f.d.toNat (regsOf f) / 2 ^ (64 * e.1)), place := .core, ticket := k.ticket })) ∧
    (let ea := addrOf k (if f.a = 0xFF#8 then 0#64 else (srcS h f.a.toNat) &&& 0xFFFFFFFF#64) imm
    Ready (.sts g f) g h s → m ≠ 0#32 → bufferUse h.g + 1 ≤ 64 → AccessOk s h.w.ctx k .store ea (widthOf f) →
      ∃ t, exec (.sts g f) s = .next t ∧ PlainLanes h s t ∧ QuadsKept h s t ∧ IssueOn h s t ∧
        Joined h s s t ((pieces s h.w.ctx ea (widthOf f)).map fun e =>
          { seq := 0, kind := .store, lanes := 1#32 <<< lowest m, parts := [{ lane := lowest m }], va := BitVec.ofNat 64 (ea + 8 * e.1),
            pa := e.2.1, bytes := e.2.2, data := leBytes e.2.2 ((srcS h (f.d.toNat + e.1)).toNat), place := .core, ticket := k.ticket })))

/-- R99, R248: LDSP marks its registers empty and leaves one pending scratchpad load an element, STSP one pending scratchpad store an element, in
lane order. Each performs, when nothing before it stands in its way, in a step of its own: the load writes the bytes that the scratchpad holds then
to its register, the store writes its bytes, and no other byte of the scratchpad. The registers of a load of several elements turn full together, with
the last of them. -/
def Obligations.Scratchpad : Prop :=
  (∀ (g : Guard) (f : FmtM) (h : Here) (s : State),
    (let off (n : Nat) : Nat := (offOf f (laneAt s h n) + f.imm.signExtend 64).toNat
    let inside (n : Nat) : Prop := off n + widthOf f ≤ h.w.scratchSize ∧ off n % min (widthOf f) 8 = 0
    let part (n i : Nat) : Access :=
      { seq := 0, kind := .load, lanes := 1#32 <<< n, parts := [{ lane := n }], va := BitVec.ofNat 64 (off n + 8 * i), pa := 2 ^ 60 + off n + 8 * i,
        bytes := min (widthOf f) 8, sx := f.sx, full := max 4 (min (widthOf f) 8), place := .scratch }
    (Ready (.ldsp g f) g h s → (∀ n, n < 32 → (trueMask h g).getLsbD n = true → inside n) →
      ∃ t, exec (.ldsp g f) s = .next t ∧ MarkLanes h s t (trueMask h g) f.d.toNat (regsOf f) ∧ QuadsKept h s t ∧ IssueOn h s t ∧
        Joined h s s t ((bitsOf (trueMask h g)).flatMap fun n => (List.range ((widthOf f + 7) / 8)).map fun i =>
          { part n i with dst := .vec (f.d.toNat + 2 * i) (if 8 ≤ widthOf f then 2 else 1)
                          span := (f.d.toNat, if widthOf f ≤ 8 then 0 else regsOf f) })) ∧
    (Ready (.stsp g f) g h s → (∀ n, n < 32 → (mainLanes h g).getLsbD n = true → inside n) →
      ∃ t, exec (.stsp g f) s = .next t ∧ PlainLanes h s t ∧ QuadsKept h s t ∧ IssueOn h s t ∧
        Joined h s s t ((bitsOf (mainLanes h g)).flatMap fun n => (List.range ((widthOf f + 7) / 8)).map fun i =>
          { part n i with kind := .stsp, span := (f.d.toNat, 0)
                          data := leBytes (min (widthOf f) 8) (vregs (laneAt s h n) f.d.toNat (regsOf f) / 2 ^ (64 * i)) })))) ∧
  ∀ (s : State) (wg gang n core : Nat) (w : Wg) (a : Access) (how : Fill) (ev : Evict), findWg s wg = some w → coreOf w = some core →
    findPend (gangOf w gang) n = some a → a.place = .scratch → mayPerform core (gangOf w gang) a = true →
    (a.kind = .load → ∀ k d r, a.parts = [{ lane := k }] → k < 32 → isGone (laneOf (gangOf w gang) k).st = false → a.dst = .vec d r →
      (a.span.2 ≠ 0 → a.lanes.getLsbD k = true ∧ a.span.1 + a.span.2 ≤ 256) →
      ∃ t v, exec (.registerFill wg gang n how ev) s = .next t ∧ findWg t wg = some v ∧ v.scratch = w.scratch ∧
        findPend (gangOf v gang) n = none ∧
        vregs (laneOf (gangOf v gang) k) d r = (let x := leNat ((List.range a.bytes).map fun j => get0 w.scratch (a.pa - 2 ^ 60 + j))
          (if a.sx then (sextN (8 * a.bytes) x % 2 ^ (8 * a.full)).toNat else x) % 2 ^ (32 * r)) ∧
        (a.span.2 = 0 → ∀ j, j < r → vempty (laneOf (gangOf v gang) k) (d + j) = false) ∧
        ∀ j, j < a.span.2 → vempty (laneOf (gangOf v gang) k) (a.span.1 + j) =
          (gangOf w gang).pend.any fun b => b.grp == a.grp && b.seq != a.seq && b.span == a.span) ∧
    (a.kind = .stsp → w.qwait = [] → (∀ x ∈ s.wgs, ∀ g ∈ x.gangs, ∀ l ∈ g.lanes, (counterWait l).isNone = true) →
      ∃ t v, exec (.registerFill wg gang n how ev) s = .next t ∧ findWg t wg = some v ∧ findPend (gangOf v gang) n = none ∧
        ∀ x, get0 v.scratch x = if a.pa - 2 ^ 60 ≤ x ∧ x < a.pa - 2 ^ 60 + a.data.length then tget 0#8 a.data (x - (a.pa - 2 ^ 60)) else get0 w.scratch x)

/-- R102, R249, R250, R252, R114: LDC, ATOM and RED of each lane become part of one access an element, with the lane's operand; LDC and ATOM
through a C hank send their requests home, and ATOM counts in the unacknowledged counter. ATOM and RED through a C hank are effects as their
issue ends. -/
def Obligations.Atomics : Prop :=
  ∀ (g : Guard) (f : FmtM) (h : Here) (s : State),
    (let k := hankIn h g f
    let n := widthOf f
    let key (l : Nat) : Nat := keyAt s h.w.ctx (addr12 k f (laneAt s h l))
    let common := k.kind == 3#2
    let part (kind : AKind) (new : List Access) (m : LaneMask) : Prop :=
      (∀ l, l < 32 → m.getLsbD l = true → ∃ a ∈ new, a.kind = kind ∧ a.lanes.getLsbD l = true ∧ a.pa = key l ∧ a.bytes = n ∧
        a.op = f.imm.extractLsb' 20 4 ∧ a.relForm = f.imm.getLsbD 19 ∧ a.pc = h.iss.at_ ∧ a.scope = f.imm.extractLsb' 15 3 ∧ a.acq = (common && f.imm.getLsbD 18) ∧
        a.rel = (common && f.imm.getLsbD 19) ∧ a.place = placeOf k (key l) ∧
        ∃ p ∈ a.parts, p.lane = l ∧ p.x = BitVec.ofNat 64 (vregs (laneAt s h l) f.d.toNat (regsOf f) % 2 ^ (8 * n))) ∧
      (∀ a ∈ new, a.kind = kind → a.lanes &&& ~~~m = 0#32) ∧
      ((new.filter fun a => a.kind == kind).map fun a => a.pa).Nodup ∧
      (∀ a ∈ new, a.kind = kind ∨ (a.kind = .fence ∧ common = false))
    let requests (new : List Access) : List Msg := new.map fun a => .memReq h.iss.wg h.iss.gang a.seq
    let k' := h.withOps (if common then [.effect s.seq (mainLanes h g)] else [])
    (Ready (.ldc g f) g h s → (∀ a ∈ h.g.pend, a.seq < s.seq) → (∀ l, l < 32 → (trueMask h g).getLsbD l = true → AccessOk s h.w.ctx k .common (addr12 k f (laneAt s h l)) n) →
      ∃ t new, exec (.ldc g f) s = .next t ∧ MarkLanes h s t (trueMask h g) f.d.toNat (regsOf f) ∧ QuadsKept h s t ∧
        GangHas h s t { gangAt s h with pend := (gangAt s h).pend ++ new } ∧ IssueOn h s t ∧ part .ldc new (trueMask h g) ∧
        Elsewhere h { s with seq := s.seq + new.length, msgs := s.msgs ++ requests new } t) ∧
    (Ready (.atom g f) g h s → mainLanes h g ≠ 0#32 → h.g.unacked ≤ 991 → (∀ a ∈ h.g.pend, a.seq < s.seq) →
      (∀ l, l < 32 → (mainLanes h g).getLsbD l = true → AccessOk s h.w.ctx k .atomic (addr12 k f (laneAt s h l)) n) →
      ∃ t new, exec (.atom g f) s = .next t ∧ MarkLanes h s t (mainLanes h g) f.d.toNat (regsOf f) ∧ QuadsKept h s t ∧
        (let count := (gangAt s h).unacked + (new.filter fun a => a.kind == .atom).length
        GangHas k' s t { gangAt s h with pend := (gangAt s h).pend ++ new, unacked := count }) ∧ IssueOn k' s t ∧ part .atom new (mainLanes h g) ∧
        Elsewhere k' { s with seq := s.seq + new.length, msgs := s.msgs ++ if common then requests new else [] } t) ∧
    (Ready (.red g f) g h s → mainLanes h g ≠ 0#32 → bufferUse h.g + (bitsOf (mainLanes h g)).length ≤ 64 →
      (∀ a ∈ h.g.pend, a.kind = .red → a.relForm = false) →
      (∀ l, l < 32 → (mainLanes h g).getLsbD l = true → AccessOk s h.w.ctx k .atomic (addr12 k f (laneAt s h l)) n) →
      ∃ t new, exec (.red g f) s = .next t ∧ PlainLanes h s t ∧ QuadsKept h s t ∧
        GangHas k' s t { gangAt s h with pend := (gangAt s h).pend ++ new } ∧ IssueOn k' s t ∧ part .red new (mainLanes h g) ∧
        Elsewhere k' { s with seq := s.seq + new.length } t))

/-- R103, R251, R253: ATOMCAS leaves one pending compare-and-swap a lane, with both operands; WAITV blocks each lane in a value wait, and its
request leaves for the home. -/
def Obligations.CompareAndWait : Prop :=
  ∀ (g : Guard) (f : FmtM) (h : Here) (s : State),
    (let k := hankIn h g f
    let n := widthOf f
    let r := regsOf f
    let key (l : Nat) : Nat := keyAt s h.w.ctx (addr12 k f (laneAt s h l))
    let m := mainLanes h g
    let k' := h.withOps (if k.kind = 3#2 then [.effect s.seq m] else [])
    (Ready (.atomcas g f) g h s → m ≠ 0#32 → h.g.unacked ≤ 991 →
      (∀ l, l < 32 → m.getLsbD l = true → AccessOk s h.w.ctx k .atomic (addr12 k f (laneAt s h l)) n) →
      ∃ t new, exec (.atomcas g f) s = .next t ∧ MarkLanes h s t m f.d.toNat r ∧ QuadsKept h s t ∧
        GangHas k' s t { gangAt s h with pend := (gangAt s h).pend ++ new, unacked := (gangAt s h).unacked + (bitsOf m).length } ∧
        IssueOn k' s t ∧ Elsewhere k' { s with seq := s.seq + new.length, msgs := t.msgs } t ∧
        (new.filter fun a => a.kind == .cas).length = (bitsOf m).length ∧
        (∀ l, l < 32 → m.getLsbD l = true → ∃ a ∈ new, a.kind = .cas ∧ a.lanes = 1#32 <<< l ∧ a.pa = key l ∧ a.bytes = n ∧
          a.dst = .vec f.d.toNat r ∧ ∃ p, a.parts = [p] ∧ p.lane = l ∧ p.x = BitVec.ofNat 64 (vregs (laneAt s h l) f.d.toNat r) ∧
            p.y = BitVec.ofNat 64 (vregs (laneAt s h l) (f.d.toNat + r) r))) ∧
    (Ready (.waitv g f) g h s → (∀ a ∈ h.g.pend, a.seq < s.seq) → (∀ l, l < 32 → (trueMask h g).getLsbD l = true → AccessOk s h.w.ctx k .common (addr12 k f (laneAt s h l)) n) →
      ∃ t, exec (.waitv g f) s = .next t ∧ QuadsKept h s t ∧ IssueLeft h s t (h.iss.lanes &&& ~~~trueMask h g) ∧
        HeldLanes h s t (guardOn g) (.blocked .value) ∧
        Joined h s { s with msgs := t.msgs } t ((bitsOf (trueMask h g)).map fun l =>
          { seq := 0, kind := .waitv, lanes := 1#32 <<< l, va := BitVec.ofNat 64 (addr12 k f (laneAt s h l)), pa := key l, bytes := n,
            op := f.imm.extractLsb' 20 4, acq := true, scope := f.imm.extractLsb' 15 3,
            parts := [{ lane := l, x := BitVec.ofNat 64 (vregs (laneAt s h l) f.d.toNat r) }], place := placeOf k (key l), ticket := k.ticket,
            plane := planeOf s (key l) }) ∧
        t.msgs = s.msgs ++ (List.range (bitsOf (trueMask h g)).length).map fun i => .memReq h.iss.wg h.iss.gang (s.seq + i)))

/-- R109, R254 to R256: FENCE joins the pending accesses of its lanes where an earlier one of them has not performed, and otherwise leaves nothing
to wait for; it takes no access away. CLNR sends the dirty bytes of its lines, or in the whole form of its hank's range, home from the L1 of the core
and to memory from the home slices; INVR drops the copies of them there, and memory keeps what it has. Neither changes anything else. -/
def Obligations.FencesAndCleans : Prop :=
  (∀ (g : Guard) (f : FmtT) (h : Here) (s : State), Ready (.fence g f) g h s → trueMask h g ≠ 0#32 →
    ∃ t, exec (.fence g f) s = .next t ∧ PlainLanes h s t ∧ QuadsKept h s t ∧ IssueOn h s t ∧ Elsewhere h { s with seq := s.seq + 1 } t ∧
      GangHas h s t { gangAt s h with pend := (gangAt t h).pend } ∧
      (∀ a ∈ (gangAt s h).pend, a.kind ≠ .fence → a ∈ (gangAt t h).pend) ∧
      (∀ a ∈ (gangAt t h).pend, a ∈ (gangAt s h).pend ∨ a.kind = .fence) ∧
      ((∃ a ∈ (gangAt s h).pend, a.seq < s.seq ∧ sharesLane a { seq := 0, kind := .fence, lanes := trueMask h g } = true ∧
          (isAccess a.kind = true ∨ a.kind = .clean)) →
        ∃ a ∈ (gangAt t h).pend, a.kind = .fence ∧ a.seq = s.seq ∧ a.lanes = trueMask h g ∧ a.scope = f.mod.extractLsb' 2 3 ∧
          (match (f.mod.extractLsb' 0 2).toNat with
            | 0 => a.acq = true ∧ a.rel = false ∧ a.sc = false
            | 1 => a.acq = false ∧ a.rel = true ∧ a.sc = false
            | 2 => a.acq = true ∧ a.rel = true ∧ a.sc = false
            | _ => a.sc = true))) ∧
  (∀ (g : Guard) (f : FmtM) (h : Here) (s : State) (xs : List (Nat × Nat)),
    (s.l1.map fun c => (c.owner, c.pa)).Nodup → (s.slices.map fun c => c.pa).Nodup →
    (∀ c ∈ s.l1, c.pa % 64 = 0 ∧ c.data.length = 64) → (∀ c ∈ s.slices, c.pa % 64 = 0 ∧ c.data.length = 64) →
    (∀ a ∈ h.g.pend, isEntry a.kind = false) →
    (∀ x ∈ xs, x.1 % 256 = 0 ∧ x.2 % 256 = 0 ∧ x.1 + x.2 ≤ dramTop ∧ meetsImages s x.1 x.2 = false) →
    (let k := hankIn h g f
    let line (n : Nat) : Nat := addrOf k (offOf f (laneAt s h n)) (f.imm.signExtend 64) / 256 * 256
    let named := if f.sx then mainLanes h g ≠ 0#32 ∧ k.pending = false ∧ k.revoked = false ∧ (k.kind = 1#2 ∨ k.kind = 2#2) ∧
          extentsOf s h.w.ctx (k.base.toNat * 256) ((k.len.toNat + 1) * 256) = .ok xs ∧ h.g.unacked + s.l1.length + s.slices.length ≤ 1023
      else trueMask h g ≠ 0#32 ∧ (∀ n, n < 32 → (trueMask h g).getLsbD n = true → AccessOk s h.w.ctx k .load (line n) 256) ∧
          xs = (bitsOf (trueMask h g)).map (fun n => (keyAt s h.w.ctx (line n), 256)) ∧ h.g.unacked ≤ 991
    let done (t : State) : Prop := PlainLanes h s t ∧ QuadsKept h s t ∧ IssueOn h s t ∧
      GangHas h s t { gangAt s h with pend := (gangAt t h).pend, unacked := (gangAt t h).unacked } ∧
      Elsewhere h { s with l1 := t.l1, slices := t.slices, mem := t.mem, rrAcc := t.rrAcc, repLines := t.repLines, msgs := t.msgs,
                           seq := s.seq + ((gangAt t h).unacked - (gangAt s h).unacked) } t
    named →
      (Ready (.clnr g f) g h s → ∃ t, exec (.clnr g f) s = .next t ∧ done t ∧ Cleaned h.core s t xs) ∧
      (Ready (.invr g f) g h s → ∃ t, exec (.invr g f) s = .next t ∧ done t ∧ Invalidated h.core s t xs)))

/-! Hanks and the ownership tables. -/

/-- R76, R77, R259, R260: HBORX, HBORS and HBORC of a range that may be borrowed draw a ticket and send the request's first run; the hank is
pending, sC empty, and the lanes of the .wait form block. A range that may not be borrowed gives status 4 at once, and a context with no ticket left
status 2. An unaligned address, a hank in use and a bad length trap before that, in the order that log entry 32 deduces. -/
def Obligations.Borrows : Prop :=
  ∀ (g : Guard) (f : FmtT) (h : Here) (s : State),
    ∀ p ∈ ([(.hborx, 1#2), (.hbors, 2#2), (.hborc, 3#2)] : List ((Guard → FmtT → Instr) × BitVec 2)), Ready (p.1 g f) g h s →
    mainLanes h g ≠ 0#32 →
    (let va := (srcS h f.a.toNat).toNat
    let grains := (srcS h f.b.toNat).toNat
    let old := getHank h.w h.iss.gang f.d.toNat
    let wait := f.mod.getLsbD 0
    (∀ xs tk s1, va % 256 = 0 → old.kind = 0#2 → old.pending = false → 1 ≤ grains → grains ≤ 2 ^ 32 → va + 256 * grains ≤ 2 ^ 52 →
        extentsOf s h.w.ctx va (256 * grains) = .ok xs → unborrowable s p.2 va (256 * grains) [] = false →
        unborrowable s p.2 va (256 * grains) xs = false → takeTicket s h.w.ctx (some h.core) = some (tk, s1) →
        findWg s1 h.iss.wg = some h.w → f.d.toNat < 24 →
      ∃ t r, exec (p.1 g f) s = .next t ∧ t.reqs = s1.reqs ++ [r] ∧ t.msgs = s1.msgs ++ [.ownReq r.id] ∧
        r = { id := s1.seq, taker := .gang h.iss.wg h.iss.gang h.iss.lanes (dstQuads h) f.d.toNat f.c.toNat, ctx := h.w.ctx, kind := p.2,
              vbase := va / 256, grains := grains, runs := runsOf xs, ticket := tk, wait := wait, exts := xs } ∧
        getHank (wgAt t h) h.iss.gang f.d.toNat = { old with pending := true } ∧
        (∀ gang n, gang < 16 → n < 24 → hankKey gang n ≠ hankKey h.iss.gang f.d.toNat → getHank (wgAt t h) gang n = getHank h.w gang n) ∧
        MarkQuads h s t f.c.toNat 1 ∧ GangHas h s t { gangAt s h with h := (gangAt t h).h, pend := (gangAt t h).pend } ∧
        t = { s1 with wgs := t.wgs, issues := t.issues, cont := t.cont, seq := t.seq, reqs := t.reqs, msgs := t.msgs } ∧
        (if wait then IssueLeft h s t 0#32 ∧ HeldLanes h s t (fun _ => true) (.blocked (.borrow r.id))
        else IssueOn h s t ∧ PlainLanes h s t)) ∧
    (∀ xs, va % 256 = 0 → old.kind = 0#2 → old.pending = false → 1 ≤ grains → grains ≤ 2 ^ 32 → va + 256 * grains ≤ 2 ^ 52 → f.c.toNat < 64 →
        extentsOf s h.w.ctx va (256 * grains) = .ok xs →
      (unborrowable s p.2 va (256 * grains) [] = true ∨ unborrowable s p.2 va (256 * grains) xs = true →
        ∃ t, exec (p.1 g f) s = .next t ∧ ScalDone g h s t f.c.toNat 4#64) ∧
      (unborrowable s p.2 va (256 * grains) [] = false → unborrowable s p.2 va (256 * grains) xs = false → takeTicket s h.w.ctx (some h.core) = none →
        ∃ t, exec (p.1 g f) s = .next t ∧ ScalDone g h s t f.c.toNat 2#64)) ∧
    (∀ trap, (if va % 256 ≠ 0 then some Trap.alignment else if old.kind ≠ 0#2 ∨ old.pending = true then some .hankKind
        else if grains = 0 ∨ 2 ^ 32 < grains ∨ 2 ^ 52 < va + 256 * grains then some .hankRange else none) = some trap →
      ∃ t, exec (p.1 g f) s = .next t ∧ ∀ n, n < 32 → (mainLanes h g).getLsbD n = true →
        handled { h.w with trapvec := h.iss.tvec } trap (laneAt s h n) = true →
        (laneAt t h n).fcode = trapCode trap ∧ (laneAt t h n).tinfo = srcS h f.a.toNat ∧ (laneAt t h n).tpc = h.iss.at_ ∧
          (laneAt t h n).hact = true))

/-- R80, R119, R261: HREB, HSPLIT, HMERGE and HGIVE on hanks they accept, the return of a re-borrowed hank, whose loads still out are delivered
and not installed, and HQRY. -/
def Obligations.HankOperations : Prop :=
  ∀ (g : Guard) (f : FmtT) (h : Here) (s : State), mainLanes h g ≠ 0#32 → h.iss.gang < 16 →
    (let gang := h.iss.gang
    let k := getHank h.w gang f.a.toNat
    let x := (srcS h f.b.toNat).toNat
    let free (tg n : Nat) : Prop := n < 24 ∧ (getHank h.w tg n).kind = 0#2 ∧ (getHank h.w tg n).pending = false
    (Ready (.hreb g f) g h s → f.a.toNat < 24 → HankReady k → k.kind = 1#2 → k.lent = false → k.rebs ≠ 15#4 → x < 16 → x < h.w.ngangs →
        gangExited h.w x = false → free x f.c.toNat → ∃ t, exec (.hreb g f) s = .next t ∧
      (let up : Hank := { k with rebs := k.rebs + 1#4 }
      let a := BitVec.ofNat 5 f.a.toNat
      let child : Hank := { base := k.base, len := k.len, kind := 2#2, lent := true, pgang := BitVec.ofNat 4 gang, phank := a, ticket := k.ticket }
      HankDone h s t [(hankKey gang f.a.toNat, up), (hankKey x f.c.toNat, child)])) ∧
    (Ready (.hsplit g f) g h s → f.a.toNat < 24 → HankReady k → k.kind ≠ 3#2 → k.lent = false → k.rebs = 0#4 → 1 ≤ x → x ≤ k.len.toNat →
        free gang f.d.toNat → ∃ t, exec (.hsplit g f) s = .next t ∧
      HankDone h s t [(hankKey gang f.a.toNat, { k with len := BitVec.ofNat 32 (x - 1) }),
        (hankKey gang f.d.toNat, { k with base := k.base + BitVec.ofNat 44 x, len := k.len - BitVec.ofNat 32 x })]) ∧
    (let b := getHank h.w gang f.b.toNat
    Ready (.hmerge g f) g h s → f.a.toNat < 24 → f.b.toNat < 24 → HankReady k → HankReady b → k.kind = b.kind → k.kind ≠ 3#2 →
        k.ticket = b.ticket → k.rebs = 0#4 → b.rebs = 0#4 → k.lent = false → b.lent = false →
      (k.base.toNat + k.len.toNat + 1 = b.base.toNat → ∃ t, exec (.hmerge g f) s = .next t ∧
        HankDone h s t [(hankKey gang f.a.toNat, { k with len := k.len + b.len + 1#32 }), (hankKey gang f.b.toNat, {})]) ∧
      (b.base.toNat + b.len.toNat + 1 = k.base.toNat → ∃ t, exec (.hmerge g f) s = .next t ∧
        HankDone h s t [(hankKey gang f.b.toNat, { b with len := k.len + b.len + 1#32 }), (hankKey gang f.a.toNat, {})])) ∧
    (Ready (.hgive g f) g h s → f.a.toNat < 24 → HankReady k → k.rebs = 0#4 → x < 16 → x < h.w.ngangs → gangExited h.w x = false →
        free x f.c.toNat → ∃ t, exec (.hgive g f) s = .next t ∧
      HankDone h s t [(hankKey gang f.a.toNat, {}), (hankKey x f.c.toNat, k)]) ∧
    (Ready (.hret g f) g h s → f.a.toNat < 24 → k.pending = false → k.kind ≠ 0#2 → k.rebs = 0#4 → k.eng = 0#6 → k.lent = true →
        hankKey k.pgang.toNat k.phank.toNat ≠ hankKey gang f.a.toNat → k.phank.toNat < 24 → ∃ t, exec (.hret g f) s = .next t ∧
      (let parent := getHank h.w k.pgang.toNat k.phank.toNat
      HankDone h s t [(hankKey gang f.a.toNat, {}), (hankKey k.pgang.toNat k.phank.toNat, { parent with rebs := parent.rebs - 1#4 })]
        fun x => { x with pend := x.pend.map fun a =>
          if a.kind == .load && a.ticket == k.ticket && rangesMeet a.va.toNat a.bytes (k.base.toNat * 256) ((k.len.toNat + 1) * 256)
          then { a with noInstall := true } else a })) ∧
    (Ready (.hqry g f) g h s → f.d.toNat < 63 → ∃ t v, exec (.hqry g f) s = .next t ∧ PlainLanes h s t ∧ GangOn h s t 0#5 0#4 ∧ IssueOn h s t ∧
      Elsewhere h s t ∧
      ScalRegs h s t (fun r => if r = f.d.toNat then some (BitVec.ofNat 64 v) else if r = f.d.toNat + 1 then some (BitVec.ofNat 64 (v / 2 ^ 64)) else none) ∧
      (let q := if k.pending then {} else k
      v < 2 ^ 128 ∧ v / 2 ^ 84 = q.base.toNat ∧ v / 2 ^ 52 % 2 ^ 32 = q.len.toNat ∧ v / 2 ^ 50 % 4 = q.kind.toNat ∧
        (v.testBit 49 = (q.rebs != 0#4)) ∧ (v.testBit 48 = (q.eng != 0#6)) ∧ v.testBit 47 = q.revoked ∧ v.testBit 46 = q.lent ∧
        v / 2 ^ 42 % 16 = q.rebs.toNat ∧ v / 2 ^ 36 % 64 = q.eng.toNat ∧ v / 2 ^ 32 % 16 = q.pgang.toNat ∧ v / 2 ^ 27 % 32 = q.phank.toNat ∧
        v % 2 ^ 16 = q.ticket.toNat)))

/-- R72, R80, R82: the return of a hank that is a whole grant sends one message a run once no access of the gang is pending; the dirty sectors of an X
hank's range reach their homes, and the lanes of its return block until the homes acknowledge. A hank operation on a hank with engine commands in
flight blocks its lanes, and HANK_OP_DEFERRED ends the wait once none is left and the operations that it must follow (log entry 128) have had their
effect: the operation takes effect, or traps the lanes it acts for. -/
def Obligations.HankReturns : Prop :=
  (∀ (g : Guard) (f : FmtT) (h : Here) (s : State), mainLanes h g ≠ 0#32 →
    (let k := getHank h.w h.iss.gang f.a.toNat
    (∀ gr, Ready (.hret g f) g h s → k.pending = false → k.kind ≠ 0#2 → k.rebs = 0#4 → k.eng = 0#6 → k.lent = false →
        wholeGrant s h.w k = some gr → (∀ run ∈ gr.runs, (entryOf s gr.ctx gr.kind run).isSome = true) → gr.runs ≠ [] → s.rets = [] →
        (∀ x ∈ h.w.gangs, x.pend = []) → gr.kind = k.kind → h.iss.gang < h.w.gangs.length → f.a.toNat < 24 →
      ∃ t notes, exec (.hret g f) s = .next t ∧ getHank (wgAt t h) h.iss.gang f.a.toNat = {} ∧
        (∀ m ∈ notes, ∃ page sq die cluster, m = Msg.evictNotice page sq die cluster) ∧ (k.kind ≠ 1#2 → notes = []) ∧
        (let xs := gr.runs.map fun (run : Run) => (run.pbase * 256, run.grains * 256)
        k.kind = 1#2 → (s.l1.map fun c => (c.owner, c.pa)).Nodup → (s.slices.map fun c => c.pa).Nodup →
          (∀ c ∈ s.l1, c.pa % 64 = 0 ∧ c.data.length = 64) → (∀ c ∈ s.slices, c.pa % 64 = 0 ∧ c.data.length = 64 ∧ hasSlice c.pa = true) →
          (∀ x ∈ xs, meetsImages s x.1 x.2 = false ∧ ∀ i, i < x.2 → poolDead s (x.1 + i) = false) → SentHome h.core s t xs) ∧
        t.msgs = s.msgs ++ notes ++ gr.runs.map (fun run => .ret h.w.ctx k.ticket.toNat k.kind run h.iss.wg h.iss.gang) ∧ t.own = s.own ∧
        (if k.kind = 1#2 then HeldLanes h s t (fun _ => true) (.blocked .hankOp) ∧ IssueLeft h s t 0#32
        else PlainLanes h s t ∧ IssueOn h s t)) ∧
    (∀ p ∈ ([.hreb, .hsplit, .hmerge, .hret, .hgive] : List (Guard → FmtT → Instr)), Ready (p g f) g h s → k.eng ≠ 0#6 →
      hankCheck h.w h.iss.gang (p g f) (hankOperand h (p g f)) = none →
      ∃ t, exec (p g f) s = .next t ∧ HeldLanes h s t (fun _ => true) (.blocked .hankOp) ∧ IssueLeft h s t 0#32 ∧
        t.deferred = s.deferred ++ [⟨h.iss.wg, h.iss.gang, h.iss.quad, h.iss.lanes, mainLanes h g, p g f, hankOperand h (p g f), f.a.toNat, 0#64⟩] ∧
        Elsewhere h { s with deferred := t.deferred } t))) ∧
  ∀ (s : State) (n : Nat) (d : Deferred) (w : Wg) (core : Nat), s.deferred[n]? = some d → findWg s d.wg = some w → coreOf w = some core →
    hankBusy w d.gang d.word = false → (∀ x ∈ s.deferred.take n, deferredBefore x d = false) → d.lanes &&& d.tru = d.tru →
    (let after (t : State) (k : Nat) : Lane := laneOf (gangOf ((findWg t d.wg).getD w) d.gang) k
    let goes (t : State) : Prop := ∀ k, k < 32 → d.lanes.getLsbD k = true → isBlocked (after t k).st = false
    let trapped (t : State) (trap : Trap) (info : W64) : Prop := ∀ k, k < 32 → d.tru.getLsbD k = true →
      handled w trap (laneOf (gangOf w d.gang) k) = true → (after t k).fcode = trapCode trap ∧ (after t k).hact = true ∧
        (after t k).tinfo = if trap = .borrowChildren then wordOf d.word else info
    ((∀ g f, d.word ≠ .spawn g f) → ∃ t, exec (.hankOpDeferred n) s = .next t ∧ t.deferred = dropNth s.deferred n ∧
      (hankCheck w d.gang d.word d.x = none → (∀ g f, d.word ≠ .hret g f) → goes t) ∧
      (∀ trap info, hankCheck w d.gang d.word d.x = some (trap, info) → trapped t trap info)) ∧
    (∀ g f, d.word = .spawn g f → coreAccess w (lentRanges s w d.gang f) = false →
      ∃ t, exec (.hankOpDeferred n) s = .next t ∧ t.deferred = dropNth s.deferred n ∧
        (spawnCheck (wordOf d.word) f w d.gang d.x d.y s = none → goes t ∧ ∀ slot, slot < 16 → childOf w slot = .free →
          (∀ j, j < slot → childOf w j ≠ .free) → ∃ r, t.childReqs = s.childReqs ++ [r] ∧ r.parent = d.wg ∧ r.slot = slot ∧
            r.args = gets0 w.scratch d.y.toNat 256) ∧
        (∀ trap info, spawnCheck (wordOf d.word) f w d.gang d.x d.y s = some (trap, info) → trapped t trap info)))

/-- R74 to R82, R90, R91, R70: the messages of the ownership tables. A request with nothing in its way is granted; one that meets its own
workgroup's entry is refused SELF, another in fail mode CONFLICT; one that finds no free entry, or no place among the waiters, FULL; one in wait mode
waits at the home, and is granted when what it waits for is freed. The last grant makes the borrow; after a refusal the runs held go home before the
request ends; an X return shows XRET until its write-back is acknowledged and the entry is free; a collapse ends with its last acknowledgement. A
ticket is the lowest free one above the last, over 0; a core draws into its supply, whose oldest a request takes. -/
def Obligations.OwnershipMessages : Prop :=
  ∀ (n : Nat) (s : State),
    (∀ id r run, s.msgs[n]? = some (.ownReq id) → findReq s id = some r → r.runs[r.done]? = some run → run.home < 8 →
      ((∀ e ∈ s.own, runsMeet (entryRun e) run = true → entryConflicts e r.kind = false) →
          (∀ x ∈ s.waiters, runsMeet (waiterRun x) run = false) →
          (s.own.filter fun e => e.home == run.home).length < tableSize run.home → runReplicas s run = [] →
        ∃ t, exec (.ownershipRequest n) s = .next t ∧ t.msgs = dropNth s.msgs n ++ [.runGrant id] ∧ t.mem = s.mem ∧ t.wgs = s.wgs ∧
          ∃ e ∈ t.own, entryRun e = run ∧ e.kind = r.kind ∧ e.ctx = r.ctx) ∧
      ((∃ e ∈ s.own, runsMeet (entryRun e) run = true ∧ entryConflicts e r.kind = true ∧ ownEntry s r e = true) →
        ∃ t, exec (.ownershipRequest n) s = .next t ∧ t.msgs = dropNth s.msgs n ++ [.refusal id 3] ∧ t.own = s.own) ∧
      ((∃ e ∈ s.own, runsMeet (entryRun e) run = true ∧ entryConflicts e r.kind = true) → r.wait = false →
          (∀ e ∈ s.own, runsMeet (entryRun e) run = true → ownEntry s r e = false) →
        ∃ t, exec (.ownershipRequest n) s = .next t ∧ t.msgs = dropNth s.msgs n ++ [.refusal id 1] ∧ t.own = s.own) ∧
      ((∀ e ∈ s.own, runsMeet (entryRun e) run = true → entryConflicts e r.kind = false) →
          (∀ x ∈ s.waiters, runsMeet (waiterRun x) run = false) →
          (r.kind = 1#2 ∨ ∀ e ∈ s.own, ¬(e.ctx = r.ctx ∧ e.kind = r.kind ∧ entryRun e = run)) →
          tableSize run.home ≤ (s.own.filter fun e => e.home == run.home).length →
        ∃ t, exec (.ownershipRequest n) s = .next t ∧ t.msgs = dropNth s.msgs n ++ [.refusal id 2] ∧ t.own = s.own) ∧
      ((∃ e ∈ s.own, runsMeet (entryRun e) run = true ∧ entryConflicts e r.kind = true) → r.wait = true →
          (∀ e ∈ s.own, runsMeet (entryRun e) run = true → ownEntry s r e = false) →
        (4096 ≤ (s.waiters.filter fun x => x.home == run.home).length →
          ∃ t, exec (.ownershipRequest n) s = .next t ∧ t.msgs = dropNth s.msgs n ++ [.refusal id 2] ∧ t.own = s.own) ∧
        ((s.waiters.filter fun x => x.home == run.home).length < 4096 →
          ∃ t x, exec (.ownershipRequest n) s = .next t ∧ t.msgs = dropNth s.msgs n ∧ t.waiters = s.waiters ++ [x] ∧ waiterRun x = run ∧ x.req = r.id ∧
            x.kind = r.kind ∧ x.ctx = r.ctx ∧ t.own.map entryRun = s.own.map entryRun ∧ (findReq t r.id).map (fun q => q.queued) = some true))) ∧
    (∀ id r, s.msgs[n]? = some (.runGrant id) → findReq s id = some r → (ctxOf s r.ctx).killed = true →
      ∃ t, exec (.runGrant n) s = .next t ∧ findReq t id = none ∧ t.grants = s.grants) ∧
    (∀ id r, s.msgs[n]? = some (.runGrant id) → findReq s id = some r → (ctxOf s r.ctx).killed = false →
      (r.done + 1 < r.runs.length → ∃ t, exec (.runGrant n) s = .next t ∧ t.msgs = dropNth s.msgs n ++ [.ownReq id] ∧ t.grants = s.grants) ∧
      (r.done + 1 = r.runs.length → ∃ t, exec (.runGrant n) s = .next t ∧ findReq t id = none ∧
        ⟨r.ctx, r.ticket, r.kind, r.taker, r.vbase, r.grains, r.runs, r.revoked, r.exts, [], []⟩ ∈ t.grants)) ∧
    (∀ id r status, s.msgs[n]? = some (.refusal id status) → findReq s id = some r →
      (r.held = [] → ∃ t, exec (.ownershipRefusal n) s = .next t ∧ findReq t id = none ∧ t.grants = s.grants) ∧
      (r.held ≠ [] → ∃ t q, exec (.ownershipRefusal n) s = .next t ∧ t.msgs = dropNth s.msgs n ++ r.held.map (Msg.retRun id) ∧
        t.grants = s.grants ∧ findReq t id = some q ∧ q.failing = some status)) ∧
    (∀ id run r status, s.msgs[n]? = some (.retRun id run) → findReq s id = some r → r.failing = some status →
      ∃ t, exec (.ownershipReturn n) s = .next t ∧ (r.held.erase run = [] → findReq t id = none)) ∧
    (∀ ctx ticket run wg gang e, s.msgs[n]? = some (.ret ctx ticket 1#2 run wg gang) → entryOf s ctx 1#2 run = some e →
      ∃ t, exec (.ownershipReturn n) s = .next t ∧ t.msgs = dropNth s.msgs n ++ [.wbAck ctx ticket run wg gang] ∧
        { e with xret := true } ∈ t.own ∧ t.mem = s.mem) ∧
    (∀ ctx ticket kind run wg gang, s.msgs[n]? = some (.ret ctx ticket kind run wg gang) → ∃ t, exec (.ownershipReturn n) s = .next t) ∧
    (∀ ctx ticket run wg gang, s.msgs[n]? = some (.wbAck ctx ticket run wg gang) → (∀ r ∈ s.rets, ∀ p ∈ r.planes, isUp s p.2 = true) →
      (s.waiters = [] → ∃ t, exec (.writebackAck n) s = .next t ∧ ∀ e, entryOf s ctx 1#2 run = some e → e.xret = true →
        t.own.length + 1 = s.own.length) ∧
      ∀ e x r, entryOf s ctx 1#2 run = some e → e.xret = true → s.waiters = [x] → x.home = e.home → findReq s x.req = some r →
          (∀ o ∈ s.own.erase e, runsMeet (entryRun o) (waiterRun x) = false) → s.own.length ≤ tableSize x.home → runReplicas s (waiterRun x) = [] →
        ∃ t, exec (.writebackAck n) s = .next t ∧ t.waiters = [] ∧ Msg.runGrant r.id ∈ t.msgs ∧
          ∃ o ∈ t.own, entryRun o = waiterRun x ∧ o.kind = r.kind ∧ o.ctx = r.ctx) ∧
    (∀ page sq die cluster run, s.msgs[n]? = some (.collapseReq page sq die cluster run) →
      ∃ t, exec (.collapseRequest n) s = .next t ∧
        t = { s with msgs := dropNth s.msgs n ++ [.collapseAck page sq die cluster run]
                     repLines := s.repLines.filter fun y => !(y.1 == 24 * die + cluster && y.2 / 65536 == page) }) ∧
    (∀ page sq die cluster run, s.msgs[n]? = some (.collapseAck page sq die cluster run) →
      (let more := (dropNth s.msgs n).any fun m => (match m with
        | .collapseReq _ _ _ _ r => r == run
        | .collapseAck _ _ _ _ r => r == run
        | _ => false)
      (more = true → ∃ t, exec (.collapseAck n) s = .next t ∧ t = { s with msgs := dropNth s.msgs n }) ∧
      (more = false → ∃ t, exec (.collapseAck n) s = .next t ∧ runReplicas t run = []))) ∧
    (∀ page sq die cluster, s.msgs[n]? = some (.evictNotice page sq die cluster) →
      ∃ t, exec (.replicaEvictionNotice n) s = .next t ∧
        ((∃ p ∈ s.reps, p.page = page ∧ p.seq = sq) → ∀ p ∈ t.reps, p.page = page → ∀ c ∈ p.set, (c.1, c.2.1) ≠ (die, cluster)) ∧
        ((∀ p ∈ s.reps, p.page = page → p.seq ≠ sq) → t.reps = s.reps)) ∧
    (∀ wg ctx ticket w, s.msgs[n]? = some (.revoke wg ctx ticket) → findWg s wg = some w → w.st ≠ .saved → w.ctx = ctx →
      ∃ t v, exec (.revocationNotice n) s = .next t ∧ findWg t wg = some v ∧ ∀ gang k, k < 24 →
        (getHank v gang k).kind ≠ 0#2 → (getHank v gang k).ticket.toNat = ticket → (getHank v gang k).revoked = true) ∧
    (∀ core ctx v, (∃ w ∈ s.wgs, w.ctx = ctx ∧ coreOf w = some core) → (∀ x ∈ (ctxOf s ctx).supplies, x.1 = core → x.2.length < 16) →
      0 < v → v < 65536 → ticketLive s ctx v = false → ∃ t u, exec (.ticketSupplyDraw core ctx) s = .next t ∧ t.wgs = s.wgs ∧
        0 < u ∧ u < 65536 ∧ ticketLive s ctx u = false ∧ (ctxOf t ctx).lastTicket = u ∧
        ((∀ i, i < 8192 → poolDead s (ctxTmap s ctx + i) = false ∧ meetsImages s (ctxTmap s ctx + i) 1 = false) →
          (∀ c ∈ s.slices, c.data.length = 64) → ticketLive t ctx u = true) ∧
        (let last := (ctxOf s ctx).lastTicket
        let mine (s : State) : List Nat := (((ctxOf s ctx).supplies.find? fun x => x.1 == core).map fun x => x.2).getD []
        (∀ i, 0 < i → i < 65536 → (if last < u then last < i ∧ i < u else last < i ∨ i < u) → ticketLive s ctx i = true) ∧
          mine t = mine s ++ [u])) ∧
    (∀ core ctx v vs, ((ctxOf s ctx).supplies.find? fun x => x.1 == core) = some (core, v :: vs) →
      ∃ t, takeTicket s ctx (some core) = some (v, t) ∧ ((ctxOf t ctx).supplies.find? fun x => x.1 == core) = some (core, vs)) ∧
    (∀ home ctx, home ∈ (ctxOf s ctx).walks → ∃ t, exec (.killWalkEnd home ctx) s = .next t ∧
      ∀ e ∈ t.own, e.home = home → e.ctx = ctx → e.xret = true)

/-- R73, R78, R79: every step keeps the tables exclusive, which they are after reset: no entry overlaps an X entry of another holder. -/
def Obligations.TablesStayExclusive : Prop :=
  Exclusive State.reset ∧ ∀ (s t : State), Exclusive s → step s = .next t → Exclusive t

/-! Counters, barriers, queues and the register quota. -/

/-- R262, R263, R265 to R267: ACSET writes a fresh counter or barrier with its phase toggled, and traps on a word of KIND 11; ACADD adds to COUNT,
which saturates, and sets PAST beyond TARGET; one that brings a counter to its target releases every group of lanes that waits on it. Nothing else
of the scratchpad changes where nobody waits. -/
def Obligations.Counters : Prop :=
  (∀ (g : Guard) (f : FmtT) (h : Here) (s : State), mainLanes h g ≠ 0#32 → NoneWaits h s →
    (let c := srcS h f.a.toNat
    let off := c.toNat
    let x := (srcS h f.b.toNat).toNat
    let old := (scrWord h.w off).toNat
    let fresh := (1 - old / 2 ^ 61 % 2) * 2 ^ 61
    let calm (t : State) : Prop := PlainLanes h s t ∧ QuadsKept h s t ∧ GangOn h s t 0#5 0#4 ∧ IssueOn h s t
    let idle := (old / 2 ^ 59 % 4 ≠ 3 ∧ (scrWord h.w (off + 16)).toNat = 0) ∨ old / 2 ^ 59 % 4 = 0
    (Ready (.acset g f) g h s → c.msb = false → off % 8 = 0 → opWaits h (trueMask h g) true false 3#3 s = false →
      (old / 2 ^ 59 % 4 = 3 → off + 24 ≤ h.w.scratchSize → f.mod.extractLsb' 0 2 ≠ 3#2 → ∃ t, exec (.acset g f) s = .next t ∧
        (wgAt t h).scratch = h.w.scratch ∧ ∀ k, k < 32 → (trueMask h g).getLsbD k = true →
          handled { h.w with trapvec := h.iss.tvec } .queueMisuse (laneAt s h k) = true → (laneAt t h k).fcode = 0x10#8) ∧
      (idle → (f.mod.extractLsb' 0 2).toNat = 0 → off + 8 ≤ h.w.scratchSize → x < 2 ^ 29 →
        ∃ t, exec (.acset g f) s = .next t ∧ calm t ∧ ScrWritten (h.noted off) s t [(off, fresh + x * 2 ^ 30)]) ∧
      (∀ kind, idle → (f.mod.extractLsb' 0 2).toNat = kind → kind = 1 ∨ kind = 2 → off + 24 ≤ h.w.scratchSize →
          (if kind = 1 then x < 2 ^ h.w.ngangs ∧ h.w.ngangs ≤ 16 else x < 2 ^ (8 * min h.w.ngangs 8)) →
          (∀ p, p < 128 → x.testBit p = true → partExited s h.w kind (.scr off) p = false) →
        ∃ t, exec (.acset g f) s = .next t ∧ calm t ∧
          ScrWritten (h.noted off) s t
            [(off, fresh + kind * 2 ^ 59 + ((List.range 64).filter x.testBit).length * 2 ^ 30), (off + 8, x), (off + 16, 0)])) ∧
    (Ready (.acadd g f) g h s → c.msb = false → off % 8 = 0 → off + 8 ≤ h.w.scratchSize → old / 2 ^ 59 % 4 = 0 →
        opWaits h (mainLanes h g) true true 3#3 s = false →
      (let n := x % 2 ^ 30
      let count := old % 2 ^ 30
      let target := old / 2 ^ 30 % 2 ^ 29
      let past := if target < count + n then 1 else old / 2 ^ 62 % 2
      ∃ t, exec (.acadd g f) s = .next t ∧ calm t ∧
        ScrWritten (h.noted off) s t [(off, old / 2 ^ 63 * 2 ^ 63 + past * 2 ^ 62 + old / 2 ^ 61 % 2 * 2 ^ 61 + target * 2 ^ 30 + min (count + n) (2 ^ 30 - 1))])))) ∧
  (∀ (g : Guard) (f : FmtT) (h : Here) (s : State) (gang n : Nat), Ready (.acadd g f) g h s → mainLanes h g ≠ 0#32 → h.g.pend = [] →
    (let c := srcS h f.a.toNat
    let old := (scrWord h.w c.toNat).toNat
    c.msb = false → c.toNat % 8 = 0 → c.toNat + 8 ≤ h.w.scratchSize → old / 2 ^ 59 % 4 = 0 →
      old / 2 ^ 30 % 2 ^ 29 ≤ min (old % 2 ^ 30 + (srcS h f.b.toNat).toNat % 2 ^ 30) (2 ^ 30 - 1) → gang < 16 → n < 32 →
      (∃ d stand dst, (laneOf (gangOf h.w gang) n).st = .blocked (.counter c d stand dst)) → gang ≠ h.iss.gang →
      ∃ t, exec (.acadd g f) s = .next t ∧ isBlocked (laneOf (gangOf (wgAt t h) gang) n).st = false))

/-- R267, R268, R269: ACWAIT of a counter that is reached receives its word, after which what transfers landed for it is the kernel's to write (R371),
and otherwise blocks; an arrival of a ganged issue at a barrier of
gangs sets its ARR bit and counts, the last one completes the phase; BARW then blocks until its bit is clear. -/
def Obligations.BarrierArrivals : Prop :=
  ∀ (g : Guard) (f : FmtT) (h : Here) (s : State), mainLanes h g ≠ 0#32 →
    (let c := srcS h f.a.toNat
    let off := c.toNat
    let old := (scrWord h.w off).toNat
    let kind := old / 2 ^ 59 % 4
    let target := old / 2 ^ 30 % 2 ^ 29
    let count := old % 2 ^ 30
    c.msb = false → off % 8 = 0 →
    (Ready (.acwait g f) g h s → kind = 0 → off + 8 ≤ h.w.scratchSize → opWaits h (trueMask h g) false false 3#3 s = false →
      (target ≤ count ∨ old / 2 ^ 63 = 1 → trueMask h g ≠ 0#32 → ∃ t, exec (.acwait g f) s = .next t ∧ ScalDone g (h.noted off) (clearLanded s h.iss.wg (.scr off)) t f.d.toNat (scrWord h.w off)) ∧
      (count < target → old / 2 ^ 63 = 0 → ∃ t, exec (.acwait g f) s = .next t ∧ QuadsKept h s t ∧ Elsewhere (h.noted off) s t ∧ IssueLeft h s t 0#32 ∧
        HeldLanes h s t (fun _ => true) (.blocked (.counter c (some f.d.toNat) (quadsOf h.iss.lanes) (dstQuads h))))) ∧
    (kind = 1 → off + 24 ≤ h.w.scratchSize → NoneWaits h s → h.iss.quad = none → opWaits h (mainLanes h g) true true 3#3 s = false →
      (let mask := (scrWord h.w (off + 8)).toNat
      let arr := (scrWord h.w (off + 16)).toNat
      let p := h.iss.gang
      let high := old / 2 ^ 62 * 2 ^ 62
      let phase := old / 2 ^ 61 % 2
      let writes : List (Nat × Nat) :=
        if count + 1 < target then [(off, high + phase * 2 ^ 61 + 2 ^ 59 + target * 2 ^ 30 + (count + 1)), (off + 8, mask), (off + 16, arr + 2 ^ p)]
        else [(off, high + (1 - phase) * 2 ^ 61 + 2 ^ 59 + target * 2 ^ 30), (off + 8, mask), (off + 16, 0)]
      p < 64 → mask.testBit p = true → arr.testBit p = false → count + 1 < 2 ^ 30 →
        (Ready (.bara g f) g h s → ∃ t, exec (.bara g f) s = .next t ∧ PlainLanes h s t ∧ QuadsKept h s t ∧ GangOn h s t 0#5 0#4 ∧
          IssueOn h s t ∧ ScrWritten (h.noted off) s t writes) ∧
        (Ready (.barw g f) g h s → f.mod.getLsbD 0 = false → ∃ t, exec (.barw g f) s = .next t ∧ QuadsKept h s t ∧ ScrWritten (h.noted off) s t writes ∧
          (if count + 1 < target then
            IssueLeft h s t 0#32 ∧ ∀ k, k < 32 → (h.iss.lanes.getLsbD k = false → laneAt t h k = laneAt s h k) ∧
              (h.iss.lanes.getLsbD k = true →
                laneAt t h k = { laneAt s h k with st := .blocked (.counter c none (1#8 <<< (k / 4)) 0#8) })
          else IssueOn h s t ∧ PlainLanes h s t)))))

/-- R271 to R274: QDEF maps and writes an empty queue; QPUSH and QPOP move one entry where they may, and otherwise block; QSTAT reads the
header, or 0 for a queue not mapped. -/
def Obligations.Queues : Prop :=
  ∀ (g : Guard) (f : FmtT) (h : Here) (s : State), mainLanes h g ≠ 0#32 →
    (let x := (srcS h f.b.toNat).toNat
    let calm (t : State) : Prop := PlainLanes h s t ∧ GangOn h s t 0#5 0#4 ∧ IssueOn h s t
    (let off := (srcS h f.a.toNat).toNat
    let cap := x % 2 ^ 9
    let allow := x / 2 ^ 16 % 2 ^ 9
    Ready (.qdef g f) g h s → opWaits h (trueMask h g) true false 3#3 s = false → off % 8 = 0 → off + 8 + 8 * cap ≤ h.w.scratchSize → 1 ≤ cap → cap ≤ 256 → 1 ≤ allow → allow ≤ cap →
        x = cap + allow * 2 ^ 16 → (∀ q ∈ h.w.qwait, q.q ≠ f.d.toNat) → ∃ t, exec (.qdef g f) s = .next t ∧ calm t ∧ QuadsKept h s t ∧
      ScrWritten (h.withW { h.w with queues := tset none h.w.queues f.d.toNat (some off) }) s t [(off, allow * 2 ^ 35 + cap * 2 ^ 17)]) ∧
    (∀ off, tget none h.w.queues f.a.toNat = some off → qOk (scrWord h.w off) = true → h.w.qwait = [] →
      (let hd := (scrWord h.w off).toNat
      let head := hd % 2 ^ 8
      let tail := hd / 2 ^ 8 % 2 ^ 8
      let cap := hd / 2 ^ 17 % 2 ^ 9
      let count := hd / 2 ^ 26 % 2 ^ 9
      let allow := hd / 2 ^ 35 % 2 ^ 9
      cap ≤ 256 →
      (Ready (.qpush g f) g h s → opWaits h (mainLanes h g) true true 3#3 s = false →
        (0 < allow → ∃ t, exec (.qpush g f) s = .next t ∧ calm t ∧ QuadsKept h s t ∧
          ScrWritten h s t [(off + 8 + 8 * tail, x),
            (off, (allow - 1) * 2 ^ 35 + (count + 1) * 2 ^ 26 + cap * 2 ^ 17 + (tail + 1) % cap * 2 ^ 8 + head)]) ∧
        (allow = 0 → ∃ t, exec (.qpush g f) s = .next t ∧ HeldLanes h s t (fun _ => true) (.blocked (.queue f.a.toNat)) ∧ QuadsKept h s t ∧
          IssueLeft h s t 0#32 ∧
          Elsewhere (h.withW { h.w with qwait := [⟨h.iss.gang, 0#8, h.iss.lanes, f.a.toNat, some (srcS h f.b.toNat), 0⟩] }) s t)) ∧
      (Ready (.qpop g f) g h s → opWaits h (mainLanes h g) false false 3#3 s = false →
        (0 < count → ∃ t, exec (.qpop g f) s = .next t ∧ calm t ∧
          ScalRegs h s t (fun r => if r = f.d.toNat then some (scrWord h.w (off + 8 + 8 * head)) else none) ∧
          ScrWritten h s t [(off, (allow + 1) * 2 ^ 35 + (count - 1) * 2 ^ 26 + cap * 2 ^ 17 + tail * 2 ^ 8 + (head + 1) % cap)]) ∧
        (count = 0 → ∃ t, exec (.qpop g f) s = .next t ∧ HeldLanes h s t (fun _ => true) (.blocked (.queue f.a.toNat)) ∧
          MarkQuads h s t f.d.toNat 1 ∧ IssueLeft h s t 0#32 ∧
          Elsewhere (h.withW { h.w with qwait := [⟨h.iss.gang, dstQuads h, h.iss.lanes, f.a.toNat, none, f.d.toNat⟩] }) s t)))) ∧
    (Ready (.qstat g f) g h s → opWaits h (trueMask h g) false false 3#3 s = false → ∃ t, exec (.qstat g f) s = .next t ∧ calm t ∧ Elsewhere h s t ∧
      ScalRegs h s t fun r => if r = f.d.toNat then some (match tget none h.w.queues f.a.toNat with
        | some off => scrWord h.w off
        | none => 0#64) else none))

/-- R61, R275, R276: RQSET moves units of quota from its gang to another, whose new registers are full; it waits while a register it removes
is empty, blocked there (log entry 105), and RQSET_COMPLETE ends that wait; a register so gained holds an undefined value and is full (log entry 70).
RCFENCE, once the accesses before it have performed, empties the record cache. -/
def Obligations.QuotaMoves : Prop :=
  (∀ (g : Guard) (f : FmtT) (h : Here) (s : State), mainLanes h g ≠ 0#32 →
    (let target := (srcS h f.a.toNat).toNat
    let units := (srcS h f.b.toNat).toNat
    let other (t : State) : Gang := gangOf (wgAt t h) target
    let old := gangOf h.w target
    let moved (t : State) (gang : Nat) : Prop :=
      (gangOf (wgAt t h) gang).quota + units = (gangOf h.w gang).quota ∧ (other t).quota = old.quota + units ∧
        ∀ l, l < 32 → (∀ r, r < 16 * old.quota → vreg (laneOf (other t) l) r = vreg (laneOf old l) r) ∧
          ∀ r, 16 * old.quota ≤ r → r < 16 * (other t).quota → vempty (laneOf (other t) l) r = false
    (Ready (.rqset g f) g h s → h.iss.quad = none → target ≠ h.iss.gang → target < h.w.ngangs → 0 < units →
        units + 1 ≤ h.g.quota → old.quota + units ≤ 16 →
      (rqBusy h.g units = false → ∃ t, exec (.rqset g f) s = .next t ∧ moved t h.iss.gang ∧ QuadsKept h s t ∧ IssueOn h s t ∧
        (∀ k, k < 32 → (laneAt t h k).v = (laneAt s h k).v ∧ (laneAt t h k).climit ≤ 16 * (h.g.quota - units)) ∧
        Elsewhere (h.withW { h.w with gangs := (wgAt t h).gangs }) { s with freeCtr := t.freeCtr } t) ∧
      (rqBusy h.g units = true → ∃ t, exec (.rqset g f) s = .next t ∧ HeldLanes h s t (fun _ => true) (.blocked .rqset) ∧ IssueLeft h s t 0#32 ∧
        t.rqWaits = s.rqWaits ++ [⟨h.iss.wg, h.iss.gang, h.iss.lanes, trueMask h g, target, units⟩] ∧ Elsewhere h { s with rqWaits := t.rqWaits } t)) ∧
    (Ready (.rcfence g f) g h s → opWaits h (trueMask h g) false false 0#3 s = false → ∃ t, exec (.rcfence g f) s = .next t ∧ PlainLanes h s t ∧ QuadsKept h s t ∧ GangOn h s t 0#5 0#4 ∧
      IssueOn h s t ∧ Elsewhere (h.withW { h.w with records := [] }) s t))) ∧
  ∀ (s : State) (w : Wg) (x : RqWait), findWg s x.wg = some w → s.rqWaits.find? (fun y => y.wg == x.wg && y.gang == x.gang) = some x →
    rqBusy (gangOf w x.gang) x.units = false → x.target ≠ x.gang → x.units + 1 ≤ (gangOf w x.gang).quota →
    (gangOf w x.target).quota + x.units ≤ 16 →
    ∃ t v, exec (.rqsetComplete x.wg x.gang) s = .next t ∧ findWg t x.wg = some v ∧ t.rqWaits = s.rqWaits.erase x ∧
      (gangOf v x.gang).quota + x.units = (gangOf w x.gang).quota ∧ (gangOf v x.target).quota = (gangOf w x.target).quota + x.units ∧
      (∀ k, k < 32 → (laneOf (gangOf v x.gang) k).v = (laneOf (gangOf w x.gang) k).v) ∧
      ∀ k, k < 32 → (∀ r, r < 16 * (gangOf w x.target).quota →
          vreg (laneOf (gangOf v x.target) k) r = vreg (laneOf (gangOf w x.target) k) r) ∧
        ∀ r, 16 * (gangOf w x.target).quota ≤ r → r < 16 * (gangOf v x.target).quota → vempty (laneOf (gangOf v x.target) k) r = false

/-! The matrix unit. -/

/-- R284 to R289, R293: MMA, MMAT and MZERO that pass their checks join the matrix unit in issue order, and the batch in the making; nothing
else changes. -/
def Obligations.MatrixIssues : Prop :=
  ∀ (g : Guard) (f : FmtX) (h : Here) (s : State), trueMask h g ≠ 0#32 → (inFlight h.w h.iss.gang).length < 64 → validOf h f ≤ 32 →
    (let joins (t : State) (c : MCmd) : Prop :=
      PlainLanes h s t ∧ QuadsKept h s t ∧ IssueOn h s t ∧ GangHas h s t { gangAt s h with unclosed := (gangAt s h).unclosed ++ [c.id] } ∧
        Elsewhere (h.withW { h.w with mq := h.w.mq ++ [c] }) { s with seq := s.seq + 1 } t
    let slot := tget 0#64 h.w.fslots f.fs.toNat
    let off := (srcS h f.as_.toNat).toNat
    let mac := macOf h.w f.mac.toNat
    (∀ p ∈ ([(.mma, false), (.mmat, true)] : List ((Guard → FmtX → Instr) × Bool)), Ready (p.1 g f) g h s → matSlotOk slot = true →
        off % 256 = 0 → off + 4096 * [0, 16, 16, 8, 8, 4, 8, 8].getD (slot.extractLsb' 0 4).toNat 0 / 8 +
          (if slot.extractLsb' 18 2 = 0#2 then 0 else 128) ≤ h.w.scratchSize →
        mac.st ≠ .free → ¬(mac.st = .bad ∧ mac.src = 2#2) → (mac.st = .resident → mac.bfmt = slot.extractLsb' 4 4 ∧ mac.bsc = slot.extractLsb' 20 2) →
      ∃ t, exec (p.1 g f) s = .next t ∧ joins t (cmdOf h s (some f.mac.toNat) (.mma f.acc.toNat f.fs.toNat off (validOf h f) p.2))) ∧
    (Ready (.mzero g f) g h s → ∃ t, exec (.mzero g f) s = .next t ∧ joins t (cmdOf h s none (.mzero f.acc.toNat (validOf h f)))))

/-- R291, R292, R294, R295: MLD into a free macro through a hank that covers its rows counts in ENG, writes the dirty sectors of its sources back
and turns the macro PENDING with SRC 10 in the format of the slot. MRD marks its registers empty and MWR takes the values of its lanes; both
leave their command for the matrix unit. MREL gives up its macro: behind earlier commands that name it the release is a command of its own,
otherwise it takes place at once; a subscription that is held arms, and behind a load on its way, or a head that is armed (log entry 39), the release
waits. MRD, MWR and MREL join no batch. MREL on a free macro does nothing. -/
def Obligations.MatrixMoves : Prop :=
  (∀ (g : Guard) (f : FmtX) (h : Here) (s : State), Ready (.mld g f) g h s → trueMask h g ≠ 0#32 → (inFlight h.w h.iss.gang).length < 64 →
    mldCheck s (wordOf (.mld g f)) f h = none →
    (let n := f.mod.toNat % 32
    let k := getHank h.w h.iss.gang n
    let slot := tget 0#64 h.w.fslots f.fs.toNat
    let ea := (srcS h f.as_.toNat).toNat
    let x := srcS h (f.as_.toNat + 1)
    let stride := x.toNat % 2 ^ 32
    n < 24 → k.eng ≠ 63#6 → ∀ xs, extentsAll s h.w.ctx (mldRanges slot ea stride (validOf h f)) = .ok xs →
    ∃ t, exec (.mld g f) s = .next t ∧ PlainLanes h s t ∧ QuadsKept h s t ∧ IssueOn h s t ∧
      GangHas h s t { gangAt s h with unclosed := (gangAt s h).unclosed ++ [s.seq], h := (gangAt t h).h } ∧
      (∀ j, j < 24 → getHank (wgAt t h) h.iss.gang j = if j = n then { k with eng := k.eng + 1#6 } else getHank h.w h.iss.gang j) ∧
      Elsewhere (h.withW (updMac { h.w with
          w := (wgAt t h).w
          mq := h.w.mq ++ [cmdOf h s (some f.mac.toNat) (.mld f.fs.toNat n ea stride (validOf h f) (f.mod.getLsbD 5) (x.extractLsb' 32 32))] }
        f.mac.toNat fun y => { y with st := .pending, src := 2#2, bfmt := slot.extractLsb' 4 4, bsc := slot.extractLsb' 20 2, upto := s.seq }))
        { xs.foldl (fun s e => writeBack s h.core e.1 e.2) s with seq := s.seq + 1 } t)) ∧
  (∀ (g : Guard) (f : FmtT) (h : Here) (s : State), trueMask h g ≠ 0#32 →
    (let n := 2 ^ (f.mod.extractLsb' 0 3).toNat
    let c := (srcS h f.b.toNat).toNat
    let tru := trueMask h g
    (Ready (.mrd g f) g h s → c % n = 0 → c + n ≤ 128 → ∃ t, exec (.mrd g f) s = .next t ∧ MarkLanes h s t tru f.d.toNat n ∧ QuadsKept h s t ∧
      GangOn h s t 0#5 0#4 ∧ IssueOn h s t ∧
      Elsewhere (h.withW { h.w with mq := h.w.mq ++ [cmdOf h s none (.mrd f.a.toNat c n f.d.toNat tru)] }) { s with seq := s.seq + 1 } t) ∧
    (Ready (.mwr g f) g h s → c % n = 0 → c + n ≤ 128 → ∃ t, exec (.mwr g f) s = .next t ∧
      WgDone h s t { s with seq := s.seq + 1 } { h.w with mq := h.w.mq ++ [cmdOf h s none (.mwr f.a.toNat c n tru
        ((bitsOf tru).map fun l => (l, (List.range n).map fun j => vreg (laneAt s h l) (f.d.toNat + j))))] }) ∧
    (Ready (.mrel g f) g h s →
      (let m := f.a.toNat
      let named := h.w.mq.any fun c => c.mac == some m
      let rel := cmdOf h s (some m) .mrel
      ((macOf h.w m).st = .free → ∃ t, exec (.mrel g f) s = .next t ∧ WgDone h s t s h.w) ∧
      ((macOf h.w m).st ≠ .free → queueOf h.w m = [] → (macOf h.w m).reload = none → ∃ t, exec (.mrel g f) s = .next t ∧
        if named then WgDone h s t { s with seq := s.seq + 1 }
          (updMac { h.w with mq := h.w.mq ++ [rel] } m fun x => { x with st := .free, src := 0#2, upto := s.seq + 1 })
        else WgDone h s t s (updMac h.w m fun x => { x with st := .free, src := 0#2, upto := s.seq, inside := false, psrc := 0#2 })) ∧
      (∀ k, (macOf h.w m).st ≠ .free → headOf h.w m = some k → (subOf h.w k).st = .held → (macOf h.w m).reload = none →
          (queueOf h.w m).any (fun k => (subOf h.w k).relAfter) = false → named = false →
        ∃ t, exec (.mrel g f) s = .next t ∧ WgDone h s t s
          (updMac (updSub h.w k fun x => { x with st := .armed, armedAt := s.cycle }) m fun x =>
            { x with st := .pending, src := 1#2, upto := s.seq, inside := false, psrc := 0#2 })) ∧
      (∀ k, (macOf h.w m).st = .pending → (macOf h.w m).src = 1#2 → headOf h.w m = some k →
          (subOf h.w k).st = .loading ∨ (subOf h.w k).st = .armed →
        ∃ t, exec (.mrel g f) s = .next t ∧ WgDone h s t { s with seq := s.seq + 1 }
          (updSub { h.w with mq := h.w.mq ++ [rel] } k fun x => { x with relAfter := true }))))))

/-- R298 to R302: MBATCH closes the batch in the making under the next number; MWAIT of a complete batch reads its status, and otherwise its
lanes wait; MSTAT reads a status word. -/
def Obligations.Batches : Prop :=
  ∀ (g : Guard) (f : FmtT) (h : Here) (s : State), trueMask h g ≠ 0#32 →
    (Ready (.mbatch g f) g h s → ∃ t, exec (.mbatch g f) s = .next t ∧ PlainLanes h s t ∧ IssueOn h s t ∧ Elsewhere h s t ∧
      ScalRegs h s t (fun r => if r = f.d.toNat then some (BitVec.ofNat 64 h.g.nextBatch) else none) ∧
      (gangAt t h).nextBatch = (h.g.nextBatch + 1) % 16 ∧ (gangAt t h).unclosed = [] ∧ (gangAt t h).closures = h.g.closures + 1 ∧
      (batchOf (gangAt t h) h.g.nextBatch).cmds = h.g.unclosed ∧ (batchOf (gangAt t h) h.g.nextBatch).fails = h.g.unclosedFail) ∧
    (let b := if f.mod.getLsbD 4 then (srcS h f.a.toNat).toNat % 16 else (f.mod.extractLsb' 0 4).toNat
    Ready (.mwait g f) g h s →
      (batchDone h.w h.iss.gang b = true → ∃ t, exec (.mwait g f) s = .next t ∧ ScalDone g h s t f.d.toNat (batchWord h.w h.iss.gang b) ∧
        (batchWord h.w h.iss.gang b).getLsbD 0 = true) ∧
      (batchDone h.w h.iss.gang b = false → ∃ t, exec (.mwait g f) s = .next t ∧ HeldLanes h s t (fun _ => true) (.waiting (.batch b f.d.toNat)) ∧
        QuadsKept h s t ∧ IssueLeft h s t 0#32 ∧ Elsewhere h s t)) ∧
    (Ready (.mstat g f) g h s → ∃ t x, exec (.mstat g f) s = .next t ∧ ScalDone g h s t f.d.toNat x ∧
      ((f.mod.extractLsb' 0 2).toNat = 0 → x.toNat / 2 ^ 8 % 4 = (match (macOf h.w f.a.toNat).st with
        | .free => 0
        | .pending => 1
        | .resident => 2
        | .bad => 3)) ∧
      ((f.mod.extractLsb' 0 2).toNat = 1 → x.getLsbD 0 = batchDone h.w h.iss.gang f.a.toNat) ∧
      ((f.mod.extractLsb' 0 2).toNat = 2 → x.toNat / 2 ^ 16 = min 64 (inFlight h.w h.iss.gang).length ∧ x.getLsbD 4 = (h.g.closures != 0)))

/-- R284, R289, R292 to R295: the steps of the matrix unit. A command whose macro and tile no earlier one names starts and completes: MZERO clears
its rows, MWR writes its columns, MRD fills its registers, MREL empties the array, MMA writes rows below its count, MLD makes its macro
resident, or where a page of its source does not translate suspends (R359). Each leaves the unit. A ring tile with a parity error turns its macro BAD,
and a command that failed with an MLD's tile leaves the unit with no sum, the last of them freeing the macro. That an MMA reads its block, and an MLD
its tile, at one instant is log entry 37; how a parity error falls on the commands is log entry 38. -/
def Obligations.MatrixSteps : Prop :=
  ∀ (wg n : Nat) (w : Wg) (c : MCmd) (core : Nat) (s : State), findWg s wg = some w → findCmd w n = some c → coreOf w = some core →
    (∀ x ∈ w.mq, c.id ≤ x.id) → (w.mq.map fun x => x.id).Nodup →
    (let done (t : State) : Wg := (findWg t wg).getD w
    let gone (t : State) : Prop := findCmd (done t) n = none
    let only (t : State) (a : Nat) (p : Nat → Nat → Option W32) : Prop :=
      (∀ i j, i < 32 → j < 128 → accElem (done t) a i j = (p i j).getD (accElem w a i j)) ∧
      ∀ b i j, b ≠ a → accElem (done t) b i j = accElem w b i j
    (∀ a rows, c.kind = .mzero a rows →
      (c.started = false → c.fail = 0 → forkReady (gangOf w c.gang) c.seq c.lanes = true → ∀ parity, ∃ t, exec (.matrixCommandStart wg n parity) s = .next t ∧
        findCmd (done t) n = some { c with started := true } ∧ (done t).accs = w.accs) ∧
      (c.started = true → ∃ t, exec (.matrixCommandComplete wg n) s = .next t ∧ gone t ∧ only t a fun i _ => if i < rows then some 0#32 else none)) ∧
    (∀ a col k lanes vals, c.kind = .mwr a col k lanes vals → ∃ t, exec (.matrixCommandComplete wg n) s = .next t ∧ gone t ∧
      only t a fun i j => match vals.find? fun v => v.1 == i with
        | some v => if col ≤ j ∧ j < col + k then some (tget 0#32 v.2 (j - col)) else none
        | none => none) ∧
    (∀ a col k d lanes, c.kind = .mrd a col k d lanes → d + k ≤ 256 → ∃ t, exec (.matrixCommandComplete wg n) s = .next t ∧ gone t ∧ (done t).accs = w.accs ∧
      ∀ l j, l < 32 → j < k → lanes.getLsbD l = true → isGone (laneOf (gangOf w c.gang) l).st = false →
        vreg (laneOf (gangOf (done t) c.gang) l) (d + j) = accElem w a l (col + j) ∧
          vempty (laneOf (gangOf (done t) c.gang) l) (d + j) = false) ∧
    (∀ m, c.kind = .mrel → c.mac = some m → relWaits w m = false → ∃ t, exec (.matrixCommandComplete wg n) s = .next t ∧ gone t ∧
      macOf (done t) m = { macOf w m with inside := false, psrc := 0#2 }) ∧
    (∀ a fs off rows tr m, c.kind = .mma a fs off rows tr → c.mac = some m →
      (let slot := tget 0#64 w.fslots fs
      (c.started = false → c.fail = 0 → forkReady (gangOf w c.gang) c.seq c.lanes = true → (macOf w m).inside = true →
          (macOf w m).pfmt.toNat = slotBfmt slot → (macOf w m).pbsc.toNat = slotBsc slot → executing s core < 4 →
        (∃ t, exec (.matrixCommandStart wg n false) s = .next t ∧ (done t).accs = w.accs ∧
          findCmd (done t) n = some { c with started := true, aBytes := gets0 w.scratch off (blockBytes slot) }) ∧
        ((macOf w m).psrc = 1#2 → (w.mq.any fun x => x.mac == some m && x.kind == .mrel && c.id < x.id) = false →
          ∃ t, exec (.matrixCommandStart wg n true) s = .next t ∧ (macOf (done t) m).st = .bad ∧ (macOf (done t) m).inside = false ∧
            (macOf (done t) m).reload = some ((macOf w m).tile, (macOf w m).gen) ∧ findCmd (done t) n = some c)) ∧
      (c.fail ≠ 0 → ∃ t, exec (.matrixCommandComplete wg n) s = .next t ∧ gone t ∧ (done t).accs = w.accs ∧
        ((macOf w m).st = .bad → (macOf w m).src = 2#2 → (w.mq.any fun x => x.id != c.id && x.mac == some m && x.fail != 0) = false →
          (macOf (done t) m).st = .free)) ∧
      (c.started = true → c.fail = 0 → ∃ t, exec (.matrixCommandComplete wg n) s = .next t ∧ gone t ∧ only t a fun i j =>
        if i < rows then some (BitVec.ofNat 32 (accumulate (slotAccf slot) (accElem w a i j).toNat
          (mmaTerm (macOf w m) slot c.aBytes tr i j)).1) else none))) ∧
    (∀ fs hank ea stride cnt tr scale m, c.kind = .mld fs hank ea stride cnt tr scale → c.mac = some m →
        forkReady (gangOf w c.gang) c.seq c.lanes = true → c.suspended = none → (getHank w c.gang hank).revoked = false →
        (∃ es, extentsAll s w.ctx (mldRanges (tget 0#64 w.fslots fs) ea stride cnt) = .ok es) →
        poisoned s w.ctx (mldRanges (tget 0#64 w.fslots fs) ea stride cnt) = false →
        unreached s w.ctx (mldRanges (tget 0#64 w.fslots fs) ea stride cnt) = false →
        (macOf w m).st = .pending → (macOf w m).src = 2#2 → (macOf w m).upto = n →
      ∃ t, exec (.mldComplete wg n) s = .next t ∧ gone t ∧ (macOf (done t) m).st = .resident ∧ (macOf (done t) m).inside = true ∧
        (macOf (done t) m).psrc = 2#2 ∧ (macOf (done t) m).pfmt.toNat = slotBfmt (tget 0#64 w.fslots fs) ∧ (macOf (done t) m).scale = scale))

/-! The weight ring. -/

/-- R314, R315, R319 to R323: MSUB takes the lowest FREE slot of its macro's queue, else the lowest DONE one, or with neither answers all ones; a slot
that an issue in flight has taken counts as neither (log entry 42). The end of its issue makes the subscription, which arms where its macro is FREE
with an empty queue. MUNSUB frees what is not loading, and of an armed head the next one arms or the macro turns FREE;
MSUBQ and RSTAT read status words, and MSUBQ.wait waits until its subscription settles. -/
def Obligations.RingWords : Prop :=
  ∀ (g : Guard) (f : FmtT) (h : Here) (s : State), mainLanes h g ≠ 0#32 →
    (let word := wordOf (.msub g f)
    let b := srcS h f.b.toNat
    let c := srcS h f.c.toNat
    let is (st : SubSt) (k : Nat) : Prop := k / 4 = f.a.toNat ∧ (subOf h.w k).st = st ∧
      ∀ i ∈ s.issues, i.wg = h.w.tag → ∀ b c p l, FOp.sub k b c p l ∉ i.fops
    Ready (.msub g f) g h s → c.msb = true ∨ opWaits h (trueMask h g) false false 0#3 s = false → subCounterTrap h.w word c = none →
      ((∀ k, ¬is .free k ∧ ¬is .done k) → ∃ t, exec (.msub g f) s = .next t ∧ ScalDone g h s t f.d.toNat (BitVec.allOnes 64)) ∧
      (∀ k, ((is .free k ∧ ∀ j, j < k → ¬is .free j) ∨ (is .done k ∧ (∀ j, ¬is .free j) ∧ ∀ j, j < k → ¬is .done j)) →
        (let made := h.withOps [.sub k b c (f.mod.getLsbD 0) h.iss.lanes]
        ∃ t, exec (.msub g f) s = .next t ∧ PlainLanes h s t ∧ IssueOn made s t ∧ ScalQuads g h s t f.d.toNat (BitVec.ofNat 64 k) ∧
          GangHas made s t (gangAt s h) ∧ Elsewhere made s t ∧
          (issueOver s t = true → h.iss.fops = [] →
            (let x := subOf (wgAt t h) k
            x.tile = b.setWidth 32 ∧ x.minGen = b.extractLsb' 32 32 ∧ x.pers = f.mod.getLsbD 0 ∧ x.counter = c ∧ x.loads = 0 ∧ x.miss = 0 ∧
              (∀ j, j ≠ k → subOf (wgAt t h) j = subOf h.w j) ∧
              if (macOf h.w f.a.toNat).st = .free ∧ headOf h.w f.a.toNat = none then
                x.st = .armed ∧ (macOf (wgAt t h) f.a.toNat).st = .pending ∧ (macOf (wgAt t h) f.a.toNat).src = 1#2
              else x.st = .queued ∧ macOf (wgAt t h) f.a.toNat = macOf h.w f.a.toNat))))) ∧
    (let x := (srcS h f.a.toNat).toNat
    let old := subOf h.w x
    x < 64 → x / 4 < h.w.nmacs →
      (Ready (.munsub g f) g h s → (∀ gang ∈ h.w.gangs, ∀ l ∈ gang.lanes, subWait l = none) → awaiting h.w (x / 4) = [] →
        (let w1 := updSub h.w x fun y => { y with st := .free, relAfter := if old.st = .armed then false else y.relAfter }
        ∃ t, exec (.munsub g f) s = .next t ∧ WgDone h s t s (match old.st, headOf w1 (x / 4) with
          | .free, _ => h.w
          | .loading, _ => updSub h.w x fun y => { y with unsubAfter := true }
          | .armed, some k => updSub w1 k fun y => { y with st := .armed, armedAt := s.cycle }
          | .armed, none => updMac w1 (x / 4) fun y => { y with st := .free, src := 0#2 }
          | _, _ => w1))) ∧
      (Ready (.msubq g f) g h s →
        (f.mod.getLsbD 0 = false ∨ old.st = .held ∨ old.st = .done ∨ old.st = .free → ∃ t v, exec (.msubq g f) s = .next t ∧
          ScalDone g h s t f.d.toNat v ∧ v.toNat / 2 ^ 32 = old.gen.toNat ∧ v.toNat / 2 ^ 16 % 2 ^ 16 = min 65535 old.miss ∧
          v.toNat / 2 ^ 8 % 2 ^ 8 = min 255 old.loads ∧ v.getLsbD 4 = old.pers ∧ v.toNat % 2 ^ 4 = (match old.st with
            | .free => 0
            | .queued => 1
            | .armed => 2
            | .loading => 3
            | .held => 4
            | .done => 5)) ∧
        (f.mod.getLsbD 0 = true → old.st = .queued ∨ old.st = .armed ∨ old.st = .loading → ∃ t, exec (.msubq g f) s = .next t ∧
          HeldLanes h s t (fun _ => true) (.waiting (.sub x f.d.toNat (dstQuads h))) ∧ QuadsKept h s t ∧ IssueLeft h s t 0#32 ∧ Elsewhere h s t))) ∧
    (Ready (.rstat g f) g h s → ∃ t v, exec (.rstat g f) s = .next t ∧ ScalDone g h s t f.d.toNat v ∧
      ((f.mod.extractLsb' 0 2).toNat = 0 → v = BitVec.ofNat 64 h.w.miss) ∧
      ((f.mod.extractLsb' 0 2).toNat = 1 → v.toNat / 2 ^ 20 = s.ring.turns % 2 ^ 44) ∧
      ((f.mod.extractLsb' 0 2).toNat = 2 → v.toNat / 2 ^ 32 = s.ring.lastHoles % 2 ^ 32 ∧ v.toNat % 2 ^ 32 = min (2 ^ 32 - 1) s.ring.lastNs))

/-- R311 to R318, R324, R325, R332: the steps of the ring. A running ring decides the frame that is due first and, in pattern order, places it
behind the others; a frame of the segment for an entry that this member injects is removed, one for an entry of the segment takes its place; a
frame reaches its stops in order, behind the frames before it; a borrow returns once the frame has passed; a load whose last byte has passed
makes its macro resident and counts; a staging copy begins under an X borrow and ends with it, and one whose borrow conflicts is over for its
revolution. How far ahead the model looks for the decision due first is log entry 44; that a copy moves its bytes in the step that ends it is 46. -/
def Obligations.RingSteps : Prop :=
  ∀ (s : State),
    (let p := patternNow s
    (∀ a, s.ring.running = true → dueSlot s = some a → slotDue s a ≤ s.cycle + 2048 → ∃ t, exec .frameInject s = .next t ∧
      t.ring.running = true ∧ t.wgs = s.wgs ∧ t.mem = s.mem ∧
      (a = headSlot s → s.ring.early = [] → (∃ f, t.ring.frames = s.ring.frames ++ [f] ∧ f.src = slotSrc s a ∧ f.rev = s.ring.rev ∧ f.reached = 0) ∧
        t.ring.pos = (if s.ring.pos + 1 < p.2 then s.ring.pos + 1 else 0)) ∧
      (earlyAt s (headSlot s) = none → (a.rev, a.pos) ≠ (s.ring.rev, s.ring.pos) →
        t.ring.frames = s.ring.frames ∧ ∃ e, t.ring.early = s.ring.early ++ [e] ∧ e.pos = a.pos ∧ e.rev = a.rev)) ∧
    (∀ f, s.ring.running = true → 1 < fld (ctlGet s rgctlAddr) 15 9 →
      (ownEntryAt s p.1 p.2 f.entry = true → ∃ t, exec (.segmentFrameArrival f) s = .next t ∧ t.wgs = s.wgs ∧ t.mem = s.mem ∧ t.ring = s.ring ∧
        fld (ctlGet t rgerrAddr) 32 32 = (fld (ctlGet s rgerrAddr) 32 32 + 1) % 2 ^ 32) ∧
      (ownEntryAt s p.1 p.2 f.entry = false → ownEntryAt s p.1 p.2 s.ring.pos = false → s.ring.early = [] →
        ∃ t x, exec (.segmentFrameArrival f) s = .next t ∧ t.wgs = s.wgs ∧ t.mem = s.mem ∧ t.ring.frames = s.ring.frames ++ [x] ∧ x.src = 0 ∧
          (f.entry = s.ring.pos → crcGood f = true → f.tile.toNat = entTile (patEntry s p.1 s.ring.pos) → x.frame = f) ∧
          (f.entry ≠ s.ring.pos ∨ crcGood f = false ∨ f.tile.toNat ≠ entTile (patEntry s p.1 s.ring.pos) → x.frame.hole = true)))) ∧
    (∀ n bad f, s.ring.frames[n]? = some f → f.reached ≤ 100 → f.first + f.reached ≤ s.cycle → (∀ x ∈ s.ring.frames.take n, f.reached < x.reached) →
      ∃ t, exec (.frameArrival n bad) s = .next t ∧ (f.reached, f.frame.entry) ∈ t.ring.last ∧
        (f.reached < 100 → ∃ x ∈ t.ring.frames, x = { f with reached := f.reached + 1 })) ∧
    (∀ n f ticket run, s.ring.frames[n]? = some f → f.borrow = some (ticket, run) → f.last + f.src + 1 ≤ s.cycle →
      ∃ t, exec (.ringBorrowReturn n) s = .next t ∧ (f.reached ≤ 100 → ∃ x ∈ t.ring.frames, x = { f with borrow := none })) ∧
    (∀ wg k w core f, findWg s wg = some w → coreOf w = some core → k < 64 → (subOf w k).st = .loading → (subOf w k).frame = some f →
        (subOf w k).due ≤ s.cycle → (subOf w k).relAfter = false →
        forkReady (gangOf w (subOf w k).gang) (subOf w k).seq (subOf w k).lanes = true →
      ∃ t, exec (.ringLoadComplete wg k) s = .next t ∧
        (let w' := (findWg t wg).getD w
        (macOf w' (k / 4)).st = .resident ∧ (macOf w' (k / 4)).inside = true ∧ (macOf w' (k / 4)).src = 1#2 ∧ (macOf w' (k / 4)).tile = f.tile ∧
          (macOf w' (k / 4)).gen = f.gen ∧ (subOf w' k).loads = (subOf w k).loads + 1 ∧ (subOf w' k).gen = f.gen ∧
          (subOf w' k).st = if (subOf w k).unsubAfter then .free else if (subOf w k).pers then .held else .done)) ∧
    (∀ e, (let p := patternNow s
      let x := patEntry s p.1 e
      let n := headerLen (homeBytes s (entPool x) 64)
      let run : Run := ⟨homeOf (entPaddr x), entPaddr x / 256, cdiv n 256⟩
      let rev := if s.ring.pos ≤ e then s.ring.rev else s.ring.rev + 1
      let ahead := if s.ring.pos ≤ e then e - s.ring.pos else e + p.2 - s.ring.pos
      (s.ring.staging.find? fun c => c.entry == e) = none → s.ring.running = true → e < p.2 → badEntry p.1 x = false → entSrc x = 2 →
          ahead ≤ fld (ctlGet s rgleadAddr) 0 16 → (e, rev) ∉ s.ring.staged → (e, rev) ∉ s.ring.failed → deadIn s (entPool x) 64 = false →
          entPaddr x / dieBytes = (entPaddr x + 256 * cdiv n 256 - 1) / dieBytes → unborrowable s 1#2 0 0 [(entPaddr x, n)] = false →
        ((∃ o ∈ s.own, runsMeet (entryRun o) run = true ∧ entryConflicts o 1#2 = true) → ∃ t, exec (.stagingCopy e) s = .next t ∧
          t.ring = { s.ring with failed := s.ring.failed ++ [(e, rev)] } ∧ t.mem = s.mem ∧ t.own = s.own) ∧
        (runReplicas s run = [] → decideRun s (ringReq s 1#2 [run] (.staging e)) run s.waiters = .grant →
            (s.own.filter fun o => o.home == run.home).length < tableSize run.home →
          ∃ t, exec (.stagingCopy e) s = .next t ∧ t.ring = { s.ring with staging := s.ring.staging ++ [⟨e, rev, [run]⟩] } ∧ t.mem = s.mem ∧
            ∃ o ∈ t.own, o.ctx = 0xFFFF ∧ o.kind = 1#2 ∧ entryRun o = run))) ∧
    (∀ e c, (s.ring.staging.find? fun c => c.entry == e) = some c → ∃ t, exec (.stagingCopy e) s = .next t ∧
      t.ring.staging = s.ring.staging.erase c ∧ t.ring.frames = s.ring.frames ∧
      (c.rev = s.ring.rev → s.ring.pos ≤ c.entry → s.ring.early = [] →
        (let x := patEntry s (if s.ring.len = 0 then (patternRegs s).1 else s.ring.base) c.entry
        let lost := deadIn s (entPool x) (c.runs.map fun r => r.grains * 256).sum
        (lost = false → (c.entry, c.rev) ∈ t.ring.staged) ∧ (lost = true → (c.entry, c.rev) ∈ t.ring.failed))))

/-! Copies, memory-side operations, messages and children. -/

/-- R72, R118, R333, R336, R345, R347: CPY, CPYT and MSOP that pass their checks join their cluster's queue and count once in ENG of every hank
they name, once the accesses to the scratchpad before them have performed where they read a counter or a record there; dirty sectors of the areas of a
copy go home first. The lanes of a .yield form block at the next word, and nothing else changes.
CPYQ reads the counts. -/
def Obligations.EngineWords : Prop :=
  ∀ (g : Guard) (f : FmtT) (h : Here) (s : State), mainLanes h g ≠ 0#32 →
    (let queue := s.eng.filter fun c => engAt s c == h.core / 8
    let cmd (kind : EKind) (b : Option Nat) (hanks : List Nat) (counter : W64) : EngCmd :=
      { id := s.seq, cluster := h.core / 8, wg := h.iss.wg, gang := h.iss.gang, kind := kind, dbase := areaBase h f.d.toNat
        abase := areaBase h f.a.toNat, bbase := b, hanks := hanks, counter := counter, pc := h.iss.at_, seq := s.seq, lanes := h.iss.lanes }
    let joins (t s1 : State) (w1 : Wg) (c : EngCmd) (yields : Bool) : Prop :=
      QuadsKept h s t ∧ GangHas h s t { gangAt s h with h := (gangAt t h).h } ∧
      (∀ n, n < 24 → (let k := getHank h.w h.iss.gang n
        getHank (wgAt t h) h.iss.gang n = if n ∈ c.hanks then { k with eng := k.eng + 1#6 } else k)) ∧
      Elsewhere (h.withW { w1 with w := (wgAt t h).w }) { s1 with eng := s.eng ++ [c], seq := s.seq + 1 } t ∧
      (if yields then (∀ k, k < 32 →
          (h.iss.lanes.getLsbD k = true → guardOn g (laneAt s h k) = true →
            laneAt t h k = { laneAt s h k with pc := h.iss.at_ + 8#64, cbase := none, st := .blocked (.engine s.seq) }) ∧
          (h.iss.lanes.getLsbD k = true → guardOn g (laneAt s h k) = false → LaneOn h (laneAt s h k) (laneAt t h k)) ∧
          (h.iss.lanes.getLsbD k = false → laneAt t h k = laneAt s h k)) ∧ IssueLeft h s t (h.iss.lanes &&& ~~~trueMask h g)
        else PlainLanes h s t ∧ IssueOn h s t)
    let room (hanks : List Nat) : Prop := queue.length < 64 ∧ ∀ n ∈ hanks, n < 24 ∧ (getHank h.w h.iss.gang n).eng ≠ 63#6
    let two := ([f.d.toNat, f.a.toNat].filter fun n => n != 24).dedup
    let counter := srcS h (f.c.toNat + 1)
    let flushed (kind : EKind) : State :=
      let p := planOf kind (areaBase h f.d.toNat) (areaBase h f.a.toNat)
      let rs := runsUpto p (min p.valid p.total)
      let s1 := if f.a.toNat = 24 then s else flushRanges h.core h.w.ctx s (rs.map fun r => (r.1, r.2.2))
      if f.d.toNat = 24 then s1 else flushRanges h.core h.w.ctx s1 (rs.map fun r => (r.2.1, r.2.2))
    let seen : Prop := opWaits h (trueMask h g) false false 0#3 s = false
    (Ready (.cpy g f) g h s → counter.msb = true ∨ seen → cpyCheck (wordOf (.cpy g f)) f h = none → room two →
      ∃ t, exec (.cpy g f) s = .next t ∧ joins t (flushed (cpyKind f h)) h.w (cmd (cpyKind f h) none two counter) (f.mod.getLsbD 0)) ∧
    (let off := (srcS h f.b.toNat).toNat
    Ready (.cpyt g f) g h s → (counter.msb = true ∧ (∃ r ∈ h.w.records, r.1 = off)) ∨ seen → cpytCheck (wordOf (.cpyt g f)) f h = none → room two → (coreRecords s h.core).length < 32 →
      ∃ t, exec (.cpyt g f) s = .next t ∧ joins t (flushed (cpytKind f h))
        (if h.w.records.any fun r => r.1 == off then h.w else { h.w with records := h.w.records ++ [(off, gets0 h.w.scratch off 192)] })
        (cmd (cpytKind f h) none two counter) (f.mod.getLsbD 0)) ∧
    (let three := ([f.d.toNat, f.a.toNat] ++ (if f.mod.extractLsb' 9 2 = 3#2 then [] else [f.b.toNat])).dedup
    let o (n : Nat) : Nat := (srcS h (f.c.toNat + n)).toNat
    let n := o 3 % 2 ^ 32
    let valid := if o 3 / 2 ^ 32 = 2 ^ 32 - 1 then n else min n (o 3 / 2 ^ 32)
    Ready (.msop g f) g h s → seen → msopCheck (wordOf (.msop g f)) f h s = none → room three →
      ∃ t, exec (.msop g f) s = .next t ∧ joins t s { h.w with nonIdem := true } (cmd (.msop f.d.toNat f.a.toNat f.b.toNat (o 0) (o 1) (o 2)
        ((srcS h (f.c.toNat + 2)).extractLsb' 0 32) n valid (f.mod.extractLsb' 9 2) (f.mod.getLsbD 11)) (areaBase h f.b.toNat) three
        (BitVec.ofNat 64 (8 * (f.mod.extractLsb' 0 9).toNat))) false) ∧
    (Ready (.cpyq g f) g h s → queue.length ≤ 64 → (s.eng.filter fun c => c.wg == h.iss.wg && c.gang == h.iss.gang).length < 2 ^ 24 →
      ∃ t v, exec (.cpyq g f) s = .next t ∧ ScalDone g h s t f.d.toNat v ∧ v.toNat % 2 ^ 16 = 64 - queue.length ∧
        v.toNat / 2 ^ 16 % 2 ^ 24 = (s.eng.filter fun c => c.wg == h.iss.wg && c.gang == h.iss.gang).length))

/-- R335 to R339, R344, R349: a copy or memory-side operation among the four its engine executes, with nothing before it pending, moves. A piece of
a copy whose pages translate is performed: the bytes read stand at its destination, no line of its core's L1 is left over them, and its counter is
credited with its length; with its last piece the command is gone. A line of MSOP holds for each element below the valid count the exact result
rounded once to the nearest even, or the canonical NaN, and nothing else of memory has changed; it credits 256. A page that does not translate
suspends the command with a fault record; poison, revocation or a module out of reach ends it with ERR. That a piece moves at one instant is log
entry 116. -/
def Obligations.EngineSteps : Prop :=
  ∀ (id : Nat) (s : State) (c : EngCmd) (w : Wg) (core : Nat), findEng s id = some c → findWg s c.wg = some w → coreOf w = some core →
    engMoves s c (gangOf w c.gang) = true → (s.eng.map fun x => x.id).Nodup →
    (let off := c.counter.toNat
    let after (t : State) : Wg := (findWg t c.wg).getD w
    let credited (t : State) (n : Nat) : Prop := c.counter.msb = false → Tidy s →
        (∀ r ∈ s.grants, ∀ e ∈ r.exts, e.1 + e.2 ≤ 2 ^ 60) → (∀ va k, translate s w.ctx va = some k → k < 2 ^ 60) →
      (let old := (scrWord w off).toNat
      let target := old / 2 ^ 30 % 2 ^ 29
      let count := old % 2 ^ 30
      let past := if target < count + n then 1 else old / 2 ^ 62 % 2
      (scrWord (after t) off).toNat =
        old / 2 ^ 63 * 2 ^ 63 + past * 2 ^ 62 + old / 2 ^ 59 % 2 ^ 3 * 2 ^ 59 + target * 2 ^ 30 + min (count + n) (2 ^ 30 - 1))
    let goesTo (t : State) (n total : Nat) : Prop :=
      (c.next + n < total → (findEng t id).map (fun x => x.next) = some (c.next + n)) ∧ (total ≤ c.next + n → findEng t id = none)
    let suspends (t : State) (va : Nat) : Prop := t.mem = s.mem ∧ t.wgs = s.wgs ∧
      (∃ r ∈ t.faults, r.code = 0x20#8 ∧ r.info = BitVec.ofNat 64 va ∧ r.cmd = some id) ∧ (findEng t id).map (fun x => x.suspended) = some (some s.faults.length)
    let ends (t : State) : Prop := findEng t id = none ∧ (c.counter.msb = false → Tidy s → (copyEnds c.kind).1 ≠ 24 → (scrWord (after t) off).getLsbD 63 = true)
    ((∃ d a soff doff len valid, c.kind = .cpy d a soff doff len valid) ∨ (∃ d a r count, c.kind = .cpyt d a r count) →
      (let p := planOf c.kind c.dbase c.abase
      let n := pieceLen p c.next
      let v := min n (p.valid - c.next)
      let toHank := (copyEnds c.kind).1 ≠ 24
      let read (k : Nat) : Byte := if 2 ^ 60 ≤ k then get0 w.scratch (k - 2 ^ 60) else engByte s core k
      (∀ va, pieceExtents s w c (p.at_ c.next).1 (p.at_ c.next).2 v = .error va → ∃ t, exec (.copyPiece id) s = .next t ∧ suspends t va) ∧
      (∀ xs ys, pieceExtents s w c (p.at_ c.next).1 (p.at_ c.next).2 v = .ok (xs, ys) →
        (engSpoiled s w c xs ys = true → ∃ t, exec (.copyPiece id) s = .next t ∧ ends t) ∧
        (engSpoiled s w c xs ys = false → ∃ t, exec (.copyPiece id) s = .next t ∧ goesTo t n p.total ∧ (toHank → credited t n) ∧
          (c.next + n < p.total → (∀ x ∈ xs, x.1 < 2 ^ 48 ∨ 2 ^ 60 ≤ x.1) →
            (∀ y, ys = [y] → toHank → y.1 + y.2 ≤ 2 ^ 48 → (∀ i, i < y.2 → poolDead s (y.1 + i) = false) → meetsImages s y.1 y.2 = false → Tidy s →
                (∀ x ∈ s.l1 ++ s.slices, x.data.length = 64) →
                (∀ r, findGrant s w.ctx (getHank w c.gang (copyEnds c.kind).1).ticket.toNat = some r → r.landed = []) →
              (∀ i k, i < y.2 → byteOf xs i = some k → homeByte t (y.1 + i) = read k) ∧
                ∀ x ∈ t.l1, x.owner = core → rangesMeet x.pa 64 y.1 y.2 = false) ∧
            (∀ y, ys = [y] → ¬toHank → Tidy s → w.qwait = [] → c.counter.msb = true →
              ∀ i k, i < y.2 → byteOf xs i = some k → get0 (after t).scratch (y.1 - 2 ^ 60 + i) = read k)))))) ∧
    (∀ d a b doff xoff yoff scale n valid op bf, c.kind = .msop d a b doff xoff yoff scale n valid op bf →
      (let esz := if bf then 2 else 4
      let fmt := if bf then bf16 else fp32
      let live (i : Nat) : Prop := c.next / esz ≤ i ∧ i < c.next / esz + 256 / esz ∧ i < valid
      let at_ (x : Option Nat) (o i : Nat) : Option Nat := translate s w.ctx (areaAddr x (o + i * esz))
      let value (k : Nat) : Nat := leNat (devBytes s k esz)
      let mapped : Prop := ∀ i, live i →
        (at_ c.abase xoff i).isSome = true ∧ (op ≠ 3#2 → (at_ c.bbase yoff i).isSome = true) ∧ (at_ c.dbase doff i).isSome = true
      (¬mapped → ∃ t va, exec (.msopLine id) s = .next t ∧ suspends t va) ∧
      (mapped → engSpoiled s w c [] [] = true → ∃ t, exec (.msopLine id) s = .next t ∧ ends t) ∧
      (mapped → engSpoiled s w c [] [] = false → ∃ t, exec (.msopLine id) s = .next t ∧ goesTo t 256 (n * esz) ∧ credited t 256 ∧ t.slices = s.slices ∧
        (Tidy s → (∀ i k, live i → at_ c.dbase doff i = some k → meetsImages s k esz = false) →
          (∀ i j k l, live i → live j → i ≠ j → at_ c.dbase doff i = some k → at_ c.dbase doff j = some l → rangesMeet k esz l esz = false) →
          (∀ i kx ky k, live i → at_ c.abase xoff i = some kx → (if op = 3#2 then ky = 0 else at_ c.bbase yoff i = some ky) → at_ c.dbase doff i = some k →
            (let got := leNat (devBytes t k esz)
            let num (k : Nat) : Option Rat := ratOf (unpack fmt (value k))
            (isNan (unpack fmt (value kx)) = true ∨ (op ≠ 3#2 ∧ isNan (unpack fmt (value ky)) = true) → got = nanBits fmt) ∧
            (∀ v, (match op.toNat with
                | 0 => ∃ x y, num kx = some x ∧ num ky = some y ∧ v = x + y
                | 1 => ∃ x y, num kx = some x ∧ num ky = some y ∧ v = x * y
                | 2 => ∃ x y z, num kx = some x ∧ num ky = some y ∧ num k = some z ∧ v = x * y + z
                | _ => ∃ x e, num kx = some x ∧ ratOf (unpack fp32 scale.toNat) = some e ∧ v = x * e) →
              ¬overTop fmt 0 v → Nearest fmt v got))) ∧
          ∀ k, (∀ i l, live i → at_ c.dbase doff i = some l → k < l ∨ l + esz ≤ k) → devByte t k = devByte s k)))))

/-! Messages, children, and the end of a workgroup. -/

/-- R352 to R354: AMSEND sends its message and marks the status register; a core accepts or refuses a message by its handler word, in the
order of the checks; the answer fills the register. A message to another module is answered by one of R353's statuses, drawn free, and one whose handler
entry, kernel or context is invalid by 1 (log entry 62). -/
def Obligations.Messages : Prop :=
  (∀ (g : Guard) (f : FmtT) (h : Here) (s : State), mainLanes h g ≠ 0#32 → Ready (.amsend g f) g h s →
    (let a := (srcS h f.a.toNat).toNat
    let b := (srcS h f.b.toNat).toNat
    let c := (srcS h f.c.toNat).toNat
    let len := b / 2 ^ 8
    let m := if a.testBit 19 then s.module else a / 2 ^ 10 % 2 ^ 9
    let sent (t : State) (x : Msg) (n : Nat) : Prop := MarkQuads h s t f.d.toNat 1 ∧ PlainLanes h s t ∧ GangOn h s t 0#5 0#4 ∧ IssueOn h s t ∧
      Elsewhere (h.withW { h.w with nonIdem := true }) { s with msgs := s.msgs ++ [x], freeCtr := n } t
    opWaits h (trueMask h g) false false 0#3 s = false → a < 2 ^ 20 → a % 2 ^ 10 < 768 → len ≤ 256 → c % 8 = 0 → c + len ≤ h.w.scratchSize →
      (m = s.module → ∃ t, exec (.amsend g f) s = .next t ∧ sent t (.am (a % 2 ^ 10) (b % 2 ^ 8) (gets0 h.w.scratch c len) h.core s.module h.w.ctx
        (f.mod.getLsbD 0) h.iss.wg h.iss.gang f.d.toNat (dstQuads h)) s.freeCtr) ∧
      (m ≠ s.module → ∃ t status, exec (.amsend g f) s = .next t ∧ status ∈ [0, 1, 2, 3, 4] ∧ (moduleReachable s m = false → status = 2) ∧
        sent t (.amReply h.iss.wg h.iss.gang f.d.toNat (dstQuads h) status) (s.freeCtr + 1)))) ∧
  (∀ n core handler payload fc fm fctx urgent wg gang d quads (s : State),
    s.msgs[n]? = some (.am core handler payload fc fm fctx urgent wg gang d quads) → (s.amWaits.filter fun x => x.core == core).length < 64 →
      amEarlier s n core wg gang urgent = false →
    (let e := ctlGet s (0x7F0000400000 + 0x800 * core + 8 * handler)
    let ctx := (e.extractLsb' 48 16).toNat
    let answered (st : Nat) : State := { s with msgs := dropNth s.msgs n ++ [.amReply wg gang d quads st] }
    (e.getLsbD 0 = false ∨ ctxValid s ctx = false → exec (.amAccept n) s = .next (answered 1)) ∧
    (e.getLsbD 0 = true → ctxValid s ctx = true → ctxTenant s ctx ≠ ctxTenant s fctx → exec (.amAccept n) s = .next (answered 3)) ∧
    (e.getLsbD 0 = true → ctxValid s ctx = true → ctxTenant s ctx = ctxTenant s fctx →
      (kernelOf s (e.extractLsb' 16 16).toNat = none → exec (.amAccept n) s = .next (answered 1)) ∧
      (∀ im k, kernelOf s (e.extractLsb' 16 16).toNat = some (im, k) →
        (1 < descGangs s k ∨ descScratch s k < 512 → exec (.amAccept n) s = .next (answered 4)) ∧
        (descGangs s k ≤ 1 → 512 ≤ descScratch s k → ∃ t, exec (.amAccept n) s = .next t ∧ t.msgs = (answered 0).msgs ∧ t.wgs = s.wgs ∧
          ∃ x, t.amWaits = s.amWaits ++ [x] ∧ x.core = core ∧ x.ctx = ctx ∧ x.urgent = urgent ∧ x.payload = payload ∧ x.image = im.num ∧
            x.pri = (e.extractLsb' 45 3).toNat ∧ (fc < 2 ^ 10 → fm < 2 ^ 9 → fctx < 2 ^ 16 → payload.length < 2 ^ 29 →
              x.sender.toNat = fc + fm * 2 ^ 10 + fctx * 2 ^ 19 + payload.length * 2 ^ 35)))))) ∧
  (∀ n wg gang d quads status w (s : State), s.msgs[n]? = some (.amReply wg gang d quads status) → findWg s wg = some w →
    ∃ t w', exec (.amReply n) s = .next t ∧ t.msgs = dropNth s.msgs n ∧ t.mem = s.mem ∧ findWg t wg = some w' ∧
      (gangOf w' gang).lanes = (gangOf w gang).lanes ∧ ∀ q, q < 8 → ∀ r,
        (sreg (quadOf (gangOf w' gang) q) r, sempty (quadOf (gangOf w' gang) q) r) =
          if quads.getLsbD q = true ∧ r = d then (BitVec.ofNat 64 status, false)
          else (sreg (quadOf (gangOf w gang) q) r, sempty (quadOf (gangOf w gang) q) r))

/-- R204, R355 to R358, R390: SPAWN takes the lowest free child slot, or answers all ones, and lends its hanks, an X hank's dirty sectors going home
and a shared one as a copy that names no parent; WAITCH waits for the slots it
names, reads how they ended and frees them. A workgroup whose gangs have exited and whose work is done returns its grants and stays until they
are back; then it leaves its core, and the slot of a child shows how it ended. -/
def Obligations.Children : Prop :=
  (∀ (g : Guard) (f : FmtT) (h : Here) (s : State), mainLanes h g ≠ 0#32 →
    (Ready (.spawn g f) g h s →
      (let a := (srcS h f.a.toNat).toNat
      let b := (srcS h f.b.toNat).toNat
      let lent (i : Nat) : Hank := getHank h.w h.iss.gang (16 + i)
      a < 2 ^ 16 → b % 8 = 0 → b + 256 ≤ h.w.scratchSize →
        opWaits h (trueMask h g) false false 0#3 s = false →
        (∀ i, i < 8 → f.mod.getLsbD i = true → (lent i).rebs = 0#4 ∧ (lent i).eng = 0#6 ∧ (lent i).pending = false) →
        coreAccess h.w (lentRanges s h.w h.iss.gang f) = false →
        ∀ im k, kernelOf s a = some (im, k) → childTooBig s k = false →
          ((∀ n, n < 16 → childOf h.w n ≠ .free) → ∃ t, exec (.spawn g f) s = .next t ∧ ScalDone g h s t f.d.toNat (BitVec.allOnes 64)) ∧
          (∀ n, n < 16 → childOf h.w n = .free → (∀ j, j < n → childOf h.w j ≠ .free) → ∃ t, exec (.spawn g f) s = .next t ∧
            PlainLanes h s t ∧ IssueOn h s t ∧ GangOn h s t 0#5 0#4 ∧ ScalQuads g h s t f.d.toNat (BitVec.ofNat 64 n) ∧
            (let moved := (((List.range 8).filter fun i => f.mod.getLsbD i && (lent i).kind == 1#2).flatMap fun i => hankExtents s h.w.ctx (lent i)).foldl
              (fun s x => writeBack s h.core x.1 x.2) s
            Elsewhere (h.withW { h.w with nonIdem := true, children := (wgAt t h).children, w := (wgAt t h).w })
              { moved with seq := s.seq + 1, childReqs := t.childReqs, images := t.images } t) ∧
            (∀ j, j < 16 → childOf (wgAt t h) j = if j = n then .running 0 else childOf h.w j) ∧
            (∀ i, i < 24 → getHank (wgAt t h) h.iss.gang i = if 16 ≤ i ∧ f.mod.getLsbD (i - 16) = true ∧ (lent (i - 16)).kind = 1#2 then
              { lent (i - 16) with pending := true } else getHank h.w h.iss.gang i) ∧
            ∃ r, t.childReqs = s.childReqs ++ [r] ∧ r.parent = h.iss.wg ∧ r.slot = n ∧ r.image = im.num ∧ r.args = gets0 h.w.scratch b 256 ∧
              (∀ i, i < 8 → r.lend.getLsbD i = (f.mod.getLsbD i && (lent i).kind == 1#2)) ∧
              r.hanks = (((List.range 8).filter fun i => f.mod.getLsbD i).map fun i => (i, if (lent i).kind = 1#2 then { lent i with eng := 0#6, rebs := 0#4 }
                else { lent i with eng := 0#6, rebs := 0#4, lent := false, pgang := 0#4, phank := 0#5 }))))) ∧
    (Ready (.waitch g f) g h s →
      (let one := f.mod.getLsbD 0
      let x := (srcS h f.a.toNat).toNat
      let named (n : Nat) : Bool := n < 16 && if one then n == x else x.testBit n
      let slots : BitVec 16 := if one then 1#16 <<< x else BitVec.ofNat 16 x
      let code (n : Nat) : Nat × Nat := match childOf h.w n with
        | .done => (1, 0)
        | .faulted r => (2, r)
        | .killed r => (3, r)
        | _ => (0, 0)
      (if one then x < 16 else x < 65536) →
        ((∃ n j, named n = true ∧ childOf h.w n = .running j) → ∃ t, exec (.waitch g f) s = .next t ∧
          HeldLanes h s t (fun _ => true) (.waiting (.child slots one f.d.toNat (dstQuads h))) ∧ QuadsKept h s t ∧ IssueLeft h s t 0#32 ∧
          Elsewhere h s t) ∧
        ((∀ n j, named n = true → childOf h.w n ≠ .running j) → ∃ t v, exec (.waitch g f) s = .next t ∧ ScalQuads g h s t f.d.toNat v ∧
          PlainLanes h s t ∧ GangOn h s t 0#5 0#4 ∧ IssueOn h s t ∧ Elsewhere (h.withW { h.w with children := (wgAt t h).children }) s t ∧
          (∀ n, n < 16 → childOf (wgAt t h) n = if named n then .free else childOf h.w n) ∧
          (v.msb = true ↔ ∃ n, named n = true ∧ 2 ≤ (code n).1) ∧
          (one = true → v.toNat % 2 ^ 63 = (code x).1 * 2 ^ 32 + (code x).2 % 2 ^ 32) ∧
          (one = false → ∀ n, n < 16 → v.toNat / 4 ^ n % 4 = if named n then (code n).1 else 0))))) ∧
  (∀ (wg : Nat) (w : Wg) (s : State), findWg s wg = some w →
    (mayEnd (tryReturns s) w = true →
      (grantsOf s wg = [] →
        (∀ l i, w.kind = .grid l i → ∃ t, exec (.workgroupEnd wg) s = .next t ∧ findWg t wg = none ∧
          ((findLaunch t l).map fun x => (x.endedWgs, x.badWgs)) = (findLaunch s l).map fun x => (x.endedWgs + 1, x.badWgs)) ∧
        (w.kind = .handler → ∃ t, exec (.workgroupEnd wg) s = .next t ∧ findWg t wg = none) ∧
        (∀ p k, w.kind = .child p k → ∃ t, exec (.workgroupEnd wg) s = .next t ∧ (findWg t wg).map (fun x => x.st) = some WgSt.ended)) ∧
      (grantsOf s wg ≠ [] → s.rets = [] → ∃ t, exec (.workgroupEnd wg) s = .next t ∧ (findWg t wg).map (fun x => x.st) = some w.st)) ∧
    (∀ p k, w.kind = .child p k → w.st = .ended → ∃ t, exec (.childEnd wg) s = .next t ∧ findWg t wg = none ∧
      ∀ parent, p ≠ wg → findWg s p = some parent → (∀ g ∈ parent.gangs, ∀ l ∈ g.lanes, childWait l = none) →
        (findWg t p).map (fun x => childOf x k) =
          some (if w.killed then .killed w.record else if w.faulted then .faulted w.record else .done)))

/-! The fabric. -/

/-- R370 to R372, R380, R382, R383: an XFER that passes its checks joins the module's transfers with the operands of its word and every packet still
to be answered; ENG of its source rises, dirty source sectors go home, and its status register is empty. A collective that passes its checks takes
the lowest free of eight handles, which D receives, or with none free gives D all ones; it takes the next number on its group, raises ENG of its
hanks, sends its first exchange, with its group entry and its parameters, to every other member, and begins, writing its whole record, where the
accesses before it have performed. CQRY reads the status word of a handle, CODE 7 where it names nothing; CWAIT reads it once the collective has
ended, freeing the handle, and until then its lanes wait. -/
def Obligations.FabricWords : Prop :=
  ∀ (g : Guard) (f : FmtT) (h : Here) (s : State), mainLanes h g ≠ 0#32 →
    (let named (t : State) (hanks : List Nat) : Prop := GangHas h s t { gangAt s h with h := (gangAt t h).h } ∧
      ∀ n, n < 24 → (let k := getHank h.w h.iss.gang n
        getHank (wgAt t h) h.iss.gang n = if n ∈ hanks then { k with eng := k.eng + 1#6 } else k)
    (let remote := srcS h f.c.toNat
    let c := srcS h (f.c.toNat + 1)
    let len := (srcS h (f.b.toNat + 1)).toNat % 2 ^ 32
    let top := (srcS h (f.b.toNat + 1)).toNat / 2 ^ 32
    Ready (.xfer g f) g h s → (srcS h (f.c.toNat + 3)).msb = true ∨ opWaits h (trueMask h g) false false 0#3 s = false → xferCheck (wordOf (.xfer g f)) f h s = none → f.a.toNat < 24 → (getHank h.w h.iss.gang f.a.toNat).eng ≠ 63#6 →
      ∃ t x, exec (.xfer g f) s = .next t ∧ x.wg = h.iss.wg ∧ x.gang = h.iss.gang ∧ x.len = len ∧
        x.valid = min len (if top = 2 ^ 32 - 1 then len else top) ∧ x.remote = remote ∧ x.module = c.toNat % 2 ^ 9 ∧
        x.ticket = c.toNat / 2 ^ 9 % 2 ^ 16 ∧ x.rcounter = srcS h (f.c.toNat + 2) ∧ x.lcounter = srcS h (f.c.toNat + 3) ∧
        x.left = List.range ((remote.toNat % 256 + len + 255) / 256) ∧ x.bad = [] ∧ x.sent = [] ∧ x.d = f.d.toNat ∧ x.quads = dstQuads h ∧
        named t [f.a.toNat] ∧ MarkQuads h s t f.d.toNat 1 ∧ PlainLanes h s t ∧ IssueOn h s t ∧
        Elsewhere (h.withW { h.w with nonIdem := true, w := (wgAt t h).w })
          { flushRanges h.core h.w.ctx s [(hankAddr h f.a.toNat (srcS h f.b.toNat).toNat, x.valid)] with seq := s.seq + 1, xfers := s.xfers ++ [x] } t) ∧
    (∀ i op, (i, op) ∈ [(Instr.cred g f, CollOp.red (f.mod.extractLsb' 10 2) (f.mod.getLsbD 12) (f.mod.getLsbD 13)), (.cbcast g f, .bcast),
        (.cgath g f, .gath)] →
      (let a := collArgs op f h s
      let hanks := ([a.inH, a.outH, a.recH].filter fun n => n != 31).dedup
      Ready i g h s → collCheck (wordOf i) f a h s = none → (s.colls.filter fun c => c.code == 1).length < 16 →
        (∀ n ∈ hanks, n < 24 ∧ (getHank h.w h.iss.gang n).eng ≠ 63#6) →
        ((∀ k, k < 8 → tget none h.w.colls k ≠ none) → ∃ t, exec i s = .next t ∧ ScalDone g h s t f.d.toNat (BitVec.allOnes 64)) ∧
        (∀ k, k < 8 → tget none h.w.colls k = none → (∀ j, j < k → tget none h.w.colls j ≠ none) →
          (let input := if hasInput a.op a.rank a.target then blockLen a.op a.n else 0
          let starts (t : State) (c : Coll) (recorded : State → State) : Prop := c.id = s.seq ∧ c.wg = h.iss.wg ∧ c.gang = h.iss.gang ∧ c.code = 1 ∧
            c.group = a.group ∧ c.number = collIssued s a.group ∧ c.members = groupMembers s a.group ∧ c.hanks = hanks ∧ (∀ m ∈ c.marks, m = 0) ∧
            c.marks.length = chunkCount a.op a.n a.chunk a.members.length ∧ named t hanks ∧ PlainLanes h s t ∧ IssueOn h s t ∧
            ScalQuads g h s t f.d.toNat (BitVec.ofNat 64 k) ∧ (∃ more, t.collTold = s.collTold ++ more) ∧
            (∀ m ∈ a.members, m ≠ s.module → ∃ x, (m, x) ∈ t.collTold ∧ x.group = a.group ∧ x.number = collIssued s a.group ∧ x.sender = s.module ∧
              x.epoch = 0 ∧ x.entry = groupEntry s a.group ∧ x.params = c.params ∧ x.lost = [] ∧ x.mismatch = false ∧ x.allDone = false) ∧
            Elsewhere (h.withW { h.w with nonIdem := true, w := (wgAt t h).w, colls := tset none h.w.colls k (some s.seq) })
              (recorded { flushRanges h.core h.w.ctx s [(a.inA, input)] with
                seq := s.seq + 1, colls := s.colls ++ [c], collTold := t.collTold
                collNo := (a.group, collIssued s a.group + 1) :: s.collNo.filter fun x => x.1 != a.group }) t
          (∃ t, exec i s = .next t ∧ collIssued t a.group = collIssued s a.group + 1) ∧
          (forkReady h.g s.seq h.iss.lanes = false → ∃ t c, exec i s = .next t ∧ c.begun = false ∧ starts t c id) ∧
          (forkReady h.g s.seq h.iss.lanes = true → (∀ x ∈ s.collExs, x.group = a.group → x.number ≠ collIssued s a.group) →
              a.members.any (showsLost s) = false → (treeSet s a.members).1 ≠ [] → findColl s s.seq = none →
            ∃ t c, exec i s = .next t ∧ c.begun = true ∧ c.trees = (treeSet s a.members).1 ∧
              starts t c fun s1 => writeVirtual s1 h.w.ctx a.recA (recordOf c)))))) ∧
    (let k := (srcS h f.a.toNat).toNat
    k < 8 →
      (handleColl s h.w k = none →
        (Ready (.cwait g f) g h s → ∃ t, exec (.cwait g f) s = .next t ∧ ScalDone g h s t f.d.toNat (7#64 <<< 56)) ∧
        (Ready (.cqry g f) g h s → ∃ t, exec (.cqry g f) s = .next t ∧ ScalDone g h s t f.d.toNat (7#64 <<< 56))) ∧
      (∀ c, handleColl s h.w k = some c →
        (let v := BitVec.ofNat 64 (c.code * 2 ^ 56 + min 255 c.recomp * 2 ^ 40 + (c.marks.count 2) * 2 ^ 20 + c.marks.length)
        (Ready (.cqry g f) g h s → ∃ t, exec (.cqry g f) s = .next t ∧ ScalDone g h s t f.d.toNat v) ∧
        (Ready (.cwait g f) g h s →
          (c.code = 1 → ∃ t, exec (.cwait g f) s = .next t ∧ HeldLanes h s t (fun _ => true) (.waiting (.coll k f.d.toNat (dstQuads h))) ∧
            QuadsKept h s t ∧ IssueLeft h s t 0#32 ∧ Elsewhere h s t) ∧
          (c.code ≠ 1 → ∃ t, exec (.cwait g f) s = .next t ∧ ScalQuads g h s t f.d.toNat v ∧ PlainLanes h s t ∧ GangOn h s t 0#5 0#4 ∧ IssueOn h s t ∧
            tget none (wgAt t h).colls k = none ∧ (∀ j, j ≠ k → tget none (wgAt t h).colls j = tget none h.w.colls j) ∧
            Elsewhere (h.withW { h.w with colls := (wgAt t h).colls }) { s with colls := t.colls } t))))))

/-- R364 to R369: the link layer. A flit that is corrupt, a duplicate or beyond the window only counts towards the next acknowledgement; the next in
order is delivered, or goes on with its packet, and a later one is kept. An acknowledgement removes what it names. A link locks where the versions
meet and fails otherwise, or after its third attempt without lock; one that loses lock trains again. A request without an answer 20 µs after its
plane failed goes out on the plane that its address now selects. A slot reservation is granted whole or refused. -/
def Obligations.LinkSteps : Prop :=
  ∀ (s : State) (p : Nat), p < 48 →
    (let l := linkOf s p
    let only (t : State) (l' : Link) : Prop := linkOf t p = l' ∧ (∀ q, q < 48 → q ≠ p → linkOf t q = linkOf s q) ∧
      t = { s with links := t.links, deadPlanes := t.deadPlanes, msgs := t.msgs }
    let noted (l : Link) : Link := if 64 ≤ l.acks then { l with acks := 0, ackOut := some (ackOf l) } else l
    (l.st = .up →
      (∀ x : Flit, x.crcOk = false ∨ l.rxBuf.any (fun y => y.seq == x.seq) = true ∨ 512 ≤ (x.seq - l.rxNext).toNat →
        ∃ t, exec (.flitReceive p x) s = .next t ∧ only t (noted { l with acks := l.acks + 1 })) ∧
      (∀ x : Flit, x.crcOk = true → x.seq = l.rxNext → l.rxBuf = [] →
        (let l' := noted { l with acks := l.acks + 1, rxNext := l.rxNext + 1#12, crossing := (if x.last then [] else l.crossing ++ [x.payload])
                                  delivered := (if x.last then l.delivered + 1 else l.delivered) }
        (x.last = false ∨ x.onward = none → ∃ t, exec (.flitReceive p x) s = .next t ∧ only t l') ∧
        (∀ q, x.last = true → x.onward = some q → q < 48 → q ≠ p → ∃ t, exec (.flitReceive p x) s = .next t ∧ linkOf t p = l' ∧
          linkOf t q = pumped q { linkOf s q with outbox := (linkOf s q).outbox ++ [(l.crossing ++ [x.payload]).flatten] }))) ∧
      (∀ x : Flit, x.crcOk = true → l.rxBuf = [] → 1 ≤ (x.seq - l.rxNext).toNat → (x.seq - l.rxNext).toNat < 512 →
        ∃ t, exec (.flitReceive p x) s = .next t ∧ only t (noted { l with acks := l.acks + 1, rxBuf := [x] })) ∧
      (0 < l.acks → ∃ t, exec (.ackSend p) s = .next t ∧ only t { l with acks := 0, ackOut := some (ackOf l) }) ∧
      (∀ seq bitmap, l.outbox = [] → (∀ x ∈ l.unacked, acked seq bitmap x.seq = true) → ∃ t, exec (.ackReceive p seq bitmap) s = .next t ∧
        only t { l with unacked := [], resends := [] }) ∧
      (∀ seq bitmap, ∃ t, exec (.ackReceive p seq bitmap) s = .next t ∧ (l.outbox = [] → (linkOf t p).unacked = l.unacked.filter fun x => !acked seq bitmap x.seq)) ∧
      (∃ t, exec (.lossOfLock p) s = .next t ∧ only t { l with st := .retrain, attempts := 0 })) ∧
    (l.st = .train → l.outbox = [] → ∀ lo hi, (lo ≤ 1 ∧ 1 ≤ hi → ∃ t, exec (.linkLock p lo hi) s = .next t ∧ only t { st := .up, version := 1, delivered := l.delivered }) ∧
      (¬(lo ≤ 1 ∧ 1 ≤ hi) → ∃ t, exec (.linkLock p lo hi) s = .next t ∧ only t { l with st := .failed })) ∧
    (l.st = .retrain → l.outbox = [] → ∀ lo hi, ∃ t, exec (.linkLock p lo hi) s = .next t ∧ only t { l with st := .up, attempts := 0, resends := [] }) ∧
    (l.st = .train ∨ l.st = .retrain →
      (l.attempts < 2 → ∃ t, exec (.trainingTimeout p) s = .next t ∧ only t { l with attempts := l.attempts + 1 }) ∧
      (2 ≤ l.attempts → ∃ t, exec (.trainingTimeout p) s = .next t ∧ only t { l with st := .failed, attempts := 3 })) ∧
    (l.st = .down ∨ l.st = .failed → (p = 39 → Config.podHas (s.module ^^^ 4) = true) → ∃ t, exec (.portEnable p) s = .next t ∧ only t { l with st := .train, attempts := 0 }) ∧
    (∀ tag w gang a, findWg s tag = some w → gang < w.ngangs → findPend (gangOf w gang) a.seq = some a → overdue s p a = true →
      ∃ t, exec (.planeResendTimeout p) s = .next t ∧ t.mem = s.mem ∧
        ((findWg t tag).bind fun w => findPend (gangOf w gang) a.seq) = some { a with plane := planeOf s a.pa } ∧
        (a.sent = false → a.kind ≠ .reply → a.kind ≠ .posted → a.kind ≠ .clean → Msg.memReq tag gang a.seq ∈ t.msgs)) ∧
    (∀ i, (p, i) ∉ s.tokens → exec (.starvationToken p i) s = .next { s with tokens := s.tokens ++ [(p, i)] }) ∧
    (∀ ls ks, (ls.length = ks.length ∧ ∀ x ∈ ls.zip ks, x.2 < 64 ∧ x.2 ≠ 0 ∧ x.2 ≠ 32 ∧ x ∉ s.slotRes) →
      ∃ t, exec (.slotReservation ls ks) s = .next t ∧ ∀ x, x ∈ t.slotRes ↔ x ∈ s.slotRes ∨ x ∈ ls.zip ks) ∧
    (∀ ls ks, ¬(ls.length = ks.length ∧ ∀ x ∈ ls.zip ks, x.2 < 64 ∧ x.2 ≠ 0 ∧ x.2 ≠ 32 ∧ x ∉ s.slotRes) →
      exec (.slotReservation ls ks) s = .next s))

/-- R371 to R373, R377 to R379, R381, R384, R385: the steps of transfers and collectives. A packet whose extents an X entry of its context and ticket
covers is written there and credited; an empty one is only credited, and one that no entry takes does nothing. A packet of this module leaves with
the bytes of its source, read once (log entry 117), and is answered after that: the last answer fills the status register. Packets and exchanges of a
collective that this module has not issued wait (log entry 97); one of a lower epoch is discarded, of a higher one held. A mismatch ends the collective
with CODE 5, a silent member with CODE 3, told to the others, and the confirmation of every member with CODE 0; a higher epoch is taken over, and
what is not DONE restarts.
What the chunks hold (R375, R376, R380, R381, R383): A member's own contribution is its input, read once in an attempt and sent to
the chunk's root; poison in it ends the collective with CODE 4. At the root the last contribution of a reduction makes the result: for a sum the
inputs widened to FP32 and added rank by rank, each sum rounded to the nearest even, then rounded once to BF16 where that is the format; for a maximum
or minimum one of the inputs. The result goes to every other member, or of a reduction that is not for all to its target, and where the root itself
writes an output its chunk is DONE, else REDUCED. A RESULT packet's bytes stand in the output of the member, and its chunk is DONE. -/
def Obligations.FabricSteps : Prop :=
  (∀ (s : State),
    (∀ p e w core k, landing s p.ctx p.ticket [(k, p.data.length)] = some e → extentsOf s p.ctx p.addr.toNat p.data.length = .ok [(k, p.data.length)] →
        p.data ≠ [] → findWg s e.wgtag = some w → coreOf w = some core → isDram (k + p.data.length) = true → meetsImages s k p.data.length = false →
        (∀ c ∈ s.l1 ++ s.slices, c.data.length = 64) → landingEntry s p.ctx p.ticket [] = some e →
        (∀ r, findGrant s p.ctx p.ticket = some r → ∀ x ∈ r.wrote, rangesMeet x.1 x.2 k p.data.length = false) →
      ∃ t, exec (.xferPacket p) s = .next t ∧ homeBytes t k p.data.length = p.data) ∧
    (∀ p, landingEntry s p.ctx p.ticket [] = none → p.data = [] ∨ (∀ xs, extentsOf s p.ctx p.addr.toNat p.data.length ≠ .ok xs) →
      exec (.xferPacket p) s = .next s) ∧
    (∀ p e w core, landingEntry s p.ctx p.ticket [] = some e → p.data = [] → p.counter.msb = false → findWg s e.wgtag = some w → coreOf w = some core →
      exec (.xferPacket p) s = .next (credit s e.wgtag p.counter.toNat p.credit)) ∧
    (∀ n id p x w core, (packetsOut s)[n]? = some (id, p) → (s.xfers.find? fun x => x.id == id) = some x → findWg s x.wg = some w → coreOf w = some core →
        xferReady w x = true →
      (∀ st, st = 0 ∨ (st = 2 ∧ 0 < (packetSrc x p).2) → xferReaches s x.module = true → (x.sent.any fun y => y.1 == p) = true →
        ∃ t, exec (.xferAck n st) s = .next t ∧
        (x.left = [p] → x.bad = [] → (∀ y ∈ t.xfers, y.id ≠ id) ∧ ∃ w', findWg t x.wg = some w' ∧ ∀ q, q < 8 → x.quads.getLsbD q = true →
          sreg (quadOf (gangOf w' x.gang) q) x.d = BitVec.ofNat 64 st ∧ sempty (quadOf (gangOf w' x.gang) q) x.d = false) ∧
        ((∃ q ∈ x.left, q ≠ p) → ∃ y, (t.xfers.find? fun x => x.id == id) = some y ∧ y.left = x.left.filter fun q => q != p)) ∧
      (xferLinks s x.module ≠ [] →
        (∀ y, (x.sent.find? fun y => y.1 == p) = some y → ∃ t, exec (.xferResend n) s = .next t ∧ t = { s with links := t.links }) ∧
        (∀ bs, (x.sent.find? fun y => y.1 == p) = none → (getHank w x.gang x.hank).revoked = false → poisoned s w.ctx [packetSrc x p] = false →
            unreached s w.ctx [packetSrc x p] = false → (∀ e ∈ extentsD s w.ctx (packetSrc x p).1 (packetSrc x p).2, e.1 < 2 ^ 48) →
            packetData s core w.ctx (areaAddr (some x.sbase) x.soff) (packetAt x.remote.toNat x.len p).1 (packetAt x.remote.toNat x.len p).2 x.valid =
              some bs →
          ∃ t, exec (.xferResend n) s = .next t ∧ t = { s with links := t.links, xfers := t.xfers } ∧
            (t.xfers.find? fun x => x.id == id).map (fun x => x.sent) = some (x.sent ++ [(p, bs)])))) ∧
    (∀ p : CollPacket, (collOf s p.group p.number = none → p.sender ≠ s.module → collIssued s p.group ≤ p.number → groupValid s p.group = true →
        p ∉ s.collPkts → exec (.collectivePacket p) s = .next { s with collPkts := s.collPkts ++ [p] }) ∧
      ∀ c, collOf s p.group p.number = some c → c.code = 1 → p.sender ≠ s.module →
        (p.epoch < c.epoch → ∃ t, exec (.collectivePacket p) s = .next t ∧ t.mem = s.mem ∧ t.collPkts = s.collPkts.erase p ∧
          (findColl t c.id).map (fun x => (x.marks, x.contrib, x.held)) = some (c.marks, c.contrib, c.held.erase p)) ∧
        (c.epoch < p.epoch → p ∉ c.held → ∃ t, exec (.collectivePacket p) s = .next t ∧ t.mem = s.mem ∧
          (findColl t c.id).map (fun x => (x.marks, x.contrib, x.held)) = some (c.marks, c.contrib, c.held ++ [p]))) ∧
    (∀ x : CollExchange,
      (collOf s x.group x.number = none → collIssued s x.group ≤ x.number → groupValid s x.group = true ∨ s.module ∉ x.entry.drop 1 →
        exec (.epochExchange x) s = .next { s with collExs := s.collExs ++ [x] }) ∧
      (collOf s x.group x.number = none → collIssued s x.group ≤ x.number → groupValid s x.group = false → s.module ∈ x.entry.drop 1 →
        ∃ t, exec (.epochExchange x) s = .next t ∧ ∀ m ∈ x.entry.drop 1, m ≠ s.module → ∃ y, (m, y) ∈ t.collTold ∧ y.mismatch = true ∧ y.group = x.group) ∧
      (∀ c, collOf s x.group x.number = some c → c.begun = false → ∃ t, exec (.epochExchange x) s = .next t ∧ t.collExs = s.collExs ++ [x] ∧ t.mem = s.mem) ∧
      ∀ c w, collOf s x.group x.number = some c → findColl s c.id = some c → findWg s c.wg = some w → c.code = 1 → c.begun = true →
        (x.mismatch = true ∨ x.entry ≠ groupEntry s c.group ∨ x.params ≠ c.params →
          ∃ t, exec (.epochExchange x) s = .next t ∧ (∀ y, findColl t c.id = some y → y.code = 5) ∧
            (x.mismatch = false → ∀ m ∈ c.members, m ≠ s.module → ∃ y, (m, y) ∈ t.collTold ∧ y.mismatch = true)) ∧
        (x.mismatch = false → x.entry = groupEntry s c.group → x.params = c.params → (∀ m ∈ x.lost, m ∉ c.members) →
          (x.epoch ≤ c.epoch → x.allDone = true →
            ∃ t, exec (.epochExchange x) s = .next t ∧ ∃ y, findColl t c.id = some y ∧ x.sender ∈ y.confirmed ∧ x.sender ∈ y.met ∧ y.marks = c.marks) ∧
          (c.epoch < x.epoch → (treeSet s c.members).1 ≠ [] → ∃ t, exec (.epochExchange x) s = .next t ∧
            (∀ m ∈ c.members, m ≠ s.module → ∃ y, (m, y) ∈ t.collTold ∧ y.epoch = x.epoch) ∧
            ∃ y, findColl t c.id = some y ∧ y.epoch = x.epoch ∧ y.given = [] ∧ y.contrib = [] ∧ y.marks = c.marks.map fun m => if m = 2 then 2 else 0))) ∧
    (∀ id c w, findColl s id = some c → findWg s c.wg = some w → c.begun = false → collReady s c = true →
      ∃ t, exec (.confirmationRound id) s = .next t ∧ ∀ y, findColl t id = some y → y.begun = true) ∧
    (∀ id c w, findColl s id = some c → findWg s c.wg = some w → c.code = 1 → c.begun = true →
      (∀ m, m ∈ c.members → m ≠ s.module → silent s c m = true → ∃ t, exec (.memberLostTimeout id m) s = .next t ∧
        (∀ y, findColl t id = some y → y.code = 3) ∧ ∀ q ∈ c.members, q ≠ s.module → ∃ y, (q, y) ∈ t.collTold ∧ y.lost = [m]) ∧
      ((∀ m ∈ c.marks, m = 2) → (∀ m ∈ c.members, m = s.module ∨ m ∈ c.confirmed) →
        ∃ t, exec (.confirmationRound id) s = .next t ∧ ∀ y, findColl t id = some y → y.code = 0)) ∧
    (∀ m p st, m ≤ 287 → p < 40 → st = .up ∨ st = .failed → (m = s.module → (linkOf s p).st = st) → ∃ t, exec (.linkNotice m p st) s = .next t ∧
      liveUp t m p = (st == .up) ∧ ((∀ c ∈ s.colls, c.code ≠ 1) → t = { s with live := t.live }))) ∧
  (∀ (p : CollPacket) (c : Coll) (w : Wg) (core : Nat) (s : State), collOf s p.group p.number = some c → findColl s c.id = some c → c.code = 1 →
    findWg s c.wg = some w → coreOf w = some core → p.epoch = c.epoch → c.begun = true → allMet s c = true → (∀ n ∈ c.hanks, (getHank w c.gang n).revoked = false) →
    p.chunk < c.marks.length → c.n = c.members.length → c.rank < c.n → c.members.findIdx (fun m => m == s.module) = c.rank → p.sender ∈ c.members →
    (let root := chunkRoot c p.chunk
    let from_ := c.members.findIdx fun m => m == p.sender
    let span := chunkSpan c p.chunk
    let module (r : Nat) : Nat := tget 0 c.members r
    let markOf (t : State) : Option Nat := (findColl t c.id).map fun y => tget 0 y.marks p.chunk
    (∀ op bf all k a, p.sender = s.module → c.op = .red op bf all → p.chunk ∉ c.given → c.inVa = some a →
        extentsD s w.ctx (a + span.1) span.2.2 = [(k, span.2.2)] → k + span.2.2 ≤ 2 ^ 48 → root ≠ c.rank → module root ≠ s.module →
      (deadIn s k span.2.2 = true → ∃ t, exec (.collectivePacket p) s = .next t ∧ ∀ y, findColl t c.id = some y → y.code = 4) ∧
      (deadIn s k span.2.2 = false → ∃ t q, exec (.collectivePacket p) s = .next t ∧ t.collSent = s.collSent ++ [(module root, q)] ∧
        q.kind = .contribution ∧ q.chunk = p.chunk ∧ q.epoch = c.epoch ∧ q.data = (List.range span.2.2).map (fun i => engByte s core (k + i)) ∧
        (findColl t c.id).map (fun y => y.given) = some (p.chunk :: c.given))) ∧
    (∀ op bf all, p.sender ≠ s.module → c.op = .red op bf all → p.kind = .contribution → root = c.rank → p.data.length = span.2.2 →
      (let esz := if bf then 2 else 4
      let fmt := if bf then bf16 else fp32
      let input (r : Nat) : Option (List Byte) := if r = from_ then some p.data else (c.contrib.find? fun x => x.1 == p.chunk && x.2.1 == r).map fun x => x.2.2
      let elem (bs : List Byte) (e : Nat) : Nat := leNat ((bs.drop (esz * e)).take esz)
      ((∃ r, r < c.n ∧ input r = none) → ∃ t, exec (.collectivePacket p) s = .next t ∧ t.collSent = s.collSent ∧
        (findColl t c.id).map (fun y => y.contrib) =
          some ((p.chunk, from_, p.data) :: c.contrib.filter fun x => !(x.1 == p.chunk && x.2.1 == from_))) ∧
      (∀ xs : Nat → List Byte, (∀ r, r < c.n → input r = some (xs r) ∧ (xs r).length = span.2.2) → span.2.2 % esz = 0 → c.n ≠ 0 →
        ∃ t data, exec (.collectivePacket p) s = .next t ∧ data.length = span.2.2 ∧
          (∀ r, r < c.n → module r ≠ s.module → (all = true ∨ r = c.target) → ∃ q, (module r, q) ∈ t.collSent ∧ q.kind = .result ∧ q.chunk = p.chunk ∧
            q.epoch = c.epoch ∧ q.data = data) ∧
          (tget 0 c.marks p.chunk ≠ 2 → markOf t = some (if c.outVa.isSome then 2 else 1)) ∧
          ∀ e, e < span.2.2 / esz → ∀ v : Nat → Rat, (∀ r, r < c.n → ratOf (unpack fmt (elem (xs r) e)) = some (v r)) →
            (op = 0#2 → ∀ x, ChainSum v (c.n - 1) x →
              (bf = false → ratOf (unpack fp32 (elem data e)) = some x) ∧ (bf = true → ¬overTop bf16 0 x → Nearest bf16 x (elem data e))) ∧
            (op ≠ 0#2 → ∃ r, r < c.n ∧ ratOf (unpack fmt (elem data e)) = some (v r) ∧
              ∀ i, i < c.n → if op = 1#2 then v i ≤ v r else v r ≤ v i)))) ∧
    (∀ out k, p.sender ≠ s.module → p.kind = .result → from_ = root → c.outVa = some out → p.data.length = span.2.2 →
        extentsD s w.ctx (out + span.2.1) span.2.2 = [(k, span.2.2)] → isDram (k + span.2.2) = true → meetsImages s k span.2.2 = false →
        (∀ e ∈ extentsD s w.ctx c.recVa (recordBytes c.marks.length), rangesMeet e.1 e.2 k span.2.2 = false) →
        (∀ x ∈ s.l1 ++ s.slices, x.data.length = 64) → Tidy s →
      ∃ t, exec (.collectivePacket p) s = .next t ∧ homeBytes t k span.2.2 = p.data ∧ markOf t = some 2) ∧
    (∀ op bf, p.sender ≠ s.module → c.op = .red op bf false → p.kind = .announce → from_ = c.target → c.outVa = none →
      ∃ t, exec (.collectivePacket p) s = .next t ∧ markOf t = some 2)))

/-! System words. -/

/-- R37, R230, R407 to R409, R412: CSRR reads and CSRW writes a status register, lane by lane or for the gang, FPCTL and MFLAGS as the
issue ends; each lane of a vector destination gets its own value, and a gang's register takes the value of the leading lane (log entry 54); the .ctl
forms reach control space; TIMEW blocks its lanes until an instant of TIME1588, and past it parks those that a HALTG had found blocked (R410). -/
def Obligations.StatusWords : Prop :=
  ∀ (g : Guard) (f : FmtS) (h : Here) (s : State), mainLanes h g ≠ 0#32 →
    (let n := if f.imm = 2#16 then 2 else 1
    let seen := flagWrites h.iss.fops (h.g.fpctl, h.g.mflags)
    (∀ p ∈ ([(1, fun k _ => k), (2, fun k _ => k / 4), (0x21, fun _ l => l.hact.toNat * 256 + l.fcode.toNat), (0x23, fun _ l => l.tpc.toNat),
        (0x24, fun _ l => l.tinfo.toNat)] : List (Nat × (Nat → Lane → Nat))), f.csrn.toNat = p.1 → Ready (.csrr g f) g h s →
      ∃ t, exec (.csrr g f) s = .next t ∧ VecLanesAt g h s t f.d.toNat n p.2 ∧ QuadsKept h s t ∧ GangOn h s t 0#5 0#4 ∧ IssueOn h s t ∧
        Elsewhere h s t) ∧
    (∀ p ∈ ([(0, 32), (3, h.iss.gang), (4, h.w.wgid), (5, h.w.skeinid), (6, h.w.grid.1), (7, h.w.grid.2.1), (8, h.w.grid.2.2), (9, h.w.gdim.1),
        (0xA, h.w.gdim.2.1), (0xB, h.w.gdim.2.2), (0xC, h.w.lanes), (0x10, seen.2.toNat), (0x11, seen.1.toNat), (0x20, h.w.parkt),
        (0x22, h.w.trapvec.toNat), (0x30, s.time1588.toNat), (0x31, 0x4131), (0x32, h.w.ctx), (0x33, effPri s h.w)] : List (Nat × Nat)),
        f.csrn.toNat = p.1 → p.2 < 2 ^ 64 → Ready (.csrr g f) g h s →
      (f.imm = 1#16 → ∃ t, exec (.csrr g f) s = .next t ∧ ScalDone g h s t f.d.toNat (BitVec.ofNat 64 p.2)) ∧
      (f.imm ≠ 1#16 → ∃ t, exec (.csrr g f) s = .next t ∧ VecDone g h s t f.d.toNat n fun _ => p.2)) ∧
    (f.csrn = 0x23#16 → Ready (.csrw g f) g h s → ∃ t, exec (.csrw g f) s = .next t ∧ QuadsKept h s t ∧ GangOn h s t 0#5 0#4 ∧ IssueOn h s t ∧
      Elsewhere h s t ∧ ∀ k, k < 32 → (h.iss.lanes.getLsbD k = false → laneAt t h k = laneAt s h k) ∧
        (h.iss.lanes.getLsbD k = true → laneAt t h k = { laneAt s h k with
          pc := (nextPc h).1, cbase := (nextPc h).2, since := (laneAt t h k).since,
          tpc := (if guardOn g (laneAt s h k) then BitVec.ofNat 64 (vregs (laneAt s h k) f.a.toNat n) else (laneAt s h k).tpc),
          tbase := (if guardOn g (laneAt s h k) then none else (laneAt s h k).tbase) })) ∧
    (let x := if f.imm = 1#16 then srcS h f.a.toNat else BitVec.ofNat 64 (vregs (laneAt s h (lowest (mainLanes h g))) f.a.toNat n)
    Ready (.csrw g f) g h s →
      (f.csrn = 0x10#16 → x.toNat < 16 → ∃ t, exec (.csrw g f) s = .next t ∧ PlainLanes h s t ∧ QuadsKept h s t ∧ Elsewhere h s t ∧
        IssueOn (h.withOps [.setMf (x.setWidth 4)]) s t ∧ GangHas (h.withOps [.setMf (x.setWidth 4)]) s t (gangAt s h)) ∧
      (f.csrn = 0x11#16 → x.toNat < 32 → ∃ t, exec (.csrw g f) s = .next t ∧ PlainLanes h s t ∧ QuadsKept h s t ∧ Elsewhere h s t ∧
        IssueOn (h.withOps [.setFp (x.setWidth 5)]) s t ∧ GangHas (h.withOps [.setFp (x.setWidth 5)]) s t (gangAt s h)) ∧
      (f.csrn = 0x22#16 → x &&& 0xFFF0000000000006#64 = 0#64 → ∃ t, exec (.csrw g f) s = .next t ∧ WgDone h s t s { h.w with trapvec := x }))) ∧
    (let a := srcS h f.a.toNat
    Ready (.csrrCtl g f) g h s → isCtl a.toNat = true → a.toNat % 8 = 0 → ctlFenced h.g h.iss.lanes = false → ∃ t, exec (.csrrCtl g f) s = .next t ∧
      ScalDone g h s t f.d.toNat (ctlRead s false a.toNat)) ∧
    (let a := srcS h f.d.toNat
    let v := srcS h f.a.toNat
    Ready (.csrwCtl g f) g h s → isCtl a.toNat = true → a.toNat % 8 = 0 → ctlFenced h.g h.iss.lanes = false → ∃ t, exec (.csrwCtl g f) s = .next t ∧
      t.ctl = (ctlWrite s false a.toNat v).ctl ∧ IssueOn h s t ∧ (wgAt t h).nonIdem = true) ∧
    (let i := srcS h f.a.toNat
    Ready (.timew g f) g h s →
      (i.toNat ≤ s.time1588.toNat → (∀ k, k < 32 → (trueMask h g).getLsbD k = true → (laneAt s h k).halt = none) →
        ∃ t, exec (.timew g f) s = .next t ∧ PlainLanes h s t ∧ QuadsKept h s t ∧ GangOn h s t 0#5 0#4 ∧ IssueOn h s t ∧ Elsewhere h s t) ∧
      (i.toNat ≤ s.time1588.toNat → ∃ t, exec (.timew g f) s = .next t ∧ QuadsKept h s t ∧ ∀ k, k < 32 → h.iss.lanes.getLsbD k = true →
        (guardOn g (laneAt s h k) = true → (laneAt s h k).halt.isSome = true → (laneAt t h k).st = .parked) ∧
        ((laneAt s h k).halt = none → laneAt t h k =
          { laneAt s h k with pc := (nextPc h).1, cbase := (nextPc h).2, since := (laneAt t h k).since })) ∧
      (s.time1588.toNat < i.toNat → ∃ t, exec (.timew g f) s = .next t ∧ HeldLanes h s t (guardOn g) (.blocked (.time i)) ∧ QuadsKept h s t ∧
        IssueLeft h s t (h.iss.lanes &&& ~~~trueMask h g) ∧ Elsewhere h s t))

/-- R398, R406, R410, R411: TRAP enters the handler of each lane that has one, saving PC, clause base, register limit (log entry 16), code and INFO, and
parks the others under a record; BKPT parks its lanes and HALTG the gang, at next, its lanes in other issues too, while a blocked one parks as its block
ends (log entry 55); RETT returns each lane to TRAPPC, with the clause base and the register limit saved there (log entry 16). -/
def Obligations.TrapWords : Prop :=
  ∀ (g : Guard) (f : FmtS) (h : Here) (s : State), trueMask h g ≠ 0#32 →
    (let info := f.imm.setWidth 64
    let base := some h.iss.base
    let enters (l : Lane) : Bool := h.iss.tvec.getLsbD 0 && !l.hact
    let on (l : Lane) (l' : Lane) : Prop := l' = { l with pc := (nextPc h).1, cbase := (nextPc h).2, since := l'.since }
    let tells (t : State) (code : BitVec 8) (m : LaneMask) (pc : W64) : Prop := ∃ r ∈ t.faults, r.code = code ∧ r.lanes = m ∧ r.pc = pc ∧
      r.info = info ∧ r.gang = h.iss.gang ∧ r.wgtag = h.iss.wg ∧ r.ctx = h.w.ctx ∧ s.faults.length ≤ r.no
    (Ready (.trap g f) g h s →
      (let code : BitVec 8 := 0x40#8 + (f.imm.setWidth 6).setWidth 8
      let park (nest : Bool) : LaneMask := maskOf fun k => (trueMask h g).getLsbD k && !enters (laneAt s h k) && (laneAt s h k).hact == nest
      ∃ t, exec (.trap g f) s = .next t ∧ QuadsKept h s t ∧ t.mem = s.mem ∧
        (∀ k, k < 32 → (h.iss.lanes.getLsbD k = false → laneAt t h k = laneAt s h k) ∧
          (h.iss.lanes.getLsbD k = true → guardOn g (laneAt s h k) = false → on (laneAt s h k) (laneAt t h k)) ∧
          (h.iss.lanes.getLsbD k = true → guardOn g (laneAt s h k) = true → laneAt t h k =
            if enters (laneAt s h k) then { laneAt s h k with
              tpc := h.iss.at_, tbase := base, tlimit := (laneAt s h k).climit, fcode := code, hact := true, tinfo := info,
              pc := h.iss.tvec &&& 0xFFFFFFFFFFFF8#64, cbase := none, st := .ready }
            else { laneAt s h k with pc := h.iss.at_, cbase := base, st := .parked, halt := none })) ∧
        (∀ nest, park nest ≠ 0#32 → tells t code (park nest) h.iss.at_) ∧ (park false = 0#32 → park true = 0#32 → t.faults = s.faults))) ∧
    (Ready (.bkpt g f) g h s → ∃ t, exec (.bkpt g f) s = .next t ∧ QuadsKept h s t ∧
      (∀ k, k < 32 → (h.iss.lanes.getLsbD k = false → laneAt t h k = laneAt s h k) ∧
        (h.iss.lanes.getLsbD k = true → guardOn g (laneAt s h k) = false → on (laneAt s h k) (laneAt t h k)) ∧
        (h.iss.lanes.getLsbD k = true → guardOn g (laneAt s h k) = true →
          laneAt t h k = { laneAt s h k with pc := (nextPc h).1, cbase := (nextPc h).2, st := .parked, halt := none })) ∧
      ((∀ k, k < 32 → (trueMask h g).getLsbD k = true → (laneAt s h k).hact = false) → tells t 0x30#8 (trueMask h g) (nextPc h).1)) ∧
    (Ready (.haltg g f) g h s → ∃ t, exec (.haltg g f) s = .next t ∧ QuadsKept h s t ∧ (t.issues.length ≤ s.issues.tail.length) ∧
      ∀ k, k < 32 → (isBlocked (laneAt s h k).st = true → laneAt t h k = { laneAt s h k with halt := some f.imm }) ∧
        (isLive (laneAt s h k).st = false → laneAt t h k = laneAt s h k) ∧
        (isBlocked (laneAt s h k).st = false → isLive (laneAt s h k).st = true → laneAt t h k = { laneAt s h k with
          st := .parked, halt := none, pc := (if h.iss.lanes.getLsbD k then (nextPc h).1 else (laneAt s h k).pc),
          cbase := (if h.iss.lanes.getLsbD k then (nextPc h).2 else (laneAt s h k).cbase) } ∧
          ∃ r ∈ t.faults, r.code = 0x31#8 ∧ r.lanes.getLsbD k = true ∧ r.info = info)) ∧
    (Ready (.rett g f) g h s → ∃ t, exec (.rett g f) s = .next t ∧ QuadsKept h s t ∧ Elsewhere h s t ∧
      ∀ k, k < 32 → (h.iss.lanes.getLsbD k = false → laneAt t h k = laneAt s h k) ∧
        (h.iss.lanes.getLsbD k = true → guardOn g (laneAt s h k) = false → on (laneAt s h k) (laneAt t h k)) ∧
        (h.iss.lanes.getLsbD k = true → guardOn g (laneAt s h k) = true →
          (let l := laneAt s h k
          let back (pc : W64) (b : Option W64) : Lane := { l with hact := false, pc := pc, cbase := b, since := s.cycle,
                                                                  climit := if b.isSome then l.tlimit else l.climit }
          (f.imm.getLsbD 0 = false → laneAt t h k = back l.tpc l.tbase) ∧
          (f.imm.getLsbD 0 = true → ∀ b hdr, l.tbase = some b → fetch s h.w b = some hdr →
            laneAt t h k = if l.tpc = clauseLast b hdr then back (clauseNext b hdr) none else back (l.tpc + 8#64) (some b)) ∧
          (f.imm.getLsbD 0 = true → ∀ hdr, l.tbase = none → fetch s h.w l.tpc = some hdr → isHeader hdr = true →
            laneAt t h k = back (clauseNext l.tpc hdr) none))))) ∧
    (∀ x i rest w hdr n j, RefusedAt x s i rest w hdr n → isHeader x = false → decodeOp x = some j → wellFormed j = false →
      ∃ t, exec .clauseStart s = .next t ∧ ∀ k, k < 32 → i.lanes.getLsbD k = true → w.trapvec.getLsbD 0 = true →
        (laneOf (gangOf w i.gang) k).hact = false → (laneAfter t i w k).tlimit = (laneOf (gangOf w i.gang) k).climit)

/-! The device's own steps. -/

/-- R99, R114, R119, R161, R246, R249 to R253: an access that nothing earlier holds performs. A fill writes its registers full, those of a load of several
elements together with the last of them; a store reaches its place; a
memory-side atomic reads and writes at its home; an acknowledgement counts; a value wait ends when its comparison holds. -/
def Obligations.AccessSteps : Prop :=
  ∀ (wg gang n : Nat) (w : Wg) (core : Nat) (s : State), findWg s wg = some w → coreOf w = some core → (∀ r ∈ s.rets, r.sent = true) →
    (let g := gangOf w gang
    let gang' (t : State) : Gang := gangOf ((findWg t wg).getD w) gang
    let out (a : Access) : Bool := g.pend.any fun b => b.grp == a.grp && b.seq != a.seq && b.span == a.span
    (∀ a how ev, findPend g n = some a → mayPerform core g a = true → corePoison s core a = false → planeHeld s a.pa = false →
      ((a.kind = .load ∧ (how ≠ .now ∨ forwarder g a = none)) ∨ ((a.kind = .atom ∨ a.kind = .cas) ∧ a.place = .core ∧
          returnedLoad w a.seq a.va.toNat a.bytes = false) →
        ∃ t, exec (.registerFill wg gang n how ev) s = .next t ∧ findPend (gang' t) n = none) ∧
      (∀ p d k, a.kind = .load → a.place ≠ .scratch → a.span.2 = 0 → how ≠ .now ∨ forwarder g a = none → (∀ i, i < a.bytes → (l1Find s core (a.pa + i)).isSome = true) → 0 < a.bytes →
          a.dst = .vec d k → a.parts = [p] → p.lane < 32 → isGone (laneOf g p.lane).st = false →
        ∃ t, exec (.registerFill wg gang n how ev) s = .next t ∧ findPend (gang' t) n = none ∧ (gang' t).quads = g.quads ∧
          vregs (laneOf (gang' t) p.lane) d k = extended a.sx a.bytes a.full (coreBytes s core a.pa a.bytes) % 2 ^ (32 * k) ∧
          (∀ j, j < k → vempty (laneOf (gang' t) p.lane) (d + j) = false) ∧
          ∀ r, r < d ∨ d + k ≤ r → vreg (laneOf (gang' t) p.lane) r = vreg (laneOf g p.lane) r) ∧
      (∀ p d k, a.kind = .load → a.place ≠ .scratch → a.span.2 ≠ 0 → a.span.1 + a.span.2 ≤ 256 → how ≠ .now ∨ forwarder g a = none →
          (∀ i, i < a.bytes → (l1Find s core (a.pa + i)).isSome = true) → 0 < a.bytes → a.dst = .vec d k → a.parts = [p] → p.lane < 32 →
          a.lanes.getLsbD p.lane = true → isGone (laneOf g p.lane).st = false →
        ∃ t, exec (.registerFill wg gang n how ev) s = .next t ∧ findPend (gang' t) n = none ∧ (gang' t).quads = g.quads ∧
          vregs (laneOf (gang' t) p.lane) d k = extended a.sx a.bytes a.full (coreBytes s core a.pa a.bytes) % 2 ^ (32 * k) ∧
          (∀ j, j < a.span.2 → vempty (laneOf (gang' t) p.lane) (a.span.1 + j) = out a) ∧
          ∀ r, r < d ∨ d + k ≤ r → vreg (laneOf (gang' t) p.lane) r = vreg (laneOf g p.lane) r) ∧
      (∀ p d k quads q, a.kind = .load → a.place ≠ .scratch → a.span.1 + a.span.2 ≤ 64 → how ≠ .now ∨ forwarder g a = none →
          (∀ i, i < a.bytes → (l1Find s core (a.pa + i)).isSome = true) → 0 < a.bytes → a.dst = .scal d k quads → a.parts = [p] → d + k ≤ 64 →
          q < 8 → quads.getLsbD q = true →
        ∃ t, exec (.registerFill wg gang n how ev) s = .next t ∧ findPend (gang' t) n = none ∧
          (∀ i, i < k → sreg (quadOf (gang' t) q) (d + i) =
            BitVec.ofNat 64 (extended a.sx a.bytes a.full (coreBytes s core a.pa a.bytes) / 2 ^ (64 * i))) ∧
          (a.span.2 = 0 → ∀ i, i < k → sempty (quadOf (gang' t) q) (d + i) = false) ∧
          ∀ j, j < a.span.2 → sempty (quadOf (gang' t) q) (a.span.1 + j) = out a)) ∧
    (∀ a how ev, findPend g n = some a → mayPerform core g a = true → a.kind = .stsp →
      ∃ t, exec (.registerFill wg gang n how ev) s = .next t ∧ findPend (gang' t) n = none ∧ t.mem = s.mem) ∧
    (∀ a how ev p d k, findPend g n = some a → a.kind = .reply → a.span.2 = 0 → a.dst = .vec d k → a.parts = [p] → p.lane < 32 →
        isGone (laneOf g p.lane).st = false →
      ∃ t, exec (.registerFill wg gang n how ev) s = .next t ∧ findPend (gang' t) n = none ∧ t.mem = s.mem ∧
        vregs (laneOf (gang' t) p.lane) d k = extended a.sx a.bytes a.full p.ret % 2 ^ (32 * k)) ∧
    (∀ a ev, findPend g n = some a → a.kind = .store → mayPerform core g a = true → a.pa < 2 ^ 48 → returnedLoad w a.seq a.va.toNat a.bytes = false → g.unacked < 1023 → 0 < a.bytes → a.data.length = a.bytes →
        a.pa / 64 = (a.pa + a.bytes - 1) / 64 → (∀ c ∈ s.l1 ++ s.slices, c.data.length = 64) →
      (a.place = .core → (l1Find s core a.pa).isSome = true → corePoison s core a = false →
          (∀ r, findGrant s w.ctx a.ticket.toNat = some r → r.landed = []) → ∃ t, exec (.storeBufferDrain wg gang n ev) s = .next t ∧
        findPend (gang' t) n = none ∧ coreBytes t core a.pa a.bytes = a.data ∧
        (∀ x, x < a.pa ∨ a.pa + a.bytes ≤ x → coreByte t core x = coreByte s core x)) ∧
      (a.place ≠ .core → poolDead s a.pa = false → meetsImages s a.pa a.bytes = false → ∃ t, exec (.storeBufferDrain wg gang n ev) s = .next t ∧
        findPend (gang' t) n = none ∧ homeBytes t a.pa a.bytes = a.data ∧
        ∀ x, x < a.pa ∨ a.pa + a.bytes ≤ x → homeByte t x = homeByte s x)) ∧
    (atomsOut g < g.unacked → atomsOut g + (ackMarks g).length < g.unacked ∨ (∃ a ∈ ackMarks g, responseLost s a = false) →
      ∃ t, exec (.accessAck wg gang) s = .next t ∧ (gang' t).unacked = g.unacked - 1 ∧ t.mem = s.mem) ∧
    (∀ k a, s.msgs[k]? = some (.memReq wg gang n) → (g.pend.map fun x => x.seq).Nodup → findPend g n = some a → a.kind ≠ .waitv → mayPerform core g a = true → a.plane = none →
        uncommitted s wg gang a = false → poolDead s a.pa = false → a.pa < 2 ^ 48 → meetsImages s a.pa a.bytes = false → (∀ c ∈ s.slices, c.data.length = 64) → a.pa / 64 = (a.pa + a.bytes - 1) / 64 →
      (let r := applyAccess a (homeBytes s a.pa a.bytes)
      ∃ t, exec (.memsideAtomic k) s = .next t ∧ t.msgs = dropNth s.msgs k ∧ (findPend (gang' t) n).map (fun x => (x.kind, x.dst)) = some (.reply, a.dst) ∧
        (∀ bs, r.1 = some bs → bs.length = a.bytes → homeBytes t a.pa a.bytes = bs) ∧ (r.1 = none → t.mem = s.mem ∧ t.slices = s.slices))) ∧
    (∀ k a, (pollers s)[k]? = some (wg, gang, a) → poolDead s a.pa = false → a.pa < 2 ^ 48 →
      (waitvHolds a (homeBytes s a.pa a.bytes) = false → exec (.waitvPoll k) s = .next s) ∧
      (waitvHolds a (homeBytes s a.pa a.bytes) = true → ∃ t, exec (.waitvPoll k) s = .next t ∧ findPend (gang' t) a.seq = none ∧
        ∀ j, j < 32 → a.lanes.getLsbD j = true → holds (laneOf g j).st = true → (laneOf g j).halt = none → (laneOf (gang' t) j).st = .ready)))

/-- R38, R48, R148 to R153, R206, R393, R412: a port takes a unit of the highest priority, or one that has waited 896 cycles; a clause starts at
its first word once its header passes its checks and its slots hold; lanes whose site, delay or instant has come are released. -/
def Obligations.IssueSteps : Prop :=
  ∀ (s : State),
    (∀ core port, portBusy s core port = [] → portTaken s core port = false → portUnits s core port ≠ [] → ∃ t u i, exec (.portIssueChoice core port) s = .next t ∧
      u ∈ portUnits s core port ∧ t.issues = i :: s.issues ∧ i.wg = u.wg ∧ i.gang = u.gang ∧ i.quad = u.quad ∧ i.lanes = u.lanes ∧ i.started = false ∧
      t.mem = s.mem ∧
      ((∃ v ∈ portUnits s core port, v.since + 896 ≤ s.cycle) → u.since + 896 ≤ s.cycle) ∧
      ((∀ v ∈ portUnits s core port, s.cycle < v.since + 896) → (∀ c ∈ s.cont, ¬(c.core = core ∧ c.port = port)) →
        ∀ v ∈ portUnits s core port, v.pri ≤ u.pri)) ∧
    (∀ i rest w hdr, s.issues = i :: rest → findWg s i.wg = some w → i.started = false → i.lanes ≠ 0#32 →
      (let g := gangOf w i.gang
      (∀ k, k < 32 → i.lanes.getLsbD k = true → (laneOf g k).cbase = none ∧ (laneOf g k).poison = none) → i.at_.toNat % 8 = 0 → i.base = i.at_ →
        fetch s w i.base = some hdr → isHeader hdr = true →
          ((∀ tr, headerTrap w hdr = some tr → ∃ t, exec .clauseStart s = .next t ∧ t.issues = rest) ∧
          (headerTrap w hdr = none → slotsHold s w i.gang i.lanes hdr = false → exec .clauseStart s = .next { s with issues := rest }) ∧
          (headerTrap w hdr = none → slotsHold s w i.gang i.lanes hdr = true → headerQuota s g hdr = false → clauseTrap s w i.base hdr = none →
              (hdrWhole hdr = true → i.quad = none ∧ i.lanes = 0xFFFFFFFF#32 ∧ presentMask w i.gang = 0xFFFFFFFF#32) →
            ∃ t, exec .clauseStart s = .next t ∧ t.issues = { i with at_ := i.base + 8#64, first := i.base + 8#64, last := clauseLast i.base hdr, started := true,
                                                                     tvec := w.trapvec, began := g.lanes } :: rest ∧ t.mem = s.mem ∧ t.faults = s.faults ∧
              ∀ k, k < 32 → laneOf (gangOf ((findWg t i.wg).getD w) i.gang) k = if i.lanes.getLsbD k then
                { laneOf g k with pc := i.base + 8#64, cbase := some i.base, climit := 16 * clauseQuota s g } else laneOf g k)))) ∧
    (∀ wg gang w core, findWg s wg = some w → coreOf w = some core →
      (let g := gangOf w gang
      let free (t : State) (m : LaneMask) : Prop := ∀ k, k < 32 →
        (m.getLsbD k = false → laneOf (gangOf ((findWg t wg).getD w) gang) k = laneOf g k) ∧
        (m.getLsbD k = true → (laneOf g k).halt = none → (laneOf (gangOf ((findWg t wg).getD w) gang) k).st = .ready)
      let site (k : Nat) : Bool := match (laneOf g k).st with
        | .blocked (.rejoin _ j) => (List.range 32).all fun i => !(tget 0#32 g.j j).getLsbD i || match (laneOf g i).st with
          | .absent => true
          | .parked => true
          | .exited => true
          | .blocked _ => true
          | _ => false
        | _ => false
      let late (k : Nat) : Bool := match (laneOf g k).st with
        | .waiting (.cycles c) => c ≤ s.cycle
        | _ => false
      let due (k : Nat) : Bool := match (laneOf g k).st with
        | .blocked (.time c) => c.toNat ≤ s.time1588.toNat
        | _ => false
      (s.dawn = true → maskOf site ≠ 0#32 → ∃ t, exec (.rejoinRelease wg gang) s = .next t ∧ free t (maskOf site)) ∧
      (maskOf late ≠ 0#32 → ∃ t, exec (.yieldExpiry wg gang) s = .next t ∧ free t (maskOf late) ∧ t.faults = s.faults) ∧
      (maskOf due ≠ 0#32 → ∃ t, exec (.timewRelease wg gang) s = .next t ∧ free t (maskOf due))))

/-- R354, R357, R386 to R404, R427: the next skein of a launch, a child or a handler starts on the cores named once they have room and nothing goes
before it, each present lane ready at the entry. A queue's head entry is taken, and completes, is held for its dependences or becomes a launch; a
launch that is over is gone. At a slice switch the entry of the time comes into force. A pre-emption decision drains a skein where every workgroup's row
says so, flushes it where every row says so and saves it otherwise, and at a switch saves a skein that waits for a frame, draining or not; a drain is
saved after 100 µs. A save makes every workgroup saved in a slot of its own, a restore makes it resident on its core, and a save that stalls for 10 ms
kills the context. An expired watchdog declares the context hung under a record with the workgroup's WGTAG, GANG, lanes and PC 0 and the limit in ms as
INFO (log entry 123). The oldest record's 32 bytes go to the ring's tail, with an interrupt. -/
def Obligations.SchedulingSteps : Prop :=
  ∀ (s : State), ctlWf 0 s.ctl = true →
    (∀ l cores x u n b, findLaunch s l = some x → launchWaiting s x = some u → nextSkeinOf x = some (n, b) → cores.length = u.needs.length →
        oneCluster cores = true → fitsOn s (cores.zip u.needs) = true → isNext s u = true → aheadOf s cores = false →
      ∃ t new, exec (.workgroupPlace (.skein l) cores) s = .next t ∧ t.wgs = s.wgs ++ new ∧ new.map coreOf = cores.map some ∧
        (findLaunch t l).map (fun y => y.st) = some .running ∧
        ∀ w ∈ new, (∃ i, w.kind = .grid l i) ∧ w.ctx = x.ctx ∧ w.tenant = x.tenant ∧ w.image = x.image ∧ w.lanes = x.wglanes ∧ w.fslots = x.fslots ∧
          ∀ g k, k < 32 → 32 * g + k < w.lanes → (laneOf (gangOf w g) k).pc = x.entry ∧ (laneOf (gangOf w g) k).st = .ready) ∧
    (∀ n core c p, s.childReqs[n]? = some c → findWg s c.parent = some p → childFits s c core = true →
      ∃ t w, exec (.workgroupPlace (.child n) [core]) s = .next t ∧ w ∈ t.wgs ∧ w.kind = .child c.parent c.slot ∧ coreOf w = some core ∧ w.ctx = p.ctx ∧
        gets0 w.scratch 0 c.args.length = c.args ∧ (findWg t c.parent).map (fun y => childOf y c.slot) = some (.running w.tag) ∧
        ∀ y ∈ t.childReqs, y.id ≠ c.id) ∧
    (∀ n x, s.amWaits[n]? = some x → handlerFits s x = true →
        (∀ y ∈ s.amWaits.take n, y.core = x.core → y.urgent = true ∨ x.urgent = false → handlerFits s y = false) →
        (x.urgent = false → ∀ y ∈ s.amWaits, y.core = x.core → y.urgent = true → handlerFits s y = false) →
      ∃ t w, exec (.workgroupPlace (.handler x.core n) []) s = .next t ∧ t.wgs = s.wgs ++ [w] ∧ w.kind = .handler ∧ coreOf w = some x.core ∧ w.ctx = x.ctx ∧
        t.amWaits = s.amWaits.erase x ∧ (x.payload.length ≤ 256 → gets0 w.scratch 0 x.payload.length = x.payload ∧
          gets0 w.scratch 256 8 = leBytes 8 x.sender.toNat)) ∧
    (∀ q, askAgain s q = none → q ≤ 32767 → (queueWord s q 5).getLsbD 26 = true → fld (queueWord s q 3) 0 48 < fld (queueWord s q 2) 0 48 →
        ctxRuns s (fld (queueWord s q 5) 0 16) = true → tenantServed s (fld (queueWord s q 5) 16 6) = true →
      (let took (t : State) : Prop := fld (queueWord t q 3) 0 48 = (fld (queueWord s q 3) 0 48 + 1) % 2 ^ 48
      let begins (l : Launch) (kidx : Nat) : Prop :=
        (kernelOf s kidx = none → ∃ t, exec (.launchStart q) s = .next t ∧ took t ∧ t.launches = s.launches) ∧
        (∀ k, kernelOf s kidx = some k → l.args.any (argRefused s l.ctx) = true →
          ∃ t, exec (.launchStart q) s = .next t ∧ took t ∧ t.launches = s.launches) ∧
        ∀ k, kernelOf s kidx = some k → l.args.any (argRefused s l.ctx) = false →
          ∃ t x, exec (.launchStart q) s = .next t ∧ took t ∧ x ∈ t.launches ∧ x.id = s.seq ∧ x.image = k.1.num ∧ x.gdim = l.gdim ∧ x.queue = l.queue
      (∀ e, heldHead s q = none → headEntry s q = some e →
        (∀ n, checkEntry s q e = .completes n → ∃ t, exec (.launchStart q) s = .next t ∧ took t ∧ t.launches = s.launches) ∧
        ∀ l kidx deps, checkEntry s q e = .starts l kidx deps →
          (depsMet s deps = false → exec (.launchStart q) s = .next { s with heads := s.heads ++ [⟨l, kidx, deps⟩] }) ∧
          (depsMet s deps = true → l.queue = q ∧ begins l kidx)) ∧
      (∀ x, heldHead s q = some x → depsMet s x.deps = true → begins x.launch x.kidx) ∧
      (heldHead s q = none → headEntry s q = none → (queueWord s q 5).getLsbD 27 = false →
        exec (.launchStart q) s = .next (ctlPut s (queueAddr q 5) (queueWord s q 5 ||| 0x8000000#64))))) ∧
    (∀ q l, askAgain s q = some l → ∃ t, exec (.launchStart q) s = .next t ∧ t.ctl = s.ctl ∧ t.wgs = s.wgs) ∧
    (∀ id l, findLaunch s id = some l → launchOver s l = true → (ctxOf s l.ctx).killed = false → gridGrants s id = [] → gridReqs s id = [] →
      ∃ t, exec (.launchComplete id) s = .next t ∧ findLaunch t id = none ∧ (l.doneAddr = 0#64 → t.mem = s.mem)) ∧
    (∀ i, sliceIndex s = some i → (ctlGet s slctlAddr).getLsbD 7 = true → i ≠ s.slice →
      ∃ t, exec .sliceSwitch s = .next t ∧ t.slice = i ∧ t.wgs = s.wgs) ∧
    (∀ id k, findSkein s id = some k →
      (let st (t : State) : Option SkeinSt := (findSkein t id).map fun x => x.st
      let now := s.time1588.toNat
      (∀ sw, k.st = .running → ownWgs s k ≠ [] → (if sw then switchedOut s (ownWgs s k) else outranked s id (ownWgs s k)) = true →
        (let frame : Prop := sw = true ∧ ∃ w ∈ skeinWgs s id, ∃ x ∈ w.subs, x.st = .armed ∨ x.st = .loading
        (¬frame → (∀ w ∈ ownWgs s k, rowOf s sw w = .drain) →
          ∃ t, exec (.preemptionDecision id sw) s = .next t ∧ st t = some (.draining now) ∧ t.wgs = s.wgs) ∧
        (¬frame → (∀ w ∈ ownWgs s k, rowOf s sw w = .flush) → ∃ t, exec (.preemptionDecision id sw) s = .next t ∧ findSkein t id = none) ∧
        (frame ∨ ((∃ w ∈ ownWgs s k, rowOf s sw w ≠ .drain) ∧ ∃ w ∈ ownWgs s k, rowOf s sw w ≠ .flush) →
          ∃ t, exec (.preemptionDecision id sw) s = .next t ∧ st t = some (.saving false now) ∧ t.wgs = s.wgs))) ∧
      (∀ since, k.st = .draining since → ownWgs s k ≠ [] → switchedOut s (ownWgs s k) = true →
          (∃ w ∈ skeinWgs s id, ∃ x ∈ w.subs, x.st = .armed ∨ x.st = .loading) →
        ∃ t, exec (.preemptionDecision id true) s = .next t ∧ st t = some (.saving false now) ∧ t.wgs = s.wgs) ∧
      (∀ since, k.st = .draining since → since + 100000 ≤ now → ∃ t, exec (.drainTimeout id) s = .next t ∧ st t = some (.saving false now)) ∧
      (∀ hung since slots, k.st = .saving hung since → freeBolts s (skeinCtx (skeinWgs s id)) (skeinWgs s id).length = some slots → skeinWgs s id ≠ [] →
          (∀ w ∈ skeinWgs s id, settled s w = true) →
        ∃ t, exec (.skeinSave id) s = .next t ∧ st t = some (.saved s.seq slots) ∧
          ∀ w ∈ skeinWgs s id, (findWg t w.tag).map (fun x => x.st) = some .saved) ∧
      (∀ cores, skeinReady s k = true → cores.length = (skeinWgs s id).length → oneCluster cores = true →
          fitsOn s (cores.zip (savedUnit s k).needs) = true → isNext s (savedUnit s k) = true → aheadOf s cores = false →
        ∃ t, exec (.skeinRestore id cores) s = .next t ∧ ((∀ w ∈ skeinWgs s id, boltGood s w = true) → (s.wgs.map fun w => w.tag).Nodup →
          st t = some .running ∧ ∀ x ∈ (skeinWgs s id).zip cores, (findWg t x.1.tag).map (fun y => y.st) = some (.resident x.2))) ∧
      (∀ hung since, k.st = .saving hung since → skeinWgs s id ≠ [] → since + 10000000 ≤ now →
        ∃ t, exec (.saveStallKill id) s = .next t ∧ (ctxOf t (skeinCtx (skeinWgs s id))).killed = true ∧
          ∀ w ∈ t.wgs, w.ctx ≠ skeinCtx (skeinWgs s id)))) ∧
    (∀ wg w, findWg s wg = some w → w.st ≠ .ended → w.wdog * 1000 * s.clockMHz ≤ w.idle → ctxRuns s w.ctx = true → stopped s w = false →
      ∃ t, exec (.watchdogExpiry wg) s = .next t ∧ (ctxOf t w.ctx).hung = true ∧ t.wgs = s.wgs ∧
        t.faults = s.faults ++ [{ no := s.faults.length, wgsave := false, nest := false, code := 0xF0#8, gang := 0, wgtag := w.tag, ctx := w.ctx,
                                  lanes := 0#32, pc := 0#64, info := BitVec.ofNat 64 w.wdog, fresh := true }]) ∧
    (∀ r, (s.faults.find? fun x => !x.written) = some r → r.fresh = false → fqCount s < fqSize s →
      (let tail := fld (ctlGet s fqctlAddr) 32 32
      ∃ t, exec .faultRecordWrite s = .next t ∧ t.interrupts = s.interrupts + 1 ∧ fld (ctlGet t fqctlAddr) 32 32 = (tail + 1) % 2 ^ 32 ∧
        ((t.faults.find? fun x => x.no == r.no).map fun x => x.written) = some true ∧ t.mem = s.mem ∧
        hostBytes t (fld (ctlGet s 0x7F0004000010) 5 59 * 32 + 32 * (tail % fqSize s)) 32 =
          leBytes 8 (r.wgsave.toNat * 2 ^ 53 + r.nest.toNat * 2 ^ 52 + r.code.toNat * 2 ^ 44 + r.gang % 16 * 2 ^ 40 + r.wgtag % 2 ^ 24 * 2 ^ 16
            + r.ctx % 2 ^ 16) ++ leBytes 8 r.lanes.toNat ++ leBytes 8 r.pc.toNat ++ leBytes 8 r.info.toNat))

/-- R97, R312, R352, R373, R386, R394, R409, R419, R427: the writes of device control space. A write with a bad value changes only the bit that
says so; what is bad in a queue's size, in HCQCTL, FQCTL, IMGCTL and RGLEN, and that the reserved word after a residency register takes no write, is the
model's reading (log entry 52). EN of RGCTL starts the ring at entry 0, and cleared it stops the injector: frames not yet injected are given up (log
entry 53). While SLCTL.EN is 1 its table changes no more, and before SLSTART no slice is in force (log entry 51). A residency register that loses EN or
ways leaves its lines ordinary, and a write of IMGCTL leaves cached translations alone. -/
def Obligations.ControlWrites : Prop :=
  ∀ (s : State) (v : W64), ctlWf 0 s.ctl = true →
    (let put (t : State) (a : Nat) (x : W64) : Prop := ctlGet t a = x ∧ (∀ b, b ≠ a → ctlGet t b = ctlGet s b) ∧ t = { s with ctl := t.ctl }
    let set (a : Nat) (m : W64) : State := ctlPut s a (ctlGet s a ||| m)
    (∀ i k, (i, k) ∈ [(Instr.rgctlWrite v, 0), (.rgpatWrite v, 1), (.rglenWrite v, 2), (.rgerrWrite v, 4)] →
      (ringBad s k v = true → exec i s = .next (set rgctlAddr 2#64)) ∧
      (ringBad s k v = false → k ≠ 0 → ∃ t, exec i s = .next t ∧ put t (rgctlAddr + 8 * k) v) ∧
      (ringBad s k v = false → k = 0 →
        (let kept : W64 := if v.getLsbD 1 then v &&& ~~~2#64 else v ||| (ctlGet s rgctlAddr &&& 2#64)
        let placed : List RingFrame := s.ring.frames.filter fun f => f.first + f.src ≤ s.cycle
        (v.getLsbD 0 = true → (ctlGet s rgctlAddr).getLsbD 0 = false → ∃ t, exec i s = .next t ∧ t.ring.running = true ∧ t.ring.pos = 0 ∧ t.ring.rev = 0 ∧
          t.ring.turns = 0 ∧ t.ring.early = [] ∧ t.ring.staged = [] ∧ t.ring.failed = [] ∧ t.ring.frames = placed ∧ t.ring.revStart = s.cycle ∧
          ctlGet t rgctlAddr = kept ∧ t.wgs = s.wgs) ∧
        (v.getLsbD 0 = true → (ctlGet s rgctlAddr).getLsbD 0 = true → ∃ t, exec i s = .next t ∧ t.ring = s.ring ∧ ctlGet t rgctlAddr = kept ∧
          t.wgs = s.wgs ∧ t.own = s.own) ∧
        (v.getLsbD 0 = false → ∃ t, exec i s = .next t ∧ t.ring = { s.ring with running := false, early := [], frames := placed } ∧
          ctlGet t rgctlAddr = kept ∧ t.wgs = s.wgs ∧ (s.ring.early = [] → placed = s.ring.frames → t.own = s.own))))) ∧
    (∀ d n k, d < 4 → n < 8 → k < 3 →
      (let a := 0x7F0000100000 + 0x10000 * d + 0x20 * n
      (residencyBad s d n k v = true → exec (.residencyRangeWrite (a + 8 * k) v) s = .next (set (a + 16) 0x80000000#64)) ∧
      (residencyBad s d n k v = false → k < 2 → ∃ t, exec (.residencyRangeWrite (a + 8 * k) v) s = .next t ∧ put t (a + 8 * k) v) ∧
      (residencyBad s d n 2 v = false →
        (let old := ctlGet s (a + 16)
        let loses : Bool := old.getLsbD 0 && (!v.getLsbD 0 || decide ((v.extractLsb' 4 4).toNat < (old.extractLsb' 4 4).toNat))
        ∃ t, exec (.residencyRangeWrite (a + 16) v) s = .next t ∧ t = { s with ctl := t.ctl, slices := t.slices } ∧
          ctlGet t (a + 16) = (if v.getLsbD 31 then v &&& ~~~0x80000000#64 else v ||| (old &&& 0x80000000#64)) ∧
          (∀ b, b ≠ a + 16 → ctlGet t b = ctlGet s b) ∧
          t.slices = s.slices.map fun c => if loses = true ∧ sliceNo c.pa / 24 = d ∧ c.cls = n + 1 then { c with cls := 0 } else c)) ∧
      exec (.controlSpaceWrite (a + 24) v) s = .next s)) ∧
    (let c := ctlGet s slctlAddr
    (c.getLsbD 7 = false → v.getLsbD 7 = true → v.getLsbD 8 = false → v.toNat < 2 ^ 9 → 1 ≤ v.toNat % 2 ^ 7 → v.toNat % 2 ^ 7 ≤ 64 →
      ∃ t, exec (.slctlWrite v) s = .next t ∧ t.slice = 64 ∧ ctlGet t slctlAddr = v ||| (c &&& 0x100#64)) ∧
    (2 ^ 9 ≤ v.toNat → exec (.slctlWrite v) s = .next (set slctlAddr 0x100#64)) ∧
    (c.getLsbD 7 = true → v.toNat % 2 ^ 8 ≠ c.toNat % 2 ^ 8 → exec (.slctlWrite v) s = .next (set slctlAddr 0x100#64)) ∧
    (c.getLsbD 7 = false → ∃ t, exec (.sliceTableWrite 0x7F0001200008 v) s = .next t ∧ put t 0x7F0001200008 v) ∧
    (c.getLsbD 7 = true → ctlGet s 0x7F0001200008 ≠ v → exec (.sliceTableWrite 0x7F0001200008 v) s = .next (set slctlAddr 0x100#64)) ∧
    (∀ e, e < 64 → c.getLsbD 7 = false → v.toNat < 2 ^ 38 → 1000 ≤ v.toNat % 2 ^ 32 →
      ∃ t, exec (.sliceTableWrite (0x7F0001200100 + 8 * e) v) s = .next t ∧ put t (0x7F0001200100 + 8 * e) v) ∧
    (∀ e, e < 64 → 2 ^ 38 ≤ v.toNat ∨ v.toNat % 2 ^ 32 < 1000 → exec (.sliceTableWrite (0x7F0001200100 + 8 * e) v) s = .next (set slctlAddr 0x100#64))) ∧
    (∀ q, q ≤ 32767 →
      (let w (k : Nat) : W64 := queueWord s q k
      (v.toNat < 2 ^ 48 → fld (w 3) 0 48 ≤ v.toNat → v.toNat ≤ fld (w 4) 0 48 + 2 ^ fld (w 1) 0 5 → ∃ t, exec (.queueDoorbell q v) s = .next t ∧
        put t (queueAddr q 2) v) ∧
      (v.toNat < 2 ^ 48 → v.toNat < fld (w 3) 0 48 ∨ fld (w 4) 0 48 + 2 ^ fld (w 1) 0 5 < v.toNat →
        exec (.queueDoorbell q v) s = .next (set (queueAddr q 5) 0x8000000#64)) ∧
      (∀ k, k < 2 → (if k = 0 then v &&& 0xFFFF00000000003F#64 = 0#64 else v.toNat < 2 ^ 5) → ∃ t, exec (.queueDescriptorWrite q k v) s = .next t ∧
        put t (queueAddr q k) v) ∧
      (∀ k, k < 2 → (if k = 0 then v &&& 0xFFFF00000000003F#64 ≠ 0#64 else 2 ^ 5 ≤ v.toNat) →
        exec (.queueDescriptorWrite q k v) s = .next (set (queueAddr q 5) 0x8000000#64)) ∧
      (∀ k, k = 3 ∨ k = 4 → v.toNat < 2 ^ 48 → ∃ t, exec (.queueDescriptorWrite q k v) s = .next t ∧
        put t (queueAddr q k) (w k &&& 0xFFFFFFFFFFFF#64)) ∧
      (∀ k, k = 6 ∨ k = 7 → v ≠ 0#64 → exec (.queueDescriptorWrite q k v) s = .next (set (queueAddr q 5) 0x8000000#64)) ∧
      (v.toNat < 2 ^ 28 → ∃ t, exec (.queueDescriptorWrite q 5 v) s = .next t ∧
        put t (queueAddr q 5) ((v &&& ~~~0x8000000#64) ||| (w 5 &&& 0x8000000#64))))) ∧
    (let c := ctlGet s hcqctlAddr
    let n := v.toNat % 2 ^ 5
    let used := (v.toNat / 2 ^ 32 % 2 ^ 16 + 2 ^ 16 - c.toNat / 2 ^ 48) % 2 ^ 16
    (n ≤ 15 → used ≤ 2 ^ n → ∃ t, exec (.hcqctlWrite v) s = .next t ∧ (ctlGet t hcqctlAddr).toNat / 2 ^ 32 % 2 ^ 16 = v.toNat / 2 ^ 32 % 2 ^ 16 ∧
      (ctlGet t hcqctlAddr).toNat % 2 ^ 5 = n ∧ (ctlGet t hcqctlAddr).toNat / 2 ^ 48 = c.toNat / 2 ^ 48) ∧
    (15 < n ∨ 2 ^ n < used → ∃ t, exec (.hcqctlWrite v) s = .next t ∧ put t hcqctlAddr (c ||| 0x80000000#64))) ∧
    (let n := v.toNat % 2 ^ 5
    (n ≠ 1 → n ≤ 20 → ∃ t, exec (.fqctlWrite v) s = .next t ∧ (ctlGet t fqctlAddr).toNat % 2 ^ 5 = n ∧
      (ctlGet t fqctlAddr).toNat / 2 ^ 5 = (ctlGet s fqctlAddr).toNat / 2 ^ 5) ∧
    (n = 1 ∨ 20 < n → exec (.fqctlWrite v) s = .next s)) ∧
    (∃ t, exec (.fqheadWrite v) s = .next t ∧ put t 0x7F0004000038 (v &&& 0xFFFFFFFF#64)) ∧
    (s.loadDone = true → exec (.imgctlWrite v) s = .next s) ∧
    (s.loadDone = false → v.getLsbD 3 = true → v.toNat % 8 ≤ 4 → inOneRange (fld v 34 27 * 2 ^ 21) (2 ^ 30 * 2 ^ (v.toNat % 8)) = true →
        isDram (fld v 34 27 * 2 ^ 21) = true →
      ∃ t, exec (.imgctlWrite v) s = .next t ∧ ctlGet t imgCtlAddr = v &&& 0x1FFFFFFC0000000F#64 ∧ (∀ b, b ≠ imgCtlAddr → ctlGet t b = ctlGet s b) ∧
        t = { s with ctl := t.ctl, tlb := t.tlb, freeCtr := t.freeCtr } ∧ t.tlb.length ≤ 983040 ∧ ∀ p ∈ t.tlb, p ∈ s.pages) ∧
    (∀ core k, core < 768 → k < 256 → ∃ t, exec (.controlSpaceWrite (0x7F0000400000 + 0x800 * core + 8 * k) v) s = .next t ∧
      put t (0x7F0000400000 + 0x800 * core + 8 * k) (v &&& 0xFFFFE000FFFF0001#64)) ∧
    (∀ grp k, grp < 64 → k ≤ 72 → ∃ t, exec (.controlSpaceWrite (0x7F0000610000 + 0x400 * grp + 8 * k) v) s = .next t ∧
      put t (0x7F0000610000 + 0x400 * grp + 8 * k) (v &&& (if k = 0 then 0x80000000000001FF#64 else 0x01FF01FF01FF01FF#64))) ∧
    (∀ a m, (a, m) ∈ [(0x7F0004000000, 0xFFFFFFFFFFFFFFC0#64), (0x7F0004000010, 0xFFFFFFFFFFFFFFE0#64), (0x7F0004000030, 1#64)] →
      ∃ t, exec (.controlSpaceWrite a v) s = .next t ∧ put t a (v &&& m)) ∧
    exec (.controlSpaceWrite 0x7F0000600000 v) s = .next s)

/-- R86, R92, R400, R401, R415 to R434: the host's commands, read from the ring's HEAD, each of which completes with the status of the rules in the
word it names; and the fabric manager's takeback, lost lines and fatal errors, CXL.mem under host borrows, the fuses, the thermal limit, the alarm and
RESET. The model's own: what RESET keeps and what it leaves undefined (log entry 7), the records of a terminated workgroup, which count as answered
(57), what a poisoned CXL read leaves in host memory and the notice of a dropped write (85), the clock's steps (88), the module number and clock at
reset (95), the lines a pool device loses (100), and the code with which a suspended MLD fails (129). -/
def Obligations.HostCommands : Prop :=
  ∀ (s : State), ctlWf 0 s.ctl = true →
    (let arg (n : Nat) : Nat := cmdArg s n
    let took (t : State) : Prop := fld (ctlGet t hcqctlAddr) 48 16 = (fld (ctlGet s hcqctlAddr) 48 16 + 1) % 2 ^ 16
    let ends (t : State) (status result : Nat) : Prop := took t ∧ hostBytes t (arg 6) 8 = leBytes 8 (status * 2 ^ 56 + result)
    let runs (n : Nat) : Prop := headCmd s = some n ∧ s.killing = none
    (runs 1 → ∃ t r, exec .load s = .next t ∧ r = loadObject s (arg 1) (arg 2) ∧ (r.2.1 < 256 → r.2.2 < 2 ^ 48 → ends t r.2.1 r.2.2) ∧
      ((imgArea s = none → r.2.1 = 6) ∧ (imgArea s ≠ none → malformed s (arg 1) (arg 2) = true → r.2.1 = 1) ∧
        (r.2.1 ≠ 0 → ∀ im ∈ t.images, ∃ old ∈ s.images, old.num = im.num ∧ old.digest = im.digest))) ∧
    (runs 2 → (imageOf s (arg 1) = none → ∃ t, exec .unload s = .next t ∧ ends t 9 0 ∧ t.images = s.images) ∧
      ∀ im, imageOf s (arg 1) = some im → (im.uses = 0 → ∃ t, exec .unload s = .next t ∧ ends t 0 0 ∧ (∀ x ∈ t.images, x.num = im.num → x.uses ≠ 0) ∧
          ∀ k, k ≤ 65535 → fld (ctlGet s (kernelAddr k + 8)) 0 12 = im.num → (ctlGet t (kernelAddr k)).getLsbD 63 = false) ∧
        (im.uses ≠ 0 → ∃ t, exec .unload s = .next t ∧ ends t 7 0 ∧ t.images = s.images)) ∧
    (runs 3 → 65535 < arg 1 → s.startedNow.contains (arg 1) = false → ∃ t, exec .replace s = .next t ∧ ends t 1 0) ∧
    (runs 3 → arg 1 ≤ 65535 → s.startedNow.contains (arg 1) = false →
      ((cmdWord s 3).getLsbD 63 = true → ∃ t, exec .replace s = .next t ∧ ends t 0 0 ∧ (ctlGet t (kernelAddr (arg 1))).getLsbD 63 = false) ∧
      ((cmdWord s 3).getLsbD 63 = false → (∀ im ∈ s.images, im.num = arg 2 → im.doomed = true) → ∃ t, exec .replace s = .next t ∧ ends t 9 0) ∧
      (∀ im, (cmdWord s 3).getLsbD 63 = false → liveImage s (arg 2) = some im → im.secver < s.fuse → ∃ t, exec .replace s = .next t ∧ ends t 4 0) ∧
      (∀ im, (cmdWord s 3).getLsbD 63 = false → liveImage s (arg 2) = some im → s.fuse ≤ im.secver → im.desc.2 ≤ 256 * arg 3 →
        ∃ t, exec .replace s = .next t ∧ ends t 1 0) ∧
      (∀ im, (cmdWord s 3).getLsbD 63 = false → liveImage s (arg 2) = some im → s.fuse ≤ im.secver → 256 * arg 3 < im.desc.2 →
        ∃ t, exec .replace s = .next t ∧ ends t 0 0 ∧ ctlGet t (kernelAddr (arg 1)) = BitVec.ofNat 64 (2 ^ 63 + (im.desc.1 + 256 * arg 3)) ∧
          ctlGet t (kernelAddr (arg 1) + 8) = BitVec.ofNat 64 (im.secver * 2 ^ 32 + im.num))) ∧
    (runs 4 → (badCtx s (arg 1) (fun n => cmdWord s (2 + n)) = true → ∃ t, exec .ctxset s = .next t ∧ ends t 1 0) ∧
      (badCtx s (arg 1) (fun n => cmdWord s (2 + n)) = false → ∃ t, exec .ctxset s = .next t ∧ ends t 0 0 ∧
        ∀ n, n < 4 → ctlGet t (0x7F0003000000 + 32 * arg 1 + 8 * n) = cmdWord s (2 + n))) ∧
    (runs 5 → (knownCtx s (arg 1) = false → ∃ t, exec .hborrow s = .next t ∧ ends t 9 0) ∧
      (knownCtx s (arg 1) = true → 1 ≤ arg 2 → arg 2 ≤ 3 → arg 3 % 256 = 0 → 1 ≤ arg 4 → arg 4 ≤ 2 ^ 32 → hostRange (arg 3) (256 * arg 4) = true →
        (unborrowable s (BitVec.ofNat 2 (arg 2)) (2 ^ 60) 0 (hostExtents (arg 3) (256 * arg 4)) = true →
          ∃ t, exec .hborrow s = .next t ∧ ends t 0 4) ∧
        (unborrowable s (BitVec.ofNat 2 (arg 2)) (2 ^ 60) 0 (hostExtents (arg 3) (256 * arg 4)) = false →
          ∃ t, exec .hborrow s = .next t ∧ took t ∧ (t.hcqHeld ≠ none ∨ ends t 0 2)))) ∧
    (runs 6 → (hostGrant s (arg 1) (arg 2) (arg 3) = none → ∃ t, exec .hreturn s = .next t ∧ ends t 9 0 ∧ t.own = s.own) ∧
      (∀ g, hostGrant s (arg 1) (arg 2) (arg 3) = some g → ∃ t, exec .hreturn s = .next t ∧ ends t 0 0)) ∧
    (runs 7 → (knownCtx s (arg 1) = false → ∃ t, exec .kill s = .next t ∧ ends t 9 0) ∧
      (knownCtx s (arg 1) = true → ∃ t, exec .kill s = .next t ∧ t.killing = some (arg 1) ∧ (ctxOf t (arg 1)).killed = true ∧
        ((ctxOf s (arg 1)).killed = false → ∀ w ∈ t.wgs, w.ctx ≠ arg 1))) ∧
    (∀ c, s.killing = some c → (ctxOf s c).killed = false →
      (headCmd s = some 7 → ∃ t, exec .kill s = .next t ∧ ends t 0 0 ∧ t.killing = none) ∧
      (headCmd s = some 0xB → ∃ t, exec .fail s = .next t ∧ ends t 0 0 ∧ t.killing = none)) ∧
    (runs 8 →
      (let named (w : Wg) : Prop := w.ctx = arg 1 ∧ w.tag % 2 ^ 24 = arg 2 ∧ w.st ≠ .ended
      ((∀ w ∈ s.wgs, ¬named w) → ∃ t, exec .wgterm s = .next t ∧ ends t 9 0 ∧ t.wgs = s.wgs) ∧
      (∀ w, findWg s w.tag = some w → named w → (∀ x ∈ s.wgs, named x → x.tag = w.tag) → (∀ p k, w.kind ≠ .child p k) →
        ∃ t, exec .wgterm s = .next t ∧ ends t 0 0 ∧ findWg t w.tag = none))) ∧
    (∀ i n, (i, n) ∈ [(Instr.resume, 9), (.skip, 0xA), (.fail, 0xB)] → runs n →
      (openRecord s (arg 1) = none ∨ (∃ r, openRecord s (arg 1) = some r ∧ isHangRec r = false ∧ findWg s r.wgtag = none) →
        ∃ t, exec i s = .next t ∧ ends t 9 0 ∧ t.wgs = s.wgs ∧ t.faults = s.faults) ∧
      (∀ r, openRecord s (arg 1) = some r → isHangRec r = true →
        (n = 9 → ∃ t, exec i s = .next t ∧ ends t 0 0 ∧ (ctxOf t r.ctx).hung = false ∧ t.wgs = s.wgs.map fun w => if w.ctx = r.ctx then { w with idle := 0 } else w) ∧
        (n = 0xA → ∃ t, exec i s = .next t ∧ ends t 1 0 ∧ t.wgs = s.wgs) ∧
        (n = 0xB → ∃ t, exec i s = .next t ∧ t.killing = some r.ctx ∧ (ctxOf t r.ctx).killed = true)) ∧
      (∀ r w, openRecord s (arg 1) = some r → findWg s r.wgtag = some w → isHangRec r = false →
        (let done (t : State) : Prop := ∃ x ∈ t.faults, x.no = r.no ∧ x.answered = true
        let free (t : State) (at_ : Lane → W64 × Option W64) : Prop := ∀ k, k < 32 → laneOf (gangOf ((findWg t r.wgtag).getD w) r.gang) k =
          (let l := laneOf (gangOf w r.gang) k
          if r.lanes.getLsbD k = true ∧ l.st = .parked then { l with pc := (at_ l).1, cbase := (at_ l).2, st := .ready, since := s.cycle } else l)
        (n = 9 → isEngineRec r = false → ∃ t, exec i s = .next t ∧ ends t 0 0 ∧ done t ∧ free t fun l => (l.pc, l.cbase)) ∧
        (n = 9 → ∀ c, isEngineRec r = true → r.cmd = some c → ∃ t, exec i s = .next t ∧ ends t 0 0 ∧ done t ∧
          ((findEng s c).isSome = true → (findEng t c).map (fun x => x.suspended) = some none) ∧
          ((findCmd w c).isSome = true → (findCmd ((findWg t r.wgtag).getD w) c).map (fun x => x.suspended) = some none)) ∧
        (n = 0xA → isEngineRec r = true → ∃ t, exec i s = .next t ∧ ends t 1 0 ∧ t.wgs = s.wgs) ∧
        (n = 0xA → isEngineRec r = false → r.code = 0x30#8 ∨ r.code = 0x31#8 → ∃ t, exec i s = .next t ∧ ends t 0 0 ∧ done t ∧
          free t fun l => (l.pc, l.cbase)) ∧
        (n = 0xA → isEngineRec r = false → r.code ≠ 0x30#8 → r.code ≠ 0x31#8 → ∀ p, skipTo s w (laneOf (gangOf w r.gang) (lowest (recordLanes w r))) = some p →
          ∃ t, exec i s = .next t ∧ ends t 0 0 ∧ done t ∧ free t fun _ => p) ∧
        (n = 0xA → isEngineRec r = false → r.code ≠ 0x30#8 → r.code ≠ 0x31#8 → skipTo s w (laneOf (gangOf w r.gang) (lowest (recordLanes w r))) = none →
          ∃ t, exec i s = .next t ∧ ends t 1 0 ∧ t.wgs = s.wgs) ∧
        (n = 0xB → ∀ c, isEngineRec r = true → r.cmd = some c → (findEng s c).isSome = true →
          ∃ t, exec i s = .next t ∧ ends t 0 0 ∧ done t ∧ findEng t c = none) ∧
        (n = 0xB → ∀ c x fs hk off cnt tr b sc m, isEngineRec r = true → r.cmd = some c → findEng s c = none → findCmd w c = some x →
            x.kind = .mld fs hk off cnt tr b sc → x.mac = some m →
          ∃ t, exec i s = .next t ∧ ends t 0 0 ∧ done t ∧ findCmd ((findWg t r.wgtag).getD w) c = none) ∧
        (n = 0xB → isEngineRec r = false → (∀ p k, w.kind ≠ .child p k) → ∃ t, exec i s = .next t ∧ ends t 0 0 ∧ done t ∧ findWg t r.wgtag = none)))) ∧
    (runs 0xC → (64 < arg 1 → ∃ t, exec .fuseup s = .next t ∧ ends t 1 0 ∧ t.fuse = s.fuse) ∧
      (arg 1 ≤ 64 → exec .fuseup s = .next { s with fuseBusy := some (arg 1), fuseBy := s.time1588.toNat + 50000000 })) ∧
    (∀ v, s.fuseBusy = some v → ∃ t, exec .fuseBlowComplete s = .next t ∧ ends t 0 0 ∧ t.fuse = max s.fuse v ∧ t.fuseBusy = none ∧
      ∀ im ∈ t.images, im.secver < v → im.doomed = true) ∧
    (runs 0xD → (keysErased s = true → ∃ t, exec .attest s = .next t ∧ ends t 8 0) ∧
      (keysErased s = false → arg 2 + 256 ≤ arg 6 ∨ arg 6 + 8 ≤ arg 2 → ∃ t, exec .attest s = .next t ∧ ends t 0 0 ∧
        hostBytes t (arg 2) 32 = hostBytes s (arg 1) 32 ∧ hostBytes t (arg 2 + 32) 8 = leBytes 8 0x4131 ∧
        hostBytes t (arg 2 + 40) 8 = leBytes 8 (s.fuse % 256))) ∧
    (runs 0xE → (131071 < arg 2 → ∃ t, exec .extmap s = .next t ∧ ends t 1 0 ∧ t.extents = s.extents) ∧
      (arg 2 ≤ 131071 → (∀ e ∈ s.extents, e.2.1 = arg 2 → e.2.2.2 = true) → ∃ t, exec .extmap s = .next t ∧ ends t 0 0 ∧
        ∀ o, o < 2 ^ 30 → lostByte s (arg 1) o = false → poolDead t (0x800000000000 + arg 2 * 2 ^ 30 + o) = false)) ∧
    (runs 0xF → ((∀ e ∈ s.extents, e.1 = arg 1 → e.2.1 = arg 2 → e.2.2.2 = true) → ∃ t, exec .extunmap s = .next t ∧ ends t 9 0 ∧ t.extents = s.extents) ∧
      (∀ e ∈ s.extents, e.1 = arg 1 → e.2.1 = arg 2 → e.2.2.2 = false → ∃ t, exec .extunmap s = .next t ∧ ends t 0 0 ∧
        ∀ x ∈ t.extents, x.2.1 = arg 2 → x.2.2.2 = true)) ∧
    (∀ e ∈ s.extents, e.2.2.2 = false → ∃ t, exec (.extentTakeback e.1) s = .next t ∧ ∀ x ∈ t.extents, x.2.1 = e.2.1 → x.2.2.2 = true) ∧
    (∀ d, (∃ t, exec (.poolFatalError (.metadata d)) s = .next t ∧ s.notices < t.notices ∧ ∀ x ∈ t.extents, x.2.2.1 = d → x.2.2.2 = true) ∧
      ∀ n o b, 0 < b → o + b ≤ 2 ^ 30 → extentDevice n = d → ∃ t, exec (.poolFatalError (.lines d [⟨n, o, b⟩])) s = .next t ∧ t.extents = s.extents ∧ t.mem = s.mem ∧
        ∀ k, lostByte t n k = (lostByte s n k || decide (o < k / 256 * 256 + 256 ∧ k / 256 * 256 < o + b))) ∧
    (∀ a : CxlAccess, a.data = none → 1 ≤ a.len → isBacked a.pa = true → isBacked (a.pa + a.len - 1) = true →
      (hostCovers s a.pa a.len false = true → deadIn s a.pa a.len = false → ∃ t, exec (.cxlMemAccess a) s = .next t ∧
        hostBytes t a.hostAddr a.len = homeBytes s a.pa a.len ∧ t.mem = s.mem) ∧
      (hostCovers s a.pa a.len false = false ∨ deadIn s a.pa a.len = true → ∃ t, exec (.cxlMemAccess a) s = .next t ∧ t = { s with hostMem := t.hostMem })) ∧
    (∀ (a : CxlAccess) d, a.data = some d → d ≠ [] → isBacked a.pa = true → isBacked (a.pa + d.length - 1) = true →
      (hostCovers s a.pa d.length true = false → exec (.cxlMemAccess a) s = .next { s with notices := s.notices + 1 }) ∧
      (hostCovers s a.pa d.length true = true → (∀ i, i < d.length → poolDead s (a.pa + i) = false) → meetsImages s a.pa d.length = false →
          (∀ c ∈ s.slices, c.data.length = 64) →
        ∃ t, exec (.cxlMemAccess a) s = .next t ∧ homeBytes t a.pa d.length = d ∧
          t.pages = if isDram a.pa then a.tables.foldl putPage s.pages else s.pages)) ∧
    (125 < s.clockMHz → exec (.thermalLimit false) s = .next { s with clockMHz := s.clockMHz - 125, sideband := s.sideband + 1 }) ∧
    (s.clockMHz + 125 ≤ 1750 → exec (.thermalLimit true) s = .next { s with clockMHz := s.clockMHz + 125, sideband := s.sideband + 1 }) ∧
    (∃ t, exec .securityAlarm s = .next t ∧ t.notices = s.notices + 1 ∧ (ctlGet t secstatAddr).getLsbD 7 = true ∧
      ((ctlGet s 0x7F0004000030).getLsbD 0 = true → (ctlGet t secstatAddr).getLsbD 8 = true)) ∧
    (∃ t, exec .reset s = .next t ∧ t.wgs = [] ∧ t.own = [] ∧ t.l1 = [] ∧ t.slices = [] ∧ t.images = [] ∧ t.clockMHz = 1750 ∧ t.ring.running = false ∧
      (∀ p, p < 48 → (linkOf t p).st = if p = 39 ∧ Config.podHas (s.module ^^^ 4) = false then .down else .train) ∧ t.hostMem = s.hostMem ∧ t.fuse = s.fuse))

/-! The whole machine. -/

/-- R148, R164 to R177: decoding gives back every word's instruction, each field at every value, and encoding gives back the word: no word stands
for two instructions, and no instruction for two words. -/
def Obligations.EncodingsAgree : Prop :=
  (∀ i x, encode i = some x → wellFormed i = true → decode x = .ok i) ∧ (∀ x i, decode x = .ok i → encode i = some x ∧ wellFormed i = true)

/-- R164 to R173, R175, R177: words written out from the encodings, one or more of each format, read as the instructions they stand for, every
field in its place; a header's mark, an unassigned opcode and a reserved value are refused by name. -/
def Obligations.DecodeWords : Prop :=
  decode 0x0300010203000000#64 = .ok (.sadd ⟨0, false, 0⟩ ⟨1, 2, 3, 0, false, false, 0⟩) ∧
    decode 0x2258010203008000#64 = .ok (.vadd ⟨5, true, 0⟩ ⟨1, 2, 3, 0, true, false, 0⟩) ∧
    decode 0x02000700FFFFFFFE#64 = .ok (.smovi ⟨0, false, 0⟩ ⟨7, 0, 0xFFFFFFFE⟩) ∧
    decode 0x80400424FF000008#64 = .ok (.ld ⟨4, false, 0⟩ ⟨4, 2, 2, false, 0xFF, 8⟩) ∧
    decode 0x1500800000000002#64 = .ok (.jmp ⟨0, false, 0⟩ ⟨8, 2⟩) ∧
    decode 0xA9001AA10FF00000#64 = .ok (.mma ⟨0, false, 0⟩ ⟨3, 5, 2, 16, 0xFF, 0⟩) ∧
    decode 0xF000090000030001#64 = .ok (.csrr ⟨0, false, 0⟩ ⟨9, 0, 3, 1⟩) ∧
    decode 0x1C00030900000001#64 = .ok (.jmadd ⟨0, false, 0⟩ ⟨3, 9, 0, 0, false, false, 1⟩) ∧
    decode 0xF800000000000000#64 = .error .header ∧ decode 0x8700000000000000#64 = .error .illegalOpcode ∧
    decode 0x0000010000000000#64 = .error .reservedField

/-- R43, R148, R158: when an issue may place its next word and that word decodes, the step is that instruction's meaning at the state where the
clocks have advanced and the issue has taken its slot; with an empty agenda it is so for the first issue in turn, once no site and no port has
anything to do. A step of the device or of the outside is its own meaning. The model's agenda says which moves (log entry 3). -/
def Obligations.StepRunsTheWord : Prop :=
  ∀ (s : State),
    (let runsAt (s1 : State) : Prop := ∀ i rest w x j, s1.issues = i :: rest → i.started = true → findWg s1 i.wg = some w →
      fetch s1 w i.at_ = some x → decode x = .ok j → step s = exec j s1
    let begun (s1 : State) (n : Nat) : State := takeTurn (toHead { s1 with dawn := false } n)
    (∀ t ts n, s.agenda = t :: ts → t.move = .word n → mayPass { s with agenda := ts } t.cycles t.ns = true →
        mayMove (passTime { s with agenda := ts } t.cycles t.ns) t.move = true →
      runsAt (begun (passTime { s with agenda := ts } t.cycles t.ns) n)) ∧
    (∀ n, s.agenda = [] → s.dawn = false → firstOf s (portSteps s) = none → nextIssue s = some n → runsAt (begun s n)) ∧
    (∀ t ts i, s.agenda = t :: ts → t.move = .event i → mayPass { s with agenda := ts } t.cycles t.ns = true →
        mayMove (passTime { s with agenda := ts } t.cycles t.ns) t.move = true →
      (let s1 := passTime { s with agenda := ts } t.cycles t.ns
      step s = exec i { s1 with dawn := s1.dawn && isRelease t.move })) ∧
    (∀ s1 n i rest, (toHead s1 n).issues = i :: rest → (takeTurn (toHead s1 n)).issues = i :: rest ∧
      takeTurn (toHead s1 n) = { toHead s1 n with turns := (takeTurn (toHead s1 n)).turns }) ∧
    (∀ ns, passTime s 0 ns = { s with time1588 := s.time1588 + BitVec.ofNat 64 ns }) ∧
    (∀ c ns, c ≠ 0 → (∀ w ∈ s.wgs, thresholdTest s w = s) → s.tlb = [] → ∃ t : State, passTime s c ns = t ∧
      t = { s with
        cycle := s.cycle + c, time1588 := s.time1588 + BitVec.ofNat 64 ns, dawn := true, tokens := [], startedNow := []
        turns := (s.turns.map fun t => { t with fresh := false, left := t.left - c }).filter fun t => t.left != 0
        faults := s.faults.map fun r => { r with fresh := false }
        wgs := t.wgs } ∧ t.wgs.length = s.wgs.length ∧
      ∀ (n : Nat) (w : Wg), s.wgs[n]? = some w → ∃ v : Wg, t.wgs[n]? = some v ∧
        v = { w with gangs := v.gangs, resident := if (coreOf w).isSome then w.resident + c else w.resident,
                     idle := if (coreOf w).isSome then w.idle + c else w.idle } ∧ v.gangs.length = w.gangs.length ∧
        ∀ (i : Nat) (g : Gang), w.gangs[i]? = some g → ∃ h : Gang, v.gangs[i]? = some h ∧
          h = { g with lanes := h.lanes, seenExit := lanesIn g fun st => st == .exited, seenPark := lanesIn g fun st => st == .parked } ∧
          ∀ k, k < 32 → laneOf h k = { laneOf g k with since := (laneOf h k).since } ∧
            ((laneOf h k).since = (laneOf g k).since ∨ (laneOf h k).since = s.cycle + c) ∧
            (isBlocked (laneOf g k).st = true → (laneOf h k).since = s.cycle + c)))

/-- R5, R306 and log entry 2: every step keeps every memory in its canonical form, so that equal memories are equal data. -/
def Obligations.StepsKeepTidy : Prop := ∀ s t, Tidy s → step s = .next t → Tidy t

/-- R312, R362, R367, R434: the state right after reset: its memories are canonical, the ring stands, the links are DOWN, GSIZE is 1, LEAD is 64,
VER is 1, the clock runs at 1750 MHz and every cache and table is empty. -/
def Obligations.ResetState : Prop :=
  Tidy State.reset ∧ State.reset.ring.running = false ∧ (∀ p, p < 48 → (linkOf State.reset p).st = .down) ∧
    ctlGet State.reset 0x7F0000200000 = 0x8000#64 ∧ ctlGet State.reset 0x7F0000200018 = 64#64 ∧ ctlGet State.reset 0x7F0000600008 = 1#64 ∧
    State.reset.clockMHz = 1750 ∧ State.reset.l1 = [] ∧ State.reset.slices = [] ∧ State.reset.own = [] ∧ State.reset.wgs = [] ∧ State.reset.images = []
end

