-- ==== Sys2Proof/Laws/Encoding.lean ====
section
/-! SUPPORT. The fields of an encoded word: what decoding reads back from each format. -/

namespace Sys2Proof.Laws

open Sys2Proof Sys2Proof.Machine

/-- A field in the upper of two joined strings. -/
theorem extract_high {m n : Nat} (x : BitVec m) (y : BitVec n) (lo w : Nat) (h : n ≤ lo) :
    (x ++ y).extractLsb' lo w = x.extractLsb' (lo - n) w := by
  apply BitVec.eq_of_getLsbD_eq
  intro i hi
  have : ¬ lo + i < n := by omega
  have e : lo + i - n = lo - n + i := by omega
  simp [BitVec.getLsbD_append, hi, this, e]
/-- A field in the lower of two joined strings. -/
theorem extract_low {m n : Nat} (x : BitVec m) (y : BitVec n) (lo w : Nat) (h : lo + w ≤ n) :
    (x ++ y).extractLsb' lo w = y.extractLsb' lo w := by
  apply BitVec.eq_of_getLsbD_eq
  intro i hi
  have : lo + i < n := by omega
  simp [BitVec.getLsbD_append, hi, this]
/-- A whole string as a field of itself. -/
theorem extract_all {n : Nat} (x : BitVec n) : x.extractLsb' 0 n = x := by
  apply BitVec.eq_of_getLsbD_eq
  intro i hi
  simp [hi]
/-- A bit in the upper of two joined strings. -/
theorem get_high {m n : Nat} (x : BitVec m) (y : BitVec n) (k : Nat) (h : n ≤ k) : (x ++ y).getLsbD k = x.getLsbD (k - n) := by
  have : ¬ k < n := by omega
  simp [BitVec.getLsbD_append, this]
/-- A bit in the lower of two joined strings. -/
theorem get_low {m n : Nat} (x : BitVec m) (y : BitVec n) (k : Nat) (h : k < n) : (x ++ y).getLsbD k = y.getLsbD k := by
  simp [BitVec.getLsbD_append, h]
/-- The bit of a Bool. -/
theorem boolBit_zero (b : Bool) : (boolBit b).getLsbD 0 = b := by cases b <;> rfl

/-- OP of a word with a body of 48 bits. -/
theorem head_op (op : BitVec 8) (g : Guard) (y : BitVec 48) : (encHead op g ++ y : W64).extractLsb' 56 8 = op := by
  simp (disch := decide) only [encHead, extract_high, Nat.reduceSub, extract_all]
/-- The upper half of OP. -/
theorem head_high (op : BitVec 8) (g : Guard) (y : BitVec 48) : (encHead op g ++ y : W64).extractLsb' 60 4 = op.extractLsb' 4 4 := by
  simp (disch := decide) only [encHead, extract_high, Nat.reduceSub]
/-- The lower half of OP. -/
theorem head_low (op : BitVec 8) (g : Guard) (y : BitVec 48) : (encHead op g ++ y : W64).extractLsb' 56 4 = op.extractLsb' 0 4 := by
  simp (disch := decide) only [encHead, extract_high, Nat.reduceSub]
/-- The bits that mark a header. -/
theorem head_mark (op : BitVec 8) (g : Guard) (y : BitVec 48) : (encHead op g ++ y : W64).extractLsb' 59 5 = op.extractLsb' 3 5 := by
  simp (disch := decide) only [encHead, extract_high, Nat.reduceSub]
/-- The common fields. -/
theorem head_guard (op : BitVec 8) (g : Guard) (y : BitVec 48) : guardOf (encHead op g ++ y : W64) = g := by
  simp (disch := decide) only [guardOf, encHead, extract_high, extract_low, get_high, get_low, Nat.reduceSub, extract_all, boolBit_zero]

/-- Format T read back. -/
theorem fmtT_back (op : BitVec 8) (g : Guard) (f : FmtT) : fmtTOf (encT op g f) = f := by
  simp (disch := decide) only [fmtTOf, encT, extract_high, extract_low, get_high, get_low, Nat.reduceSub, extract_all, boolBit_zero]
/-- Format I read back. -/
theorem fmtI_back (op : BitVec 8) (g : Guard) (f : FmtI) : fmtIOf (encI op g f) = f := by
  simp (disch := decide) only [fmtIOf, encI, extract_high, extract_low, Nat.reduceSub, extract_all]
/-- Format M read back. -/
theorem fmtM_back (op : BitVec 8) (g : Guard) (f : FmtM) : fmtMOf (encM op g f) = f := by
  simp (disch := decide) only [fmtMOf, encM, extract_high, extract_low, get_high, get_low, Nat.reduceSub, extract_all, boolBit_zero]
/-- Format B read back. -/
theorem fmtB_back (op : BitVec 8) (g : Guard) (f : FmtB) : fmtBOf (encB op g f) = f := by
  simp (disch := decide) only [fmtBOf, encB, extract_high, extract_low, Nat.reduceSub, extract_all]
/-- Format X read back. -/
theorem fmtX_back (op : BitVec 8) (g : Guard) (f : FmtX) : fmtXOf (encX op g f) = f := by
  simp (disch := decide) only [fmtXOf, encX, extract_high, extract_low, Nat.reduceSub, extract_all]
/-- Format S read back. -/
theorem fmtS_back (op : BitVec 8) (g : Guard) (f : FmtS) : fmtSOf (encS op g f) = f := by
  simp (disch := decide) only [fmtSOf, encS, extract_high, extract_low, Nat.reduceSub, extract_all]
/-- MOD[1:0] of a word of format T. -/
theorem fmtT_mod (op : BitVec 8) (g : Guard) (f : FmtT) : (encT op g f).extractLsb' 0 2 = f.mod.extractLsb' 0 2 := by
  simp (disch := decide) only [encT, extract_low]
/-- The common fields of each format. -/
theorem guardT (op : BitVec 8) (g : Guard) (f : FmtT) : guardOf (encT op g f) = g := head_guard _ _ _
theorem guardI (op : BitVec 8) (g : Guard) (f : FmtI) : guardOf (encI op g f) = g := head_guard _ _ _
theorem guardM (op : BitVec 8) (g : Guard) (f : FmtM) : guardOf (encM op g f) = g := head_guard _ _ _
theorem guardB (op : BitVec 8) (g : Guard) (f : FmtB) : guardOf (encB op g f) = g := head_guard _ _ _
theorem guardX (op : BitVec 8) (g : Guard) (f : FmtX) : guardOf (encX op g f) = g := head_guard _ _ _
theorem guardS (op : BitVec 8) (g : Guard) (f : FmtS) : guardOf (encS op g f) = g := head_guard _ _ _

end Sys2Proof.Laws
end

