-- ==== Sys2Proof/Laws/State.lean ====
section
/-! SUPPORT. One lemma a field for each update of a record: every field it does not name is as it was, those it names are what it says. -/

namespace Sys2Proof.Machine

/-! A workgroup written. -/

@[simp] theorem putWg_agenda (s : State) (w : Wg) : (putWg s w).agenda = s.agenda := rfl
@[simp] theorem putWg_cycle (s : State) (w : Wg) : (putWg s w).cycle = s.cycle := rfl
@[simp] theorem putWg_time1588 (s : State) (w : Wg) : (putWg s w).time1588 = s.time1588 := rfl
@[simp] theorem putWg_clockMHz (s : State) (w : Wg) : (putWg s w).clockMHz = s.clockMHz := rfl
@[simp] theorem putWg_module (s : State) (w : Wg) : (putWg s w).module = s.module := rfl
@[simp] theorem putWg_freeCtr (s : State) (w : Wg) : (putWg s w).freeCtr = s.freeCtr := rfl
@[simp] theorem putWg_seq (s : State) (w : Wg) : (putWg s w).seq = s.seq := rfl
@[simp] theorem putWg_mem (s : State) (w : Wg) : (putWg s w).mem = s.mem := rfl
@[simp] theorem putWg_smears (s : State) (w : Wg) : (putWg s w).smears = s.smears := rfl
@[simp] theorem putWg_l1 (s : State) (w : Wg) : (putWg s w).l1 = s.l1 := rfl
@[simp] theorem putWg_slices (s : State) (w : Wg) : (putWg s w).slices = s.slices := rfl
@[simp] theorem putWg_reps (s : State) (w : Wg) : (putWg s w).reps = s.reps := rfl
@[simp] theorem putWg_repLines (s : State) (w : Wg) : (putWg s w).repLines = s.repLines := rfl
@[simp] theorem putWg_rrAcc (s : State) (w : Wg) : (putWg s w).rrAcc = s.rrAcc := rfl
@[simp] theorem putWg_pages (s : State) (w : Wg) : (putWg s w).pages = s.pages := rfl
@[simp] theorem putWg_tlb (s : State) (w : Wg) : (putWg s w).tlb = s.tlb := rfl
@[simp] theorem putWg_own (s : State) (w : Wg) : (putWg s w).own = s.own := rfl
@[simp] theorem putWg_waiters (s : State) (w : Wg) : (putWg s w).waiters = s.waiters := rfl
@[simp] theorem putWg_reqs (s : State) (w : Wg) : (putWg s w).reqs = s.reqs := rfl
@[simp] theorem putWg_grants (s : State) (w : Wg) : (putWg s w).grants = s.grants := rfl
@[simp] theorem putWg_msgs (s : State) (w : Wg) : (putWg s w).msgs = s.msgs := rfl
@[simp] theorem putWg_ctxs (s : State) (w : Wg) : (putWg s w).ctxs = s.ctxs := rfl
@[simp] theorem putWg_wgs (s : State) (w : Wg) : (putWg s w).wgs = updFirst (fun x => x.tag == w.tag) (fun _ => w) s.wgs := rfl
@[simp] theorem putWg_issues (s : State) (w : Wg) : (putWg s w).issues = s.issues := rfl
@[simp] theorem putWg_turns (s : State) (w : Wg) : (putWg s w).turns = s.turns := rfl
@[simp] theorem putWg_dawn (s : State) (w : Wg) : (putWg s w).dawn = s.dawn := rfl
@[simp] theorem putWg_skeins (s : State) (w : Wg) : (putWg s w).skeins = s.skeins := rfl
@[simp] theorem putWg_launches (s : State) (w : Wg) : (putWg s w).launches = s.launches := rfl
@[simp] theorem putWg_childReqs (s : State) (w : Wg) : (putWg s w).childReqs = s.childReqs := rfl
@[simp] theorem putWg_amWaits (s : State) (w : Wg) : (putWg s w).amWaits = s.amWaits := rfl
@[simp] theorem putWg_deferred (s : State) (w : Wg) : (putWg s w).deferred = s.deferred := rfl
@[simp] theorem putWg_rets (s : State) (w : Wg) : (putWg s w).rets = s.rets := rfl
@[simp] theorem putWg_rqWaits (s : State) (w : Wg) : (putWg s w).rqWaits = s.rqWaits := rfl
@[simp] theorem putWg_eng (s : State) (w : Wg) : (putWg s w).eng = s.eng := rfl
@[simp] theorem putWg_xfers (s : State) (w : Wg) : (putWg s w).xfers = s.xfers := rfl
@[simp] theorem putWg_colls (s : State) (w : Wg) : (putWg s w).colls = s.colls := rfl
@[simp] theorem putWg_collNo (s : State) (w : Wg) : (putWg s w).collNo = s.collNo := rfl
@[simp] theorem putWg_collPkts (s : State) (w : Wg) : (putWg s w).collPkts = s.collPkts := rfl
@[simp] theorem putWg_collExs (s : State) (w : Wg) : (putWg s w).collExs = s.collExs := rfl
@[simp] theorem putWg_collSent (s : State) (w : Wg) : (putWg s w).collSent = s.collSent := rfl
@[simp] theorem putWg_collTold (s : State) (w : Wg) : (putWg s w).collTold = s.collTold := rfl
@[simp] theorem putWg_ring (s : State) (w : Wg) : (putWg s w).ring = s.ring := rfl
@[simp] theorem putWg_ctl (s : State) (w : Wg) : (putWg s w).ctl = s.ctl := rfl
@[simp] theorem putWg_cont (s : State) (w : Wg) : (putWg s w).cont = s.cont := rfl
@[simp] theorem putWg_faults (s : State) (w : Wg) : (putWg s w).faults = s.faults := rfl
@[simp] theorem putWg_images (s : State) (w : Wg) : (putWg s w).images = s.images := rfl
@[simp] theorem putWg_loadDone (s : State) (w : Wg) : (putWg s w).loadDone = s.loadDone := rfl
@[simp] theorem putWg_links (s : State) (w : Wg) : (putWg s w).links = s.links := rfl
@[simp] theorem putWg_live (s : State) (w : Wg) : (putWg s w).live = s.live := rfl
@[simp] theorem putWg_deadPlanes (s : State) (w : Wg) : (putWg s w).deadPlanes = s.deadPlanes := rfl
@[simp] theorem putWg_answers (s : State) (w : Wg) : (putWg s w).answers = s.answers := rfl
@[simp] theorem putWg_slotRes (s : State) (w : Wg) : (putWg s w).slotRes = s.slotRes := rfl
@[simp] theorem putWg_tokens (s : State) (w : Wg) : (putWg s w).tokens = s.tokens := rfl
@[simp] theorem putWg_heldCredits (s : State) (w : Wg) : (putWg s w).heldCredits = s.heldCredits := rfl
@[simp] theorem putWg_hostMem (s : State) (w : Wg) : (putWg s w).hostMem = s.hostMem := rfl
@[simp] theorem putWg_interrupts (s : State) (w : Wg) : (putWg s w).interrupts = s.interrupts := rfl
@[simp] theorem putWg_notices (s : State) (w : Wg) : (putWg s w).notices = s.notices := rfl
@[simp] theorem putWg_sideband (s : State) (w : Wg) : (putWg s w).sideband = s.sideband := rfl
@[simp] theorem putWg_drops (s : State) (w : Wg) : (putWg s w).drops = s.drops := rfl
@[simp] theorem putWg_extents (s : State) (w : Wg) : (putWg s w).extents = s.extents := rfl
@[simp] theorem putWg_lost (s : State) (w : Wg) : (putWg s w).lost = s.lost := rfl
@[simp] theorem putWg_fuse (s : State) (w : Wg) : (putWg s w).fuse = s.fuse := rfl
@[simp] theorem putWg_fuseBusy (s : State) (w : Wg) : (putWg s w).fuseBusy = s.fuseBusy := rfl
@[simp] theorem putWg_fuseBy (s : State) (w : Wg) : (putWg s w).fuseBy = s.fuseBy := rfl
@[simp] theorem putWg_heads (s : State) (w : Wg) : (putWg s w).heads = s.heads := rfl
@[simp] theorem putWg_startedNow (s : State) (w : Wg) : (putWg s w).startedNow = s.startedNow := rfl
@[simp] theorem putWg_hcqHeld (s : State) (w : Wg) : (putWg s w).hcqHeld = s.hcqHeld := rfl
@[simp] theorem putWg_killing (s : State) (w : Wg) : (putWg s w).killing = s.killing := rfl
@[simp] theorem putWg_slice (s : State) (w : Wg) : (putWg s w).slice = s.slice := rfl
@[simp] theorem putWg_nextQueue (s : State) (w : Wg) : (putWg s w).nextQueue = s.nextQueue := rfl

/-! A workgroup changed. -/

@[simp] theorem updWg_agenda (s : State) (tag : Nat) (f : Wg → Wg) : (updWg s tag f).agenda = s.agenda := by
  unfold updWg
  split <;> rfl
@[simp] theorem updWg_cycle (s : State) (tag : Nat) (f : Wg → Wg) : (updWg s tag f).cycle = s.cycle := by
  unfold updWg
  split <;> rfl
@[simp] theorem updWg_time1588 (s : State) (tag : Nat) (f : Wg → Wg) : (updWg s tag f).time1588 = s.time1588 := by
  unfold updWg
  split <;> rfl
@[simp] theorem updWg_clockMHz (s : State) (tag : Nat) (f : Wg → Wg) : (updWg s tag f).clockMHz = s.clockMHz := by
  unfold updWg
  split <;> rfl
@[simp] theorem updWg_module (s : State) (tag : Nat) (f : Wg → Wg) : (updWg s tag f).module = s.module := by
  unfold updWg
  split <;> rfl
@[simp] theorem updWg_freeCtr (s : State) (tag : Nat) (f : Wg → Wg) : (updWg s tag f).freeCtr = s.freeCtr := by
  unfold updWg
  split <;> rfl
@[simp] theorem updWg_seq (s : State) (tag : Nat) (f : Wg → Wg) : (updWg s tag f).seq = s.seq := by
  unfold updWg
  split <;> rfl
@[simp] theorem updWg_mem (s : State) (tag : Nat) (f : Wg → Wg) : (updWg s tag f).mem = s.mem := by
  unfold updWg
  split <;> rfl
@[simp] theorem updWg_smears (s : State) (tag : Nat) (f : Wg → Wg) : (updWg s tag f).smears = s.smears := by
  unfold updWg
  split <;> rfl
@[simp] theorem updWg_l1 (s : State) (tag : Nat) (f : Wg → Wg) : (updWg s tag f).l1 = s.l1 := by
  unfold updWg
  split <;> rfl
@[simp] theorem updWg_slices (s : State) (tag : Nat) (f : Wg → Wg) : (updWg s tag f).slices = s.slices := by
  unfold updWg
  split <;> rfl
@[simp] theorem updWg_reps (s : State) (tag : Nat) (f : Wg → Wg) : (updWg s tag f).reps = s.reps := by
  unfold updWg
  split <;> rfl
@[simp] theorem updWg_repLines (s : State) (tag : Nat) (f : Wg → Wg) : (updWg s tag f).repLines = s.repLines := by
  unfold updWg
  split <;> rfl
@[simp] theorem updWg_rrAcc (s : State) (tag : Nat) (f : Wg → Wg) : (updWg s tag f).rrAcc = s.rrAcc := by
  unfold updWg
  split <;> rfl
@[simp] theorem updWg_pages (s : State) (tag : Nat) (f : Wg → Wg) : (updWg s tag f).pages = s.pages := by
  unfold updWg
  split <;> rfl
@[simp] theorem updWg_tlb (s : State) (tag : Nat) (f : Wg → Wg) : (updWg s tag f).tlb = s.tlb := by
  unfold updWg
  split <;> rfl
@[simp] theorem updWg_own (s : State) (tag : Nat) (f : Wg → Wg) : (updWg s tag f).own = s.own := by
  unfold updWg
  split <;> rfl
@[simp] theorem updWg_waiters (s : State) (tag : Nat) (f : Wg → Wg) : (updWg s tag f).waiters = s.waiters := by
  unfold updWg
  split <;> rfl
@[simp] theorem updWg_reqs (s : State) (tag : Nat) (f : Wg → Wg) : (updWg s tag f).reqs = s.reqs := by
  unfold updWg
  split <;> rfl
@[simp] theorem updWg_grants (s : State) (tag : Nat) (f : Wg → Wg) : (updWg s tag f).grants = s.grants := by
  unfold updWg
  split <;> rfl
@[simp] theorem updWg_msgs (s : State) (tag : Nat) (f : Wg → Wg) : (updWg s tag f).msgs = s.msgs := by
  unfold updWg
  split <;> rfl
@[simp] theorem updWg_ctxs (s : State) (tag : Nat) (f : Wg → Wg) : (updWg s tag f).ctxs = s.ctxs := by
  unfold updWg
  split <;> rfl
@[simp] theorem updWg_issues (s : State) (tag : Nat) (f : Wg → Wg) : (updWg s tag f).issues = s.issues := by
  unfold updWg
  split <;> rfl
@[simp] theorem updWg_turns (s : State) (tag : Nat) (f : Wg → Wg) : (updWg s tag f).turns = s.turns := by
  unfold updWg
  split <;> rfl
@[simp] theorem updWg_dawn (s : State) (tag : Nat) (f : Wg → Wg) : (updWg s tag f).dawn = s.dawn := by
  unfold updWg
  split <;> rfl
@[simp] theorem updWg_skeins (s : State) (tag : Nat) (f : Wg → Wg) : (updWg s tag f).skeins = s.skeins := by
  unfold updWg
  split <;> rfl
@[simp] theorem updWg_launches (s : State) (tag : Nat) (f : Wg → Wg) : (updWg s tag f).launches = s.launches := by
  unfold updWg
  split <;> rfl
@[simp] theorem updWg_childReqs (s : State) (tag : Nat) (f : Wg → Wg) : (updWg s tag f).childReqs = s.childReqs := by
  unfold updWg
  split <;> rfl
@[simp] theorem updWg_amWaits (s : State) (tag : Nat) (f : Wg → Wg) : (updWg s tag f).amWaits = s.amWaits := by
  unfold updWg
  split <;> rfl
@[simp] theorem updWg_deferred (s : State) (tag : Nat) (f : Wg → Wg) : (updWg s tag f).deferred = s.deferred := by
  unfold updWg
  split <;> rfl
@[simp] theorem updWg_rets (s : State) (tag : Nat) (f : Wg → Wg) : (updWg s tag f).rets = s.rets := by
  unfold updWg
  split <;> rfl
@[simp] theorem updWg_rqWaits (s : State) (tag : Nat) (f : Wg → Wg) : (updWg s tag f).rqWaits = s.rqWaits := by
  unfold updWg
  split <;> rfl
@[simp] theorem updWg_eng (s : State) (tag : Nat) (f : Wg → Wg) : (updWg s tag f).eng = s.eng := by
  unfold updWg
  split <;> rfl
@[simp] theorem updWg_xfers (s : State) (tag : Nat) (f : Wg → Wg) : (updWg s tag f).xfers = s.xfers := by
  unfold updWg
  split <;> rfl
@[simp] theorem updWg_colls (s : State) (tag : Nat) (f : Wg → Wg) : (updWg s tag f).colls = s.colls := by
  unfold updWg
  split <;> rfl
@[simp] theorem updWg_collNo (s : State) (tag : Nat) (f : Wg → Wg) : (updWg s tag f).collNo = s.collNo := by
  unfold updWg
  split <;> rfl
@[simp] theorem updWg_collPkts (s : State) (tag : Nat) (f : Wg → Wg) : (updWg s tag f).collPkts = s.collPkts := by
  unfold updWg
  split <;> rfl
@[simp] theorem updWg_collExs (s : State) (tag : Nat) (f : Wg → Wg) : (updWg s tag f).collExs = s.collExs := by
  unfold updWg
  split <;> rfl
@[simp] theorem updWg_collSent (s : State) (tag : Nat) (f : Wg → Wg) : (updWg s tag f).collSent = s.collSent := by
  unfold updWg
  split <;> rfl
@[simp] theorem updWg_collTold (s : State) (tag : Nat) (f : Wg → Wg) : (updWg s tag f).collTold = s.collTold := by
  unfold updWg
  split <;> rfl
@[simp] theorem updWg_ring (s : State) (tag : Nat) (f : Wg → Wg) : (updWg s tag f).ring = s.ring := by
  unfold updWg
  split <;> rfl
@[simp] theorem updWg_ctl (s : State) (tag : Nat) (f : Wg → Wg) : (updWg s tag f).ctl = s.ctl := by
  unfold updWg
  split <;> rfl
@[simp] theorem updWg_cont (s : State) (tag : Nat) (f : Wg → Wg) : (updWg s tag f).cont = s.cont := by
  unfold updWg
  split <;> rfl
@[simp] theorem updWg_faults (s : State) (tag : Nat) (f : Wg → Wg) : (updWg s tag f).faults = s.faults := by
  unfold updWg
  split <;> rfl
@[simp] theorem updWg_images (s : State) (tag : Nat) (f : Wg → Wg) : (updWg s tag f).images = s.images := by
  unfold updWg
  split <;> rfl
@[simp] theorem updWg_loadDone (s : State) (tag : Nat) (f : Wg → Wg) : (updWg s tag f).loadDone = s.loadDone := by
  unfold updWg
  split <;> rfl
@[simp] theorem updWg_links (s : State) (tag : Nat) (f : Wg → Wg) : (updWg s tag f).links = s.links := by
  unfold updWg
  split <;> rfl
@[simp] theorem updWg_live (s : State) (tag : Nat) (f : Wg → Wg) : (updWg s tag f).live = s.live := by
  unfold updWg
  split <;> rfl
@[simp] theorem updWg_deadPlanes (s : State) (tag : Nat) (f : Wg → Wg) : (updWg s tag f).deadPlanes = s.deadPlanes := by
  unfold updWg
  split <;> rfl
@[simp] theorem updWg_answers (s : State) (tag : Nat) (f : Wg → Wg) : (updWg s tag f).answers = s.answers := by
  unfold updWg
  split <;> rfl
@[simp] theorem updWg_slotRes (s : State) (tag : Nat) (f : Wg → Wg) : (updWg s tag f).slotRes = s.slotRes := by
  unfold updWg
  split <;> rfl
@[simp] theorem updWg_tokens (s : State) (tag : Nat) (f : Wg → Wg) : (updWg s tag f).tokens = s.tokens := by
  unfold updWg
  split <;> rfl
@[simp] theorem updWg_heldCredits (s : State) (tag : Nat) (f : Wg → Wg) : (updWg s tag f).heldCredits = s.heldCredits := by
  unfold updWg
  split <;> rfl
@[simp] theorem updWg_hostMem (s : State) (tag : Nat) (f : Wg → Wg) : (updWg s tag f).hostMem = s.hostMem := by
  unfold updWg
  split <;> rfl
@[simp] theorem updWg_interrupts (s : State) (tag : Nat) (f : Wg → Wg) : (updWg s tag f).interrupts = s.interrupts := by
  unfold updWg
  split <;> rfl
@[simp] theorem updWg_notices (s : State) (tag : Nat) (f : Wg → Wg) : (updWg s tag f).notices = s.notices := by
  unfold updWg
  split <;> rfl
@[simp] theorem updWg_sideband (s : State) (tag : Nat) (f : Wg → Wg) : (updWg s tag f).sideband = s.sideband := by
  unfold updWg
  split <;> rfl
@[simp] theorem updWg_drops (s : State) (tag : Nat) (f : Wg → Wg) : (updWg s tag f).drops = s.drops := by
  unfold updWg
  split <;> rfl
@[simp] theorem updWg_extents (s : State) (tag : Nat) (f : Wg → Wg) : (updWg s tag f).extents = s.extents := by
  unfold updWg
  split <;> rfl
@[simp] theorem updWg_lost (s : State) (tag : Nat) (f : Wg → Wg) : (updWg s tag f).lost = s.lost := by
  unfold updWg
  split <;> rfl
@[simp] theorem updWg_fuse (s : State) (tag : Nat) (f : Wg → Wg) : (updWg s tag f).fuse = s.fuse := by
  unfold updWg
  split <;> rfl
@[simp] theorem updWg_fuseBusy (s : State) (tag : Nat) (f : Wg → Wg) : (updWg s tag f).fuseBusy = s.fuseBusy := by
  unfold updWg
  split <;> rfl
@[simp] theorem updWg_fuseBy (s : State) (tag : Nat) (f : Wg → Wg) : (updWg s tag f).fuseBy = s.fuseBy := by
  unfold updWg
  split <;> rfl
@[simp] theorem updWg_heads (s : State) (tag : Nat) (f : Wg → Wg) : (updWg s tag f).heads = s.heads := by
  unfold updWg
  split <;> rfl
@[simp] theorem updWg_startedNow (s : State) (tag : Nat) (f : Wg → Wg) : (updWg s tag f).startedNow = s.startedNow := by
  unfold updWg
  split <;> rfl
@[simp] theorem updWg_hcqHeld (s : State) (tag : Nat) (f : Wg → Wg) : (updWg s tag f).hcqHeld = s.hcqHeld := by
  unfold updWg
  split <;> rfl
@[simp] theorem updWg_killing (s : State) (tag : Nat) (f : Wg → Wg) : (updWg s tag f).killing = s.killing := by
  unfold updWg
  split <;> rfl
@[simp] theorem updWg_slice (s : State) (tag : Nat) (f : Wg → Wg) : (updWg s tag f).slice = s.slice := by
  unfold updWg
  split <;> rfl
@[simp] theorem updWg_nextQueue (s : State) (tag : Nat) (f : Wg → Wg) : (updWg s tag f).nextQueue = s.nextQueue := by
  unfold updWg
  split <;> rfl

/-! A gang changed. -/

@[simp] theorem updGang_agenda (s : State) (tag g : Nat) (f : Gang → Gang) : (updGang s tag g f).agenda = s.agenda := by
  unfold updGang
  split <;> rfl
@[simp] theorem updGang_cycle (s : State) (tag g : Nat) (f : Gang → Gang) : (updGang s tag g f).cycle = s.cycle := by
  unfold updGang
  split <;> rfl
@[simp] theorem updGang_time1588 (s : State) (tag g : Nat) (f : Gang → Gang) : (updGang s tag g f).time1588 = s.time1588 := by
  unfold updGang
  split <;> rfl
@[simp] theorem updGang_clockMHz (s : State) (tag g : Nat) (f : Gang → Gang) : (updGang s tag g f).clockMHz = s.clockMHz := by
  unfold updGang
  split <;> rfl
@[simp] theorem updGang_module (s : State) (tag g : Nat) (f : Gang → Gang) : (updGang s tag g f).module = s.module := by
  unfold updGang
  split <;> rfl
@[simp] theorem updGang_freeCtr (s : State) (tag g : Nat) (f : Gang → Gang) : (updGang s tag g f).freeCtr = s.freeCtr := by
  unfold updGang
  split <;> rfl
@[simp] theorem updGang_seq (s : State) (tag g : Nat) (f : Gang → Gang) : (updGang s tag g f).seq = s.seq := by
  unfold updGang
  split <;> rfl
@[simp] theorem updGang_mem (s : State) (tag g : Nat) (f : Gang → Gang) : (updGang s tag g f).mem = s.mem := by
  unfold updGang
  split <;> rfl
@[simp] theorem updGang_smears (s : State) (tag g : Nat) (f : Gang → Gang) : (updGang s tag g f).smears = s.smears := by
  unfold updGang
  split <;> rfl
@[simp] theorem updGang_l1 (s : State) (tag g : Nat) (f : Gang → Gang) : (updGang s tag g f).l1 = s.l1 := by
  unfold updGang
  split <;> rfl
@[simp] theorem updGang_slices (s : State) (tag g : Nat) (f : Gang → Gang) : (updGang s tag g f).slices = s.slices := by
  unfold updGang
  split <;> rfl
@[simp] theorem updGang_reps (s : State) (tag g : Nat) (f : Gang → Gang) : (updGang s tag g f).reps = s.reps := by
  unfold updGang
  split <;> rfl
@[simp] theorem updGang_repLines (s : State) (tag g : Nat) (f : Gang → Gang) : (updGang s tag g f).repLines = s.repLines := by
  unfold updGang
  split <;> rfl
@[simp] theorem updGang_rrAcc (s : State) (tag g : Nat) (f : Gang → Gang) : (updGang s tag g f).rrAcc = s.rrAcc := by
  unfold updGang
  split <;> rfl
@[simp] theorem updGang_pages (s : State) (tag g : Nat) (f : Gang → Gang) : (updGang s tag g f).pages = s.pages := by
  unfold updGang
  split <;> rfl
@[simp] theorem updGang_tlb (s : State) (tag g : Nat) (f : Gang → Gang) : (updGang s tag g f).tlb = s.tlb := by
  unfold updGang
  split <;> rfl
@[simp] theorem updGang_own (s : State) (tag g : Nat) (f : Gang → Gang) : (updGang s tag g f).own = s.own := by
  unfold updGang
  split <;> rfl
@[simp] theorem updGang_waiters (s : State) (tag g : Nat) (f : Gang → Gang) : (updGang s tag g f).waiters = s.waiters := by
  unfold updGang
  split <;> rfl
@[simp] theorem updGang_reqs (s : State) (tag g : Nat) (f : Gang → Gang) : (updGang s tag g f).reqs = s.reqs := by
  unfold updGang
  split <;> rfl
@[simp] theorem updGang_grants (s : State) (tag g : Nat) (f : Gang → Gang) : (updGang s tag g f).grants = s.grants := by
  unfold updGang
  split <;> rfl
@[simp] theorem updGang_msgs (s : State) (tag g : Nat) (f : Gang → Gang) : (updGang s tag g f).msgs = s.msgs := by
  unfold updGang
  split <;> rfl
@[simp] theorem updGang_ctxs (s : State) (tag g : Nat) (f : Gang → Gang) : (updGang s tag g f).ctxs = s.ctxs := by
  unfold updGang
  split <;> rfl
@[simp] theorem updGang_issues (s : State) (tag g : Nat) (f : Gang → Gang) : (updGang s tag g f).issues = s.issues := by
  unfold updGang
  split <;> rfl
@[simp] theorem updGang_turns (s : State) (tag g : Nat) (f : Gang → Gang) : (updGang s tag g f).turns = s.turns := by
  unfold updGang
  split <;> rfl
@[simp] theorem updGang_dawn (s : State) (tag g : Nat) (f : Gang → Gang) : (updGang s tag g f).dawn = s.dawn := by
  unfold updGang
  split <;> rfl
@[simp] theorem updGang_skeins (s : State) (tag g : Nat) (f : Gang → Gang) : (updGang s tag g f).skeins = s.skeins := by
  unfold updGang
  split <;> rfl
@[simp] theorem updGang_launches (s : State) (tag g : Nat) (f : Gang → Gang) : (updGang s tag g f).launches = s.launches := by
  unfold updGang
  split <;> rfl
@[simp] theorem updGang_childReqs (s : State) (tag g : Nat) (f : Gang → Gang) : (updGang s tag g f).childReqs = s.childReqs := by
  unfold updGang
  split <;> rfl
@[simp] theorem updGang_amWaits (s : State) (tag g : Nat) (f : Gang → Gang) : (updGang s tag g f).amWaits = s.amWaits := by
  unfold updGang
  split <;> rfl
@[simp] theorem updGang_deferred (s : State) (tag g : Nat) (f : Gang → Gang) : (updGang s tag g f).deferred = s.deferred := by
  unfold updGang
  split <;> rfl
@[simp] theorem updGang_rets (s : State) (tag g : Nat) (f : Gang → Gang) : (updGang s tag g f).rets = s.rets := by
  unfold updGang
  split <;> rfl
@[simp] theorem updGang_rqWaits (s : State) (tag g : Nat) (f : Gang → Gang) : (updGang s tag g f).rqWaits = s.rqWaits := by
  unfold updGang
  split <;> rfl
@[simp] theorem updGang_eng (s : State) (tag g : Nat) (f : Gang → Gang) : (updGang s tag g f).eng = s.eng := by
  unfold updGang
  split <;> rfl
@[simp] theorem updGang_xfers (s : State) (tag g : Nat) (f : Gang → Gang) : (updGang s tag g f).xfers = s.xfers := by
  unfold updGang
  split <;> rfl
@[simp] theorem updGang_colls (s : State) (tag g : Nat) (f : Gang → Gang) : (updGang s tag g f).colls = s.colls := by
  unfold updGang
  split <;> rfl
@[simp] theorem updGang_collNo (s : State) (tag g : Nat) (f : Gang → Gang) : (updGang s tag g f).collNo = s.collNo := by
  unfold updGang
  split <;> rfl
@[simp] theorem updGang_collPkts (s : State) (tag g : Nat) (f : Gang → Gang) : (updGang s tag g f).collPkts = s.collPkts := by
  unfold updGang
  split <;> rfl
@[simp] theorem updGang_collExs (s : State) (tag g : Nat) (f : Gang → Gang) : (updGang s tag g f).collExs = s.collExs := by
  unfold updGang
  split <;> rfl
@[simp] theorem updGang_collSent (s : State) (tag g : Nat) (f : Gang → Gang) : (updGang s tag g f).collSent = s.collSent := by
  unfold updGang
  split <;> rfl
@[simp] theorem updGang_collTold (s : State) (tag g : Nat) (f : Gang → Gang) : (updGang s tag g f).collTold = s.collTold := by
  unfold updGang
  split <;> rfl
@[simp] theorem updGang_ring (s : State) (tag g : Nat) (f : Gang → Gang) : (updGang s tag g f).ring = s.ring := by
  unfold updGang
  split <;> rfl
@[simp] theorem updGang_ctl (s : State) (tag g : Nat) (f : Gang → Gang) : (updGang s tag g f).ctl = s.ctl := by
  unfold updGang
  split <;> rfl
@[simp] theorem updGang_cont (s : State) (tag g : Nat) (f : Gang → Gang) : (updGang s tag g f).cont = s.cont := by
  unfold updGang
  split <;> rfl
@[simp] theorem updGang_faults (s : State) (tag g : Nat) (f : Gang → Gang) : (updGang s tag g f).faults = s.faults := by
  unfold updGang
  split <;> rfl
@[simp] theorem updGang_images (s : State) (tag g : Nat) (f : Gang → Gang) : (updGang s tag g f).images = s.images := by
  unfold updGang
  split <;> rfl
@[simp] theorem updGang_loadDone (s : State) (tag g : Nat) (f : Gang → Gang) : (updGang s tag g f).loadDone = s.loadDone := by
  unfold updGang
  split <;> rfl
@[simp] theorem updGang_links (s : State) (tag g : Nat) (f : Gang → Gang) : (updGang s tag g f).links = s.links := by
  unfold updGang
  split <;> rfl
@[simp] theorem updGang_live (s : State) (tag g : Nat) (f : Gang → Gang) : (updGang s tag g f).live = s.live := by
  unfold updGang
  split <;> rfl
@[simp] theorem updGang_deadPlanes (s : State) (tag g : Nat) (f : Gang → Gang) : (updGang s tag g f).deadPlanes = s.deadPlanes := by
  unfold updGang
  split <;> rfl
@[simp] theorem updGang_answers (s : State) (tag g : Nat) (f : Gang → Gang) : (updGang s tag g f).answers = s.answers := by
  unfold updGang
  split <;> rfl
@[simp] theorem updGang_slotRes (s : State) (tag g : Nat) (f : Gang → Gang) : (updGang s tag g f).slotRes = s.slotRes := by
  unfold updGang
  split <;> rfl
@[simp] theorem updGang_tokens (s : State) (tag g : Nat) (f : Gang → Gang) : (updGang s tag g f).tokens = s.tokens := by
  unfold updGang
  split <;> rfl
@[simp] theorem updGang_heldCredits (s : State) (tag g : Nat) (f : Gang → Gang) : (updGang s tag g f).heldCredits = s.heldCredits := by
  unfold updGang
  split <;> rfl
@[simp] theorem updGang_hostMem (s : State) (tag g : Nat) (f : Gang → Gang) : (updGang s tag g f).hostMem = s.hostMem := by
  unfold updGang
  split <;> rfl
@[simp] theorem updGang_interrupts (s : State) (tag g : Nat) (f : Gang → Gang) : (updGang s tag g f).interrupts = s.interrupts := by
  unfold updGang
  split <;> rfl
@[simp] theorem updGang_notices (s : State) (tag g : Nat) (f : Gang → Gang) : (updGang s tag g f).notices = s.notices := by
  unfold updGang
  split <;> rfl
@[simp] theorem updGang_sideband (s : State) (tag g : Nat) (f : Gang → Gang) : (updGang s tag g f).sideband = s.sideband := by
  unfold updGang
  split <;> rfl
@[simp] theorem updGang_drops (s : State) (tag g : Nat) (f : Gang → Gang) : (updGang s tag g f).drops = s.drops := by
  unfold updGang
  split <;> rfl
@[simp] theorem updGang_extents (s : State) (tag g : Nat) (f : Gang → Gang) : (updGang s tag g f).extents = s.extents := by
  unfold updGang
  split <;> rfl
@[simp] theorem updGang_lost (s : State) (tag g : Nat) (f : Gang → Gang) : (updGang s tag g f).lost = s.lost := by
  unfold updGang
  split <;> rfl
@[simp] theorem updGang_fuse (s : State) (tag g : Nat) (f : Gang → Gang) : (updGang s tag g f).fuse = s.fuse := by
  unfold updGang
  split <;> rfl
@[simp] theorem updGang_fuseBusy (s : State) (tag g : Nat) (f : Gang → Gang) : (updGang s tag g f).fuseBusy = s.fuseBusy := by
  unfold updGang
  split <;> rfl
@[simp] theorem updGang_fuseBy (s : State) (tag g : Nat) (f : Gang → Gang) : (updGang s tag g f).fuseBy = s.fuseBy := by
  unfold updGang
  split <;> rfl
@[simp] theorem updGang_heads (s : State) (tag g : Nat) (f : Gang → Gang) : (updGang s tag g f).heads = s.heads := by
  unfold updGang
  split <;> rfl
@[simp] theorem updGang_startedNow (s : State) (tag g : Nat) (f : Gang → Gang) : (updGang s tag g f).startedNow = s.startedNow := by
  unfold updGang
  split <;> rfl
@[simp] theorem updGang_hcqHeld (s : State) (tag g : Nat) (f : Gang → Gang) : (updGang s tag g f).hcqHeld = s.hcqHeld := by
  unfold updGang
  split <;> rfl
@[simp] theorem updGang_killing (s : State) (tag g : Nat) (f : Gang → Gang) : (updGang s tag g f).killing = s.killing := by
  unfold updGang
  split <;> rfl
@[simp] theorem updGang_slice (s : State) (tag g : Nat) (f : Gang → Gang) : (updGang s tag g f).slice = s.slice := by
  unfold updGang
  split <;> rfl
@[simp] theorem updGang_nextQueue (s : State) (tag g : Nat) (f : Gang → Gang) : (updGang s tag g f).nextQueue = s.nextQueue := by
  unfold updGang
  split <;> rfl

/-! The head issue replaced. -/

@[simp] theorem setHead_agenda (s : State) (i : Option Issue) : (setHead s i).agenda = s.agenda := rfl
@[simp] theorem setHead_cycle (s : State) (i : Option Issue) : (setHead s i).cycle = s.cycle := rfl
@[simp] theorem setHead_time1588 (s : State) (i : Option Issue) : (setHead s i).time1588 = s.time1588 := rfl
@[simp] theorem setHead_clockMHz (s : State) (i : Option Issue) : (setHead s i).clockMHz = s.clockMHz := rfl
@[simp] theorem setHead_module (s : State) (i : Option Issue) : (setHead s i).module = s.module := rfl
@[simp] theorem setHead_freeCtr (s : State) (i : Option Issue) : (setHead s i).freeCtr = s.freeCtr := rfl
@[simp] theorem setHead_seq (s : State) (i : Option Issue) : (setHead s i).seq = s.seq := rfl
@[simp] theorem setHead_mem (s : State) (i : Option Issue) : (setHead s i).mem = s.mem := rfl
@[simp] theorem setHead_smears (s : State) (i : Option Issue) : (setHead s i).smears = s.smears := rfl
@[simp] theorem setHead_l1 (s : State) (i : Option Issue) : (setHead s i).l1 = s.l1 := rfl
@[simp] theorem setHead_slices (s : State) (i : Option Issue) : (setHead s i).slices = s.slices := rfl
@[simp] theorem setHead_reps (s : State) (i : Option Issue) : (setHead s i).reps = s.reps := rfl
@[simp] theorem setHead_repLines (s : State) (i : Option Issue) : (setHead s i).repLines = s.repLines := rfl
@[simp] theorem setHead_rrAcc (s : State) (i : Option Issue) : (setHead s i).rrAcc = s.rrAcc := rfl
@[simp] theorem setHead_pages (s : State) (i : Option Issue) : (setHead s i).pages = s.pages := rfl
@[simp] theorem setHead_tlb (s : State) (i : Option Issue) : (setHead s i).tlb = s.tlb := rfl
@[simp] theorem setHead_own (s : State) (i : Option Issue) : (setHead s i).own = s.own := rfl
@[simp] theorem setHead_waiters (s : State) (i : Option Issue) : (setHead s i).waiters = s.waiters := rfl
@[simp] theorem setHead_reqs (s : State) (i : Option Issue) : (setHead s i).reqs = s.reqs := rfl
@[simp] theorem setHead_grants (s : State) (i : Option Issue) : (setHead s i).grants = s.grants := rfl
@[simp] theorem setHead_msgs (s : State) (i : Option Issue) : (setHead s i).msgs = s.msgs := rfl
@[simp] theorem setHead_ctxs (s : State) (i : Option Issue) : (setHead s i).ctxs = s.ctxs := rfl
@[simp] theorem setHead_wgs (s : State) (i : Option Issue) : (setHead s i).wgs = s.wgs := rfl
@[simp] theorem setHead_issues (s : State) (i : Option Issue) : (setHead s i).issues = i.toList ++ s.issues.tail := rfl
@[simp] theorem setHead_turns (s : State) (i : Option Issue) : (setHead s i).turns = s.turns := rfl
@[simp] theorem setHead_dawn (s : State) (i : Option Issue) : (setHead s i).dawn = s.dawn := rfl
@[simp] theorem setHead_skeins (s : State) (i : Option Issue) : (setHead s i).skeins = s.skeins := rfl
@[simp] theorem setHead_launches (s : State) (i : Option Issue) : (setHead s i).launches = s.launches := rfl
@[simp] theorem setHead_childReqs (s : State) (i : Option Issue) : (setHead s i).childReqs = s.childReqs := rfl
@[simp] theorem setHead_amWaits (s : State) (i : Option Issue) : (setHead s i).amWaits = s.amWaits := rfl
@[simp] theorem setHead_deferred (s : State) (i : Option Issue) : (setHead s i).deferred = s.deferred := rfl
@[simp] theorem setHead_rets (s : State) (i : Option Issue) : (setHead s i).rets = s.rets := rfl
@[simp] theorem setHead_rqWaits (s : State) (i : Option Issue) : (setHead s i).rqWaits = s.rqWaits := rfl
@[simp] theorem setHead_eng (s : State) (i : Option Issue) : (setHead s i).eng = s.eng := rfl
@[simp] theorem setHead_xfers (s : State) (i : Option Issue) : (setHead s i).xfers = s.xfers := rfl
@[simp] theorem setHead_colls (s : State) (i : Option Issue) : (setHead s i).colls = s.colls := rfl
@[simp] theorem setHead_collNo (s : State) (i : Option Issue) : (setHead s i).collNo = s.collNo := rfl
@[simp] theorem setHead_collPkts (s : State) (i : Option Issue) : (setHead s i).collPkts = s.collPkts := rfl
@[simp] theorem setHead_collExs (s : State) (i : Option Issue) : (setHead s i).collExs = s.collExs := rfl
@[simp] theorem setHead_collSent (s : State) (i : Option Issue) : (setHead s i).collSent = s.collSent := rfl
@[simp] theorem setHead_collTold (s : State) (i : Option Issue) : (setHead s i).collTold = s.collTold := rfl
@[simp] theorem setHead_ring (s : State) (i : Option Issue) : (setHead s i).ring = s.ring := rfl
@[simp] theorem setHead_ctl (s : State) (i : Option Issue) : (setHead s i).ctl = s.ctl := rfl
@[simp] theorem setHead_cont (s : State) (i : Option Issue) : (setHead s i).cont = s.cont := rfl
@[simp] theorem setHead_faults (s : State) (i : Option Issue) : (setHead s i).faults = s.faults := rfl
@[simp] theorem setHead_images (s : State) (i : Option Issue) : (setHead s i).images = s.images := rfl
@[simp] theorem setHead_loadDone (s : State) (i : Option Issue) : (setHead s i).loadDone = s.loadDone := rfl
@[simp] theorem setHead_links (s : State) (i : Option Issue) : (setHead s i).links = s.links := rfl
@[simp] theorem setHead_live (s : State) (i : Option Issue) : (setHead s i).live = s.live := rfl
@[simp] theorem setHead_deadPlanes (s : State) (i : Option Issue) : (setHead s i).deadPlanes = s.deadPlanes := rfl
@[simp] theorem setHead_answers (s : State) (i : Option Issue) : (setHead s i).answers = s.answers := rfl
@[simp] theorem setHead_slotRes (s : State) (i : Option Issue) : (setHead s i).slotRes = s.slotRes := rfl
@[simp] theorem setHead_tokens (s : State) (i : Option Issue) : (setHead s i).tokens = s.tokens := rfl
@[simp] theorem setHead_heldCredits (s : State) (i : Option Issue) : (setHead s i).heldCredits = s.heldCredits := rfl
@[simp] theorem setHead_hostMem (s : State) (i : Option Issue) : (setHead s i).hostMem = s.hostMem := rfl
@[simp] theorem setHead_interrupts (s : State) (i : Option Issue) : (setHead s i).interrupts = s.interrupts := rfl
@[simp] theorem setHead_notices (s : State) (i : Option Issue) : (setHead s i).notices = s.notices := rfl
@[simp] theorem setHead_sideband (s : State) (i : Option Issue) : (setHead s i).sideband = s.sideband := rfl
@[simp] theorem setHead_drops (s : State) (i : Option Issue) : (setHead s i).drops = s.drops := rfl
@[simp] theorem setHead_extents (s : State) (i : Option Issue) : (setHead s i).extents = s.extents := rfl
@[simp] theorem setHead_lost (s : State) (i : Option Issue) : (setHead s i).lost = s.lost := rfl
@[simp] theorem setHead_fuse (s : State) (i : Option Issue) : (setHead s i).fuse = s.fuse := rfl
@[simp] theorem setHead_fuseBusy (s : State) (i : Option Issue) : (setHead s i).fuseBusy = s.fuseBusy := rfl
@[simp] theorem setHead_fuseBy (s : State) (i : Option Issue) : (setHead s i).fuseBy = s.fuseBy := rfl
@[simp] theorem setHead_heads (s : State) (i : Option Issue) : (setHead s i).heads = s.heads := rfl
@[simp] theorem setHead_startedNow (s : State) (i : Option Issue) : (setHead s i).startedNow = s.startedNow := rfl
@[simp] theorem setHead_hcqHeld (s : State) (i : Option Issue) : (setHead s i).hcqHeld = s.hcqHeld := rfl
@[simp] theorem setHead_killing (s : State) (i : Option Issue) : (setHead s i).killing = s.killing := rfl
@[simp] theorem setHead_slice (s : State) (i : Option Issue) : (setHead s i).slice = s.slice := rfl
@[simp] theorem setHead_nextQueue (s : State) (i : Option Issue) : (setHead s i).nextQueue = s.nextQueue := rfl

/-! A skein changed. -/

@[simp] theorem updSkein_agenda (s : State) (k : Nat) (f : Skein → Skein) : (updSkein s k f).agenda = s.agenda := rfl
@[simp] theorem updSkein_cycle (s : State) (k : Nat) (f : Skein → Skein) : (updSkein s k f).cycle = s.cycle := rfl
@[simp] theorem updSkein_time1588 (s : State) (k : Nat) (f : Skein → Skein) : (updSkein s k f).time1588 = s.time1588 := rfl
@[simp] theorem updSkein_clockMHz (s : State) (k : Nat) (f : Skein → Skein) : (updSkein s k f).clockMHz = s.clockMHz := rfl
@[simp] theorem updSkein_module (s : State) (k : Nat) (f : Skein → Skein) : (updSkein s k f).module = s.module := rfl
@[simp] theorem updSkein_freeCtr (s : State) (k : Nat) (f : Skein → Skein) : (updSkein s k f).freeCtr = s.freeCtr := rfl
@[simp] theorem updSkein_seq (s : State) (k : Nat) (f : Skein → Skein) : (updSkein s k f).seq = s.seq := rfl
@[simp] theorem updSkein_mem (s : State) (k : Nat) (f : Skein → Skein) : (updSkein s k f).mem = s.mem := rfl
@[simp] theorem updSkein_smears (s : State) (k : Nat) (f : Skein → Skein) : (updSkein s k f).smears = s.smears := rfl
@[simp] theorem updSkein_l1 (s : State) (k : Nat) (f : Skein → Skein) : (updSkein s k f).l1 = s.l1 := rfl
@[simp] theorem updSkein_slices (s : State) (k : Nat) (f : Skein → Skein) : (updSkein s k f).slices = s.slices := rfl
@[simp] theorem updSkein_reps (s : State) (k : Nat) (f : Skein → Skein) : (updSkein s k f).reps = s.reps := rfl
@[simp] theorem updSkein_repLines (s : State) (k : Nat) (f : Skein → Skein) : (updSkein s k f).repLines = s.repLines := rfl
@[simp] theorem updSkein_rrAcc (s : State) (k : Nat) (f : Skein → Skein) : (updSkein s k f).rrAcc = s.rrAcc := rfl
@[simp] theorem updSkein_pages (s : State) (k : Nat) (f : Skein → Skein) : (updSkein s k f).pages = s.pages := rfl
@[simp] theorem updSkein_tlb (s : State) (k : Nat) (f : Skein → Skein) : (updSkein s k f).tlb = s.tlb := rfl
@[simp] theorem updSkein_own (s : State) (k : Nat) (f : Skein → Skein) : (updSkein s k f).own = s.own := rfl
@[simp] theorem updSkein_waiters (s : State) (k : Nat) (f : Skein → Skein) : (updSkein s k f).waiters = s.waiters := rfl
@[simp] theorem updSkein_reqs (s : State) (k : Nat) (f : Skein → Skein) : (updSkein s k f).reqs = s.reqs := rfl
@[simp] theorem updSkein_grants (s : State) (k : Nat) (f : Skein → Skein) : (updSkein s k f).grants = s.grants := rfl
@[simp] theorem updSkein_msgs (s : State) (k : Nat) (f : Skein → Skein) : (updSkein s k f).msgs = s.msgs := rfl
@[simp] theorem updSkein_ctxs (s : State) (k : Nat) (f : Skein → Skein) : (updSkein s k f).ctxs = s.ctxs := rfl
@[simp] theorem updSkein_wgs (s : State) (k : Nat) (f : Skein → Skein) : (updSkein s k f).wgs = s.wgs := rfl
@[simp] theorem updSkein_issues (s : State) (k : Nat) (f : Skein → Skein) : (updSkein s k f).issues = s.issues := rfl
@[simp] theorem updSkein_turns (s : State) (k : Nat) (f : Skein → Skein) : (updSkein s k f).turns = s.turns := rfl
@[simp] theorem updSkein_dawn (s : State) (k : Nat) (f : Skein → Skein) : (updSkein s k f).dawn = s.dawn := rfl
@[simp] theorem updSkein_skeins (s : State) (k : Nat) (f : Skein → Skein) : (updSkein s k f).skeins = updFirst (fun x => x.id == k) f s.skeins := rfl
@[simp] theorem updSkein_launches (s : State) (k : Nat) (f : Skein → Skein) : (updSkein s k f).launches = s.launches := rfl
@[simp] theorem updSkein_childReqs (s : State) (k : Nat) (f : Skein → Skein) : (updSkein s k f).childReqs = s.childReqs := rfl
@[simp] theorem updSkein_amWaits (s : State) (k : Nat) (f : Skein → Skein) : (updSkein s k f).amWaits = s.amWaits := rfl
@[simp] theorem updSkein_deferred (s : State) (k : Nat) (f : Skein → Skein) : (updSkein s k f).deferred = s.deferred := rfl
@[simp] theorem updSkein_rets (s : State) (k : Nat) (f : Skein → Skein) : (updSkein s k f).rets = s.rets := rfl
@[simp] theorem updSkein_rqWaits (s : State) (k : Nat) (f : Skein → Skein) : (updSkein s k f).rqWaits = s.rqWaits := rfl
@[simp] theorem updSkein_eng (s : State) (k : Nat) (f : Skein → Skein) : (updSkein s k f).eng = s.eng := rfl
@[simp] theorem updSkein_xfers (s : State) (k : Nat) (f : Skein → Skein) : (updSkein s k f).xfers = s.xfers := rfl
@[simp] theorem updSkein_colls (s : State) (k : Nat) (f : Skein → Skein) : (updSkein s k f).colls = s.colls := rfl
@[simp] theorem updSkein_collNo (s : State) (k : Nat) (f : Skein → Skein) : (updSkein s k f).collNo = s.collNo := rfl
@[simp] theorem updSkein_collPkts (s : State) (k : Nat) (f : Skein → Skein) : (updSkein s k f).collPkts = s.collPkts := rfl
@[simp] theorem updSkein_collExs (s : State) (k : Nat) (f : Skein → Skein) : (updSkein s k f).collExs = s.collExs := rfl
@[simp] theorem updSkein_collSent (s : State) (k : Nat) (f : Skein → Skein) : (updSkein s k f).collSent = s.collSent := rfl
@[simp] theorem updSkein_collTold (s : State) (k : Nat) (f : Skein → Skein) : (updSkein s k f).collTold = s.collTold := rfl
@[simp] theorem updSkein_ring (s : State) (k : Nat) (f : Skein → Skein) : (updSkein s k f).ring = s.ring := rfl
@[simp] theorem updSkein_ctl (s : State) (k : Nat) (f : Skein → Skein) : (updSkein s k f).ctl = s.ctl := rfl
@[simp] theorem updSkein_cont (s : State) (k : Nat) (f : Skein → Skein) : (updSkein s k f).cont = s.cont := rfl
@[simp] theorem updSkein_faults (s : State) (k : Nat) (f : Skein → Skein) : (updSkein s k f).faults = s.faults := rfl
@[simp] theorem updSkein_images (s : State) (k : Nat) (f : Skein → Skein) : (updSkein s k f).images = s.images := rfl
@[simp] theorem updSkein_loadDone (s : State) (k : Nat) (f : Skein → Skein) : (updSkein s k f).loadDone = s.loadDone := rfl
@[simp] theorem updSkein_links (s : State) (k : Nat) (f : Skein → Skein) : (updSkein s k f).links = s.links := rfl
@[simp] theorem updSkein_live (s : State) (k : Nat) (f : Skein → Skein) : (updSkein s k f).live = s.live := rfl
@[simp] theorem updSkein_deadPlanes (s : State) (k : Nat) (f : Skein → Skein) : (updSkein s k f).deadPlanes = s.deadPlanes := rfl
@[simp] theorem updSkein_answers (s : State) (k : Nat) (f : Skein → Skein) : (updSkein s k f).answers = s.answers := rfl
@[simp] theorem updSkein_slotRes (s : State) (k : Nat) (f : Skein → Skein) : (updSkein s k f).slotRes = s.slotRes := rfl
@[simp] theorem updSkein_tokens (s : State) (k : Nat) (f : Skein → Skein) : (updSkein s k f).tokens = s.tokens := rfl
@[simp] theorem updSkein_heldCredits (s : State) (k : Nat) (f : Skein → Skein) : (updSkein s k f).heldCredits = s.heldCredits := rfl
@[simp] theorem updSkein_hostMem (s : State) (k : Nat) (f : Skein → Skein) : (updSkein s k f).hostMem = s.hostMem := rfl
@[simp] theorem updSkein_interrupts (s : State) (k : Nat) (f : Skein → Skein) : (updSkein s k f).interrupts = s.interrupts := rfl
@[simp] theorem updSkein_notices (s : State) (k : Nat) (f : Skein → Skein) : (updSkein s k f).notices = s.notices := rfl
@[simp] theorem updSkein_sideband (s : State) (k : Nat) (f : Skein → Skein) : (updSkein s k f).sideband = s.sideband := rfl
@[simp] theorem updSkein_drops (s : State) (k : Nat) (f : Skein → Skein) : (updSkein s k f).drops = s.drops := rfl
@[simp] theorem updSkein_extents (s : State) (k : Nat) (f : Skein → Skein) : (updSkein s k f).extents = s.extents := rfl
@[simp] theorem updSkein_lost (s : State) (k : Nat) (f : Skein → Skein) : (updSkein s k f).lost = s.lost := rfl
@[simp] theorem updSkein_fuse (s : State) (k : Nat) (f : Skein → Skein) : (updSkein s k f).fuse = s.fuse := rfl
@[simp] theorem updSkein_fuseBusy (s : State) (k : Nat) (f : Skein → Skein) : (updSkein s k f).fuseBusy = s.fuseBusy := rfl
@[simp] theorem updSkein_fuseBy (s : State) (k : Nat) (f : Skein → Skein) : (updSkein s k f).fuseBy = s.fuseBy := rfl
@[simp] theorem updSkein_heads (s : State) (k : Nat) (f : Skein → Skein) : (updSkein s k f).heads = s.heads := rfl
@[simp] theorem updSkein_startedNow (s : State) (k : Nat) (f : Skein → Skein) : (updSkein s k f).startedNow = s.startedNow := rfl
@[simp] theorem updSkein_hcqHeld (s : State) (k : Nat) (f : Skein → Skein) : (updSkein s k f).hcqHeld = s.hcqHeld := rfl
@[simp] theorem updSkein_killing (s : State) (k : Nat) (f : Skein → Skein) : (updSkein s k f).killing = s.killing := rfl
@[simp] theorem updSkein_slice (s : State) (k : Nat) (f : Skein → Skein) : (updSkein s k f).slice = s.slice := rfl
@[simp] theorem updSkein_nextQueue (s : State) (k : Nat) (f : Skein → Skein) : (updSkein s k f).nextQueue = s.nextQueue := rfl

/-! A launch changed. -/

@[simp] theorem updLaunch_agenda (s : State) (l : Nat) (f : Launch → Launch) : (updLaunch s l f).agenda = s.agenda := rfl
@[simp] theorem updLaunch_cycle (s : State) (l : Nat) (f : Launch → Launch) : (updLaunch s l f).cycle = s.cycle := rfl
@[simp] theorem updLaunch_time1588 (s : State) (l : Nat) (f : Launch → Launch) : (updLaunch s l f).time1588 = s.time1588 := rfl
@[simp] theorem updLaunch_clockMHz (s : State) (l : Nat) (f : Launch → Launch) : (updLaunch s l f).clockMHz = s.clockMHz := rfl
@[simp] theorem updLaunch_module (s : State) (l : Nat) (f : Launch → Launch) : (updLaunch s l f).module = s.module := rfl
@[simp] theorem updLaunch_freeCtr (s : State) (l : Nat) (f : Launch → Launch) : (updLaunch s l f).freeCtr = s.freeCtr := rfl
@[simp] theorem updLaunch_seq (s : State) (l : Nat) (f : Launch → Launch) : (updLaunch s l f).seq = s.seq := rfl
@[simp] theorem updLaunch_mem (s : State) (l : Nat) (f : Launch → Launch) : (updLaunch s l f).mem = s.mem := rfl
@[simp] theorem updLaunch_smears (s : State) (l : Nat) (f : Launch → Launch) : (updLaunch s l f).smears = s.smears := rfl
@[simp] theorem updLaunch_l1 (s : State) (l : Nat) (f : Launch → Launch) : (updLaunch s l f).l1 = s.l1 := rfl
@[simp] theorem updLaunch_slices (s : State) (l : Nat) (f : Launch → Launch) : (updLaunch s l f).slices = s.slices := rfl
@[simp] theorem updLaunch_reps (s : State) (l : Nat) (f : Launch → Launch) : (updLaunch s l f).reps = s.reps := rfl
@[simp] theorem updLaunch_repLines (s : State) (l : Nat) (f : Launch → Launch) : (updLaunch s l f).repLines = s.repLines := rfl
@[simp] theorem updLaunch_rrAcc (s : State) (l : Nat) (f : Launch → Launch) : (updLaunch s l f).rrAcc = s.rrAcc := rfl
@[simp] theorem updLaunch_pages (s : State) (l : Nat) (f : Launch → Launch) : (updLaunch s l f).pages = s.pages := rfl
@[simp] theorem updLaunch_tlb (s : State) (l : Nat) (f : Launch → Launch) : (updLaunch s l f).tlb = s.tlb := rfl
@[simp] theorem updLaunch_own (s : State) (l : Nat) (f : Launch → Launch) : (updLaunch s l f).own = s.own := rfl
@[simp] theorem updLaunch_waiters (s : State) (l : Nat) (f : Launch → Launch) : (updLaunch s l f).waiters = s.waiters := rfl
@[simp] theorem updLaunch_reqs (s : State) (l : Nat) (f : Launch → Launch) : (updLaunch s l f).reqs = s.reqs := rfl
@[simp] theorem updLaunch_grants (s : State) (l : Nat) (f : Launch → Launch) : (updLaunch s l f).grants = s.grants := rfl
@[simp] theorem updLaunch_msgs (s : State) (l : Nat) (f : Launch → Launch) : (updLaunch s l f).msgs = s.msgs := rfl
@[simp] theorem updLaunch_ctxs (s : State) (l : Nat) (f : Launch → Launch) : (updLaunch s l f).ctxs = s.ctxs := rfl
@[simp] theorem updLaunch_wgs (s : State) (l : Nat) (f : Launch → Launch) : (updLaunch s l f).wgs = s.wgs := rfl
@[simp] theorem updLaunch_issues (s : State) (l : Nat) (f : Launch → Launch) : (updLaunch s l f).issues = s.issues := rfl
@[simp] theorem updLaunch_turns (s : State) (l : Nat) (f : Launch → Launch) : (updLaunch s l f).turns = s.turns := rfl
@[simp] theorem updLaunch_dawn (s : State) (l : Nat) (f : Launch → Launch) : (updLaunch s l f).dawn = s.dawn := rfl
@[simp] theorem updLaunch_skeins (s : State) (l : Nat) (f : Launch → Launch) : (updLaunch s l f).skeins = s.skeins := rfl
@[simp] theorem updLaunch_launches (s : State) (l : Nat) (f : Launch → Launch) : (updLaunch s l f).launches = updFirst (fun x => x.id == l) f s.launches := rfl
@[simp] theorem updLaunch_childReqs (s : State) (l : Nat) (f : Launch → Launch) : (updLaunch s l f).childReqs = s.childReqs := rfl
@[simp] theorem updLaunch_amWaits (s : State) (l : Nat) (f : Launch → Launch) : (updLaunch s l f).amWaits = s.amWaits := rfl
@[simp] theorem updLaunch_deferred (s : State) (l : Nat) (f : Launch → Launch) : (updLaunch s l f).deferred = s.deferred := rfl
@[simp] theorem updLaunch_rets (s : State) (l : Nat) (f : Launch → Launch) : (updLaunch s l f).rets = s.rets := rfl
@[simp] theorem updLaunch_rqWaits (s : State) (l : Nat) (f : Launch → Launch) : (updLaunch s l f).rqWaits = s.rqWaits := rfl
@[simp] theorem updLaunch_eng (s : State) (l : Nat) (f : Launch → Launch) : (updLaunch s l f).eng = s.eng := rfl
@[simp] theorem updLaunch_xfers (s : State) (l : Nat) (f : Launch → Launch) : (updLaunch s l f).xfers = s.xfers := rfl
@[simp] theorem updLaunch_colls (s : State) (l : Nat) (f : Launch → Launch) : (updLaunch s l f).colls = s.colls := rfl
@[simp] theorem updLaunch_collNo (s : State) (l : Nat) (f : Launch → Launch) : (updLaunch s l f).collNo = s.collNo := rfl
@[simp] theorem updLaunch_collPkts (s : State) (l : Nat) (f : Launch → Launch) : (updLaunch s l f).collPkts = s.collPkts := rfl
@[simp] theorem updLaunch_collExs (s : State) (l : Nat) (f : Launch → Launch) : (updLaunch s l f).collExs = s.collExs := rfl
@[simp] theorem updLaunch_collSent (s : State) (l : Nat) (f : Launch → Launch) : (updLaunch s l f).collSent = s.collSent := rfl
@[simp] theorem updLaunch_collTold (s : State) (l : Nat) (f : Launch → Launch) : (updLaunch s l f).collTold = s.collTold := rfl
@[simp] theorem updLaunch_ring (s : State) (l : Nat) (f : Launch → Launch) : (updLaunch s l f).ring = s.ring := rfl
@[simp] theorem updLaunch_ctl (s : State) (l : Nat) (f : Launch → Launch) : (updLaunch s l f).ctl = s.ctl := rfl
@[simp] theorem updLaunch_cont (s : State) (l : Nat) (f : Launch → Launch) : (updLaunch s l f).cont = s.cont := rfl
@[simp] theorem updLaunch_faults (s : State) (l : Nat) (f : Launch → Launch) : (updLaunch s l f).faults = s.faults := rfl
@[simp] theorem updLaunch_images (s : State) (l : Nat) (f : Launch → Launch) : (updLaunch s l f).images = s.images := rfl
@[simp] theorem updLaunch_loadDone (s : State) (l : Nat) (f : Launch → Launch) : (updLaunch s l f).loadDone = s.loadDone := rfl
@[simp] theorem updLaunch_links (s : State) (l : Nat) (f : Launch → Launch) : (updLaunch s l f).links = s.links := rfl
@[simp] theorem updLaunch_live (s : State) (l : Nat) (f : Launch → Launch) : (updLaunch s l f).live = s.live := rfl
@[simp] theorem updLaunch_deadPlanes (s : State) (l : Nat) (f : Launch → Launch) : (updLaunch s l f).deadPlanes = s.deadPlanes := rfl
@[simp] theorem updLaunch_answers (s : State) (l : Nat) (f : Launch → Launch) : (updLaunch s l f).answers = s.answers := rfl
@[simp] theorem updLaunch_slotRes (s : State) (l : Nat) (f : Launch → Launch) : (updLaunch s l f).slotRes = s.slotRes := rfl
@[simp] theorem updLaunch_tokens (s : State) (l : Nat) (f : Launch → Launch) : (updLaunch s l f).tokens = s.tokens := rfl
@[simp] theorem updLaunch_heldCredits (s : State) (l : Nat) (f : Launch → Launch) : (updLaunch s l f).heldCredits = s.heldCredits := rfl
@[simp] theorem updLaunch_hostMem (s : State) (l : Nat) (f : Launch → Launch) : (updLaunch s l f).hostMem = s.hostMem := rfl
@[simp] theorem updLaunch_interrupts (s : State) (l : Nat) (f : Launch → Launch) : (updLaunch s l f).interrupts = s.interrupts := rfl
@[simp] theorem updLaunch_notices (s : State) (l : Nat) (f : Launch → Launch) : (updLaunch s l f).notices = s.notices := rfl
@[simp] theorem updLaunch_sideband (s : State) (l : Nat) (f : Launch → Launch) : (updLaunch s l f).sideband = s.sideband := rfl
@[simp] theorem updLaunch_drops (s : State) (l : Nat) (f : Launch → Launch) : (updLaunch s l f).drops = s.drops := rfl
@[simp] theorem updLaunch_extents (s : State) (l : Nat) (f : Launch → Launch) : (updLaunch s l f).extents = s.extents := rfl
@[simp] theorem updLaunch_lost (s : State) (l : Nat) (f : Launch → Launch) : (updLaunch s l f).lost = s.lost := rfl
@[simp] theorem updLaunch_fuse (s : State) (l : Nat) (f : Launch → Launch) : (updLaunch s l f).fuse = s.fuse := rfl
@[simp] theorem updLaunch_fuseBusy (s : State) (l : Nat) (f : Launch → Launch) : (updLaunch s l f).fuseBusy = s.fuseBusy := rfl
@[simp] theorem updLaunch_fuseBy (s : State) (l : Nat) (f : Launch → Launch) : (updLaunch s l f).fuseBy = s.fuseBy := rfl
@[simp] theorem updLaunch_heads (s : State) (l : Nat) (f : Launch → Launch) : (updLaunch s l f).heads = s.heads := rfl
@[simp] theorem updLaunch_startedNow (s : State) (l : Nat) (f : Launch → Launch) : (updLaunch s l f).startedNow = s.startedNow := rfl
@[simp] theorem updLaunch_hcqHeld (s : State) (l : Nat) (f : Launch → Launch) : (updLaunch s l f).hcqHeld = s.hcqHeld := rfl
@[simp] theorem updLaunch_killing (s : State) (l : Nat) (f : Launch → Launch) : (updLaunch s l f).killing = s.killing := rfl
@[simp] theorem updLaunch_slice (s : State) (l : Nat) (f : Launch → Launch) : (updLaunch s l f).slice = s.slice := rfl
@[simp] theorem updLaunch_nextQueue (s : State) (l : Nat) (f : Launch → Launch) : (updLaunch s l f).nextQueue = s.nextQueue := rfl

/-! An engine command changed. -/

@[simp] theorem updEng_agenda (s : State) (id : Nat) (f : EngCmd → EngCmd) : (updEng s id f).agenda = s.agenda := rfl
@[simp] theorem updEng_cycle (s : State) (id : Nat) (f : EngCmd → EngCmd) : (updEng s id f).cycle = s.cycle := rfl
@[simp] theorem updEng_time1588 (s : State) (id : Nat) (f : EngCmd → EngCmd) : (updEng s id f).time1588 = s.time1588 := rfl
@[simp] theorem updEng_clockMHz (s : State) (id : Nat) (f : EngCmd → EngCmd) : (updEng s id f).clockMHz = s.clockMHz := rfl
@[simp] theorem updEng_module (s : State) (id : Nat) (f : EngCmd → EngCmd) : (updEng s id f).module = s.module := rfl
@[simp] theorem updEng_freeCtr (s : State) (id : Nat) (f : EngCmd → EngCmd) : (updEng s id f).freeCtr = s.freeCtr := rfl
@[simp] theorem updEng_seq (s : State) (id : Nat) (f : EngCmd → EngCmd) : (updEng s id f).seq = s.seq := rfl
@[simp] theorem updEng_mem (s : State) (id : Nat) (f : EngCmd → EngCmd) : (updEng s id f).mem = s.mem := rfl
@[simp] theorem updEng_smears (s : State) (id : Nat) (f : EngCmd → EngCmd) : (updEng s id f).smears = s.smears := rfl
@[simp] theorem updEng_l1 (s : State) (id : Nat) (f : EngCmd → EngCmd) : (updEng s id f).l1 = s.l1 := rfl
@[simp] theorem updEng_slices (s : State) (id : Nat) (f : EngCmd → EngCmd) : (updEng s id f).slices = s.slices := rfl
@[simp] theorem updEng_reps (s : State) (id : Nat) (f : EngCmd → EngCmd) : (updEng s id f).reps = s.reps := rfl
@[simp] theorem updEng_repLines (s : State) (id : Nat) (f : EngCmd → EngCmd) : (updEng s id f).repLines = s.repLines := rfl
@[simp] theorem updEng_rrAcc (s : State) (id : Nat) (f : EngCmd → EngCmd) : (updEng s id f).rrAcc = s.rrAcc := rfl
@[simp] theorem updEng_pages (s : State) (id : Nat) (f : EngCmd → EngCmd) : (updEng s id f).pages = s.pages := rfl
@[simp] theorem updEng_tlb (s : State) (id : Nat) (f : EngCmd → EngCmd) : (updEng s id f).tlb = s.tlb := rfl
@[simp] theorem updEng_own (s : State) (id : Nat) (f : EngCmd → EngCmd) : (updEng s id f).own = s.own := rfl
@[simp] theorem updEng_waiters (s : State) (id : Nat) (f : EngCmd → EngCmd) : (updEng s id f).waiters = s.waiters := rfl
@[simp] theorem updEng_reqs (s : State) (id : Nat) (f : EngCmd → EngCmd) : (updEng s id f).reqs = s.reqs := rfl
@[simp] theorem updEng_grants (s : State) (id : Nat) (f : EngCmd → EngCmd) : (updEng s id f).grants = s.grants := rfl
@[simp] theorem updEng_msgs (s : State) (id : Nat) (f : EngCmd → EngCmd) : (updEng s id f).msgs = s.msgs := rfl
@[simp] theorem updEng_ctxs (s : State) (id : Nat) (f : EngCmd → EngCmd) : (updEng s id f).ctxs = s.ctxs := rfl
@[simp] theorem updEng_wgs (s : State) (id : Nat) (f : EngCmd → EngCmd) : (updEng s id f).wgs = s.wgs := rfl
@[simp] theorem updEng_issues (s : State) (id : Nat) (f : EngCmd → EngCmd) : (updEng s id f).issues = s.issues := rfl
@[simp] theorem updEng_turns (s : State) (id : Nat) (f : EngCmd → EngCmd) : (updEng s id f).turns = s.turns := rfl
@[simp] theorem updEng_dawn (s : State) (id : Nat) (f : EngCmd → EngCmd) : (updEng s id f).dawn = s.dawn := rfl
@[simp] theorem updEng_skeins (s : State) (id : Nat) (f : EngCmd → EngCmd) : (updEng s id f).skeins = s.skeins := rfl
@[simp] theorem updEng_launches (s : State) (id : Nat) (f : EngCmd → EngCmd) : (updEng s id f).launches = s.launches := rfl
@[simp] theorem updEng_childReqs (s : State) (id : Nat) (f : EngCmd → EngCmd) : (updEng s id f).childReqs = s.childReqs := rfl
@[simp] theorem updEng_amWaits (s : State) (id : Nat) (f : EngCmd → EngCmd) : (updEng s id f).amWaits = s.amWaits := rfl
@[simp] theorem updEng_deferred (s : State) (id : Nat) (f : EngCmd → EngCmd) : (updEng s id f).deferred = s.deferred := rfl
@[simp] theorem updEng_rets (s : State) (id : Nat) (f : EngCmd → EngCmd) : (updEng s id f).rets = s.rets := rfl
@[simp] theorem updEng_rqWaits (s : State) (id : Nat) (f : EngCmd → EngCmd) : (updEng s id f).rqWaits = s.rqWaits := rfl
@[simp] theorem updEng_eng (s : State) (id : Nat) (f : EngCmd → EngCmd) : (updEng s id f).eng = updFirst (fun c => c.id == id) f s.eng := rfl
@[simp] theorem updEng_xfers (s : State) (id : Nat) (f : EngCmd → EngCmd) : (updEng s id f).xfers = s.xfers := rfl
@[simp] theorem updEng_colls (s : State) (id : Nat) (f : EngCmd → EngCmd) : (updEng s id f).colls = s.colls := rfl
@[simp] theorem updEng_collNo (s : State) (id : Nat) (f : EngCmd → EngCmd) : (updEng s id f).collNo = s.collNo := rfl
@[simp] theorem updEng_collPkts (s : State) (id : Nat) (f : EngCmd → EngCmd) : (updEng s id f).collPkts = s.collPkts := rfl
@[simp] theorem updEng_collExs (s : State) (id : Nat) (f : EngCmd → EngCmd) : (updEng s id f).collExs = s.collExs := rfl
@[simp] theorem updEng_collSent (s : State) (id : Nat) (f : EngCmd → EngCmd) : (updEng s id f).collSent = s.collSent := rfl
@[simp] theorem updEng_collTold (s : State) (id : Nat) (f : EngCmd → EngCmd) : (updEng s id f).collTold = s.collTold := rfl
@[simp] theorem updEng_ring (s : State) (id : Nat) (f : EngCmd → EngCmd) : (updEng s id f).ring = s.ring := rfl
@[simp] theorem updEng_ctl (s : State) (id : Nat) (f : EngCmd → EngCmd) : (updEng s id f).ctl = s.ctl := rfl
@[simp] theorem updEng_cont (s : State) (id : Nat) (f : EngCmd → EngCmd) : (updEng s id f).cont = s.cont := rfl
@[simp] theorem updEng_faults (s : State) (id : Nat) (f : EngCmd → EngCmd) : (updEng s id f).faults = s.faults := rfl
@[simp] theorem updEng_images (s : State) (id : Nat) (f : EngCmd → EngCmd) : (updEng s id f).images = s.images := rfl
@[simp] theorem updEng_loadDone (s : State) (id : Nat) (f : EngCmd → EngCmd) : (updEng s id f).loadDone = s.loadDone := rfl
@[simp] theorem updEng_links (s : State) (id : Nat) (f : EngCmd → EngCmd) : (updEng s id f).links = s.links := rfl
@[simp] theorem updEng_live (s : State) (id : Nat) (f : EngCmd → EngCmd) : (updEng s id f).live = s.live := rfl
@[simp] theorem updEng_deadPlanes (s : State) (id : Nat) (f : EngCmd → EngCmd) : (updEng s id f).deadPlanes = s.deadPlanes := rfl
@[simp] theorem updEng_answers (s : State) (id : Nat) (f : EngCmd → EngCmd) : (updEng s id f).answers = s.answers := rfl
@[simp] theorem updEng_slotRes (s : State) (id : Nat) (f : EngCmd → EngCmd) : (updEng s id f).slotRes = s.slotRes := rfl
@[simp] theorem updEng_tokens (s : State) (id : Nat) (f : EngCmd → EngCmd) : (updEng s id f).tokens = s.tokens := rfl
@[simp] theorem updEng_heldCredits (s : State) (id : Nat) (f : EngCmd → EngCmd) : (updEng s id f).heldCredits = s.heldCredits := rfl
@[simp] theorem updEng_hostMem (s : State) (id : Nat) (f : EngCmd → EngCmd) : (updEng s id f).hostMem = s.hostMem := rfl
@[simp] theorem updEng_interrupts (s : State) (id : Nat) (f : EngCmd → EngCmd) : (updEng s id f).interrupts = s.interrupts := rfl
@[simp] theorem updEng_notices (s : State) (id : Nat) (f : EngCmd → EngCmd) : (updEng s id f).notices = s.notices := rfl
@[simp] theorem updEng_sideband (s : State) (id : Nat) (f : EngCmd → EngCmd) : (updEng s id f).sideband = s.sideband := rfl
@[simp] theorem updEng_drops (s : State) (id : Nat) (f : EngCmd → EngCmd) : (updEng s id f).drops = s.drops := rfl
@[simp] theorem updEng_extents (s : State) (id : Nat) (f : EngCmd → EngCmd) : (updEng s id f).extents = s.extents := rfl
@[simp] theorem updEng_lost (s : State) (id : Nat) (f : EngCmd → EngCmd) : (updEng s id f).lost = s.lost := rfl
@[simp] theorem updEng_fuse (s : State) (id : Nat) (f : EngCmd → EngCmd) : (updEng s id f).fuse = s.fuse := rfl
@[simp] theorem updEng_fuseBusy (s : State) (id : Nat) (f : EngCmd → EngCmd) : (updEng s id f).fuseBusy = s.fuseBusy := rfl
@[simp] theorem updEng_fuseBy (s : State) (id : Nat) (f : EngCmd → EngCmd) : (updEng s id f).fuseBy = s.fuseBy := rfl
@[simp] theorem updEng_heads (s : State) (id : Nat) (f : EngCmd → EngCmd) : (updEng s id f).heads = s.heads := rfl
@[simp] theorem updEng_startedNow (s : State) (id : Nat) (f : EngCmd → EngCmd) : (updEng s id f).startedNow = s.startedNow := rfl
@[simp] theorem updEng_hcqHeld (s : State) (id : Nat) (f : EngCmd → EngCmd) : (updEng s id f).hcqHeld = s.hcqHeld := rfl
@[simp] theorem updEng_killing (s : State) (id : Nat) (f : EngCmd → EngCmd) : (updEng s id f).killing = s.killing := rfl
@[simp] theorem updEng_slice (s : State) (id : Nat) (f : EngCmd → EngCmd) : (updEng s id f).slice = s.slice := rfl
@[simp] theorem updEng_nextQueue (s : State) (id : Nat) (f : EngCmd → EngCmd) : (updEng s id f).nextQueue = s.nextQueue := rfl

/-! What the device keeps of a context changed. -/

@[simp] theorem updCtx_agenda (s : State) (c : Nat) (f : CtxSt → CtxSt) : (updCtx s c f).agenda = s.agenda := by
  unfold updCtx
  split <;> rfl
@[simp] theorem updCtx_cycle (s : State) (c : Nat) (f : CtxSt → CtxSt) : (updCtx s c f).cycle = s.cycle := by
  unfold updCtx
  split <;> rfl
@[simp] theorem updCtx_time1588 (s : State) (c : Nat) (f : CtxSt → CtxSt) : (updCtx s c f).time1588 = s.time1588 := by
  unfold updCtx
  split <;> rfl
@[simp] theorem updCtx_clockMHz (s : State) (c : Nat) (f : CtxSt → CtxSt) : (updCtx s c f).clockMHz = s.clockMHz := by
  unfold updCtx
  split <;> rfl
@[simp] theorem updCtx_module (s : State) (c : Nat) (f : CtxSt → CtxSt) : (updCtx s c f).module = s.module := by
  unfold updCtx
  split <;> rfl
@[simp] theorem updCtx_freeCtr (s : State) (c : Nat) (f : CtxSt → CtxSt) : (updCtx s c f).freeCtr = s.freeCtr := by
  unfold updCtx
  split <;> rfl
@[simp] theorem updCtx_seq (s : State) (c : Nat) (f : CtxSt → CtxSt) : (updCtx s c f).seq = s.seq := by
  unfold updCtx
  split <;> rfl
@[simp] theorem updCtx_mem (s : State) (c : Nat) (f : CtxSt → CtxSt) : (updCtx s c f).mem = s.mem := by
  unfold updCtx
  split <;> rfl
@[simp] theorem updCtx_smears (s : State) (c : Nat) (f : CtxSt → CtxSt) : (updCtx s c f).smears = s.smears := by
  unfold updCtx
  split <;> rfl
@[simp] theorem updCtx_l1 (s : State) (c : Nat) (f : CtxSt → CtxSt) : (updCtx s c f).l1 = s.l1 := by
  unfold updCtx
  split <;> rfl
@[simp] theorem updCtx_slices (s : State) (c : Nat) (f : CtxSt → CtxSt) : (updCtx s c f).slices = s.slices := by
  unfold updCtx
  split <;> rfl
@[simp] theorem updCtx_reps (s : State) (c : Nat) (f : CtxSt → CtxSt) : (updCtx s c f).reps = s.reps := by
  unfold updCtx
  split <;> rfl
@[simp] theorem updCtx_repLines (s : State) (c : Nat) (f : CtxSt → CtxSt) : (updCtx s c f).repLines = s.repLines := by
  unfold updCtx
  split <;> rfl
@[simp] theorem updCtx_rrAcc (s : State) (c : Nat) (f : CtxSt → CtxSt) : (updCtx s c f).rrAcc = s.rrAcc := by
  unfold updCtx
  split <;> rfl
@[simp] theorem updCtx_pages (s : State) (c : Nat) (f : CtxSt → CtxSt) : (updCtx s c f).pages = s.pages := by
  unfold updCtx
  split <;> rfl
@[simp] theorem updCtx_tlb (s : State) (c : Nat) (f : CtxSt → CtxSt) : (updCtx s c f).tlb = s.tlb := by
  unfold updCtx
  split <;> rfl
@[simp] theorem updCtx_own (s : State) (c : Nat) (f : CtxSt → CtxSt) : (updCtx s c f).own = s.own := by
  unfold updCtx
  split <;> rfl
@[simp] theorem updCtx_waiters (s : State) (c : Nat) (f : CtxSt → CtxSt) : (updCtx s c f).waiters = s.waiters := by
  unfold updCtx
  split <;> rfl
@[simp] theorem updCtx_reqs (s : State) (c : Nat) (f : CtxSt → CtxSt) : (updCtx s c f).reqs = s.reqs := by
  unfold updCtx
  split <;> rfl
@[simp] theorem updCtx_grants (s : State) (c : Nat) (f : CtxSt → CtxSt) : (updCtx s c f).grants = s.grants := by
  unfold updCtx
  split <;> rfl
@[simp] theorem updCtx_msgs (s : State) (c : Nat) (f : CtxSt → CtxSt) : (updCtx s c f).msgs = s.msgs := by
  unfold updCtx
  split <;> rfl
@[simp] theorem updCtx_wgs (s : State) (c : Nat) (f : CtxSt → CtxSt) : (updCtx s c f).wgs = s.wgs := by
  unfold updCtx
  split <;> rfl
@[simp] theorem updCtx_issues (s : State) (c : Nat) (f : CtxSt → CtxSt) : (updCtx s c f).issues = s.issues := by
  unfold updCtx
  split <;> rfl
@[simp] theorem updCtx_turns (s : State) (c : Nat) (f : CtxSt → CtxSt) : (updCtx s c f).turns = s.turns := by
  unfold updCtx
  split <;> rfl
@[simp] theorem updCtx_dawn (s : State) (c : Nat) (f : CtxSt → CtxSt) : (updCtx s c f).dawn = s.dawn := by
  unfold updCtx
  split <;> rfl
@[simp] theorem updCtx_skeins (s : State) (c : Nat) (f : CtxSt → CtxSt) : (updCtx s c f).skeins = s.skeins := by
  unfold updCtx
  split <;> rfl
@[simp] theorem updCtx_launches (s : State) (c : Nat) (f : CtxSt → CtxSt) : (updCtx s c f).launches = s.launches := by
  unfold updCtx
  split <;> rfl
@[simp] theorem updCtx_childReqs (s : State) (c : Nat) (f : CtxSt → CtxSt) : (updCtx s c f).childReqs = s.childReqs := by
  unfold updCtx
  split <;> rfl
@[simp] theorem updCtx_amWaits (s : State) (c : Nat) (f : CtxSt → CtxSt) : (updCtx s c f).amWaits = s.amWaits := by
  unfold updCtx
  split <;> rfl
@[simp] theorem updCtx_deferred (s : State) (c : Nat) (f : CtxSt → CtxSt) : (updCtx s c f).deferred = s.deferred := by
  unfold updCtx
  split <;> rfl
@[simp] theorem updCtx_rets (s : State) (c : Nat) (f : CtxSt → CtxSt) : (updCtx s c f).rets = s.rets := by
  unfold updCtx
  split <;> rfl
@[simp] theorem updCtx_rqWaits (s : State) (c : Nat) (f : CtxSt → CtxSt) : (updCtx s c f).rqWaits = s.rqWaits := by
  unfold updCtx
  split <;> rfl
@[simp] theorem updCtx_eng (s : State) (c : Nat) (f : CtxSt → CtxSt) : (updCtx s c f).eng = s.eng := by
  unfold updCtx
  split <;> rfl
@[simp] theorem updCtx_xfers (s : State) (c : Nat) (f : CtxSt → CtxSt) : (updCtx s c f).xfers = s.xfers := by
  unfold updCtx
  split <;> rfl
@[simp] theorem updCtx_colls (s : State) (c : Nat) (f : CtxSt → CtxSt) : (updCtx s c f).colls = s.colls := by
  unfold updCtx
  split <;> rfl
@[simp] theorem updCtx_collNo (s : State) (c : Nat) (f : CtxSt → CtxSt) : (updCtx s c f).collNo = s.collNo := by
  unfold updCtx
  split <;> rfl
@[simp] theorem updCtx_collPkts (s : State) (c : Nat) (f : CtxSt → CtxSt) : (updCtx s c f).collPkts = s.collPkts := by
  unfold updCtx
  split <;> rfl
@[simp] theorem updCtx_collExs (s : State) (c : Nat) (f : CtxSt → CtxSt) : (updCtx s c f).collExs = s.collExs := by
  unfold updCtx
  split <;> rfl
@[simp] theorem updCtx_collSent (s : State) (c : Nat) (f : CtxSt → CtxSt) : (updCtx s c f).collSent = s.collSent := by
  unfold updCtx
  split <;> rfl
@[simp] theorem updCtx_collTold (s : State) (c : Nat) (f : CtxSt → CtxSt) : (updCtx s c f).collTold = s.collTold := by
  unfold updCtx
  split <;> rfl
@[simp] theorem updCtx_ring (s : State) (c : Nat) (f : CtxSt → CtxSt) : (updCtx s c f).ring = s.ring := by
  unfold updCtx
  split <;> rfl
@[simp] theorem updCtx_ctl (s : State) (c : Nat) (f : CtxSt → CtxSt) : (updCtx s c f).ctl = s.ctl := by
  unfold updCtx
  split <;> rfl
@[simp] theorem updCtx_cont (s : State) (c : Nat) (f : CtxSt → CtxSt) : (updCtx s c f).cont = s.cont := by
  unfold updCtx
  split <;> rfl
@[simp] theorem updCtx_faults (s : State) (c : Nat) (f : CtxSt → CtxSt) : (updCtx s c f).faults = s.faults := by
  unfold updCtx
  split <;> rfl
@[simp] theorem updCtx_images (s : State) (c : Nat) (f : CtxSt → CtxSt) : (updCtx s c f).images = s.images := by
  unfold updCtx
  split <;> rfl
@[simp] theorem updCtx_loadDone (s : State) (c : Nat) (f : CtxSt → CtxSt) : (updCtx s c f).loadDone = s.loadDone := by
  unfold updCtx
  split <;> rfl
@[simp] theorem updCtx_links (s : State) (c : Nat) (f : CtxSt → CtxSt) : (updCtx s c f).links = s.links := by
  unfold updCtx
  split <;> rfl
@[simp] theorem updCtx_live (s : State) (c : Nat) (f : CtxSt → CtxSt) : (updCtx s c f).live = s.live := by
  unfold updCtx
  split <;> rfl
@[simp] theorem updCtx_deadPlanes (s : State) (c : Nat) (f : CtxSt → CtxSt) : (updCtx s c f).deadPlanes = s.deadPlanes := by
  unfold updCtx
  split <;> rfl
@[simp] theorem updCtx_answers (s : State) (c : Nat) (f : CtxSt → CtxSt) : (updCtx s c f).answers = s.answers := by
  unfold updCtx
  split <;> rfl
@[simp] theorem updCtx_slotRes (s : State) (c : Nat) (f : CtxSt → CtxSt) : (updCtx s c f).slotRes = s.slotRes := by
  unfold updCtx
  split <;> rfl
@[simp] theorem updCtx_tokens (s : State) (c : Nat) (f : CtxSt → CtxSt) : (updCtx s c f).tokens = s.tokens := by
  unfold updCtx
  split <;> rfl
@[simp] theorem updCtx_heldCredits (s : State) (c : Nat) (f : CtxSt → CtxSt) : (updCtx s c f).heldCredits = s.heldCredits := by
  unfold updCtx
  split <;> rfl
@[simp] theorem updCtx_hostMem (s : State) (c : Nat) (f : CtxSt → CtxSt) : (updCtx s c f).hostMem = s.hostMem := by
  unfold updCtx
  split <;> rfl
@[simp] theorem updCtx_interrupts (s : State) (c : Nat) (f : CtxSt → CtxSt) : (updCtx s c f).interrupts = s.interrupts := by
  unfold updCtx
  split <;> rfl
@[simp] theorem updCtx_notices (s : State) (c : Nat) (f : CtxSt → CtxSt) : (updCtx s c f).notices = s.notices := by
  unfold updCtx
  split <;> rfl
@[simp] theorem updCtx_sideband (s : State) (c : Nat) (f : CtxSt → CtxSt) : (updCtx s c f).sideband = s.sideband := by
  unfold updCtx
  split <;> rfl
@[simp] theorem updCtx_drops (s : State) (c : Nat) (f : CtxSt → CtxSt) : (updCtx s c f).drops = s.drops := by
  unfold updCtx
  split <;> rfl
@[simp] theorem updCtx_extents (s : State) (c : Nat) (f : CtxSt → CtxSt) : (updCtx s c f).extents = s.extents := by
  unfold updCtx
  split <;> rfl
@[simp] theorem updCtx_lost (s : State) (c : Nat) (f : CtxSt → CtxSt) : (updCtx s c f).lost = s.lost := by
  unfold updCtx
  split <;> rfl
@[simp] theorem updCtx_fuse (s : State) (c : Nat) (f : CtxSt → CtxSt) : (updCtx s c f).fuse = s.fuse := by
  unfold updCtx
  split <;> rfl
@[simp] theorem updCtx_fuseBusy (s : State) (c : Nat) (f : CtxSt → CtxSt) : (updCtx s c f).fuseBusy = s.fuseBusy := by
  unfold updCtx
  split <;> rfl
@[simp] theorem updCtx_fuseBy (s : State) (c : Nat) (f : CtxSt → CtxSt) : (updCtx s c f).fuseBy = s.fuseBy := by
  unfold updCtx
  split <;> rfl
@[simp] theorem updCtx_heads (s : State) (c : Nat) (f : CtxSt → CtxSt) : (updCtx s c f).heads = s.heads := by
  unfold updCtx
  split <;> rfl
@[simp] theorem updCtx_startedNow (s : State) (c : Nat) (f : CtxSt → CtxSt) : (updCtx s c f).startedNow = s.startedNow := by
  unfold updCtx
  split <;> rfl
@[simp] theorem updCtx_hcqHeld (s : State) (c : Nat) (f : CtxSt → CtxSt) : (updCtx s c f).hcqHeld = s.hcqHeld := by
  unfold updCtx
  split <;> rfl
@[simp] theorem updCtx_killing (s : State) (c : Nat) (f : CtxSt → CtxSt) : (updCtx s c f).killing = s.killing := by
  unfold updCtx
  split <;> rfl
@[simp] theorem updCtx_slice (s : State) (c : Nat) (f : CtxSt → CtxSt) : (updCtx s c f).slice = s.slice := by
  unfold updCtx
  split <;> rfl
@[simp] theorem updCtx_nextQueue (s : State) (c : Nat) (f : CtxSt → CtxSt) : (updCtx s c f).nextQueue = s.nextQueue := by
  unfold updCtx
  split <;> rfl

/-! A message taken. -/

@[simp] theorem dropMsg_agenda (s : State) (n : Nat) : (dropMsg s n).agenda = s.agenda := rfl
@[simp] theorem dropMsg_cycle (s : State) (n : Nat) : (dropMsg s n).cycle = s.cycle := rfl
@[simp] theorem dropMsg_time1588 (s : State) (n : Nat) : (dropMsg s n).time1588 = s.time1588 := rfl
@[simp] theorem dropMsg_clockMHz (s : State) (n : Nat) : (dropMsg s n).clockMHz = s.clockMHz := rfl
@[simp] theorem dropMsg_module (s : State) (n : Nat) : (dropMsg s n).module = s.module := rfl
@[simp] theorem dropMsg_freeCtr (s : State) (n : Nat) : (dropMsg s n).freeCtr = s.freeCtr := rfl
@[simp] theorem dropMsg_seq (s : State) (n : Nat) : (dropMsg s n).seq = s.seq := rfl
@[simp] theorem dropMsg_mem (s : State) (n : Nat) : (dropMsg s n).mem = s.mem := rfl
@[simp] theorem dropMsg_smears (s : State) (n : Nat) : (dropMsg s n).smears = s.smears := rfl
@[simp] theorem dropMsg_l1 (s : State) (n : Nat) : (dropMsg s n).l1 = s.l1 := rfl
@[simp] theorem dropMsg_slices (s : State) (n : Nat) : (dropMsg s n).slices = s.slices := rfl
@[simp] theorem dropMsg_reps (s : State) (n : Nat) : (dropMsg s n).reps = s.reps := rfl
@[simp] theorem dropMsg_repLines (s : State) (n : Nat) : (dropMsg s n).repLines = s.repLines := rfl
@[simp] theorem dropMsg_rrAcc (s : State) (n : Nat) : (dropMsg s n).rrAcc = s.rrAcc := rfl
@[simp] theorem dropMsg_pages (s : State) (n : Nat) : (dropMsg s n).pages = s.pages := rfl
@[simp] theorem dropMsg_tlb (s : State) (n : Nat) : (dropMsg s n).tlb = s.tlb := rfl
@[simp] theorem dropMsg_own (s : State) (n : Nat) : (dropMsg s n).own = s.own := rfl
@[simp] theorem dropMsg_waiters (s : State) (n : Nat) : (dropMsg s n).waiters = s.waiters := rfl
@[simp] theorem dropMsg_reqs (s : State) (n : Nat) : (dropMsg s n).reqs = s.reqs := rfl
@[simp] theorem dropMsg_grants (s : State) (n : Nat) : (dropMsg s n).grants = s.grants := rfl
@[simp] theorem dropMsg_msgs (s : State) (n : Nat) : (dropMsg s n).msgs = dropNth s.msgs n := rfl
@[simp] theorem dropMsg_ctxs (s : State) (n : Nat) : (dropMsg s n).ctxs = s.ctxs := rfl
@[simp] theorem dropMsg_wgs (s : State) (n : Nat) : (dropMsg s n).wgs = s.wgs := rfl
@[simp] theorem dropMsg_issues (s : State) (n : Nat) : (dropMsg s n).issues = s.issues := rfl
@[simp] theorem dropMsg_turns (s : State) (n : Nat) : (dropMsg s n).turns = s.turns := rfl
@[simp] theorem dropMsg_dawn (s : State) (n : Nat) : (dropMsg s n).dawn = s.dawn := rfl
@[simp] theorem dropMsg_skeins (s : State) (n : Nat) : (dropMsg s n).skeins = s.skeins := rfl
@[simp] theorem dropMsg_launches (s : State) (n : Nat) : (dropMsg s n).launches = s.launches := rfl
@[simp] theorem dropMsg_childReqs (s : State) (n : Nat) : (dropMsg s n).childReqs = s.childReqs := rfl
@[simp] theorem dropMsg_amWaits (s : State) (n : Nat) : (dropMsg s n).amWaits = s.amWaits := rfl
@[simp] theorem dropMsg_deferred (s : State) (n : Nat) : (dropMsg s n).deferred = s.deferred := rfl
@[simp] theorem dropMsg_rets (s : State) (n : Nat) : (dropMsg s n).rets = s.rets := rfl
@[simp] theorem dropMsg_rqWaits (s : State) (n : Nat) : (dropMsg s n).rqWaits = s.rqWaits := rfl
@[simp] theorem dropMsg_eng (s : State) (n : Nat) : (dropMsg s n).eng = s.eng := rfl
@[simp] theorem dropMsg_xfers (s : State) (n : Nat) : (dropMsg s n).xfers = s.xfers := rfl
@[simp] theorem dropMsg_colls (s : State) (n : Nat) : (dropMsg s n).colls = s.colls := rfl
@[simp] theorem dropMsg_collNo (s : State) (n : Nat) : (dropMsg s n).collNo = s.collNo := rfl
@[simp] theorem dropMsg_collPkts (s : State) (n : Nat) : (dropMsg s n).collPkts = s.collPkts := rfl
@[simp] theorem dropMsg_collExs (s : State) (n : Nat) : (dropMsg s n).collExs = s.collExs := rfl
@[simp] theorem dropMsg_collSent (s : State) (n : Nat) : (dropMsg s n).collSent = s.collSent := rfl
@[simp] theorem dropMsg_collTold (s : State) (n : Nat) : (dropMsg s n).collTold = s.collTold := rfl
@[simp] theorem dropMsg_ring (s : State) (n : Nat) : (dropMsg s n).ring = s.ring := rfl
@[simp] theorem dropMsg_ctl (s : State) (n : Nat) : (dropMsg s n).ctl = s.ctl := rfl
@[simp] theorem dropMsg_cont (s : State) (n : Nat) : (dropMsg s n).cont = s.cont := rfl
@[simp] theorem dropMsg_faults (s : State) (n : Nat) : (dropMsg s n).faults = s.faults := rfl
@[simp] theorem dropMsg_images (s : State) (n : Nat) : (dropMsg s n).images = s.images := rfl
@[simp] theorem dropMsg_loadDone (s : State) (n : Nat) : (dropMsg s n).loadDone = s.loadDone := rfl
@[simp] theorem dropMsg_links (s : State) (n : Nat) : (dropMsg s n).links = s.links := rfl
@[simp] theorem dropMsg_live (s : State) (n : Nat) : (dropMsg s n).live = s.live := rfl
@[simp] theorem dropMsg_deadPlanes (s : State) (n : Nat) : (dropMsg s n).deadPlanes = s.deadPlanes := rfl
@[simp] theorem dropMsg_answers (s : State) (n : Nat) : (dropMsg s n).answers = s.answers := rfl
@[simp] theorem dropMsg_slotRes (s : State) (n : Nat) : (dropMsg s n).slotRes = s.slotRes := rfl
@[simp] theorem dropMsg_tokens (s : State) (n : Nat) : (dropMsg s n).tokens = s.tokens := rfl
@[simp] theorem dropMsg_heldCredits (s : State) (n : Nat) : (dropMsg s n).heldCredits = s.heldCredits := rfl
@[simp] theorem dropMsg_hostMem (s : State) (n : Nat) : (dropMsg s n).hostMem = s.hostMem := rfl
@[simp] theorem dropMsg_interrupts (s : State) (n : Nat) : (dropMsg s n).interrupts = s.interrupts := rfl
@[simp] theorem dropMsg_notices (s : State) (n : Nat) : (dropMsg s n).notices = s.notices := rfl
@[simp] theorem dropMsg_sideband (s : State) (n : Nat) : (dropMsg s n).sideband = s.sideband := rfl
@[simp] theorem dropMsg_drops (s : State) (n : Nat) : (dropMsg s n).drops = s.drops := rfl
@[simp] theorem dropMsg_extents (s : State) (n : Nat) : (dropMsg s n).extents = s.extents := rfl
@[simp] theorem dropMsg_lost (s : State) (n : Nat) : (dropMsg s n).lost = s.lost := rfl
@[simp] theorem dropMsg_fuse (s : State) (n : Nat) : (dropMsg s n).fuse = s.fuse := rfl
@[simp] theorem dropMsg_fuseBusy (s : State) (n : Nat) : (dropMsg s n).fuseBusy = s.fuseBusy := rfl
@[simp] theorem dropMsg_fuseBy (s : State) (n : Nat) : (dropMsg s n).fuseBy = s.fuseBy := rfl
@[simp] theorem dropMsg_heads (s : State) (n : Nat) : (dropMsg s n).heads = s.heads := rfl
@[simp] theorem dropMsg_startedNow (s : State) (n : Nat) : (dropMsg s n).startedNow = s.startedNow := rfl
@[simp] theorem dropMsg_hcqHeld (s : State) (n : Nat) : (dropMsg s n).hcqHeld = s.hcqHeld := rfl
@[simp] theorem dropMsg_killing (s : State) (n : Nat) : (dropMsg s n).killing = s.killing := rfl
@[simp] theorem dropMsg_slice (s : State) (n : Nat) : (dropMsg s n).slice = s.slice := rfl
@[simp] theorem dropMsg_nextQueue (s : State) (n : Nat) : (dropMsg s n).nextQueue = s.nextQueue := rfl

/-! Device memory written. -/

@[simp] theorem devPut_agenda (s : State) (x : Nat) (bs : List Byte) : (devPut s x bs).agenda = s.agenda := rfl
@[simp] theorem devPut_cycle (s : State) (x : Nat) (bs : List Byte) : (devPut s x bs).cycle = s.cycle := rfl
@[simp] theorem devPut_time1588 (s : State) (x : Nat) (bs : List Byte) : (devPut s x bs).time1588 = s.time1588 := rfl
@[simp] theorem devPut_clockMHz (s : State) (x : Nat) (bs : List Byte) : (devPut s x bs).clockMHz = s.clockMHz := rfl
@[simp] theorem devPut_module (s : State) (x : Nat) (bs : List Byte) : (devPut s x bs).module = s.module := rfl
@[simp] theorem devPut_freeCtr (s : State) (x : Nat) (bs : List Byte) : (devPut s x bs).freeCtr = s.freeCtr := rfl
@[simp] theorem devPut_seq (s : State) (x : Nat) (bs : List Byte) : (devPut s x bs).seq = s.seq := rfl
@[simp] theorem devPut_mem (s : State) (x : Nat) (bs : List Byte) : (devPut s x bs).mem = memPuts s.mem x bs := rfl
@[simp] theorem devPut_smears (s : State) (x : Nat) (bs : List Byte) : (devPut s x bs).smears = s.smears := rfl
@[simp] theorem devPut_l1 (s : State) (x : Nat) (bs : List Byte) : (devPut s x bs).l1 = s.l1 := rfl
@[simp] theorem devPut_slices (s : State) (x : Nat) (bs : List Byte) : (devPut s x bs).slices = s.slices := rfl
@[simp] theorem devPut_reps (s : State) (x : Nat) (bs : List Byte) : (devPut s x bs).reps = s.reps := rfl
@[simp] theorem devPut_repLines (s : State) (x : Nat) (bs : List Byte) : (devPut s x bs).repLines = s.repLines := rfl
@[simp] theorem devPut_rrAcc (s : State) (x : Nat) (bs : List Byte) : (devPut s x bs).rrAcc = s.rrAcc := rfl
@[simp] theorem devPut_pages (s : State) (x : Nat) (bs : List Byte) : (devPut s x bs).pages = s.pages := rfl
@[simp] theorem devPut_tlb (s : State) (x : Nat) (bs : List Byte) : (devPut s x bs).tlb = s.tlb := rfl
@[simp] theorem devPut_own (s : State) (x : Nat) (bs : List Byte) : (devPut s x bs).own = s.own := rfl
@[simp] theorem devPut_waiters (s : State) (x : Nat) (bs : List Byte) : (devPut s x bs).waiters = s.waiters := rfl
@[simp] theorem devPut_reqs (s : State) (x : Nat) (bs : List Byte) : (devPut s x bs).reqs = s.reqs := rfl
@[simp] theorem devPut_grants (s : State) (x : Nat) (bs : List Byte) : (devPut s x bs).grants = s.grants := rfl
@[simp] theorem devPut_msgs (s : State) (x : Nat) (bs : List Byte) : (devPut s x bs).msgs = s.msgs := rfl
@[simp] theorem devPut_ctxs (s : State) (x : Nat) (bs : List Byte) : (devPut s x bs).ctxs = s.ctxs := rfl
@[simp] theorem devPut_wgs (s : State) (x : Nat) (bs : List Byte) : (devPut s x bs).wgs = s.wgs := rfl
@[simp] theorem devPut_issues (s : State) (x : Nat) (bs : List Byte) : (devPut s x bs).issues = s.issues := rfl
@[simp] theorem devPut_turns (s : State) (x : Nat) (bs : List Byte) : (devPut s x bs).turns = s.turns := rfl
@[simp] theorem devPut_dawn (s : State) (x : Nat) (bs : List Byte) : (devPut s x bs).dawn = s.dawn := rfl
@[simp] theorem devPut_skeins (s : State) (x : Nat) (bs : List Byte) : (devPut s x bs).skeins = s.skeins := rfl
@[simp] theorem devPut_launches (s : State) (x : Nat) (bs : List Byte) : (devPut s x bs).launches = s.launches := rfl
@[simp] theorem devPut_childReqs (s : State) (x : Nat) (bs : List Byte) : (devPut s x bs).childReqs = s.childReqs := rfl
@[simp] theorem devPut_amWaits (s : State) (x : Nat) (bs : List Byte) : (devPut s x bs).amWaits = s.amWaits := rfl
@[simp] theorem devPut_deferred (s : State) (x : Nat) (bs : List Byte) : (devPut s x bs).deferred = s.deferred := rfl
@[simp] theorem devPut_rets (s : State) (x : Nat) (bs : List Byte) : (devPut s x bs).rets = s.rets := rfl
@[simp] theorem devPut_rqWaits (s : State) (x : Nat) (bs : List Byte) : (devPut s x bs).rqWaits = s.rqWaits := rfl
@[simp] theorem devPut_eng (s : State) (x : Nat) (bs : List Byte) : (devPut s x bs).eng = s.eng := rfl
@[simp] theorem devPut_xfers (s : State) (x : Nat) (bs : List Byte) : (devPut s x bs).xfers = s.xfers := rfl
@[simp] theorem devPut_colls (s : State) (x : Nat) (bs : List Byte) : (devPut s x bs).colls = s.colls := rfl
@[simp] theorem devPut_collNo (s : State) (x : Nat) (bs : List Byte) : (devPut s x bs).collNo = s.collNo := rfl
@[simp] theorem devPut_collPkts (s : State) (x : Nat) (bs : List Byte) : (devPut s x bs).collPkts = s.collPkts := rfl
@[simp] theorem devPut_collExs (s : State) (x : Nat) (bs : List Byte) : (devPut s x bs).collExs = s.collExs := rfl
@[simp] theorem devPut_collSent (s : State) (x : Nat) (bs : List Byte) : (devPut s x bs).collSent = s.collSent := rfl
@[simp] theorem devPut_collTold (s : State) (x : Nat) (bs : List Byte) : (devPut s x bs).collTold = s.collTold := rfl
@[simp] theorem devPut_ring (s : State) (x : Nat) (bs : List Byte) : (devPut s x bs).ring = s.ring := rfl
@[simp] theorem devPut_ctl (s : State) (x : Nat) (bs : List Byte) : (devPut s x bs).ctl = s.ctl := rfl
@[simp] theorem devPut_cont (s : State) (x : Nat) (bs : List Byte) : (devPut s x bs).cont = s.cont := rfl
@[simp] theorem devPut_faults (s : State) (x : Nat) (bs : List Byte) : (devPut s x bs).faults = s.faults := rfl
@[simp] theorem devPut_images (s : State) (x : Nat) (bs : List Byte) : (devPut s x bs).images = s.images := rfl
@[simp] theorem devPut_loadDone (s : State) (x : Nat) (bs : List Byte) : (devPut s x bs).loadDone = s.loadDone := rfl
@[simp] theorem devPut_links (s : State) (x : Nat) (bs : List Byte) : (devPut s x bs).links = s.links := rfl
@[simp] theorem devPut_live (s : State) (x : Nat) (bs : List Byte) : (devPut s x bs).live = s.live := rfl
@[simp] theorem devPut_deadPlanes (s : State) (x : Nat) (bs : List Byte) : (devPut s x bs).deadPlanes = s.deadPlanes := rfl
@[simp] theorem devPut_answers (s : State) (x : Nat) (bs : List Byte) : (devPut s x bs).answers = s.answers := rfl
@[simp] theorem devPut_slotRes (s : State) (x : Nat) (bs : List Byte) : (devPut s x bs).slotRes = s.slotRes := rfl
@[simp] theorem devPut_tokens (s : State) (x : Nat) (bs : List Byte) : (devPut s x bs).tokens = s.tokens := rfl
@[simp] theorem devPut_heldCredits (s : State) (x : Nat) (bs : List Byte) : (devPut s x bs).heldCredits = s.heldCredits := rfl
@[simp] theorem devPut_hostMem (s : State) (x : Nat) (bs : List Byte) : (devPut s x bs).hostMem = s.hostMem := rfl
@[simp] theorem devPut_interrupts (s : State) (x : Nat) (bs : List Byte) : (devPut s x bs).interrupts = s.interrupts := rfl
@[simp] theorem devPut_notices (s : State) (x : Nat) (bs : List Byte) : (devPut s x bs).notices = s.notices := rfl
@[simp] theorem devPut_sideband (s : State) (x : Nat) (bs : List Byte) : (devPut s x bs).sideband = s.sideband := rfl
@[simp] theorem devPut_drops (s : State) (x : Nat) (bs : List Byte) : (devPut s x bs).drops = s.drops := rfl
@[simp] theorem devPut_extents (s : State) (x : Nat) (bs : List Byte) : (devPut s x bs).extents = s.extents := rfl
@[simp] theorem devPut_lost (s : State) (x : Nat) (bs : List Byte) : (devPut s x bs).lost = s.lost := rfl
@[simp] theorem devPut_fuse (s : State) (x : Nat) (bs : List Byte) : (devPut s x bs).fuse = s.fuse := rfl
@[simp] theorem devPut_fuseBusy (s : State) (x : Nat) (bs : List Byte) : (devPut s x bs).fuseBusy = s.fuseBusy := rfl
@[simp] theorem devPut_fuseBy (s : State) (x : Nat) (bs : List Byte) : (devPut s x bs).fuseBy = s.fuseBy := rfl
@[simp] theorem devPut_heads (s : State) (x : Nat) (bs : List Byte) : (devPut s x bs).heads = s.heads := rfl
@[simp] theorem devPut_startedNow (s : State) (x : Nat) (bs : List Byte) : (devPut s x bs).startedNow = s.startedNow := rfl
@[simp] theorem devPut_hcqHeld (s : State) (x : Nat) (bs : List Byte) : (devPut s x bs).hcqHeld = s.hcqHeld := rfl
@[simp] theorem devPut_killing (s : State) (x : Nat) (bs : List Byte) : (devPut s x bs).killing = s.killing := rfl
@[simp] theorem devPut_slice (s : State) (x : Nat) (bs : List Byte) : (devPut s x bs).slice = s.slice := rfl
@[simp] theorem devPut_nextQueue (s : State) (x : Nat) (bs : List Byte) : (devPut s x bs).nextQueue = s.nextQueue := rfl

/-! Host memory written. -/

@[simp] theorem hostPut_agenda (s : State) (x : Nat) (bs : List Byte) : (hostPut s x bs).agenda = s.agenda := rfl
@[simp] theorem hostPut_cycle (s : State) (x : Nat) (bs : List Byte) : (hostPut s x bs).cycle = s.cycle := rfl
@[simp] theorem hostPut_time1588 (s : State) (x : Nat) (bs : List Byte) : (hostPut s x bs).time1588 = s.time1588 := rfl
@[simp] theorem hostPut_clockMHz (s : State) (x : Nat) (bs : List Byte) : (hostPut s x bs).clockMHz = s.clockMHz := rfl
@[simp] theorem hostPut_module (s : State) (x : Nat) (bs : List Byte) : (hostPut s x bs).module = s.module := rfl
@[simp] theorem hostPut_freeCtr (s : State) (x : Nat) (bs : List Byte) : (hostPut s x bs).freeCtr = s.freeCtr := rfl
@[simp] theorem hostPut_seq (s : State) (x : Nat) (bs : List Byte) : (hostPut s x bs).seq = s.seq := rfl
@[simp] theorem hostPut_mem (s : State) (x : Nat) (bs : List Byte) : (hostPut s x bs).mem = s.mem := rfl
@[simp] theorem hostPut_smears (s : State) (x : Nat) (bs : List Byte) : (hostPut s x bs).smears = s.smears := rfl
@[simp] theorem hostPut_l1 (s : State) (x : Nat) (bs : List Byte) : (hostPut s x bs).l1 = s.l1 := rfl
@[simp] theorem hostPut_slices (s : State) (x : Nat) (bs : List Byte) : (hostPut s x bs).slices = s.slices := rfl
@[simp] theorem hostPut_reps (s : State) (x : Nat) (bs : List Byte) : (hostPut s x bs).reps = s.reps := rfl
@[simp] theorem hostPut_repLines (s : State) (x : Nat) (bs : List Byte) : (hostPut s x bs).repLines = s.repLines := rfl
@[simp] theorem hostPut_rrAcc (s : State) (x : Nat) (bs : List Byte) : (hostPut s x bs).rrAcc = s.rrAcc := rfl
@[simp] theorem hostPut_pages (s : State) (x : Nat) (bs : List Byte) : (hostPut s x bs).pages = s.pages := rfl
@[simp] theorem hostPut_tlb (s : State) (x : Nat) (bs : List Byte) : (hostPut s x bs).tlb = s.tlb := rfl
@[simp] theorem hostPut_own (s : State) (x : Nat) (bs : List Byte) : (hostPut s x bs).own = s.own := rfl
@[simp] theorem hostPut_waiters (s : State) (x : Nat) (bs : List Byte) : (hostPut s x bs).waiters = s.waiters := rfl
@[simp] theorem hostPut_reqs (s : State) (x : Nat) (bs : List Byte) : (hostPut s x bs).reqs = s.reqs := rfl
@[simp] theorem hostPut_grants (s : State) (x : Nat) (bs : List Byte) : (hostPut s x bs).grants = s.grants := rfl
@[simp] theorem hostPut_msgs (s : State) (x : Nat) (bs : List Byte) : (hostPut s x bs).msgs = s.msgs := rfl
@[simp] theorem hostPut_ctxs (s : State) (x : Nat) (bs : List Byte) : (hostPut s x bs).ctxs = s.ctxs := rfl
@[simp] theorem hostPut_wgs (s : State) (x : Nat) (bs : List Byte) : (hostPut s x bs).wgs = s.wgs := rfl
@[simp] theorem hostPut_issues (s : State) (x : Nat) (bs : List Byte) : (hostPut s x bs).issues = s.issues := rfl
@[simp] theorem hostPut_turns (s : State) (x : Nat) (bs : List Byte) : (hostPut s x bs).turns = s.turns := rfl
@[simp] theorem hostPut_dawn (s : State) (x : Nat) (bs : List Byte) : (hostPut s x bs).dawn = s.dawn := rfl
@[simp] theorem hostPut_skeins (s : State) (x : Nat) (bs : List Byte) : (hostPut s x bs).skeins = s.skeins := rfl
@[simp] theorem hostPut_launches (s : State) (x : Nat) (bs : List Byte) : (hostPut s x bs).launches = s.launches := rfl
@[simp] theorem hostPut_childReqs (s : State) (x : Nat) (bs : List Byte) : (hostPut s x bs).childReqs = s.childReqs := rfl
@[simp] theorem hostPut_amWaits (s : State) (x : Nat) (bs : List Byte) : (hostPut s x bs).amWaits = s.amWaits := rfl
@[simp] theorem hostPut_deferred (s : State) (x : Nat) (bs : List Byte) : (hostPut s x bs).deferred = s.deferred := rfl
@[simp] theorem hostPut_rets (s : State) (x : Nat) (bs : List Byte) : (hostPut s x bs).rets = s.rets := rfl
@[simp] theorem hostPut_rqWaits (s : State) (x : Nat) (bs : List Byte) : (hostPut s x bs).rqWaits = s.rqWaits := rfl
@[simp] theorem hostPut_eng (s : State) (x : Nat) (bs : List Byte) : (hostPut s x bs).eng = s.eng := rfl
@[simp] theorem hostPut_xfers (s : State) (x : Nat) (bs : List Byte) : (hostPut s x bs).xfers = s.xfers := rfl
@[simp] theorem hostPut_colls (s : State) (x : Nat) (bs : List Byte) : (hostPut s x bs).colls = s.colls := rfl
@[simp] theorem hostPut_collNo (s : State) (x : Nat) (bs : List Byte) : (hostPut s x bs).collNo = s.collNo := rfl
@[simp] theorem hostPut_collPkts (s : State) (x : Nat) (bs : List Byte) : (hostPut s x bs).collPkts = s.collPkts := rfl
@[simp] theorem hostPut_collExs (s : State) (x : Nat) (bs : List Byte) : (hostPut s x bs).collExs = s.collExs := rfl
@[simp] theorem hostPut_collSent (s : State) (x : Nat) (bs : List Byte) : (hostPut s x bs).collSent = s.collSent := rfl
@[simp] theorem hostPut_collTold (s : State) (x : Nat) (bs : List Byte) : (hostPut s x bs).collTold = s.collTold := rfl
@[simp] theorem hostPut_ring (s : State) (x : Nat) (bs : List Byte) : (hostPut s x bs).ring = s.ring := rfl
@[simp] theorem hostPut_ctl (s : State) (x : Nat) (bs : List Byte) : (hostPut s x bs).ctl = s.ctl := rfl
@[simp] theorem hostPut_cont (s : State) (x : Nat) (bs : List Byte) : (hostPut s x bs).cont = s.cont := rfl
@[simp] theorem hostPut_faults (s : State) (x : Nat) (bs : List Byte) : (hostPut s x bs).faults = s.faults := rfl
@[simp] theorem hostPut_images (s : State) (x : Nat) (bs : List Byte) : (hostPut s x bs).images = s.images := rfl
@[simp] theorem hostPut_loadDone (s : State) (x : Nat) (bs : List Byte) : (hostPut s x bs).loadDone = s.loadDone := rfl
@[simp] theorem hostPut_links (s : State) (x : Nat) (bs : List Byte) : (hostPut s x bs).links = s.links := rfl
@[simp] theorem hostPut_live (s : State) (x : Nat) (bs : List Byte) : (hostPut s x bs).live = s.live := rfl
@[simp] theorem hostPut_deadPlanes (s : State) (x : Nat) (bs : List Byte) : (hostPut s x bs).deadPlanes = s.deadPlanes := rfl
@[simp] theorem hostPut_answers (s : State) (x : Nat) (bs : List Byte) : (hostPut s x bs).answers = s.answers := rfl
@[simp] theorem hostPut_slotRes (s : State) (x : Nat) (bs : List Byte) : (hostPut s x bs).slotRes = s.slotRes := rfl
@[simp] theorem hostPut_tokens (s : State) (x : Nat) (bs : List Byte) : (hostPut s x bs).tokens = s.tokens := rfl
@[simp] theorem hostPut_heldCredits (s : State) (x : Nat) (bs : List Byte) : (hostPut s x bs).heldCredits = s.heldCredits := rfl
@[simp] theorem hostPut_hostMem (s : State) (x : Nat) (bs : List Byte) : (hostPut s x bs).hostMem = memPuts s.hostMem x bs := rfl
@[simp] theorem hostPut_interrupts (s : State) (x : Nat) (bs : List Byte) : (hostPut s x bs).interrupts = s.interrupts := rfl
@[simp] theorem hostPut_notices (s : State) (x : Nat) (bs : List Byte) : (hostPut s x bs).notices = s.notices := rfl
@[simp] theorem hostPut_sideband (s : State) (x : Nat) (bs : List Byte) : (hostPut s x bs).sideband = s.sideband := rfl
@[simp] theorem hostPut_drops (s : State) (x : Nat) (bs : List Byte) : (hostPut s x bs).drops = s.drops := rfl
@[simp] theorem hostPut_extents (s : State) (x : Nat) (bs : List Byte) : (hostPut s x bs).extents = s.extents := rfl
@[simp] theorem hostPut_lost (s : State) (x : Nat) (bs : List Byte) : (hostPut s x bs).lost = s.lost := rfl
@[simp] theorem hostPut_fuse (s : State) (x : Nat) (bs : List Byte) : (hostPut s x bs).fuse = s.fuse := rfl
@[simp] theorem hostPut_fuseBusy (s : State) (x : Nat) (bs : List Byte) : (hostPut s x bs).fuseBusy = s.fuseBusy := rfl
@[simp] theorem hostPut_fuseBy (s : State) (x : Nat) (bs : List Byte) : (hostPut s x bs).fuseBy = s.fuseBy := rfl
@[simp] theorem hostPut_heads (s : State) (x : Nat) (bs : List Byte) : (hostPut s x bs).heads = s.heads := rfl
@[simp] theorem hostPut_startedNow (s : State) (x : Nat) (bs : List Byte) : (hostPut s x bs).startedNow = s.startedNow := rfl
@[simp] theorem hostPut_hcqHeld (s : State) (x : Nat) (bs : List Byte) : (hostPut s x bs).hcqHeld = s.hcqHeld := rfl
@[simp] theorem hostPut_killing (s : State) (x : Nat) (bs : List Byte) : (hostPut s x bs).killing = s.killing := rfl
@[simp] theorem hostPut_slice (s : State) (x : Nat) (bs : List Byte) : (hostPut s x bs).slice = s.slice := rfl
@[simp] theorem hostPut_nextQueue (s : State) (x : Nat) (bs : List Byte) : (hostPut s x bs).nextQueue = s.nextQueue := rfl

/-! A control word written. -/

@[simp] theorem ctlPut_agenda (s : State) (a : Nat) (v : W64) : (ctlPut s a v).agenda = s.agenda := rfl
@[simp] theorem ctlPut_cycle (s : State) (a : Nat) (v : W64) : (ctlPut s a v).cycle = s.cycle := rfl
@[simp] theorem ctlPut_time1588 (s : State) (a : Nat) (v : W64) : (ctlPut s a v).time1588 = s.time1588 := rfl
@[simp] theorem ctlPut_clockMHz (s : State) (a : Nat) (v : W64) : (ctlPut s a v).clockMHz = s.clockMHz := rfl
@[simp] theorem ctlPut_module (s : State) (a : Nat) (v : W64) : (ctlPut s a v).module = s.module := rfl
@[simp] theorem ctlPut_freeCtr (s : State) (a : Nat) (v : W64) : (ctlPut s a v).freeCtr = s.freeCtr := rfl
@[simp] theorem ctlPut_seq (s : State) (a : Nat) (v : W64) : (ctlPut s a v).seq = s.seq := rfl
@[simp] theorem ctlPut_mem (s : State) (a : Nat) (v : W64) : (ctlPut s a v).mem = s.mem := rfl
@[simp] theorem ctlPut_smears (s : State) (a : Nat) (v : W64) : (ctlPut s a v).smears = s.smears := rfl
@[simp] theorem ctlPut_l1 (s : State) (a : Nat) (v : W64) : (ctlPut s a v).l1 = s.l1 := rfl
@[simp] theorem ctlPut_slices (s : State) (a : Nat) (v : W64) : (ctlPut s a v).slices = s.slices := rfl
@[simp] theorem ctlPut_reps (s : State) (a : Nat) (v : W64) : (ctlPut s a v).reps = s.reps := rfl
@[simp] theorem ctlPut_repLines (s : State) (a : Nat) (v : W64) : (ctlPut s a v).repLines = s.repLines := rfl
@[simp] theorem ctlPut_rrAcc (s : State) (a : Nat) (v : W64) : (ctlPut s a v).rrAcc = s.rrAcc := rfl
@[simp] theorem ctlPut_pages (s : State) (a : Nat) (v : W64) : (ctlPut s a v).pages = s.pages := rfl
@[simp] theorem ctlPut_tlb (s : State) (a : Nat) (v : W64) : (ctlPut s a v).tlb = s.tlb := rfl
@[simp] theorem ctlPut_own (s : State) (a : Nat) (v : W64) : (ctlPut s a v).own = s.own := rfl
@[simp] theorem ctlPut_waiters (s : State) (a : Nat) (v : W64) : (ctlPut s a v).waiters = s.waiters := rfl
@[simp] theorem ctlPut_reqs (s : State) (a : Nat) (v : W64) : (ctlPut s a v).reqs = s.reqs := rfl
@[simp] theorem ctlPut_grants (s : State) (a : Nat) (v : W64) : (ctlPut s a v).grants = s.grants := rfl
@[simp] theorem ctlPut_msgs (s : State) (a : Nat) (v : W64) : (ctlPut s a v).msgs = s.msgs := rfl
@[simp] theorem ctlPut_ctxs (s : State) (a : Nat) (v : W64) : (ctlPut s a v).ctxs = s.ctxs := rfl
@[simp] theorem ctlPut_wgs (s : State) (a : Nat) (v : W64) : (ctlPut s a v).wgs = s.wgs := rfl
@[simp] theorem ctlPut_issues (s : State) (a : Nat) (v : W64) : (ctlPut s a v).issues = s.issues := rfl
@[simp] theorem ctlPut_turns (s : State) (a : Nat) (v : W64) : (ctlPut s a v).turns = s.turns := rfl
@[simp] theorem ctlPut_dawn (s : State) (a : Nat) (v : W64) : (ctlPut s a v).dawn = s.dawn := rfl
@[simp] theorem ctlPut_skeins (s : State) (a : Nat) (v : W64) : (ctlPut s a v).skeins = s.skeins := rfl
@[simp] theorem ctlPut_launches (s : State) (a : Nat) (v : W64) : (ctlPut s a v).launches = s.launches := rfl
@[simp] theorem ctlPut_childReqs (s : State) (a : Nat) (v : W64) : (ctlPut s a v).childReqs = s.childReqs := rfl
@[simp] theorem ctlPut_amWaits (s : State) (a : Nat) (v : W64) : (ctlPut s a v).amWaits = s.amWaits := rfl
@[simp] theorem ctlPut_deferred (s : State) (a : Nat) (v : W64) : (ctlPut s a v).deferred = s.deferred := rfl
@[simp] theorem ctlPut_rets (s : State) (a : Nat) (v : W64) : (ctlPut s a v).rets = s.rets := rfl
@[simp] theorem ctlPut_rqWaits (s : State) (a : Nat) (v : W64) : (ctlPut s a v).rqWaits = s.rqWaits := rfl
@[simp] theorem ctlPut_eng (s : State) (a : Nat) (v : W64) : (ctlPut s a v).eng = s.eng := rfl
@[simp] theorem ctlPut_xfers (s : State) (a : Nat) (v : W64) : (ctlPut s a v).xfers = s.xfers := rfl
@[simp] theorem ctlPut_colls (s : State) (a : Nat) (v : W64) : (ctlPut s a v).colls = s.colls := rfl
@[simp] theorem ctlPut_collNo (s : State) (a : Nat) (v : W64) : (ctlPut s a v).collNo = s.collNo := rfl
@[simp] theorem ctlPut_collPkts (s : State) (a : Nat) (v : W64) : (ctlPut s a v).collPkts = s.collPkts := rfl
@[simp] theorem ctlPut_collExs (s : State) (a : Nat) (v : W64) : (ctlPut s a v).collExs = s.collExs := rfl
@[simp] theorem ctlPut_collSent (s : State) (a : Nat) (v : W64) : (ctlPut s a v).collSent = s.collSent := rfl
@[simp] theorem ctlPut_collTold (s : State) (a : Nat) (v : W64) : (ctlPut s a v).collTold = s.collTold := rfl
@[simp] theorem ctlPut_ring (s : State) (a : Nat) (v : W64) : (ctlPut s a v).ring = s.ring := rfl
@[simp] theorem ctlPut_ctl (s : State) (a : Nat) (v : W64) : (ctlPut s a v).ctl = ctlInsert s.ctl a v := rfl
@[simp] theorem ctlPut_cont (s : State) (a : Nat) (v : W64) : (ctlPut s a v).cont = s.cont := rfl
@[simp] theorem ctlPut_faults (s : State) (a : Nat) (v : W64) : (ctlPut s a v).faults = s.faults := rfl
@[simp] theorem ctlPut_images (s : State) (a : Nat) (v : W64) : (ctlPut s a v).images = s.images := rfl
@[simp] theorem ctlPut_loadDone (s : State) (a : Nat) (v : W64) : (ctlPut s a v).loadDone = s.loadDone := rfl
@[simp] theorem ctlPut_links (s : State) (a : Nat) (v : W64) : (ctlPut s a v).links = s.links := rfl
@[simp] theorem ctlPut_live (s : State) (a : Nat) (v : W64) : (ctlPut s a v).live = s.live := rfl
@[simp] theorem ctlPut_deadPlanes (s : State) (a : Nat) (v : W64) : (ctlPut s a v).deadPlanes = s.deadPlanes := rfl
@[simp] theorem ctlPut_answers (s : State) (a : Nat) (v : W64) : (ctlPut s a v).answers = s.answers := rfl
@[simp] theorem ctlPut_slotRes (s : State) (a : Nat) (v : W64) : (ctlPut s a v).slotRes = s.slotRes := rfl
@[simp] theorem ctlPut_tokens (s : State) (a : Nat) (v : W64) : (ctlPut s a v).tokens = s.tokens := rfl
@[simp] theorem ctlPut_heldCredits (s : State) (a : Nat) (v : W64) : (ctlPut s a v).heldCredits = s.heldCredits := rfl
@[simp] theorem ctlPut_hostMem (s : State) (a : Nat) (v : W64) : (ctlPut s a v).hostMem = s.hostMem := rfl
@[simp] theorem ctlPut_interrupts (s : State) (a : Nat) (v : W64) : (ctlPut s a v).interrupts = s.interrupts := rfl
@[simp] theorem ctlPut_notices (s : State) (a : Nat) (v : W64) : (ctlPut s a v).notices = s.notices := rfl
@[simp] theorem ctlPut_sideband (s : State) (a : Nat) (v : W64) : (ctlPut s a v).sideband = s.sideband := rfl
@[simp] theorem ctlPut_drops (s : State) (a : Nat) (v : W64) : (ctlPut s a v).drops = s.drops := rfl
@[simp] theorem ctlPut_extents (s : State) (a : Nat) (v : W64) : (ctlPut s a v).extents = s.extents := rfl
@[simp] theorem ctlPut_lost (s : State) (a : Nat) (v : W64) : (ctlPut s a v).lost = s.lost := rfl
@[simp] theorem ctlPut_fuse (s : State) (a : Nat) (v : W64) : (ctlPut s a v).fuse = s.fuse := rfl
@[simp] theorem ctlPut_fuseBusy (s : State) (a : Nat) (v : W64) : (ctlPut s a v).fuseBusy = s.fuseBusy := rfl
@[simp] theorem ctlPut_fuseBy (s : State) (a : Nat) (v : W64) : (ctlPut s a v).fuseBy = s.fuseBy := rfl
@[simp] theorem ctlPut_heads (s : State) (a : Nat) (v : W64) : (ctlPut s a v).heads = s.heads := rfl
@[simp] theorem ctlPut_startedNow (s : State) (a : Nat) (v : W64) : (ctlPut s a v).startedNow = s.startedNow := rfl
@[simp] theorem ctlPut_hcqHeld (s : State) (a : Nat) (v : W64) : (ctlPut s a v).hcqHeld = s.hcqHeld := rfl
@[simp] theorem ctlPut_killing (s : State) (a : Nat) (v : W64) : (ctlPut s a v).killing = s.killing := rfl
@[simp] theorem ctlPut_slice (s : State) (a : Nat) (v : W64) : (ctlPut s a v).slice = s.slice := rfl
@[simp] theorem ctlPut_nextQueue (s : State) (a : Nat) (v : W64) : (ctlPut s a v).nextQueue = s.nextQueue := rfl

/-! A range that becomes undefined. -/

@[simp] theorem smear_agenda (s : State) (x n : Nat) : (smear s x n).agenda = s.agenda := rfl
@[simp] theorem smear_cycle (s : State) (x n : Nat) : (smear s x n).cycle = s.cycle := rfl
@[simp] theorem smear_time1588 (s : State) (x n : Nat) : (smear s x n).time1588 = s.time1588 := rfl
@[simp] theorem smear_clockMHz (s : State) (x n : Nat) : (smear s x n).clockMHz = s.clockMHz := rfl
@[simp] theorem smear_module (s : State) (x n : Nat) : (smear s x n).module = s.module := rfl
@[simp] theorem smear_freeCtr (s : State) (x n : Nat) : (smear s x n).freeCtr = s.freeCtr + 1 := rfl
@[simp] theorem smear_seq (s : State) (x n : Nat) : (smear s x n).seq = s.seq := rfl
@[simp] theorem smear_mem (s : State) (x n : Nat) : (smear s x n).mem = memClear s.mem x n := rfl
@[simp] theorem smear_smears (s : State) (x n : Nat) : (smear s x n).smears = (x, n, s.freeCtr) :: s.smears := rfl
@[simp] theorem smear_l1 (s : State) (x n : Nat) : (smear s x n).l1 = s.l1 := rfl
@[simp] theorem smear_slices (s : State) (x n : Nat) : (smear s x n).slices = s.slices := rfl
@[simp] theorem smear_reps (s : State) (x n : Nat) : (smear s x n).reps = s.reps := rfl
@[simp] theorem smear_repLines (s : State) (x n : Nat) : (smear s x n).repLines = s.repLines := rfl
@[simp] theorem smear_rrAcc (s : State) (x n : Nat) : (smear s x n).rrAcc = s.rrAcc := rfl
@[simp] theorem smear_pages (s : State) (x n : Nat) : (smear s x n).pages = s.pages := rfl
@[simp] theorem smear_tlb (s : State) (x n : Nat) : (smear s x n).tlb = s.tlb := rfl
@[simp] theorem smear_own (s : State) (x n : Nat) : (smear s x n).own = s.own := rfl
@[simp] theorem smear_waiters (s : State) (x n : Nat) : (smear s x n).waiters = s.waiters := rfl
@[simp] theorem smear_reqs (s : State) (x n : Nat) : (smear s x n).reqs = s.reqs := rfl
@[simp] theorem smear_grants (s : State) (x n : Nat) : (smear s x n).grants = s.grants := rfl
@[simp] theorem smear_msgs (s : State) (x n : Nat) : (smear s x n).msgs = s.msgs := rfl
@[simp] theorem smear_ctxs (s : State) (x n : Nat) : (smear s x n).ctxs = s.ctxs := rfl
@[simp] theorem smear_wgs (s : State) (x n : Nat) : (smear s x n).wgs = s.wgs := rfl
@[simp] theorem smear_issues (s : State) (x n : Nat) : (smear s x n).issues = s.issues := rfl
@[simp] theorem smear_turns (s : State) (x n : Nat) : (smear s x n).turns = s.turns := rfl
@[simp] theorem smear_dawn (s : State) (x n : Nat) : (smear s x n).dawn = s.dawn := rfl
@[simp] theorem smear_skeins (s : State) (x n : Nat) : (smear s x n).skeins = s.skeins := rfl
@[simp] theorem smear_launches (s : State) (x n : Nat) : (smear s x n).launches = s.launches := rfl
@[simp] theorem smear_childReqs (s : State) (x n : Nat) : (smear s x n).childReqs = s.childReqs := rfl
@[simp] theorem smear_amWaits (s : State) (x n : Nat) : (smear s x n).amWaits = s.amWaits := rfl
@[simp] theorem smear_deferred (s : State) (x n : Nat) : (smear s x n).deferred = s.deferred := rfl
@[simp] theorem smear_rets (s : State) (x n : Nat) : (smear s x n).rets = s.rets := rfl
@[simp] theorem smear_rqWaits (s : State) (x n : Nat) : (smear s x n).rqWaits = s.rqWaits := rfl
@[simp] theorem smear_eng (s : State) (x n : Nat) : (smear s x n).eng = s.eng := rfl
@[simp] theorem smear_xfers (s : State) (x n : Nat) : (smear s x n).xfers = s.xfers := rfl
@[simp] theorem smear_colls (s : State) (x n : Nat) : (smear s x n).colls = s.colls := rfl
@[simp] theorem smear_collNo (s : State) (x n : Nat) : (smear s x n).collNo = s.collNo := rfl
@[simp] theorem smear_collPkts (s : State) (x n : Nat) : (smear s x n).collPkts = s.collPkts := rfl
@[simp] theorem smear_collExs (s : State) (x n : Nat) : (smear s x n).collExs = s.collExs := rfl
@[simp] theorem smear_collSent (s : State) (x n : Nat) : (smear s x n).collSent = s.collSent := rfl
@[simp] theorem smear_collTold (s : State) (x n : Nat) : (smear s x n).collTold = s.collTold := rfl
@[simp] theorem smear_ring (s : State) (x n : Nat) : (smear s x n).ring = s.ring := rfl
@[simp] theorem smear_ctl (s : State) (x n : Nat) : (smear s x n).ctl = s.ctl := rfl
@[simp] theorem smear_cont (s : State) (x n : Nat) : (smear s x n).cont = s.cont := rfl
@[simp] theorem smear_faults (s : State) (x n : Nat) : (smear s x n).faults = s.faults := rfl
@[simp] theorem smear_images (s : State) (x n : Nat) : (smear s x n).images = s.images := rfl
@[simp] theorem smear_loadDone (s : State) (x n : Nat) : (smear s x n).loadDone = s.loadDone := rfl
@[simp] theorem smear_links (s : State) (x n : Nat) : (smear s x n).links = s.links := rfl
@[simp] theorem smear_live (s : State) (x n : Nat) : (smear s x n).live = s.live := rfl
@[simp] theorem smear_deadPlanes (s : State) (x n : Nat) : (smear s x n).deadPlanes = s.deadPlanes := rfl
@[simp] theorem smear_answers (s : State) (x n : Nat) : (smear s x n).answers = s.answers := rfl
@[simp] theorem smear_slotRes (s : State) (x n : Nat) : (smear s x n).slotRes = s.slotRes := rfl
@[simp] theorem smear_tokens (s : State) (x n : Nat) : (smear s x n).tokens = s.tokens := rfl
@[simp] theorem smear_heldCredits (s : State) (x n : Nat) : (smear s x n).heldCredits = s.heldCredits := rfl
@[simp] theorem smear_hostMem (s : State) (x n : Nat) : (smear s x n).hostMem = s.hostMem := rfl
@[simp] theorem smear_interrupts (s : State) (x n : Nat) : (smear s x n).interrupts = s.interrupts := rfl
@[simp] theorem smear_notices (s : State) (x n : Nat) : (smear s x n).notices = s.notices := rfl
@[simp] theorem smear_sideband (s : State) (x n : Nat) : (smear s x n).sideband = s.sideband := rfl
@[simp] theorem smear_drops (s : State) (x n : Nat) : (smear s x n).drops = s.drops := rfl
@[simp] theorem smear_extents (s : State) (x n : Nat) : (smear s x n).extents = s.extents := rfl
@[simp] theorem smear_lost (s : State) (x n : Nat) : (smear s x n).lost = s.lost := rfl
@[simp] theorem smear_fuse (s : State) (x n : Nat) : (smear s x n).fuse = s.fuse := rfl
@[simp] theorem smear_fuseBusy (s : State) (x n : Nat) : (smear s x n).fuseBusy = s.fuseBusy := rfl
@[simp] theorem smear_fuseBy (s : State) (x n : Nat) : (smear s x n).fuseBy = s.fuseBy := rfl
@[simp] theorem smear_heads (s : State) (x n : Nat) : (smear s x n).heads = s.heads := rfl
@[simp] theorem smear_startedNow (s : State) (x n : Nat) : (smear s x n).startedNow = s.startedNow := rfl
@[simp] theorem smear_hcqHeld (s : State) (x n : Nat) : (smear s x n).hcqHeld = s.hcqHeld := rfl
@[simp] theorem smear_killing (s : State) (x n : Nat) : (smear s x n).killing = s.killing := rfl
@[simp] theorem smear_slice (s : State) (x n : Nat) : (smear s x n).slice = s.slice := rfl
@[simp] theorem smear_nextQueue (s : State) (x n : Nat) : (smear s x n).nextQueue = s.nextQueue := rfl

/-! A gang of a workgroup written. -/

@[simp] theorem setGang_tag (w : Wg) (g : Nat) (x : Gang) : (setGang w g x).tag = w.tag := rfl
@[simp] theorem setGang_kind (w : Wg) (g : Nat) (x : Gang) : (setGang w g x).kind = w.kind := rfl
@[simp] theorem setGang_st (w : Wg) (g : Nat) (x : Gang) : (setGang w g x).st = w.st := rfl
@[simp] theorem setGang_ctx (w : Wg) (g : Nat) (x : Gang) : (setGang w g x).ctx = w.ctx := rfl
@[simp] theorem setGang_tenant (w : Wg) (g : Nat) (x : Gang) : (setGang w g x).tenant = w.tenant := rfl
@[simp] theorem setGang_pri (w : Wg) (g : Nat) (x : Gang) : (setGang w g x).pri = w.pri := rfl
@[simp] theorem setGang_sys (w : Wg) (g : Nat) (x : Gang) : (setGang w g x).sys = w.sys := rfl
@[simp] theorem setGang_idem (w : Wg) (g : Nat) (x : Gang) : (setGang w g x).idem = w.idem := rfl
@[simp] theorem setGang_expins (w : Wg) (g : Nat) (x : Gang) : (setGang w g x).expins = w.expins := rfl
@[simp] theorem setGang_wdog (w : Wg) (g : Nat) (x : Gang) : (setGang w g x).wdog = w.wdog := rfl
@[simp] theorem setGang_parkt (w : Wg) (g : Nat) (x : Gang) : (setGang w g x).parkt = w.parkt := rfl
@[simp] theorem setGang_skein (w : Wg) (g : Nat) (x : Gang) : (setGang w g x).skein = w.skein := rfl
@[simp] theorem setGang_wgid (w : Wg) (g : Nat) (x : Gang) : (setGang w g x).wgid = w.wgid := rfl
@[simp] theorem setGang_skeinid (w : Wg) (g : Nat) (x : Gang) : (setGang w g x).skeinid = w.skeinid := rfl
@[simp] theorem setGang_grid (w : Wg) (g : Nat) (x : Gang) : (setGang w g x).grid = w.grid := rfl
@[simp] theorem setGang_gdim (w : Wg) (g : Nat) (x : Gang) : (setGang w g x).gdim = w.gdim := rfl
@[simp] theorem setGang_lanes (w : Wg) (g : Nat) (x : Gang) : (setGang w g x).lanes = w.lanes := rfl
@[simp] theorem setGang_ngangs (w : Wg) (g : Nat) (x : Gang) : (setGang w g x).ngangs = w.ngangs := rfl
@[simp] theorem setGang_slots (w : Wg) (g : Nat) (x : Gang) : (setGang w g x).slots = w.slots := rfl
@[simp] theorem setGang_gangs (w : Wg) (g : Nat) (x : Gang) : (setGang w g x).gangs = tset {} w.gangs g x := rfl
@[simp] theorem setGang_w (w : Wg) (g : Nat) (x : Gang) : (setGang w g x).w = w.w := rfl
@[simp] theorem setGang_scratchSize (w : Wg) (g : Nat) (x : Gang) : (setGang w g x).scratchSize = w.scratchSize := rfl
@[simp] theorem setGang_scratch (w : Wg) (g : Nat) (x : Gang) : (setGang w g x).scratch = w.scratch := rfl
@[simp] theorem setGang_queues (w : Wg) (g : Nat) (x : Gang) : (setGang w g x).queues = w.queues := rfl
@[simp] theorem setGang_bars (w : Wg) (g : Nat) (x : Gang) : (setGang w g x).bars = w.bars := rfl
@[simp] theorem setGang_qwait (w : Wg) (g : Nat) (x : Gang) : (setGang w g x).qwait = w.qwait := rfl
@[simp] theorem setGang_nmacs (w : Wg) (g : Nat) (x : Gang) : (setGang w g x).nmacs = w.nmacs := rfl
@[simp] theorem setGang_naccs (w : Wg) (g : Nat) (x : Gang) : (setGang w g x).naccs = w.naccs := rfl
@[simp] theorem setGang_macs (w : Wg) (g : Nat) (x : Gang) : (setGang w g x).macs = w.macs := rfl
@[simp] theorem setGang_accs (w : Wg) (g : Nat) (x : Gang) : (setGang w g x).accs = w.accs := rfl
@[simp] theorem setGang_mq (w : Wg) (g : Nat) (x : Gang) : (setGang w g x).mq = w.mq := rfl
@[simp] theorem setGang_subs (w : Wg) (g : Nat) (x : Gang) : (setGang w g x).subs = w.subs := rfl
@[simp] theorem setGang_miss (w : Wg) (g : Nat) (x : Gang) : (setGang w g x).miss = w.miss := rfl
@[simp] theorem setGang_children (w : Wg) (g : Nat) (x : Gang) : (setGang w g x).children = w.children := rfl
@[simp] theorem setGang_colls (w : Wg) (g : Nat) (x : Gang) : (setGang w g x).colls = w.colls := rfl
@[simp] theorem setGang_fslots (w : Wg) (g : Nat) (x : Gang) : (setGang w g x).fslots = w.fslots := rfl
@[simp] theorem setGang_trapvec (w : Wg) (g : Nat) (x : Gang) : (setGang w g x).trapvec = w.trapvec := rfl
@[simp] theorem setGang_image (w : Wg) (g : Nat) (x : Gang) : (setGang w g x).image = w.image := rfl
@[simp] theorem setGang_retired (w : Wg) (g : Nat) (x : Gang) : (setGang w g x).retired = w.retired := rfl
@[simp] theorem setGang_resident (w : Wg) (g : Nat) (x : Gang) : (setGang w g x).resident = w.resident := rfl
@[simp] theorem setGang_idle (w : Wg) (g : Nat) (x : Gang) : (setGang w g x).idle = w.idle := rfl
@[simp] theorem setGang_nonIdem (w : Wg) (g : Nat) (x : Gang) : (setGang w g x).nonIdem = w.nonIdem := rfl
@[simp] theorem setGang_records (w : Wg) (g : Nat) (x : Gang) : (setGang w g x).records = w.records := rfl
@[simp] theorem setGang_faulted (w : Wg) (g : Nat) (x : Gang) : (setGang w g x).faulted = w.faulted := rfl
@[simp] theorem setGang_killed (w : Wg) (g : Nat) (x : Gang) : (setGang w g x).killed = w.killed := rfl
@[simp] theorem setGang_record (w : Wg) (g : Nat) (x : Gang) : (setGang w g x).record = w.record := rfl
@[simp] theorem setGang_lent (w : Wg) (g : Nat) (x : Gang) : (setGang w g x).lent = w.lent := rfl
@[simp] theorem setGang_bolt (w : Wg) (g : Nat) (x : Gang) : (setGang w g x).bolt = w.bolt := rfl

end Sys2Proof.Machine
end

