-- ==== Sys2Proof/Laws/Tab.lean ====
section
/-! SUPPORT. Tables, masks and lists: reading what was written. -/

namespace Sys2Proof.Machine

theorem tget_nil {α : Type} (d : α) (n : Nat) : tget d [] n = d := by cases n <;> rfl
@[simp] theorem tget_tset_same {α : Type} (d v : α) (xs : List α) (n : Nat) : tget d (tset d xs n v) n = v := by
  induction xs generalizing n with
  | nil => induction n with
    | zero => rfl
    | succ n ih => simpa [tset, tget] using ih
  | cons x xs ih => cases n with
    | zero => rfl
    | succ n => simpa [tset, tget] using ih n
theorem tget_tset_other {α : Type} (d v : α) (xs : List α) (n m : Nat) (h : m ≠ n) : tget d (tset d xs n v) m = tget d xs m := by
  induction xs generalizing n m with
  | nil =>
    induction n generalizing m with
    | zero => cases m with
      | zero => exact absurd rfl h
      | succ m => rfl
    | succ n ih => cases m with
      | zero => rfl
      | succ m => simpa [tset, tget, tget_nil] using ih m (by omega)
  | cons x xs ih => cases n with
    | zero => cases m with
      | zero => exact absurd rfl h
      | succ m => rfl
    | succ n => cases m with
      | zero => rfl
      | succ m => simpa [tset, tget] using ih n m (by omega)
theorem tget_tset {α : Type} (d v : α) (xs : List α) (n m : Nat) : tget d (tset d xs n v) m = if m = n then v else tget d xs m := by
  split
  · next h => subst h; simp
  · next h => exact tget_tset_other d v xs n m h
@[simp] theorem tset_tset {α : Type} (d u v : α) (xs : List α) (n : Nat) : tset d (tset d xs n u) n v = tset d xs n v := by
  induction xs generalizing n with
  | nil => induction n with
    | zero => rfl
    | succ n ih => simpa [tset] using ih
  | cons x xs ih => cases n with
    | zero => rfl
    | succ n => simpa [tset] using ih n
theorem tget_eq_getElem? {α : Type} (d : α) (xs : List α) (n : Nat) : tget d xs n = (xs[n]?).getD d := by
  induction xs generalizing n with
  | nil => simp [tget_nil]
  | cons x xs ih => cases n with
    | zero => rfl
    | succ n => simpa [tget] using ih n
theorem tget_map_range {α : Type} (d : α) (f : Nat → α) (k n : Nat) : tget d ((List.range k).map f) n = if n < k then f n else d := by
  rw [tget_eq_getElem?]
  by_cases h : n < k <;> simp [h]

theorem updFirst_map_id {α : Type} (p : α → Bool) (f : α → α) (xs : List α) (h : ∀ x, p x = true → f x = x) : updFirst p f xs = xs := by
  induction xs with
  | nil => rfl
  | cons x xs ih => by_cases hx : p x <;> simp [updFirst, hx, ih, h]
/-- A search for what was replaced finds the replacement. -/
theorem find?_updFirst_same {α : Type} (p : α → Bool) (f : α → α) (xs : List α) (hp : ∀ x, p x = true → p (f x) = true) :
    (updFirst p f xs).find? p = (xs.find? p).map f := by
  induction xs with
  | nil => rfl
  | cons x xs ih => by_cases hx : p x <;> simp [updFirst, hx, hp, ih]
/-- A search for something else finds what it found. -/
theorem find?_updFirst_other {α : Type} (p q : α → Bool) (f : α → α) (xs : List α) (h : ∀ x, q x = true → p x = false ∧ p (f x) = false) :
    (updFirst q f xs).find? p = xs.find? p := by
  induction xs with
  | nil => rfl
  | cons x xs ih =>
    by_cases hq : q x
    · simp [updFirst, hq, h x hq]
    · by_cases hx : p x <;> simp [updFirst, hq, hx, ih]

theorem mem_bitsOf {w : Nat} (m : BitVec w) (n : Nat) : n ∈ bitsOf m ↔ n < w ∧ m.getLsbD n = true := by simp [bitsOf]
theorem bitsOf_zero {w : Nat} : bitsOf (0#w) = [] := by simp [bitsOf]
theorem getLsbD_maskOf (p : Nat → Bool) (k : Nat) : (maskOf p).getLsbD k = (decide (k < 32) && p k) := by
  have key : ∀ (l : List Nat) (m : LaneMask), (∀ n ∈ l, n < 32) →
      (l.foldl (fun m n => if p n then m ||| (1#32 <<< n) else m) m).getLsbD k = (m.getLsbD k || (decide (k ∈ l) && p k)) := by
    intro l
    induction l with
    | nil => simp
    | cons n l ih =>
      intro m hl
      have hn : n < 32 := hl n (by simp)
      rw [List.foldl_cons, ih _ fun k hk => hl k (by simp [hk])]
      by_cases hp : p n
      · by_cases hk : k = n
        · subst hk
          simp [hp, hn, BitVec.getLsbD_shiftLeft]
        · have : (1#32 <<< n).getLsbD k = false := by
            simp only [BitVec.getLsbD_shiftLeft, BitVec.getLsbD_one]
            by_cases h2 : k < n <;> simp [h2]
            omega
          simp [hp, hk, this]
      · by_cases hk : k = n
        · subst hk
          simp [hp]
        · simp [hp, hk]
  simpa [maskOf] using key (List.range 32) 0#32 (by simp)
theorem maskOf_eq_zero (p : Nat → Bool) (h : ∀ k, k < 32 → p k = false) : maskOf p = 0#32 := by
  apply BitVec.eq_of_getLsbD_eq
  intro k hk
  simp [getLsbD_maskOf, h k hk]

end Sys2Proof.Machine
end

