-- ==== Sys2Proof/Laws/Ops.lean ====
section
/-! SUPPORT. Workgroups, gangs and lanes: reading what the named operations wrote, and what they leave alone. -/

namespace Sys2Proof.Machine

/-! Lanes and quads of a gang. -/

theorem laneOf_mapLanes (m : LaneMask) (f : Nat → Lane → Lane) (g : Gang) (n : Nat) (hn : n < 32) :
    laneOf (mapLanes m f g) n = if m.getLsbD n then f n (laneOf g n) else laneOf g n := by
  simp [laneOf, mapLanes, tget_map_range, hn]
@[simp] theorem quadOf_mapLanes (m : LaneMask) (f : Nat → Lane → Lane) (g : Gang) (q : Nat) : quadOf (mapLanes m f g) q = quadOf g q := rfl
@[simp] theorem laneOf_mapQuads (m : BitVec 8) (f : Quad → Quad) (g : Gang) (n : Nat) : laneOf (mapQuads m f g) n = laneOf g n := rfl
theorem quadOf_mapQuads (m : BitVec 8) (f : Quad → Quad) (g : Gang) (q : Nat) (hq : q < 8) :
    quadOf (mapQuads m f g) q = if m.getLsbD q then f (quadOf g q) else quadOf g q := by
  simp [quadOf, mapQuads, tget_map_range, hq]
theorem mapLanes_frame (m : LaneMask) (f : Nat → Lane → Lane) (g : Gang) : mapLanes m f g = { g with lanes := (mapLanes m f g).lanes } := rfl
theorem mapQuads_frame (m : BitVec 8) (f : Quad → Quad) (g : Gang) : mapQuads m f g = { g with quads := (mapQuads m f g).quads } := rfl

/-! Workgroups of a state. -/

theorem findWg_tag {s : State} {tag : Nat} {w : Wg} (h : findWg s tag = some w) : w.tag = tag := by
  simpa using List.find?_some h
theorem findWg_putWg_same (s : State) (w : Wg) {v : Wg} (h : findWg s w.tag = some v) : findWg (putWg s w) w.tag = some w := by
  have := find?_updFirst_same (fun x : Wg => x.tag == w.tag) (fun _ => w) s.wgs (by simp)
  simp only [findWg] at h
  simp [findWg, putWg, this, h]
theorem findWg_putWg_other (s : State) (w : Wg) (tag : Nat) (h : tag ≠ w.tag) : findWg (putWg s w) tag = findWg s tag := by
  refine find?_updFirst_other (fun x : Wg => x.tag == tag) (fun x => x.tag == w.tag) (fun _ => w) s.wgs ?_
  intro x hx
  have : x.tag = w.tag := by simpa using hx
  simp [this, h.symm]
theorem putWg_frame (s : State) (w : Wg) : putWg s w = { s with wgs := (putWg s w).wgs } := rfl
@[simp] theorem gangOf_setGang_same (w : Wg) (g : Nat) (x : Gang) : gangOf (setGang w g x) g = x := by simp [gangOf, setGang]
theorem gangOf_setGang_other (w : Wg) (g k : Nat) (x : Gang) (h : k ≠ g) : gangOf (setGang w g x) k = gangOf w k := by
  simp [gangOf, setGang, tget_tset_other, h]
theorem setGang_frame (w : Wg) (g : Nat) (x : Gang) : setGang w g x = { w with gangs := (setGang w g x).gangs } := rfl

/-- What one change of a gang does: its workgroup holds the new gang, everything else is as it was. -/
theorem findWg_updGang_same {s : State} {tag : Nat} {w : Wg} (g : Nat) (f : Gang → Gang) (h : findWg s tag = some w) :
    findWg (updGang s tag g f) tag = some (setGang w g (f (gangOf w g))) := by
  have ht := findWg_tag h
  subst ht
  rw [updGang, h]
  exact findWg_putWg_same s _ h
theorem findWg_updGang_other (s : State) (tag g tag' : Nat) (f : Gang → Gang) (h : tag' ≠ tag) :
    findWg (updGang s tag g f) tag' = findWg s tag' := by
  unfold updGang
  split
  · next w hw => exact findWg_putWg_other s _ tag' (by simpa [findWg_tag hw] using h)
  · rfl
theorem updGang_frame (s : State) (tag g : Nat) (f : Gang → Gang) : updGang s tag g f = { s with wgs := (updGang s tag g f).wgs } := by
  unfold updGang
  split <;> rfl
theorem findWg_updWg_same {s : State} {tag : Nat} {w : Wg} (f : Wg → Wg) (h : findWg s tag = some w) (hf : (f w).tag = w.tag) :
    findWg (updWg s tag f) tag = some (f w) := by
  have ht := findWg_tag h
  subst ht
  rw [updWg, h, ← hf]
  exact findWg_putWg_same s _ (by rw [hf]; exact h)
theorem findWg_updWg_other (s : State) (tag tag' : Nat) (f : Wg → Wg) (hf : ∀ w, (f w).tag = w.tag) (h : tag' ≠ tag) :
    findWg (updWg s tag f) tag' = findWg s tag' := by
  unfold updWg
  split
  · next w hw => exact findWg_putWg_other s _ tag' (by simpa [hf, findWg_tag hw] using h)
  · rfl
theorem updWg_frame (s : State) (tag : Nat) (f : Wg → Wg) : updWg s tag f = { s with wgs := (updWg s tag f).wgs } := by
  unfold updWg
  split <;> rfl

/-! Where a word executes. -/

/-- What stands behind a place: the head issue, its workgroup, core and gang. -/
theorem here_spec {s : State} {h : Here} (hh : here s = some h) :
    s.issues = h.iss :: s.issues.tail ∧ findWg s h.iss.wg = some h.w ∧ coreOf h.w = some h.core ∧ h.g = gangOf h.w h.iss.gang := by
  unfold here at hh
  split at hh
  · exact absurd hh (by simp)
  · next i is hi =>
    split at hh
    · exact absurd hh (by simp)
    · next w hw =>
      split at hh
      · exact absurd hh (by simp)
      · next c hc =>
        obtain rfl := Option.some.inj hh
        exact ⟨by rw [hi]; rfl, hw, hc, rfl⟩
theorem gangAt_here {s : State} {h : Here} (hh : here s = some h) : gangAt s h = h.g := by
  obtain ⟨_, hw, _, hg⟩ := here_spec hh
  simp [gangAt, hw, hg]
theorem laneAt_here {s : State} {h : Here} (hh : here s = some h) (n : Nat) : laneAt s h n = laneOf h.g n := by rw [laneAt, gangAt_here hh]
theorem quadAt_here {s : State} {h : Here} (hh : here s = some h) (q : Nat) : quadAt s h q = quadOf h.g q := by rw [quadAt, gangAt_here hh]
theorem gangAt_of_find {s : State} {h : Here} {w : Wg} (hw : findWg s h.iss.wg = some w) : gangAt s h = gangOf w h.iss.gang := by
  simp [gangAt, hw]

end Sys2Proof.Machine
end

