-- ==== Sys2Proof/Laws/Ends.lean ====
section
/-! SUPPORT. The end of an issue: what its pending writes to masks and flags do to its gang, and its subscriptions and effects to its
workgroup. -/

namespace Sys2Proof.Machine

/-! Writes to a gang (R202, R230). -/

theorem jApply_frame (g : Gang) (o : JOp) : jApply g o = { g with j := maskWrite o.kind o.j o.m g.j } := by
  cases o with
  | mk k j m => cases k <;> rfl
theorem fApply_frame (g : Gang) (o : FOp) :
    fApply g o = { g with fpctl := (flagWrite o (g.fpctl, g.mflags)).1, mflags := (flagWrite o (g.fpctl, g.mflags)).2 } := by
  cases o <;> rfl
theorem foldl_jApply (ops : List JOp) : ∀ g : Gang, ops.foldl jApply g = { g with j := maskWrites ops g.j } := by
  induction ops with
  | nil => intro g; rfl
  | cons o ops ih => intro g; rw [List.foldl_cons, ih, jApply_frame]; rfl
theorem foldl_fApply (ops : List FOp) : ∀ g : Gang,
    ops.foldl fApply g = { g with fpctl := (flagWrites ops (g.fpctl, g.mflags)).1, mflags := (flagWrites ops (g.fpctl, g.mflags)).2 } := by
  induction ops with
  | nil => intro g; rfl
  | cons o ops ih => intro g; rw [List.foldl_cons, ih, fApply_frame]; rfl
/-- All that the end of an issue does to its gang. -/
theorem endWrites_frame (js : List JOp) (fs : List FOp) (g : Gang) :
    endWrites js fs g = { g with j := maskWrites js g.j, fpctl := (flagWrites fs (g.fpctl, g.mflags)).1,
                                 mflags := (flagWrites fs (g.fpctl, g.mflags)).2 } := by
  rw [endWrites, foldl_jApply, foldl_fApply]

/-! Subscriptions and effects (R320, R395). -/

/-- Subscriptions among some writes. -/
def subCount (ops : List FOp) : Nat := ops.countP fun o => match o with
  | .sub _ _ _ _ _ => true
  | _ => false
/-- A workgroup after the subscriptions and effects, the first subscription under a number. -/
def subsOn (now gang : Nat) : Nat → List FOp → Wg → Wg
  | _, [], w => w
  | seq, .sub h b c pers lanes :: os, w => subsOn now gang (seq + 1) os (makeSub now seq gang w h b c pers lanes)
  | seq, .effect _ _ :: os, w => subsOn now gang seq os { w with nonIdem := true }
  | seq, .raise _ _ :: os, w => subsOn now gang seq os w
  | seq, .setFp _ :: os, w => subsOn now gang seq os w
  | seq, .setMf _ :: os, w => subsOn now gang seq os w

/-- What belongs to the lanes and to the counters of R395 and R401, which subscriptions leave alone. -/
theorem makeSub_comm (now seq gang : Nat) (w : Wg) (h : Nat) (b c : W64) (pers : Bool) (lanes : LaneMask) (gs : List Gang) (r i : Nat) :
    makeSub now seq gang { w with gangs := gs, retired := r, idle := i } h b c pers lanes =
      { makeSub now seq gang w h b c pers lanes with gangs := gs, retired := r, idle := i } := by
  unfold makeSub
  dsimp only
  have h1 : macOf { w with gangs := gs, retired := r, idle := i } (h / 4) = macOf w (h / 4) := rfl
  have h2 : headOf { w with gangs := gs, retired := r, idle := i } (h / 4) = headOf w (h / 4) := rfl
  rw [h1, h2]
  split <;> rfl
theorem subsOn_comm (now gang : Nat) (ops : List FOp) : ∀ (seq : Nat) (w : Wg) (gs : List Gang) (r i : Nat),
    subsOn now gang seq ops { w with gangs := gs, retired := r, idle := i } =
      { subsOn now gang seq ops w with gangs := gs, retired := r, idle := i } := by
  induction ops with
  | nil => intros; rfl
  | cons o ops ih =>
    intro seq w gs r i
    cases o with
    | sub h b c p l => rw [subsOn, subsOn, makeSub_comm, ih]
    | effect a b => exact ih seq { w with nonIdem := true } gs r i
    | raise a b => exact ih seq w gs r i
    | setFp a => exact ih seq w gs r i
    | setMf a => exact ih seq w gs r i
theorem makeSub_frame (now seq gang : Nat) (w : Wg) (h : Nat) (b c : W64) (pers : Bool) (lanes : LaneMask) :
    makeSub now seq gang w h b c pers lanes =
      { w with macs := (makeSub now seq gang w h b c pers lanes).macs, subs := (makeSub now seq gang w h b c pers lanes).subs } := by
  unfold makeSub
  dsimp only
  split <;> rfl
theorem subsOn_frame (now gang : Nat) (ops : List FOp) : ∀ (seq : Nat) (w : Wg), subsOn now gang seq ops w =
    { w with macs := (subsOn now gang seq ops w).macs, subs := (subsOn now gang seq ops w).subs, nonIdem := (subsOn now gang seq ops w).nonIdem } := by
  induction ops with
  | nil => intros; rfl
  | cons o ops ih =>
    intro seq w
    cases o with
    | sub h b c p l => rw [subsOn, ih, makeSub_frame]
    | effect a b => rw [subsOn, ih]
    | raise a b => exact ih seq w
    | setFp a => exact ih seq w
    | setMf a => exact ih seq w
theorem subsOn_append (now gang : Nat) (xs ys : List FOp) : ∀ (seq : Nat) (w : Wg),
    subsOn now gang seq (xs ++ ys) w = subsOn now gang (seq + subCount xs) ys (subsOn now gang seq xs w) := by
  induction xs with
  | nil => intros; rfl
  | cons o xs ih =>
    intro seq w
    cases o with
    | sub h b c p l =>
      simp only [List.cons_append, subsOn, ih, subCount, List.countP_cons]
      simp [Nat.add_assoc, Nat.add_comm]
    | effect a b => simp [subsOn, ih, subCount]
    | raise a b => simp [subsOn, ih, subCount]
    | setFp a => simp [subsOn, ih, subCount]
    | setMf a => simp [subsOn, ih, subCount]
theorem subCount_cons (o : FOp) (ops : List FOp) : subCount (o :: ops) = subCount ops + (match o with
    | .sub _ _ _ _ _ => 1
    | _ => 0) := by
  cases o <;> simp [subCount]
theorem subCount_append (xs ys : List FOp) : subCount (xs ++ ys) = subCount xs + subCount ys := List.countP_append
@[simp] theorem subCount_raises (fp : BitVec 5) (mf : BitVec 4) : subCount (raises fp mf) = 0 := by unfold raises; split <;> rfl
@[simp] theorem subsOn_raises (now gang seq : Nat) (fp : BitVec 5) (mf : BitVec 4) (w : Wg) : subsOn now gang seq (raises fp mf) w = w := by
  unfold raises; split <;> rfl
theorem flagWrites_append (xs ys : List FOp) (x : BitVec 5 × BitVec 4) : flagWrites (xs ++ ys) x = flagWrites ys (flagWrites xs x) :=
  List.foldl_append ..

/-- All that the subscriptions and effects of an issue do. -/
theorem endSubs_spec (tag gang : Nat) (ops : List FOp) : ∀ (s : State) (w : Wg), findWg s tag = some w →
    endSubs tag gang ops s = { s with seq := s.seq + subCount ops, wgs := (endSubs tag gang ops s).wgs } ∧
    (∀ k, k ≠ tag → findWg (endSubs tag gang ops s) k = findWg s k) ∧
    findWg (endSubs tag gang ops s) tag = some (subsOn s.cycle gang s.seq ops w) := by
  induction ops with
  | nil => intro s w hw; exact ⟨rfl, fun _ _ => rfl, hw⟩
  | cons o ops ih =>
    intro s w hw
    cases o with
    | sub h b c p l =>
      have hf : findWg (subApply tag gang s (.sub h b c p l)) tag = some (makeSub s.cycle s.seq gang w h b c p l) := by
        refine findWg_updWg_same (s := { s with seq := s.seq + 1 }) _ hw ?_
        rw [makeSub_frame]
      obtain ⟨h1, h2, h3⟩ := ih _ _ hf
      have hs : subApply tag gang s (.sub h b c p l) = { s with seq := s.seq + 1, wgs := (subApply tag gang s (.sub h b c p l)).wgs } := by
        simp only [subApply]
        rw [updWg_frame]
      have he : endSubs tag gang (.sub h b c p l :: ops) s = endSubs tag gang ops (subApply tag gang s (.sub h b c p l)) := rfl
      refine ⟨?_, ?_, ?_⟩
      · rw [he]
        conv_lhs => rw [h1]
        rw [hs]
        simp [subCount_cons, Nat.add_assoc, Nat.add_comm]
      · intro k hk
        rw [he, h2 k hk]
        exact findWg_updWg_other { s with seq := s.seq + 1 } tag k _ (fun w => by rw [makeSub_frame]) hk
      · rw [he, h3, subsOn]
        have hc : (subApply tag gang s (.sub h b c p l)).cycle = s.cycle := by rw [hs]
        have hq : (subApply tag gang s (.sub h b c p l)).seq = s.seq + 1 := by rw [hs]
        rw [hc, hq]
    | effect a b =>
      have hf : findWg (markEffect tag s) tag = some { w with nonIdem := true } := findWg_updWg_same _ hw rfl
      obtain ⟨h1, h2, h3⟩ := ih _ _ hf
      have hs : markEffect tag s = { s with wgs := (markEffect tag s).wgs } := updWg_frame _ _ _
      have he : endSubs tag gang (.effect a b :: ops) s = endSubs tag gang ops (markEffect tag s) := rfl
      refine ⟨?_, ?_, ?_⟩
      · rw [he]
        conv_lhs => rw [h1]
        rw [hs]
        simp [subCount_cons]
      · intro k hk
        rw [he, h2 k hk]
        exact findWg_updWg_other s tag k _ (fun w => rfl) hk
      · rw [he, h3, subsOn]
        have hc : (markEffect tag s).cycle = s.cycle := by rw [hs]
        have hq : (markEffect tag s).seq = s.seq := by rw [hs]
        rw [hc, hq]
    | raise a b =>
      rw [subCount_cons]
      exact ih s w hw
    | setFp a =>
      rw [subCount_cons]
      exact ih s w hw
    | setMf a =>
      rw [subCount_cons]
      exact ih s w hw

end Sys2Proof.Machine
end

