-- ==== Sys2Proof/Laws/Mem.lean ====
section
/-! SUPPORT. Memories: reading what was written, all other bytes unchanged, and every operation keeps the canonical form. -/

namespace Sys2Proof.Machine

/-! Rising lists. -/

theorem memRising_mono (m : Memory) : ∀ lo lo', lo' ≤ lo → memRising lo m = true → memRising lo' m = true := by
  intro lo lo' hl h
  cases m with
  | nil => rfl
  | cons c m =>
    simp only [memRising, Bool.and_eq_true, decide_eq_true_eq] at h ⊢
    exact ⟨by omega, h.2⟩
/-- An address below all that are listed has no byte. -/
theorem memGet_below (m : Memory) : ∀ lo x, x < lo → memRising lo m = true → memGet m x = none := by
  induction m with
  | nil => intros; rfl
  | cons c m ih =>
    intro lo x hx h
    simp only [memRising, Bool.and_eq_true, decide_eq_true_eq] at h
    have : c.1 ≠ x := by omega
    simp [memGet, this, ih (c.1 + 1) x (by omega) h.2]

/-! One byte. -/

/-- Reading after a write: the byte written at its address, the old byte anywhere else. -/
theorem memGet_memPut (m : Memory) (x y : Nat) (v : Byte) : memGet (memPut m x v) y = if y = x then some v else memGet m y := by
  induction m with
  | nil => by_cases h : x = y <;> simp [memPut, memGet, h, eq_comm]
  | cons c m ih =>
    unfold memPut
    split
    · by_cases h : x = y <;> simp [memGet, h, eq_comm]
    · split
      · next e =>
        by_cases h : y = x
        · simp [memGet, h, e]
        · have : c.1 ≠ y := by omega
          simp [memGet, h, this]
      · next e =>
        by_cases h : c.1 = y
        · have : y ≠ x := by omega
          simp [memGet, h, this]
        · simp [memGet, h, ih]
theorem memPut_rising (m : Memory) (x : Nat) (v : Byte) : ∀ lo, lo ≤ x → memRising lo m = true → memRising lo (memPut m x v) = true := by
  induction m with
  | nil => intro lo hl _; simp [memPut, memRising, hl]
  | cons c m ih =>
    intro lo hl h
    simp only [memRising, Bool.and_eq_true, decide_eq_true_eq] at h
    unfold memPut
    split
    · next hx => simp [memRising, hl, h.2]; omega
    · split
      · simp [memRising, h]
      · simp [memRising, h.1, ih (c.1 + 1) (by omega) h.2]
theorem memDel_rising (m : Memory) (x : Nat) : ∀ lo, memRising lo m = true → memRising lo (memDel m x) = true := by
  induction m with
  | nil => intro lo h; exact h
  | cons c m ih =>
    intro lo h
    simp only [memRising, Bool.and_eq_true, decide_eq_true_eq] at h
    unfold memDel
    split
    · exact memRising_mono m (c.1 + 1) lo (by omega) h.2
    · simp [memRising, h.1, ih (c.1 + 1) h.2]
/-- A byte removed is listed no more; every other byte stays. -/
theorem memGet_memDel (m : Memory) (x y : Nat) : ∀ lo, memRising lo m = true → memGet (memDel m x) y = if y = x then none else memGet m y := by
  induction m with
  | nil => intros; simp [memDel, memGet]
  | cons c m ih =>
    intro lo h
    simp only [memRising, Bool.and_eq_true, decide_eq_true_eq] at h
    unfold memDel
    split
    · next e =>
      by_cases hy : y = x
      · simp only [hy, if_true]
        exact memGet_below m (c.1 + 1) x (by omega) h.2
      · have : c.1 ≠ y := by omega
        simp [memGet, hy, this]
    · next e =>
      by_cases hy : c.1 = y
      · have : y ≠ x := by omega
        simp [memGet, hy, this]
      · simp [memGet, hy, ih (c.1 + 1) h.2]

/-! Many bytes. -/

theorem memPuts_rising (bs : List Byte) : ∀ (m : Memory) (x lo : Nat), lo ≤ x → memRising lo m = true → memRising lo (memPuts m x bs) = true := by
  induction bs with
  | nil => intro m x lo _ h; exact h
  | cons b bs ih => intro m x lo hl h; exact ih _ (x + 1) lo (by omega) (memPut_rising m x b lo hl h)
/-- Reading after a write of several bytes: the byte written inside their range, the old byte outside. -/
theorem memGet_memPuts (bs : List Byte) : ∀ (m : Memory) (x y : Nat),
    memGet (memPuts m x bs) y = if x ≤ y ∧ y < x + bs.length then bs[y - x]? else memGet m y := by
  induction bs with
  | nil => intro m x y; have : ¬(x ≤ y ∧ y < x) := by omega
           simp [memPuts, this]
  | cons b bs ih =>
    intro m x y
    rw [memPuts, ih, memGet_memPut]
    by_cases h1 : y = x
    · subst h1
      have : ¬(y + 1 ≤ y ∧ y < y + 1 + bs.length) := by omega
      simp
    · by_cases h2 : x + 1 ≤ y ∧ y < x + 1 + bs.length
      · have e : x ≤ y ∧ y < x + (b :: bs).length := by simp only [List.length_cons]; omega
        have k : y - x = y - (x + 1) + 1 := by omega
        rw [if_pos h2, if_pos e, k, List.getElem?_cons_succ]
      · have e : ¬(x ≤ y ∧ y < x + (b :: bs).length) := by simp only [List.length_cons]; omega
        rw [if_neg h2, if_neg e, if_neg h1]
theorem memFilter_rising (p : Host.Cell → Bool) (m : Memory) : ∀ lo, memRising lo m = true → memRising lo (m.filter p) = true := by
  induction m with
  | nil => intro lo h; exact h
  | cons c m ih =>
    intro lo h
    simp only [memRising, Bool.and_eq_true, decide_eq_true_eq] at h
    rw [List.filter_cons]
    split
    · simp [memRising, h.1, ih (c.1 + 1) h.2]
    · exact memRising_mono _ (c.1 + 1) lo (by omega) (ih (c.1 + 1) h.2)
theorem memClear_rising (m : Memory) (x n lo : Nat) (h : memRising lo m = true) : memRising lo (memClear m x n) = true :=
  memFilter_rising _ m lo h
/-- A cleared range lists nothing; every byte outside it stays. -/
theorem memGet_memClear (m : Memory) (x n y : Nat) : memGet (memClear m x n) y = if x ≤ y ∧ y < x + n then none else memGet m y := by
  unfold memClear
  induction m with
  | nil => simp [memGet]
  | cons c m ih =>
    rw [List.filter_cons]
    by_cases hc : x ≤ c.1 ∧ c.1 < x + n
    · have : (!(decide (x ≤ c.1) && decide (c.1 < x + n))) = false := by simp [hc]
      rw [this]
      simp only [Bool.false_eq_true, if_false, ih, memGet]
      by_cases hy : c.1 = y
      · subst hy; simp [hc]
      · simp [hy]
    · have : (!(decide (x ≤ c.1) && decide (c.1 < x + n))) = true := by
        simp only [Bool.not_eq_true', Bool.and_eq_false_iff, decide_eq_false_iff_not]
        by_cases hl : x ≤ c.1
        · exact .inr fun h => hc ⟨hl, h⟩
        · exact .inl hl
      rw [this]
      simp only [if_true, memGet, ih]
      by_cases hy : c.1 = y
      · subst hy; simp [hc]
      · simp [hy]

/-! Memories whose unlisted bytes read 0. -/

theorem mem_memDel {m : Memory} {x : Nat} {c : Host.Cell} (h : c ∈ memDel m x) : c ∈ m := by
  induction m with
  | nil => exact h
  | cons d m ih =>
    unfold memDel at h
    split at h
    · exact List.mem_cons_of_mem _ h
    · rcases List.mem_cons.mp h with h | h
      · exact h ▸ List.mem_cons_self
      · exact List.mem_cons_of_mem _ (ih h)
theorem mem_memPut {m : Memory} {x : Nat} {v : Byte} {c : Host.Cell} (h : c ∈ memPut m x v) : c = (x, v) ∨ c ∈ m := by
  induction m with
  | nil => exact .inl (by simpa [memPut] using h)
  | cons d m ih =>
    unfold memPut at h
    split at h
    · exact (List.mem_cons.mp h).imp id id
    · split at h
      · next e => rcases List.mem_cons.mp h with h | h
                  · exact .inl (by rw [h, e])
                  · exact .inr (List.mem_cons_of_mem _ h)
      · rcases List.mem_cons.mp h with h | h
        · exact .inr (h ▸ List.mem_cons_self)
        · exact (ih h).imp id (List.mem_cons_of_mem _)
/-- A byte written keeps the form: rising, and no 0 listed. -/
theorem put0_wf0 (m : Memory) (x : Nat) (v : Byte) (h : Memory.wf0 m = true) : Memory.wf0 (put0 m x v) = true := by
  simp only [Memory.wf0, Bool.and_eq_true, List.all_eq_true, bne_iff_ne, ne_eq] at h ⊢
  unfold put0
  split
  · exact ⟨memDel_rising m x 0 h.1, fun c hc => h.2 c (mem_memDel hc)⟩
  · next hv =>
    refine ⟨memPut_rising m x v 0 (Nat.zero_le _) h.1, fun c hc => ?_⟩
    rcases mem_memPut hc with e | hc
    · rw [e]; exact hv
    · exact h.2 c hc
theorem puts0_wf0 (bs : List Byte) : ∀ (m : Memory) (x : Nat), Memory.wf0 m = true → Memory.wf0 (puts0 m x bs) = true := by
  induction bs with
  | nil => intro m x h; exact h
  | cons b bs ih => intro m x h; exact ih _ (x + 1) (put0_wf0 m x b h)
theorem get0_put0 (m : Memory) (x y : Nat) (v : Byte) (h : Memory.wf0 m = true) : get0 (put0 m x v) y = if y = x then v else get0 m y := by
  have hr : memRising 0 m = true := by simp only [Memory.wf0, Bool.and_eq_true] at h; exact h.1
  unfold get0 put0
  split
  · next hv => rw [memGet_memDel m x y 0 hr]; by_cases e : y = x <;> simp [e, hv]
  · rw [memGet_memPut]; by_cases e : y = x <;> simp [e]
/-- Reading the scratchpad after a write: the bytes written inside their range, the old bytes outside. -/
theorem get0_puts0 (bs : List Byte) : ∀ (m : Memory) (x y : Nat), Memory.wf0 m = true →
    get0 (puts0 m x bs) y = if x ≤ y ∧ y < x + bs.length then bs.getD (y - x) 0#8 else get0 m y := by
  induction bs with
  | nil => intro m x y _; have : ¬(x ≤ y ∧ y < x) := by omega
           simp [puts0, this]
  | cons b bs ih =>
    intro m x y h
    rw [puts0, ih _ _ _ (put0_wf0 m x b h), get0_put0 m x y b h]
    by_cases h1 : y = x
    · subst h1
      have : ¬(y + 1 ≤ y ∧ y < y + 1 + bs.length) := by omega
      simp
    · by_cases h2 : x + 1 ≤ y ∧ y < x + 1 + bs.length
      · have e : x ≤ y ∧ y < x + (b :: bs).length := by simp only [List.length_cons]; omega
        have k : y - x = y - (x + 1) + 1 := by omega
        rw [if_pos h2, if_pos e, k, List.getD_cons_succ]
      · have e : ¬(x ≤ y ∧ y < x + (b :: bs).length) := by simp only [List.length_cons]; omega
        rw [if_neg h2, if_neg e, if_neg h1]

/-! Control space. -/

theorem ctlWf_mono (m : List (Nat × W64)) : ∀ lo lo', lo' ≤ lo → ctlWf lo m = true → ctlWf lo' m = true := by
  intro lo lo' hl h
  cases m with
  | nil => rfl
  | cons c m =>
    simp only [ctlWf, Bool.and_eq_true, decide_eq_true_eq] at h ⊢
    exact ⟨⟨by omega, h.1.2⟩, h.2⟩
theorem ctlGetW_below (m : List (Nat × W64)) : ∀ lo x, x < lo → ctlWf lo m = true → ctlGetW m x = 0#64 := by
  induction m with
  | nil => intros; rfl
  | cons c m ih =>
    intro lo x hx h
    simp only [ctlWf, Bool.and_eq_true, decide_eq_true_eq] at h
    have ne : c.1 ≠ x := by omega
    have := ih (c.1 + 1) x (by omega) h.2
    simp only [ctlGetW] at this ⊢
    rw [List.find?_cons_of_neg (by simpa using ne)]
    exact this
theorem ctlInsert_wf (m : List (Nat × W64)) (a : Nat) (v : W64) : ∀ lo, lo ≤ a → ctlWf lo m = true → ctlWf lo (ctlInsert m a v) = true := by
  induction m with
  | nil =>
    intro lo hl _
    unfold ctlInsert
    split
    · rfl
    · next hv => simp [ctlWf, hl, hv]
  | cons c m ih =>
    intro lo hl h
    simp only [ctlWf, Bool.and_eq_true, decide_eq_true_eq, bne_iff_ne, ne_eq] at h
    unfold ctlInsert
    split
    · split
      · simp [ctlWf, h]
      · next hv => simp [ctlWf, hl, hv, h]; omega
    · split
      · next e => split
                  · exact ctlWf_mono m (c.1 + 1) lo (by omega) h.2
                  · next hv => subst e; simp [ctlWf, hl, hv, h]
      · simp [ctlWf, h.1, ih (c.1 + 1) (by omega) h.2]
/-- Reading a control word after a write: the value written at its address, the old value anywhere else. -/
theorem ctlGetW_ctlInsert (m : List (Nat × W64)) (a b : Nat) (v : W64) : ∀ lo, ctlWf lo m = true →
    ctlGetW (ctlInsert m a v) b = if b = a then v else ctlGetW m b := by
  induction m with
  | nil =>
    intro lo _
    unfold ctlInsert
    by_cases hv : v = 0#64
    · simp [hv, ctlGetW]
    · by_cases e : a = b
      · simp [hv, ctlGetW, e]
      · have e' : ¬b = a := fun h => e h.symm
        simp [hv, ctlGetW, e, e']
  | cons c m ih =>
    intro lo h
    simp only [ctlWf, Bool.and_eq_true, decide_eq_true_eq, bne_iff_ne, ne_eq] at h
    have low (x : Nat) (hx : x < c.1 + 1) : ctlGetW m x = 0#64 := ctlGetW_below m (c.1 + 1) x hx h.2
    have cons (d : Nat × W64) (r : List (Nat × W64)) : ctlGetW (d :: r) b = if d.1 = b then d.2 else ctlGetW r b := by
      by_cases e : d.1 = b <;> simp [ctlGetW, e]
    unfold ctlInsert
    split
    · split
      · next hv =>
        by_cases e : b = a
        · rw [cons, if_neg (by omega), low b (by omega), if_pos e, hv]
        · rw [if_neg e]
      · rw [cons]; by_cases e : b = a
        · rw [if_pos e.symm, if_pos e]
        · rw [if_neg (fun h => e h.symm), if_neg e]
    · split
      · next e0 => split
                   · next hv =>
                     by_cases e : b = a
                     · rw [low b (by omega), if_pos e, hv]
                     · rw [if_neg e, cons, if_neg (by omega)]
                   · rw [cons, cons]; by_cases e : b = a
                     · rw [if_pos e.symm, if_pos e]
                     · rw [if_neg (fun h => e h.symm), if_neg e, if_neg (by omega)]
      · rw [cons, cons, ih (c.1 + 1) h.2]
        by_cases e : c.1 = b
        · rw [if_pos e, if_pos e, if_neg (by omega)]
        · rw [if_neg e, if_neg e]

/-! The same of a state: what a write does, and that it keeps every memory canonical. -/

theorem devByte_devPut (s : State) (x y : Nat) (bs : List Byte) :
    devByte (devPut s x bs) y = if x ≤ y ∧ y < x + bs.length then bs.getD (y - x) 0#8 else devByte s y := by
  unfold devByte devPut
  rw [memGet_memPuts]
  split
  · next h =>
    have : y - x < bs.length := by omega
    simp [this]
  · rfl
theorem hostByte_hostPut (s : State) (x y : Nat) (bs : List Byte) :
    hostByte (hostPut s x bs) y = if x ≤ y ∧ y < x + bs.length then bs.getD (y - x) 0#8 else hostByte s y := by
  unfold hostByte hostPut
  rw [memGet_memPuts]
  split
  · next h =>
    have : y - x < bs.length := by omega
    simp [this]
  · rfl
theorem ctlGet_ctlPut (s : State) (a b : Nat) (v : W64) (h : ctlWf 0 s.ctl = true) :
    ctlGet (ctlPut s a v) b = if b = a then v else ctlGet s b := ctlGetW_ctlInsert s.ctl a b v 0 h
theorem devPut_tidy (s : State) (x : Nat) (bs : List Byte) (h : Tidy s) : Tidy (devPut s x bs) :=
  ⟨memPuts_rising bs s.mem x 0 (Nat.zero_le _) h.1, h.2⟩
theorem hostPut_tidy (s : State) (x : Nat) (bs : List Byte) (h : Tidy s) : Tidy (hostPut s x bs) :=
  ⟨h.1, memPuts_rising bs s.hostMem x 0 (Nat.zero_le _) h.2.1, h.2.2⟩
theorem ctlPut_tidy (s : State) (a : Nat) (v : W64) (h : Tidy s) : Tidy (ctlPut s a v) :=
  ⟨h.1, h.2.1, ctlInsert_wf s.ctl a v 0 (Nat.zero_le _) h.2.2.1, h.2.2.2⟩
theorem smear_tidy (s : State) (x n : Nat) (h : Tidy s) : Tidy (smear s x n) := ⟨memClear_rising s.mem x n 0 h.1, h.2⟩
/-- A state whose memories are those of a canonical one is canonical. -/
theorem tidy_same {s t : State} (h : Tidy s) (hm : t.mem = s.mem) (hh : t.hostMem = s.hostMem) (hc : t.ctl = s.ctl)
    (hw : ∀ w ∈ t.wgs, ∃ v ∈ s.wgs, w.scratch = v.scratch) : Tidy t := by
  refine ⟨by rw [hm]; exact h.1, by rw [hh]; exact h.2.1, by rw [hc]; exact h.2.2.1, ?_⟩
  rw [List.all_eq_true]
  intro w hw'
  obtain ⟨v, hv, e⟩ := hw w hw'
  rw [e]
  exact List.all_eq_true.mp h.2.2.2 v hv
/-- One workgroup changed to a record whose scratchpad is canonical keeps the state canonical. -/
theorem putWg_tidy (s : State) (w : Wg) (h : Tidy s) (hw : Memory.wf0 w.scratch = true) : Tidy (putWg s w) := by
  refine ⟨h.1, h.2.1, h.2.2.1, ?_⟩
  have key : ∀ xs : List Wg, xs.all (fun w => Memory.wf0 w.scratch) = true →
      (updFirst (fun x => x.tag == w.tag) (fun _ => w) xs).all (fun w => Memory.wf0 w.scratch) = true := by
    intro xs
    induction xs with
    | nil => intro h; exact h
    | cons x xs ih =>
      intro h
      simp only [List.all_cons, Bool.and_eq_true] at h
      unfold updFirst
      split
      · simp [hw, h.2]
      · simp [h.1, ih h.2]
  exact key s.wgs h.2.2.2

/-- Bytes written from a number give it back, as far as they reach (R5). -/
theorem leNat_leBytes : ∀ n x, leNat (leBytes n x) = x % 256 ^ n
  | 0, x => by simp [leBytes, leNat, Nat.mod_one]
  | n + 1, x => by
    simp only [leBytes, leNat, leNat_leBytes n, BitVec.toNat_ofNat]
    exact (Nat.pow_succ' ▸ (Nat.mod_mul (x := x) (a := 256) (b := 256 ^ n))).symm

end Sys2Proof.Machine
end

