-- ==== Sys2Proof/Laws/PerInstr.lean ====
section
/-! SUPPORT. One lemma per constructor: the opcode decoding of an encoded word gives the word back with every field. -/

namespace Sys2Proof.Laws

open Sys2Proof Sys2Proof.Machine

/-- The opcode map reads the encoding of a well-formed word as that word. -/
def Fields.Statement (i : Instr) : Prop := ∀ x, encode i = some x → wellFormed i = true → decodeOp x = some i

/-- A word whose opcode is in row 0. -/
theorem enc_row0 (op : BitVec 8) (g : Guard) (y : BitVec 48) (h : (op.extractLsb' 4 4).toNat = 0) :
    decodeOp (encHead op g ++ y) = decodeRow0 (encHead op g ++ y) (op.extractLsb' 0 4).toNat := by
  simp only [decodeOp, head_high, head_low, h]
/-- A word whose opcode is in row 1. -/
theorem enc_row1 (op : BitVec 8) (g : Guard) (y : BitVec 48) (h : (op.extractLsb' 4 4).toNat = 1) :
    decodeOp (encHead op g ++ y) = decodeRow1 (encHead op g ++ y) (op.extractLsb' 0 4).toNat := by
  simp only [decodeOp, head_high, head_low, h]
/-- A word whose opcode is in row 2. -/
theorem enc_row2 (op : BitVec 8) (g : Guard) (y : BitVec 48) (h : (op.extractLsb' 4 4).toNat = 2) :
    decodeOp (encHead op g ++ y) = decodeRow2 (encHead op g ++ y) (op.extractLsb' 0 4).toNat := by
  simp only [decodeOp, head_high, head_low, h]
/-- A word whose opcode is in row 3. -/
theorem enc_row3 (op : BitVec 8) (g : Guard) (y : BitVec 48) (h : (op.extractLsb' 4 4).toNat = 3) :
    decodeOp (encHead op g ++ y) = decodeRow3 (encHead op g ++ y) (op.extractLsb' 0 4).toNat := by
  simp only [decodeOp, head_high, head_low, h]
/-- A word whose opcode is in row 4. -/
theorem enc_row4 (op : BitVec 8) (g : Guard) (y : BitVec 48) (h : (op.extractLsb' 4 4).toNat = 4) :
    decodeOp (encHead op g ++ y) = decodeRow4 (encHead op g ++ y) (op.extractLsb' 0 4).toNat := by
  simp only [decodeOp, head_high, head_low, h]
/-- A word whose opcode is in row 5. -/
theorem enc_row5 (op : BitVec 8) (g : Guard) (y : BitVec 48) (h : (op.extractLsb' 4 4).toNat = 5) :
    decodeOp (encHead op g ++ y) = decodeRow5 (encHead op g ++ y) (op.extractLsb' 0 4).toNat := by
  simp only [decodeOp, head_high, head_low, h]
/-- A word whose opcode is in row 6. -/
theorem enc_row6 (op : BitVec 8) (g : Guard) (y : BitVec 48) (h : (op.extractLsb' 4 4).toNat = 6) :
    decodeOp (encHead op g ++ y) = decodeRow6 (encHead op g ++ y) (op.extractLsb' 0 4).toNat := by
  simp only [decodeOp, head_high, head_low, h]
/-- A word whose opcode is in row 7. -/
theorem enc_row7 (op : BitVec 8) (g : Guard) (y : BitVec 48) (h : (op.extractLsb' 4 4).toNat = 7) :
    decodeOp (encHead op g ++ y) = decodeRow7 (encHead op g ++ y) (op.extractLsb' 0 4).toNat := by
  simp only [decodeOp, head_high, head_low, h]
/-- A word whose opcode is in row 8. -/
theorem enc_row8 (op : BitVec 8) (g : Guard) (y : BitVec 48) (h : (op.extractLsb' 4 4).toNat = 8) :
    decodeOp (encHead op g ++ y) = decodeRow8 (encHead op g ++ y) (op.extractLsb' 0 4).toNat := by
  simp only [decodeOp, head_high, head_low, h]
/-- A word whose opcode is in row 9. -/
theorem enc_row9 (op : BitVec 8) (g : Guard) (y : BitVec 48) (h : (op.extractLsb' 4 4).toNat = 9) :
    decodeOp (encHead op g ++ y) = decodeRow9 (encHead op g ++ y) (op.extractLsb' 0 4).toNat := by
  simp only [decodeOp, head_high, head_low, h]
/-- A word whose opcode is in row A. -/
theorem enc_rowA (op : BitVec 8) (g : Guard) (y : BitVec 48) (h : (op.extractLsb' 4 4).toNat = 10) :
    decodeOp (encHead op g ++ y) = decodeRowA (encHead op g ++ y) (op.extractLsb' 0 4).toNat := by
  simp only [decodeOp, head_high, head_low, h]
/-- A word whose opcode is in row B. -/
theorem enc_rowB (op : BitVec 8) (g : Guard) (y : BitVec 48) (h : (op.extractLsb' 4 4).toNat = 11) :
    decodeOp (encHead op g ++ y) = decodeRowB (encHead op g ++ y) (op.extractLsb' 0 4).toNat := by
  simp only [decodeOp, head_high, head_low, h]
/-- A word whose opcode is in row C. -/
theorem enc_rowC (op : BitVec 8) (g : Guard) (y : BitVec 48) (h : (op.extractLsb' 4 4).toNat = 12) :
    decodeOp (encHead op g ++ y) = decodeRowC (encHead op g ++ y) (op.extractLsb' 0 4).toNat := by
  simp only [decodeOp, head_high, head_low, h]
/-- A word whose opcode is in row D. -/
theorem enc_rowD (op : BitVec 8) (g : Guard) (y : BitVec 48) (h : (op.extractLsb' 4 4).toNat = 13) :
    decodeOp (encHead op g ++ y) = decodeRowD (encHead op g ++ y) (op.extractLsb' 0 4).toNat := by
  simp only [decodeOp, head_high, head_low, h]
/-- A word whose opcode is in row F. -/
theorem enc_rowF (op : BitVec 8) (g : Guard) (y : BitVec 48) (h : (op.extractLsb' 4 4).toNat = 15) :
    decodeOp (encHead op g ++ y) = decodeRowF (encHead op g ++ y) (op.extractLsb' 0 4).toNat := by
  simp only [decodeOp, head_high, head_low, h]

/-- MOD[1:0] as the static check reads it. -/
theorem mod_low (m : BitVec 14) (k : Nat) (h : modBits m 0 2 = k) : m.extractLsb' 0 2 = BitVec.ofNat 2 k := by
  subst h
  apply BitVec.eq_of_toNat_eq
  simp [modBits]

theorem Fields.nop (g : Guard) (f : FmtT) : Fields.Statement (.nop g f) := by
  intro x h _
  cases h
  refine (enc_row0 _ _ _ (by decide)).trans ?_
  exact congrArg some (congr (congrArg Instr.nop (guardT _ _ _)) (fmtT_back _ _ _))
theorem Fields.smov (g : Guard) (f : FmtT) : Fields.Statement (.smov g f) := by
  intro x h _
  cases h
  refine (enc_row0 _ _ _ (by decide)).trans ?_
  exact congrArg some (congr (congrArg Instr.smov (guardT _ _ _)) (fmtT_back _ _ _))
theorem Fields.smovi (g : Guard) (f : FmtI) : Fields.Statement (.smovi g f) := by
  intro x h _
  cases h
  refine (enc_row0 _ _ _ (by decide)).trans ?_
  exact congrArg some (congr (congrArg Instr.smovi (guardI _ _ _)) (fmtI_back _ _ _))
theorem Fields.sadd (g : Guard) (f : FmtT) : Fields.Statement (.sadd g f) := by
  intro x h _
  cases h
  refine (enc_row0 _ _ _ (by decide)).trans ?_
  exact congrArg some (congr (congrArg Instr.sadd (guardT _ _ _)) (fmtT_back _ _ _))
theorem Fields.saddi (g : Guard) (f : FmtI) : Fields.Statement (.saddi g f) := by
  intro x h _
  cases h
  refine (enc_row0 _ _ _ (by decide)).trans ?_
  exact congrArg some (congr (congrArg Instr.saddi (guardI _ _ _)) (fmtI_back _ _ _))
theorem Fields.ssub (g : Guard) (f : FmtT) : Fields.Statement (.ssub g f) := by
  intro x h _
  cases h
  refine (enc_row0 _ _ _ (by decide)).trans ?_
  exact congrArg some (congr (congrArg Instr.ssub (guardT _ _ _)) (fmtT_back _ _ _))
theorem Fields.smul (g : Guard) (f : FmtT) : Fields.Statement (.smul g f) := by
  intro x h _
  cases h
  refine (enc_row0 _ _ _ (by decide)).trans ?_
  exact congrArg some (congr (congrArg Instr.smul (guardT _ _ _)) (fmtT_back _ _ _))
theorem Fields.smulh (g : Guard) (f : FmtT) : Fields.Statement (.smulh g f) := by
  intro x h _
  cases h
  refine (enc_row0 _ _ _ (by decide)).trans ?_
  exact congrArg some (congr (congrArg Instr.smulh (guardT _ _ _)) (fmtT_back _ _ _))
theorem Fields.sand (g : Guard) (f : FmtT) : Fields.Statement (.sand g f) := by
  intro x h _
  cases h
  refine (enc_row0 _ _ _ (by decide)).trans ?_
  exact congrArg some (congr (congrArg Instr.sand (guardT _ _ _)) (fmtT_back _ _ _))
theorem Fields.sor (g : Guard) (f : FmtT) : Fields.Statement (.sor g f) := by
  intro x h _
  cases h
  refine (enc_row0 _ _ _ (by decide)).trans ?_
  exact congrArg some (congr (congrArg Instr.sor (guardT _ _ _)) (fmtT_back _ _ _))
theorem Fields.sxor (g : Guard) (f : FmtT) : Fields.Statement (.sxor g f) := by
  intro x h _
  cases h
  refine (enc_row0 _ _ _ (by decide)).trans ?_
  exact congrArg some (congr (congrArg Instr.sxor (guardT _ _ _)) (fmtT_back _ _ _))
theorem Fields.sshl (g : Guard) (f : FmtT) : Fields.Statement (.sshl g f) := by
  intro x h _
  cases h
  refine (enc_row0 _ _ _ (by decide)).trans ?_
  exact congrArg some (congr (congrArg Instr.sshl (guardT _ _ _)) (fmtT_back _ _ _))
theorem Fields.sshr (g : Guard) (f : FmtT) : Fields.Statement (.sshr g f) := by
  intro x h _
  cases h
  refine (enc_row0 _ _ _ (by decide)).trans ?_
  exact congrArg some (congr (congrArg Instr.sshr (guardT _ _ _)) (fmtT_back _ _ _))
theorem Fields.ssra (g : Guard) (f : FmtT) : Fields.Statement (.ssra g f) := by
  intro x h _
  cases h
  refine (enc_row0 _ _ _ (by decide)).trans ?_
  exact congrArg some (congr (congrArg Instr.ssra (guardT _ _ _)) (fmtT_back _ _ _))
theorem Fields.smin (g : Guard) (f : FmtT) : Fields.Statement (.smin g f) := by
  intro x h _
  cases h
  refine (enc_row0 _ _ _ (by decide)).trans ?_
  exact congrArg some (congr (congrArg Instr.smin (guardT _ _ _)) (fmtT_back _ _ _))
theorem Fields.smax (g : Guard) (f : FmtT) : Fields.Statement (.smax g f) := by
  intro x h _
  cases h
  refine (enc_row0 _ _ _ (by decide)).trans ?_
  exact congrArg some (congr (congrArg Instr.smax (guardT _ _ _)) (fmtT_back _ _ _))
theorem Fields.sclz (g : Guard) (f : FmtT) : Fields.Statement (.sclz g f) := by
  intro x h _
  cases h
  refine (enc_row1 _ _ _ (by decide)).trans ?_
  exact congrArg some (congr (congrArg Instr.sclz (guardT _ _ _)) (fmtT_back _ _ _))
theorem Fields.spopc (g : Guard) (f : FmtT) : Fields.Statement (.spopc g f) := by
  intro x h _
  cases h
  refine (enc_row1 _ _ _ (by decide)).trans ?_
  exact congrArg some (congr (congrArg Instr.spopc (guardT _ _ _)) (fmtT_back _ _ _))
theorem Fields.scmp (g : Guard) (f : FmtT) : Fields.Statement (.scmp g f) := by
  intro x h _
  cases h
  refine (enc_row1 _ _ _ (by decide)).trans ?_
  exact congrArg some (congr (congrArg Instr.scmp (guardT _ _ _)) (fmtT_back _ _ _))
theorem Fields.ssel (g : Guard) (f : FmtT) : Fields.Statement (.ssel g f) := by
  intro x h _
  cases h
  refine (enc_row1 _ _ _ (by decide)).trans ?_
  exact congrArg some (congr (congrArg Instr.ssel (guardT _ _ _)) (fmtT_back _ _ _))
theorem Fields.sdiv (g : Guard) (f : FmtT) : Fields.Statement (.sdiv g f) := by
  intro x h _
  cases h
  refine (enc_row1 _ _ _ (by decide)).trans ?_
  exact congrArg some (congr (congrArg Instr.sdiv (guardT _ _ _)) (fmtT_back _ _ _))
theorem Fields.jmp (g : Guard) (f : FmtB) : Fields.Statement (.jmp g f) := by
  intro x h _
  cases h
  refine (enc_row1 _ _ _ (by decide)).trans ?_
  exact congrArg some (congr (congrArg Instr.jmp (guardB _ _ _)) (fmtB_back _ _ _))
theorem Fields.brz (g : Guard) (f : FmtI) : Fields.Statement (.brz g f) := by
  intro x h _
  cases h
  refine (enc_row1 _ _ _ (by decide)).trans ?_
  exact congrArg some (congr (congrArg Instr.brz (guardI _ _ _)) (fmtI_back _ _ _))
theorem Fields.brnz (g : Guard) (f : FmtI) : Fields.Statement (.brnz g f) := by
  intro x h _
  cases h
  refine (enc_row1 _ _ _ (by decide)).trans ?_
  exact congrArg some (congr (congrArg Instr.brnz (guardI _ _ _)) (fmtI_back _ _ _))
theorem Fields.brv (g : Guard) (f : FmtB) : Fields.Statement (.brv g f) := by
  intro x h _
  cases h
  refine (enc_row1 _ _ _ (by decide)).trans ?_
  exact congrArg some (congr (congrArg Instr.brv (guardB _ _ _)) (fmtB_back _ _ _))
theorem Fields.call (g : Guard) (f : FmtI) : Fields.Statement (.call g f) := by
  intro x h _
  cases h
  refine (enc_row1 _ _ _ (by decide)).trans ?_
  exact congrArg some (congr (congrArg Instr.call (guardI _ _ _)) (fmtI_back _ _ _))
theorem Fields.ret (g : Guard) (f : FmtT) : Fields.Statement (.ret g f) := by
  intro x h _
  cases h
  refine (enc_row1 _ _ _ (by decide)).trans ?_
  exact congrArg some (congr (congrArg Instr.ret (guardT _ _ _)) (fmtT_back _ _ _))
theorem Fields.rejoin (g : Guard) (f : FmtB) : Fields.Statement (.rejoin g f) := by
  intro x h _
  cases h
  refine (enc_row1 _ _ _ (by decide)).trans ?_
  exact congrArg some (congr (congrArg Instr.rejoin (guardB _ _ _)) (fmtB_back _ _ _))
theorem Fields.jmset (g : Guard) (f : FmtT) : Fields.Statement (.jmset g f) := by
  intro x h w
  cases h
  refine (enc_row1 _ _ _ (by decide)).trans ?_
  have e := mod_low f.mod 0 (by
    have w' : shapeOk g f _ = true := w
    simp only [shapeOk, Bool.and_eq_true, decide_eq_true_eq] at w'
    simp only [w'])
  show some (if (encT _ g f).extractLsb' 0 2 = 1#2 then Instr.jmadd (guardOf (encT _ g f)) (fmtTOf (encT _ g f)) else
    if (encT _ g f).extractLsb' 0 2 = 2#2 then Instr.jmdel (guardOf (encT _ g f)) (fmtTOf (encT _ g f)) else
      Instr.jmset (guardOf (encT _ g f)) (fmtTOf (encT _ g f))) = _
  rw [fmtT_mod, e, guardT, fmtT_back]
  rfl
theorem Fields.jmadd (g : Guard) (f : FmtT) : Fields.Statement (.jmadd g f) := by
  intro x h w
  cases h
  refine (enc_row1 _ _ _ (by decide)).trans ?_
  have e := mod_low f.mod 1 (by
    have w' : shapeOk g f _ = true := w
    simp only [shapeOk, Bool.and_eq_true, decide_eq_true_eq] at w'
    simp only [w'])
  show some (if (encT _ g f).extractLsb' 0 2 = 1#2 then Instr.jmadd (guardOf (encT _ g f)) (fmtTOf (encT _ g f)) else
    if (encT _ g f).extractLsb' 0 2 = 2#2 then Instr.jmdel (guardOf (encT _ g f)) (fmtTOf (encT _ g f)) else
      Instr.jmset (guardOf (encT _ g f)) (fmtTOf (encT _ g f))) = _
  rw [fmtT_mod, e, guardT, fmtT_back]
  rfl
theorem Fields.jmdel (g : Guard) (f : FmtT) : Fields.Statement (.jmdel g f) := by
  intro x h w
  cases h
  refine (enc_row1 _ _ _ (by decide)).trans ?_
  have e := mod_low f.mod 2 (by
    have w' : shapeOk g f _ = true := w
    simp only [shapeOk, Bool.and_eq_true, decide_eq_true_eq] at w'
    simp only [w'])
  show some (if (encT _ g f).extractLsb' 0 2 = 1#2 then Instr.jmadd (guardOf (encT _ g f)) (fmtTOf (encT _ g f)) else
    if (encT _ g f).extractLsb' 0 2 = 2#2 then Instr.jmdel (guardOf (encT _ g f)) (fmtTOf (encT _ g f)) else
      Instr.jmset (guardOf (encT _ g f)) (fmtTOf (encT _ g f))) = _
  rw [fmtT_mod, e, guardT, fmtT_back]
  rfl
theorem Fields.jmqry (g : Guard) (f : FmtT) : Fields.Statement (.jmqry g f) := by
  intro x h _
  cases h
  refine (enc_row1 _ _ _ (by decide)).trans ?_
  exact congrArg some (congr (congrArg Instr.jmqry (guardT _ _ _)) (fmtT_back _ _ _))
theorem Fields.exit (g : Guard) (f : FmtT) : Fields.Statement (.exit g f) := by
  intro x h _
  cases h
  refine (enc_row1 _ _ _ (by decide)).trans ?_
  exact congrArg some (congr (congrArg Instr.exit (guardT _ _ _)) (fmtT_back _ _ _))
theorem Fields.yield (g : Guard) (f : FmtT) : Fields.Statement (.yield g f) := by
  intro x h _
  cases h
  refine (enc_row1 _ _ _ (by decide)).trans ?_
  exact congrArg some (congr (congrArg Instr.yield (guardT _ _ _)) (fmtT_back _ _ _))
theorem Fields.vmov (g : Guard) (f : FmtT) : Fields.Statement (.vmov g f) := by
  intro x h _
  cases h
  refine (enc_row2 _ _ _ (by decide)).trans ?_
  exact congrArg some (congr (congrArg Instr.vmov (guardT _ _ _)) (fmtT_back _ _ _))
theorem Fields.vmovi (g : Guard) (f : FmtI) : Fields.Statement (.vmovi g f) := by
  intro x h _
  cases h
  refine (enc_row2 _ _ _ (by decide)).trans ?_
  exact congrArg some (congr (congrArg Instr.vmovi (guardI _ _ _)) (fmtI_back _ _ _))
theorem Fields.vadd (g : Guard) (f : FmtT) : Fields.Statement (.vadd g f) := by
  intro x h _
  cases h
  refine (enc_row2 _ _ _ (by decide)).trans ?_
  exact congrArg some (congr (congrArg Instr.vadd (guardT _ _ _)) (fmtT_back _ _ _))
theorem Fields.vaddc (g : Guard) (f : FmtT) : Fields.Statement (.vaddc g f) := by
  intro x h _
  cases h
  refine (enc_row2 _ _ _ (by decide)).trans ?_
  exact congrArg some (congr (congrArg Instr.vaddc (guardT _ _ _)) (fmtT_back _ _ _))
theorem Fields.vsub (g : Guard) (f : FmtT) : Fields.Statement (.vsub g f) := by
  intro x h _
  cases h
  refine (enc_row2 _ _ _ (by decide)).trans ?_
  exact congrArg some (congr (congrArg Instr.vsub (guardT _ _ _)) (fmtT_back _ _ _))
theorem Fields.vsubb (g : Guard) (f : FmtT) : Fields.Statement (.vsubb g f) := by
  intro x h _
  cases h
  refine (enc_row2 _ _ _ (by decide)).trans ?_
  exact congrArg some (congr (congrArg Instr.vsubb (guardT _ _ _)) (fmtT_back _ _ _))
theorem Fields.vmul (g : Guard) (f : FmtT) : Fields.Statement (.vmul g f) := by
  intro x h _
  cases h
  refine (enc_row2 _ _ _ (by decide)).trans ?_
  exact congrArg some (congr (congrArg Instr.vmul (guardT _ _ _)) (fmtT_back _ _ _))
theorem Fields.vmulh (g : Guard) (f : FmtT) : Fields.Statement (.vmulh g f) := by
  intro x h _
  cases h
  refine (enc_row2 _ _ _ (by decide)).trans ?_
  exact congrArg some (congr (congrArg Instr.vmulh (guardT _ _ _)) (fmtT_back _ _ _))
theorem Fields.vmad (g : Guard) (f : FmtT) : Fields.Statement (.vmad g f) := by
  intro x h _
  cases h
  refine (enc_row2 _ _ _ (by decide)).trans ?_
  exact congrArg some (congr (congrArg Instr.vmad (guardT _ _ _)) (fmtT_back _ _ _))
theorem Fields.vmadw (g : Guard) (f : FmtT) : Fields.Statement (.vmadw g f) := by
  intro x h _
  cases h
  refine (enc_row2 _ _ _ (by decide)).trans ?_
  exact congrArg some (congr (congrArg Instr.vmadw (guardT _ _ _)) (fmtT_back _ _ _))
theorem Fields.vand (g : Guard) (f : FmtT) : Fields.Statement (.vand g f) := by
  intro x h _
  cases h
  refine (enc_row2 _ _ _ (by decide)).trans ?_
  exact congrArg some (congr (congrArg Instr.vand (guardT _ _ _)) (fmtT_back _ _ _))
theorem Fields.vor (g : Guard) (f : FmtT) : Fields.Statement (.vor g f) := by
  intro x h _
  cases h
  refine (enc_row2 _ _ _ (by decide)).trans ?_
  exact congrArg some (congr (congrArg Instr.vor (guardT _ _ _)) (fmtT_back _ _ _))
theorem Fields.vxor (g : Guard) (f : FmtT) : Fields.Statement (.vxor g f) := by
  intro x h _
  cases h
  refine (enc_row2 _ _ _ (by decide)).trans ?_
  exact congrArg some (congr (congrArg Instr.vxor (guardT _ _ _)) (fmtT_back _ _ _))
theorem Fields.vnot (g : Guard) (f : FmtT) : Fields.Statement (.vnot g f) := by
  intro x h _
  cases h
  refine (enc_row2 _ _ _ (by decide)).trans ?_
  exact congrArg some (congr (congrArg Instr.vnot (guardT _ _ _)) (fmtT_back _ _ _))
theorem Fields.vandn (g : Guard) (f : FmtT) : Fields.Statement (.vandn g f) := by
  intro x h _
  cases h
  refine (enc_row2 _ _ _ (by decide)).trans ?_
  exact congrArg some (congr (congrArg Instr.vandn (guardT _ _ _)) (fmtT_back _ _ _))
theorem Fields.vshl (g : Guard) (f : FmtT) : Fields.Statement (.vshl g f) := by
  intro x h _
  cases h
  refine (enc_row2 _ _ _ (by decide)).trans ?_
  exact congrArg some (congr (congrArg Instr.vshl (guardT _ _ _)) (fmtT_back _ _ _))
theorem Fields.vshr (g : Guard) (f : FmtT) : Fields.Statement (.vshr g f) := by
  intro x h _
  cases h
  refine (enc_row3 _ _ _ (by decide)).trans ?_
  exact congrArg some (congr (congrArg Instr.vshr (guardT _ _ _)) (fmtT_back _ _ _))
theorem Fields.vsra (g : Guard) (f : FmtT) : Fields.Statement (.vsra g f) := by
  intro x h _
  cases h
  refine (enc_row3 _ _ _ (by decide)).trans ?_
  exact congrArg some (congr (congrArg Instr.vsra (guardT _ _ _)) (fmtT_back _ _ _))
theorem Fields.vrot (g : Guard) (f : FmtT) : Fields.Statement (.vrot g f) := by
  intro x h _
  cases h
  refine (enc_row3 _ _ _ (by decide)).trans ?_
  exact congrArg some (congr (congrArg Instr.vrot (guardT _ _ _)) (fmtT_back _ _ _))
theorem Fields.vmin (g : Guard) (f : FmtT) : Fields.Statement (.vmin g f) := by
  intro x h _
  cases h
  refine (enc_row3 _ _ _ (by decide)).trans ?_
  exact congrArg some (congr (congrArg Instr.vmin (guardT _ _ _)) (fmtT_back _ _ _))
theorem Fields.vmax (g : Guard) (f : FmtT) : Fields.Statement (.vmax g f) := by
  intro x h _
  cases h
  refine (enc_row3 _ _ _ (by decide)).trans ?_
  exact congrArg some (congr (congrArg Instr.vmax (guardT _ _ _)) (fmtT_back _ _ _))
theorem Fields.vabs (g : Guard) (f : FmtT) : Fields.Statement (.vabs g f) := by
  intro x h _
  cases h
  refine (enc_row3 _ _ _ (by decide)).trans ?_
  exact congrArg some (congr (congrArg Instr.vabs (guardT _ _ _)) (fmtT_back _ _ _))
theorem Fields.vneg (g : Guard) (f : FmtT) : Fields.Statement (.vneg g f) := by
  intro x h _
  cases h
  refine (enc_row3 _ _ _ (by decide)).trans ?_
  exact congrArg some (congr (congrArg Instr.vneg (guardT _ _ _)) (fmtT_back _ _ _))
theorem Fields.vclz (g : Guard) (f : FmtT) : Fields.Statement (.vclz g f) := by
  intro x h _
  cases h
  refine (enc_row3 _ _ _ (by decide)).trans ?_
  exact congrArg some (congr (congrArg Instr.vclz (guardT _ _ _)) (fmtT_back _ _ _))
theorem Fields.vpopc (g : Guard) (f : FmtT) : Fields.Statement (.vpopc g f) := by
  intro x h _
  cases h
  refine (enc_row3 _ _ _ (by decide)).trans ?_
  exact congrArg some (congr (congrArg Instr.vpopc (guardT _ _ _)) (fmtT_back _ _ _))
theorem Fields.vbrev (g : Guard) (f : FmtT) : Fields.Statement (.vbrev g f) := by
  intro x h _
  cases h
  refine (enc_row3 _ _ _ (by decide)).trans ?_
  exact congrArg some (congr (congrArg Instr.vbrev (guardT _ _ _)) (fmtT_back _ _ _))
theorem Fields.vbfe (g : Guard) (f : FmtT) : Fields.Statement (.vbfe g f) := by
  intro x h _
  cases h
  refine (enc_row3 _ _ _ (by decide)).trans ?_
  exact congrArg some (congr (congrArg Instr.vbfe (guardT _ _ _)) (fmtT_back _ _ _))
theorem Fields.vbfi (g : Guard) (f : FmtT) : Fields.Statement (.vbfi g f) := by
  intro x h _
  cases h
  refine (enc_row3 _ _ _ (by decide)).trans ?_
  exact congrArg some (congr (congrArg Instr.vbfi (guardT _ _ _)) (fmtT_back _ _ _))
theorem Fields.vperm4 (g : Guard) (f : FmtT) : Fields.Statement (.vperm4 g f) := by
  intro x h _
  cases h
  refine (enc_row3 _ _ _ (by decide)).trans ?_
  exact congrArg some (congr (congrArg Instr.vperm4 (guardT _ _ _)) (fmtT_back _ _ _))
theorem Fields.vcmp (g : Guard) (f : FmtT) : Fields.Statement (.vcmp g f) := by
  intro x h _
  cases h
  refine (enc_row3 _ _ _ (by decide)).trans ?_
  exact congrArg some (congr (congrArg Instr.vcmp (guardT _ _ _)) (fmtT_back _ _ _))
theorem Fields.vsel (g : Guard) (f : FmtT) : Fields.Statement (.vsel g f) := by
  intro x h _
  cases h
  refine (enc_row3 _ _ _ (by decide)).trans ?_
  exact congrArg some (congr (congrArg Instr.vsel (guardT _ _ _)) (fmtT_back _ _ _))
theorem Fields.pand (g : Guard) (f : FmtT) : Fields.Statement (.pand g f) := by
  intro x h _
  cases h
  refine (enc_row4 _ _ _ (by decide)).trans ?_
  exact congrArg some (congr (congrArg Instr.pand (guardT _ _ _)) (fmtT_back _ _ _))
theorem Fields.por (g : Guard) (f : FmtT) : Fields.Statement (.por g f) := by
  intro x h _
  cases h
  refine (enc_row4 _ _ _ (by decide)).trans ?_
  exact congrArg some (congr (congrArg Instr.por (guardT _ _ _)) (fmtT_back _ _ _))
theorem Fields.pxor (g : Guard) (f : FmtT) : Fields.Statement (.pxor g f) := by
  intro x h _
  cases h
  refine (enc_row4 _ _ _ (by decide)).trans ?_
  exact congrArg some (congr (congrArg Instr.pxor (guardT _ _ _)) (fmtT_back _ _ _))
theorem Fields.pnot (g : Guard) (f : FmtT) : Fields.Statement (.pnot g f) := by
  intro x h _
  cases h
  refine (enc_row4 _ _ _ (by decide)).trans ?_
  exact congrArg some (congr (congrArg Instr.pnot (guardT _ _ _)) (fmtT_back _ _ _))
theorem Fields.xquad (g : Guard) (f : FmtT) : Fields.Statement (.xquad g f) := by
  intro x h _
  cases h
  refine (enc_row4 _ _ _ (by decide)).trans ?_
  exact congrArg some (congr (congrArg Instr.xquad (guardT _ _ _)) (fmtT_back _ _ _))
theorem Fields.xlane (g : Guard) (f : FmtT) : Fields.Statement (.xlane g f) := by
  intro x h _
  cases h
  refine (enc_row4 _ _ _ (by decide)).trans ?_
  exact congrArg some (congr (congrArg Instr.xlane (guardT _ _ _)) (fmtT_back _ _ _))
theorem Fields.xbcast (g : Guard) (f : FmtT) : Fields.Statement (.xbcast g f) := by
  intro x h _
  cases h
  refine (enc_row4 _ _ _ (by decide)).trans ?_
  exact congrArg some (congr (congrArg Instr.xbcast (guardT _ _ _)) (fmtT_back _ _ _))
theorem Fields.xread (g : Guard) (f : FmtT) : Fields.Statement (.xread g f) := by
  intro x h _
  cases h
  refine (enc_row4 _ _ _ (by decide)).trans ?_
  exact congrArg some (congr (congrArg Instr.xread (guardT _ _ _)) (fmtT_back _ _ _))
theorem Fields.xred (g : Guard) (f : FmtT) : Fields.Statement (.xred g f) := by
  intro x h _
  cases h
  refine (enc_row4 _ _ _ (by decide)).trans ?_
  exact congrArg some (congr (congrArg Instr.xred (guardT _ _ _)) (fmtT_back _ _ _))
theorem Fields.xscan (g : Guard) (f : FmtT) : Fields.Statement (.xscan g f) := by
  intro x h _
  cases h
  refine (enc_row4 _ _ _ (by decide)).trans ?_
  exact congrArg some (congr (congrArg Instr.xscan (guardT _ _ _)) (fmtT_back _ _ _))
theorem Fields.xvote (g : Guard) (f : FmtT) : Fields.Statement (.xvote g f) := by
  intro x h _
  cases h
  refine (enc_row4 _ _ _ (by decide)).trans ?_
  exact congrArg some (congr (congrArg Instr.xvote (guardT _ _ _)) (fmtT_back _ _ _))
theorem Fields.xmatch (g : Guard) (f : FmtT) : Fields.Statement (.xmatch g f) := by
  intro x h _
  cases h
  refine (enc_row4 _ _ _ (by decide)).trans ?_
  exact congrArg some (congr (congrArg Instr.xmatch (guardT _ _ _)) (fmtT_back _ _ _))
theorem Fields.fadd (g : Guard) (f : FmtT) : Fields.Statement (.fadd g f) := by
  intro x h _
  cases h
  refine (enc_row5 _ _ _ (by decide)).trans ?_
  exact congrArg some (congr (congrArg Instr.fadd (guardT _ _ _)) (fmtT_back _ _ _))
theorem Fields.fsub (g : Guard) (f : FmtT) : Fields.Statement (.fsub g f) := by
  intro x h _
  cases h
  refine (enc_row5 _ _ _ (by decide)).trans ?_
  exact congrArg some (congr (congrArg Instr.fsub (guardT _ _ _)) (fmtT_back _ _ _))
theorem Fields.fmul (g : Guard) (f : FmtT) : Fields.Statement (.fmul g f) := by
  intro x h _
  cases h
  refine (enc_row5 _ _ _ (by decide)).trans ?_
  exact congrArg some (congr (congrArg Instr.fmul (guardT _ _ _)) (fmtT_back _ _ _))
theorem Fields.ffma (g : Guard) (f : FmtT) : Fields.Statement (.ffma g f) := by
  intro x h _
  cases h
  refine (enc_row5 _ _ _ (by decide)).trans ?_
  exact congrArg some (congr (congrArg Instr.ffma (guardT _ _ _)) (fmtT_back _ _ _))
theorem Fields.fmin (g : Guard) (f : FmtT) : Fields.Statement (.fmin g f) := by
  intro x h _
  cases h
  refine (enc_row5 _ _ _ (by decide)).trans ?_
  exact congrArg some (congr (congrArg Instr.fmin (guardT _ _ _)) (fmtT_back _ _ _))
theorem Fields.fmax (g : Guard) (f : FmtT) : Fields.Statement (.fmax g f) := by
  intro x h _
  cases h
  refine (enc_row5 _ _ _ (by decide)).trans ?_
  exact congrArg some (congr (congrArg Instr.fmax (guardT _ _ _)) (fmtT_back _ _ _))
theorem Fields.fcmp (g : Guard) (f : FmtT) : Fields.Statement (.fcmp g f) := by
  intro x h _
  cases h
  refine (enc_row5 _ _ _ (by decide)).trans ?_
  exact congrArg some (congr (congrArg Instr.fcmp (guardT _ _ _)) (fmtT_back _ _ _))
theorem Fields.frcp (g : Guard) (f : FmtT) : Fields.Statement (.frcp g f) := by
  intro x h _
  cases h
  refine (enc_row5 _ _ _ (by decide)).trans ?_
  exact congrArg some (congr (congrArg Instr.frcp (guardT _ _ _)) (fmtT_back _ _ _))
theorem Fields.frsq (g : Guard) (f : FmtT) : Fields.Statement (.frsq g f) := by
  intro x h _
  cases h
  refine (enc_row5 _ _ _ (by decide)).trans ?_
  exact congrArg some (congr (congrArg Instr.frsq (guardT _ _ _)) (fmtT_back _ _ _))
theorem Fields.fsqrt (g : Guard) (f : FmtT) : Fields.Statement (.fsqrt g f) := by
  intro x h _
  cases h
  refine (enc_row5 _ _ _ (by decide)).trans ?_
  exact congrArg some (congr (congrArg Instr.fsqrt (guardT _ _ _)) (fmtT_back _ _ _))
theorem Fields.fdiv (g : Guard) (f : FmtT) : Fields.Statement (.fdiv g f) := by
  intro x h _
  cases h
  refine (enc_row5 _ _ _ (by decide)).trans ?_
  exact congrArg some (congr (congrArg Instr.fdiv (guardT _ _ _)) (fmtT_back _ _ _))
theorem Fields.fexp2 (g : Guard) (f : FmtT) : Fields.Statement (.fexp2 g f) := by
  intro x h _
  cases h
  refine (enc_row5 _ _ _ (by decide)).trans ?_
  exact congrArg some (congr (congrArg Instr.fexp2 (guardT _ _ _)) (fmtT_back _ _ _))
theorem Fields.flog2 (g : Guard) (f : FmtT) : Fields.Statement (.flog2 g f) := by
  intro x h _
  cases h
  refine (enc_row5 _ _ _ (by decide)).trans ?_
  exact congrArg some (congr (congrArg Instr.flog2 (guardT _ _ _)) (fmtT_back _ _ _))
theorem Fields.fsin (g : Guard) (f : FmtT) : Fields.Statement (.fsin g f) := by
  intro x h _
  cases h
  refine (enc_row5 _ _ _ (by decide)).trans ?_
  exact congrArg some (congr (congrArg Instr.fsin (guardT _ _ _)) (fmtT_back _ _ _))
theorem Fields.fcos (g : Guard) (f : FmtT) : Fields.Statement (.fcos g f) := by
  intro x h _
  cases h
  refine (enc_row5 _ _ _ (by decide)).trans ?_
  exact congrArg some (congr (congrArg Instr.fcos (guardT _ _ _)) (fmtT_back _ _ _))
theorem Fields.ftanh (g : Guard) (f : FmtT) : Fields.Statement (.ftanh g f) := by
  intro x h _
  cases h
  refine (enc_row5 _ _ _ (by decide)).trans ?_
  exact congrArg some (congr (congrArg Instr.ftanh (guardT _ _ _)) (fmtT_back _ _ _))
theorem Fields.ffrc (g : Guard) (f : FmtT) : Fields.Statement (.ffrc g f) := by
  intro x h _
  cases h
  refine (enc_row6 _ _ _ (by decide)).trans ?_
  exact congrArg some (congr (congrArg Instr.ffrc (guardT _ _ _)) (fmtT_back _ _ _))
theorem Fields.frnd (g : Guard) (f : FmtT) : Fields.Statement (.frnd g f) := by
  intro x h _
  cases h
  refine (enc_row6 _ _ _ (by decide)).trans ?_
  exact congrArg some (congr (congrArg Instr.frnd (guardT _ _ _)) (fmtT_back _ _ _))
theorem Fields.fclass (g : Guard) (f : FmtT) : Fields.Statement (.fclass g f) := by
  intro x h _
  cases h
  refine (enc_row6 _ _ _ (by decide)).trans ?_
  exact congrArg some (congr (congrArg Instr.fclass (guardT _ _ _)) (fmtT_back _ _ _))
theorem Fields.fscale (g : Guard) (f : FmtT) : Fields.Statement (.fscale g f) := by
  intro x h _
  cases h
  refine (enc_row6 _ _ _ (by decide)).trans ?_
  exact congrArg some (congr (congrArg Instr.fscale (guardT _ _ _)) (fmtT_back _ _ _))
theorem Fields.dadd (g : Guard) (f : FmtT) : Fields.Statement (.dadd g f) := by
  intro x h _
  cases h
  refine (enc_row6 _ _ _ (by decide)).trans ?_
  exact congrArg some (congr (congrArg Instr.dadd (guardT _ _ _)) (fmtT_back _ _ _))
theorem Fields.dsub (g : Guard) (f : FmtT) : Fields.Statement (.dsub g f) := by
  intro x h _
  cases h
  refine (enc_row6 _ _ _ (by decide)).trans ?_
  exact congrArg some (congr (congrArg Instr.dsub (guardT _ _ _)) (fmtT_back _ _ _))
theorem Fields.dmul (g : Guard) (f : FmtT) : Fields.Statement (.dmul g f) := by
  intro x h _
  cases h
  refine (enc_row6 _ _ _ (by decide)).trans ?_
  exact congrArg some (congr (congrArg Instr.dmul (guardT _ _ _)) (fmtT_back _ _ _))
theorem Fields.dfma (g : Guard) (f : FmtT) : Fields.Statement (.dfma g f) := by
  intro x h _
  cases h
  refine (enc_row6 _ _ _ (by decide)).trans ?_
  exact congrArg some (congr (congrArg Instr.dfma (guardT _ _ _)) (fmtT_back _ _ _))
theorem Fields.dmin (g : Guard) (f : FmtT) : Fields.Statement (.dmin g f) := by
  intro x h _
  cases h
  refine (enc_row6 _ _ _ (by decide)).trans ?_
  exact congrArg some (congr (congrArg Instr.dmin (guardT _ _ _)) (fmtT_back _ _ _))
theorem Fields.dmax (g : Guard) (f : FmtT) : Fields.Statement (.dmax g f) := by
  intro x h _
  cases h
  refine (enc_row6 _ _ _ (by decide)).trans ?_
  exact congrArg some (congr (congrArg Instr.dmax (guardT _ _ _)) (fmtT_back _ _ _))
theorem Fields.dcmp (g : Guard) (f : FmtT) : Fields.Statement (.dcmp g f) := by
  intro x h _
  cases h
  refine (enc_row6 _ _ _ (by decide)).trans ?_
  exact congrArg some (congr (congrArg Instr.dcmp (guardT _ _ _)) (fmtT_back _ _ _))
theorem Fields.ddiv (g : Guard) (f : FmtT) : Fields.Statement (.ddiv g f) := by
  intro x h _
  cases h
  refine (enc_row6 _ _ _ (by decide)).trans ?_
  exact congrArg some (congr (congrArg Instr.ddiv (guardT _ _ _)) (fmtT_back _ _ _))
theorem Fields.dsqrt (g : Guard) (f : FmtT) : Fields.Statement (.dsqrt g f) := by
  intro x h _
  cases h
  refine (enc_row7 _ _ _ (by decide)).trans ?_
  exact congrArg some (congr (congrArg Instr.dsqrt (guardT _ _ _)) (fmtT_back _ _ _))
theorem Fields.hadd2 (g : Guard) (f : FmtT) : Fields.Statement (.hadd2 g f) := by
  intro x h _
  cases h
  refine (enc_row7 _ _ _ (by decide)).trans ?_
  exact congrArg some (congr (congrArg Instr.hadd2 (guardT _ _ _)) (fmtT_back _ _ _))
theorem Fields.hmul2 (g : Guard) (f : FmtT) : Fields.Statement (.hmul2 g f) := by
  intro x h _
  cases h
  refine (enc_row7 _ _ _ (by decide)).trans ?_
  exact congrArg some (congr (congrArg Instr.hmul2 (guardT _ _ _)) (fmtT_back _ _ _))
theorem Fields.hfma2 (g : Guard) (f : FmtT) : Fields.Statement (.hfma2 g f) := by
  intro x h _
  cases h
  refine (enc_row7 _ _ _ (by decide)).trans ?_
  exact congrArg some (congr (congrArg Instr.hfma2 (guardT _ _ _)) (fmtT_back _ _ _))
theorem Fields.cvtff (g : Guard) (f : FmtT) : Fields.Statement (.cvtff g f) := by
  intro x h _
  cases h
  refine (enc_row7 _ _ _ (by decide)).trans ?_
  exact congrArg some (congr (congrArg Instr.cvtff (guardT _ _ _)) (fmtT_back _ _ _))
theorem Fields.cvtfi (g : Guard) (f : FmtT) : Fields.Statement (.cvtfi g f) := by
  intro x h _
  cases h
  refine (enc_row7 _ _ _ (by decide)).trans ?_
  exact congrArg some (congr (congrArg Instr.cvtfi (guardT _ _ _)) (fmtT_back _ _ _))
theorem Fields.cvtif (g : Guard) (f : FmtT) : Fields.Statement (.cvtif g f) := by
  intro x h _
  cases h
  refine (enc_row7 _ _ _ (by decide)).trans ?_
  exact congrArg some (congr (congrArg Instr.cvtif (guardT _ _ _)) (fmtT_back _ _ _))
theorem Fields.cvtq (g : Guard) (f : FmtT) : Fields.Statement (.cvtq g f) := by
  intro x h _
  cases h
  refine (enc_row7 _ _ _ (by decide)).trans ?_
  exact congrArg some (congr (congrArg Instr.cvtq (guardT _ _ _)) (fmtT_back _ _ _))
theorem Fields.cvtdq (g : Guard) (f : FmtT) : Fields.Statement (.cvtdq g f) := by
  intro x h _
  cases h
  refine (enc_row7 _ _ _ (by decide)).trans ?_
  exact congrArg some (congr (congrArg Instr.cvtdq (guardT _ _ _)) (fmtT_back _ _ _))
theorem Fields.ld (g : Guard) (f : FmtM) : Fields.Statement (.ld g f) := by
  intro x h _
  cases h
  refine (enc_row8 _ _ _ (by decide)).trans ?_
  exact congrArg some (congr (congrArg Instr.ld (guardM _ _ _)) (fmtM_back _ _ _))
theorem Fields.st (g : Guard) (f : FmtM) : Fields.Statement (.st g f) := by
  intro x h _
  cases h
  refine (enc_row8 _ _ _ (by decide)).trans ?_
  exact congrArg some (congr (congrArg Instr.st (guardM _ _ _)) (fmtM_back _ _ _))
theorem Fields.lds (g : Guard) (f : FmtM) : Fields.Statement (.lds g f) := by
  intro x h _
  cases h
  refine (enc_row8 _ _ _ (by decide)).trans ?_
  exact congrArg some (congr (congrArg Instr.lds (guardM _ _ _)) (fmtM_back _ _ _))
theorem Fields.sts (g : Guard) (f : FmtM) : Fields.Statement (.sts g f) := by
  intro x h _
  cases h
  refine (enc_row8 _ _ _ (by decide)).trans ?_
  exact congrArg some (congr (congrArg Instr.sts (guardM _ _ _)) (fmtM_back _ _ _))
theorem Fields.ldsp (g : Guard) (f : FmtM) : Fields.Statement (.ldsp g f) := by
  intro x h _
  cases h
  refine (enc_row8 _ _ _ (by decide)).trans ?_
  exact congrArg some (congr (congrArg Instr.ldsp (guardM _ _ _)) (fmtM_back _ _ _))
theorem Fields.stsp (g : Guard) (f : FmtM) : Fields.Statement (.stsp g f) := by
  intro x h _
  cases h
  refine (enc_row8 _ _ _ (by decide)).trans ?_
  exact congrArg some (congr (congrArg Instr.stsp (guardM _ _ _)) (fmtM_back _ _ _))
theorem Fields.ldc (g : Guard) (f : FmtM) : Fields.Statement (.ldc g f) := by
  intro x h _
  cases h
  refine (enc_row8 _ _ _ (by decide)).trans ?_
  exact congrArg some (congr (congrArg Instr.ldc (guardM _ _ _)) (fmtM_back _ _ _))
theorem Fields.hborx (g : Guard) (f : FmtT) : Fields.Statement (.hborx g f) := by
  intro x h _
  cases h
  refine (enc_row8 _ _ _ (by decide)).trans ?_
  exact congrArg some (congr (congrArg Instr.hborx (guardT _ _ _)) (fmtT_back _ _ _))
theorem Fields.hbors (g : Guard) (f : FmtT) : Fields.Statement (.hbors g f) := by
  intro x h _
  cases h
  refine (enc_row8 _ _ _ (by decide)).trans ?_
  exact congrArg some (congr (congrArg Instr.hbors (guardT _ _ _)) (fmtT_back _ _ _))
theorem Fields.hborc (g : Guard) (f : FmtT) : Fields.Statement (.hborc g f) := by
  intro x h _
  cases h
  refine (enc_row8 _ _ _ (by decide)).trans ?_
  exact congrArg some (congr (congrArg Instr.hborc (guardT _ _ _)) (fmtT_back _ _ _))
theorem Fields.hreb (g : Guard) (f : FmtT) : Fields.Statement (.hreb g f) := by
  intro x h _
  cases h
  refine (enc_row8 _ _ _ (by decide)).trans ?_
  exact congrArg some (congr (congrArg Instr.hreb (guardT _ _ _)) (fmtT_back _ _ _))
theorem Fields.hsplit (g : Guard) (f : FmtT) : Fields.Statement (.hsplit g f) := by
  intro x h _
  cases h
  refine (enc_row8 _ _ _ (by decide)).trans ?_
  exact congrArg some (congr (congrArg Instr.hsplit (guardT _ _ _)) (fmtT_back _ _ _))
theorem Fields.hmerge (g : Guard) (f : FmtT) : Fields.Statement (.hmerge g f) := by
  intro x h _
  cases h
  refine (enc_row8 _ _ _ (by decide)).trans ?_
  exact congrArg some (congr (congrArg Instr.hmerge (guardT _ _ _)) (fmtT_back _ _ _))
theorem Fields.hret (g : Guard) (f : FmtT) : Fields.Statement (.hret g f) := by
  intro x h _
  cases h
  refine (enc_row8 _ _ _ (by decide)).trans ?_
  exact congrArg some (congr (congrArg Instr.hret (guardT _ _ _)) (fmtT_back _ _ _))
theorem Fields.hgive (g : Guard) (f : FmtT) : Fields.Statement (.hgive g f) := by
  intro x h _
  cases h
  refine (enc_row8 _ _ _ (by decide)).trans ?_
  exact congrArg some (congr (congrArg Instr.hgive (guardT _ _ _)) (fmtT_back _ _ _))
theorem Fields.hqry (g : Guard) (f : FmtT) : Fields.Statement (.hqry g f) := by
  intro x h _
  cases h
  refine (enc_row9 _ _ _ (by decide)).trans ?_
  exact congrArg some (congr (congrArg Instr.hqry (guardT _ _ _)) (fmtT_back _ _ _))
theorem Fields.hankOpDeferred (n : Nat) : Fields.Statement (.hankOpDeferred n) := by intro x h _; cases h
theorem Fields.atom (g : Guard) (f : FmtM) : Fields.Statement (.atom g f) := by
  intro x h _
  cases h
  refine (enc_row9 _ _ _ (by decide)).trans ?_
  exact congrArg some (congr (congrArg Instr.atom (guardM _ _ _)) (fmtM_back _ _ _))
theorem Fields.atomcas (g : Guard) (f : FmtM) : Fields.Statement (.atomcas g f) := by
  intro x h _
  cases h
  refine (enc_row9 _ _ _ (by decide)).trans ?_
  exact congrArg some (congr (congrArg Instr.atomcas (guardM _ _ _)) (fmtM_back _ _ _))
theorem Fields.red (g : Guard) (f : FmtM) : Fields.Statement (.red g f) := by
  intro x h _
  cases h
  refine (enc_row9 _ _ _ (by decide)).trans ?_
  exact congrArg some (congr (congrArg Instr.red (guardM _ _ _)) (fmtM_back _ _ _))
theorem Fields.waitv (g : Guard) (f : FmtM) : Fields.Statement (.waitv g f) := by
  intro x h _
  cases h
  refine (enc_row9 _ _ _ (by decide)).trans ?_
  exact congrArg some (congr (congrArg Instr.waitv (guardM _ _ _)) (fmtM_back _ _ _))
theorem Fields.fence (g : Guard) (f : FmtT) : Fields.Statement (.fence g f) := by
  intro x h _
  cases h
  refine (enc_row9 _ _ _ (by decide)).trans ?_
  exact congrArg some (congr (congrArg Instr.fence (guardT _ _ _)) (fmtT_back _ _ _))
theorem Fields.clnr (g : Guard) (f : FmtM) : Fields.Statement (.clnr g f) := by
  intro x h _
  cases h
  refine (enc_row9 _ _ _ (by decide)).trans ?_
  exact congrArg some (congr (congrArg Instr.clnr (guardM _ _ _)) (fmtM_back _ _ _))
theorem Fields.invr (g : Guard) (f : FmtM) : Fields.Statement (.invr g f) := by
  intro x h _
  cases h
  refine (enc_row9 _ _ _ (by decide)).trans ?_
  exact congrArg some (congr (congrArg Instr.invr (guardM _ _ _)) (fmtM_back _ _ _))
theorem Fields.bara (g : Guard) (f : FmtT) : Fields.Statement (.bara g f) := by
  intro x h _
  cases h
  refine (enc_row9 _ _ _ (by decide)).trans ?_
  exact congrArg some (congr (congrArg Instr.bara (guardT _ _ _)) (fmtT_back _ _ _))
theorem Fields.barw (g : Guard) (f : FmtT) : Fields.Statement (.barw g f) := by
  intro x h _
  cases h
  refine (enc_row9 _ _ _ (by decide)).trans ?_
  exact congrArg some (congr (congrArg Instr.barw (guardT _ _ _)) (fmtT_back _ _ _))
theorem Fields.acset (g : Guard) (f : FmtT) : Fields.Statement (.acset g f) := by
  intro x h _
  cases h
  refine (enc_row9 _ _ _ (by decide)).trans ?_
  exact congrArg some (congr (congrArg Instr.acset (guardT _ _ _)) (fmtT_back _ _ _))
theorem Fields.acadd (g : Guard) (f : FmtT) : Fields.Statement (.acadd g f) := by
  intro x h _
  cases h
  refine (enc_row9 _ _ _ (by decide)).trans ?_
  exact congrArg some (congr (congrArg Instr.acadd (guardT _ _ _)) (fmtT_back _ _ _))
theorem Fields.acwait (g : Guard) (f : FmtT) : Fields.Statement (.acwait g f) := by
  intro x h _
  cases h
  refine (enc_row9 _ _ _ (by decide)).trans ?_
  exact congrArg some (congr (congrArg Instr.acwait (guardT _ _ _)) (fmtT_back _ _ _))
theorem Fields.qdef (g : Guard) (f : FmtT) : Fields.Statement (.qdef g f) := by
  intro x h _
  cases h
  refine (enc_row9 _ _ _ (by decide)).trans ?_
  exact congrArg some (congr (congrArg Instr.qdef (guardT _ _ _)) (fmtT_back _ _ _))
theorem Fields.qpush (g : Guard) (f : FmtT) : Fields.Statement (.qpush g f) := by
  intro x h _
  cases h
  refine (enc_row9 _ _ _ (by decide)).trans ?_
  exact congrArg some (congr (congrArg Instr.qpush (guardT _ _ _)) (fmtT_back _ _ _))
theorem Fields.qpop (g : Guard) (f : FmtT) : Fields.Statement (.qpop g f) := by
  intro x h _
  cases h
  refine (enc_row9 _ _ _ (by decide)).trans ?_
  exact congrArg some (congr (congrArg Instr.qpop (guardT _ _ _)) (fmtT_back _ _ _))
theorem Fields.qstat (g : Guard) (f : FmtT) : Fields.Statement (.qstat g f) := by
  intro x h _
  cases h
  refine (enc_rowA _ _ _ (by decide)).trans ?_
  exact congrArg some (congr (congrArg Instr.qstat (guardT _ _ _)) (fmtT_back _ _ _))
theorem Fields.rqset (g : Guard) (f : FmtT) : Fields.Statement (.rqset g f) := by
  intro x h _
  cases h
  refine (enc_rowA _ _ _ (by decide)).trans ?_
  exact congrArg some (congr (congrArg Instr.rqset (guardT _ _ _)) (fmtT_back _ _ _))
theorem Fields.rqsetComplete (wg : Nat) (gang : Nat) : Fields.Statement (.rqsetComplete wg gang) := by intro x h _; cases h
theorem Fields.rcfence (g : Guard) (f : FmtT) : Fields.Statement (.rcfence g f) := by
  intro x h _
  cases h
  refine (enc_rowA _ _ _ (by decide)).trans ?_
  exact congrArg some (congr (congrArg Instr.rcfence (guardT _ _ _)) (fmtT_back _ _ _))
theorem Fields.mld (g : Guard) (f : FmtX) : Fields.Statement (.mld g f) := by
  intro x h _
  cases h
  refine (enc_rowA _ _ _ (by decide)).trans ?_
  exact congrArg some (congr (congrArg Instr.mld (guardX _ _ _)) (fmtX_back _ _ _))
theorem Fields.mma (g : Guard) (f : FmtX) : Fields.Statement (.mma g f) := by
  intro x h _
  cases h
  refine (enc_rowA _ _ _ (by decide)).trans ?_
  exact congrArg some (congr (congrArg Instr.mma (guardX _ _ _)) (fmtX_back _ _ _))
theorem Fields.mmat (g : Guard) (f : FmtX) : Fields.Statement (.mmat g f) := by
  intro x h _
  cases h
  refine (enc_rowA _ _ _ (by decide)).trans ?_
  exact congrArg some (congr (congrArg Instr.mmat (guardX _ _ _)) (fmtX_back _ _ _))
theorem Fields.mzero (g : Guard) (f : FmtX) : Fields.Statement (.mzero g f) := by
  intro x h _
  cases h
  refine (enc_rowA _ _ _ (by decide)).trans ?_
  exact congrArg some (congr (congrArg Instr.mzero (guardX _ _ _)) (fmtX_back _ _ _))
theorem Fields.mrd (g : Guard) (f : FmtT) : Fields.Statement (.mrd g f) := by
  intro x h _
  cases h
  refine (enc_rowA _ _ _ (by decide)).trans ?_
  exact congrArg some (congr (congrArg Instr.mrd (guardT _ _ _)) (fmtT_back _ _ _))
theorem Fields.mwr (g : Guard) (f : FmtT) : Fields.Statement (.mwr g f) := by
  intro x h _
  cases h
  refine (enc_rowA _ _ _ (by decide)).trans ?_
  exact congrArg some (congr (congrArg Instr.mwr (guardT _ _ _)) (fmtT_back _ _ _))
theorem Fields.mbatch (g : Guard) (f : FmtT) : Fields.Statement (.mbatch g f) := by
  intro x h _
  cases h
  refine (enc_rowA _ _ _ (by decide)).trans ?_
  exact congrArg some (congr (congrArg Instr.mbatch (guardT _ _ _)) (fmtT_back _ _ _))
theorem Fields.mwait (g : Guard) (f : FmtT) : Fields.Statement (.mwait g f) := by
  intro x h _
  cases h
  refine (enc_rowA _ _ _ (by decide)).trans ?_
  exact congrArg some (congr (congrArg Instr.mwait (guardT _ _ _)) (fmtT_back _ _ _))
theorem Fields.mstat (g : Guard) (f : FmtT) : Fields.Statement (.mstat g f) := by
  intro x h _
  cases h
  refine (enc_rowB _ _ _ (by decide)).trans ?_
  exact congrArg some (congr (congrArg Instr.mstat (guardT _ _ _)) (fmtT_back _ _ _))
theorem Fields.mrel (g : Guard) (f : FmtT) : Fields.Statement (.mrel g f) := by
  intro x h _
  cases h
  refine (enc_rowB _ _ _ (by decide)).trans ?_
  exact congrArg some (congr (congrArg Instr.mrel (guardT _ _ _)) (fmtT_back _ _ _))
theorem Fields.matrixCommandStart (wg : Nat) (n : Nat) (parity : Bool) : Fields.Statement (.matrixCommandStart wg n parity) := by intro x h _; cases h
theorem Fields.matrixCommandComplete (wg : Nat) (n : Nat) : Fields.Statement (.matrixCommandComplete wg n) := by intro x h _; cases h
theorem Fields.mldComplete (wg : Nat) (n : Nat) : Fields.Statement (.mldComplete wg n) := by intro x h _; cases h
theorem Fields.msub (g : Guard) (f : FmtT) : Fields.Statement (.msub g f) := by
  intro x h _
  cases h
  refine (enc_rowC _ _ _ (by decide)).trans ?_
  exact congrArg some (congr (congrArg Instr.msub (guardT _ _ _)) (fmtT_back _ _ _))
theorem Fields.munsub (g : Guard) (f : FmtT) : Fields.Statement (.munsub g f) := by
  intro x h _
  cases h
  refine (enc_rowC _ _ _ (by decide)).trans ?_
  exact congrArg some (congr (congrArg Instr.munsub (guardT _ _ _)) (fmtT_back _ _ _))
theorem Fields.msubq (g : Guard) (f : FmtT) : Fields.Statement (.msubq g f) := by
  intro x h _
  cases h
  refine (enc_rowC _ _ _ (by decide)).trans ?_
  exact congrArg some (congr (congrArg Instr.msubq (guardT _ _ _)) (fmtT_back _ _ _))
theorem Fields.rstat (g : Guard) (f : FmtT) : Fields.Statement (.rstat g f) := by
  intro x h _
  cases h
  refine (enc_rowC _ _ _ (by decide)).trans ?_
  exact congrArg some (congr (congrArg Instr.rstat (guardT _ _ _)) (fmtT_back _ _ _))
theorem Fields.cpy (g : Guard) (f : FmtT) : Fields.Statement (.cpy g f) := by
  intro x h _
  cases h
  refine (enc_rowC _ _ _ (by decide)).trans ?_
  exact congrArg some (congr (congrArg Instr.cpy (guardT _ _ _)) (fmtT_back _ _ _))
theorem Fields.cpyt (g : Guard) (f : FmtT) : Fields.Statement (.cpyt g f) := by
  intro x h _
  cases h
  refine (enc_rowC _ _ _ (by decide)).trans ?_
  exact congrArg some (congr (congrArg Instr.cpyt (guardT _ _ _)) (fmtT_back _ _ _))
theorem Fields.cpyq (g : Guard) (f : FmtT) : Fields.Statement (.cpyq g f) := by
  intro x h _
  cases h
  refine (enc_rowC _ _ _ (by decide)).trans ?_
  exact congrArg some (congr (congrArg Instr.cpyq (guardT _ _ _)) (fmtT_back _ _ _))
theorem Fields.msop (g : Guard) (f : FmtT) : Fields.Statement (.msop g f) := by
  intro x h _
  cases h
  refine (enc_rowC _ _ _ (by decide)).trans ?_
  exact congrArg some (congr (congrArg Instr.msop (guardT _ _ _)) (fmtT_back _ _ _))
theorem Fields.amsend (g : Guard) (f : FmtT) : Fields.Statement (.amsend g f) := by
  intro x h _
  cases h
  refine (enc_rowC _ _ _ (by decide)).trans ?_
  exact congrArg some (congr (congrArg Instr.amsend (guardT _ _ _)) (fmtT_back _ _ _))
theorem Fields.spawn (g : Guard) (f : FmtT) : Fields.Statement (.spawn g f) := by
  intro x h _
  cases h
  refine (enc_rowC _ _ _ (by decide)).trans ?_
  exact congrArg some (congr (congrArg Instr.spawn (guardT _ _ _)) (fmtT_back _ _ _))
theorem Fields.waitch (g : Guard) (f : FmtT) : Fields.Statement (.waitch g f) := by
  intro x h _
  cases h
  refine (enc_rowC _ _ _ (by decide)).trans ?_
  exact congrArg some (congr (congrArg Instr.waitch (guardT _ _ _)) (fmtT_back _ _ _))
theorem Fields.xfer (g : Guard) (f : FmtT) : Fields.Statement (.xfer g f) := by
  intro x h _
  cases h
  refine (enc_rowD _ _ _ (by decide)).trans ?_
  exact congrArg some (congr (congrArg Instr.xfer (guardT _ _ _)) (fmtT_back _ _ _))
theorem Fields.cred (g : Guard) (f : FmtT) : Fields.Statement (.cred g f) := by
  intro x h _
  cases h
  refine (enc_rowD _ _ _ (by decide)).trans ?_
  exact congrArg some (congr (congrArg Instr.cred (guardT _ _ _)) (fmtT_back _ _ _))
theorem Fields.cbcast (g : Guard) (f : FmtT) : Fields.Statement (.cbcast g f) := by
  intro x h _
  cases h
  refine (enc_rowD _ _ _ (by decide)).trans ?_
  exact congrArg some (congr (congrArg Instr.cbcast (guardT _ _ _)) (fmtT_back _ _ _))
theorem Fields.cgath (g : Guard) (f : FmtT) : Fields.Statement (.cgath g f) := by
  intro x h _
  cases h
  refine (enc_rowD _ _ _ (by decide)).trans ?_
  exact congrArg some (congr (congrArg Instr.cgath (guardT _ _ _)) (fmtT_back _ _ _))
theorem Fields.cwait (g : Guard) (f : FmtT) : Fields.Statement (.cwait g f) := by
  intro x h _
  cases h
  refine (enc_rowD _ _ _ (by decide)).trans ?_
  exact congrArg some (congr (congrArg Instr.cwait (guardT _ _ _)) (fmtT_back _ _ _))
theorem Fields.cqry (g : Guard) (f : FmtT) : Fields.Statement (.cqry g f) := by
  intro x h _
  cases h
  refine (enc_rowD _ _ _ (by decide)).trans ?_
  exact congrArg some (congr (congrArg Instr.cqry (guardT _ _ _)) (fmtT_back _ _ _))
theorem Fields.csrr (g : Guard) (f : FmtS) : Fields.Statement (.csrr g f) := by
  intro x h w
  cases h
  refine (enc_rowF _ _ _ (by decide)).trans ?_
  have e : f.csrn ≠ 0xFFFF#16 := by
    intro c
    have w' : staticOk (.csrr g f) = true := w
    simp only [staticOk, c] at w'
    exact absurd w' (by simp [csrListed])
  show some (if (fmtSOf (encS _ g f)).csrn = 0xFFFF#16 then Instr.csrrCtl (guardOf (encS _ g f)) (fmtSOf (encS _ g f)) else
    Instr.csrr (guardOf (encS _ g f)) (fmtSOf (encS _ g f))) = _
  rw [fmtS_back, guardS]
  simp only [e, if_false]
theorem Fields.csrw (g : Guard) (f : FmtS) : Fields.Statement (.csrw g f) := by
  intro x h w
  cases h
  refine (enc_rowF _ _ _ (by decide)).trans ?_
  have e : f.csrn ≠ 0xFFFF#16 := by
    intro c
    have w' : staticOk (.csrw g f) = true := w
    simp only [staticOk, c] at w'
    exact absurd w' (by simp [csrListed])
  show some (if (fmtSOf (encS _ g f)).csrn = 0xFFFF#16 then Instr.csrwCtl (guardOf (encS _ g f)) (fmtSOf (encS _ g f)) else
    Instr.csrw (guardOf (encS _ g f)) (fmtSOf (encS _ g f))) = _
  rw [fmtS_back, guardS]
  simp only [e, if_false]
theorem Fields.csrrCtl (g : Guard) (f : FmtS) : Fields.Statement (.csrrCtl g f) := by
  intro x h w
  cases h
  refine (enc_rowF _ _ _ (by decide)).trans ?_
  have e : f.csrn = 0xFFFF#16 := by
    have w' : (f.csrn == 0xFFFF#16 && f.imm == 1 && f.d.toNat < 64 && f.a.toNat < 64 && g.fe &&& 6 == 0) = true := w
    simp only [Bool.and_eq_true, beq_iff_eq] at w'
    exact w'.1.1.1.1
  show some (if (fmtSOf (encS _ g f)).csrn = 0xFFFF#16 then Instr.csrrCtl (guardOf (encS _ g f)) (fmtSOf (encS _ g f)) else
    Instr.csrr (guardOf (encS _ g f)) (fmtSOf (encS _ g f))) = _
  rw [fmtS_back, guardS]
  simp only [e, if_true]
theorem Fields.csrwCtl (g : Guard) (f : FmtS) : Fields.Statement (.csrwCtl g f) := by
  intro x h w
  cases h
  refine (enc_rowF _ _ _ (by decide)).trans ?_
  have e : f.csrn = 0xFFFF#16 := by
    have w' : (f.csrn == 0xFFFF#16 && f.imm == 1 && f.d.toNat < 64 && f.a.toNat < 64 && g.fe &&& 6 == 0) = true := w
    simp only [Bool.and_eq_true, beq_iff_eq] at w'
    exact w'.1.1.1.1
  show some (if (fmtSOf (encS _ g f)).csrn = 0xFFFF#16 then Instr.csrwCtl (guardOf (encS _ g f)) (fmtSOf (encS _ g f)) else
    Instr.csrw (guardOf (encS _ g f)) (fmtSOf (encS _ g f))) = _
  rw [fmtS_back, guardS]
  simp only [e, if_true]
theorem Fields.trap (g : Guard) (f : FmtS) : Fields.Statement (.trap g f) := by
  intro x h _
  cases h
  refine (enc_rowF _ _ _ (by decide)).trans ?_
  exact congrArg some (congr (congrArg Instr.trap (guardS _ _ _)) (fmtS_back _ _ _))
theorem Fields.rett (g : Guard) (f : FmtS) : Fields.Statement (.rett g f) := by
  intro x h _
  cases h
  refine (enc_rowF _ _ _ (by decide)).trans ?_
  exact congrArg some (congr (congrArg Instr.rett (guardS _ _ _)) (fmtS_back _ _ _))
theorem Fields.bkpt (g : Guard) (f : FmtS) : Fields.Statement (.bkpt g f) := by
  intro x h _
  cases h
  refine (enc_rowF _ _ _ (by decide)).trans ?_
  exact congrArg some (congr (congrArg Instr.bkpt (guardS _ _ _)) (fmtS_back _ _ _))
theorem Fields.haltg (g : Guard) (f : FmtS) : Fields.Statement (.haltg g f) := by
  intro x h _
  cases h
  refine (enc_rowF _ _ _ (by decide)).trans ?_
  exact congrArg some (congr (congrArg Instr.haltg (guardS _ _ _)) (fmtS_back _ _ _))
theorem Fields.timew (g : Guard) (f : FmtS) : Fields.Statement (.timew g f) := by
  intro x h _
  cases h
  refine (enc_rowF _ _ _ (by decide)).trans ?_
  exact congrArg some (congr (congrArg Instr.timew (guardS _ _ _)) (fmtS_back _ _ _))
theorem Fields.portIssueChoice (core : Nat) (port : Nat) : Fields.Statement (.portIssueChoice core port) := by intro x h _; cases h
theorem Fields.registerFill (wg : Nat) (gang : Nat) (n : Nat) (how : Fill) (ev : Evict) : Fields.Statement (.registerFill wg gang n how ev) := by intro x h _; cases h
theorem Fields.rejoinRelease (wg : Nat) (gang : Nat) : Fields.Statement (.rejoinRelease wg gang) := by intro x h _; cases h
theorem Fields.yieldExpiry (wg : Nat) (gang : Nat) : Fields.Statement (.yieldExpiry wg gang) := by intro x h _; cases h
theorem Fields.timewRelease (wg : Nat) (gang : Nat) : Fields.Statement (.timewRelease wg gang) := by intro x h _; cases h
theorem Fields.workgroupEnd (wg : Nat) : Fields.Statement (.workgroupEnd wg) := by intro x h _; cases h
theorem Fields.ticketSupplyDraw (core : Nat) (ctx : Nat) : Fields.Statement (.ticketSupplyDraw core ctx) := by intro x h _; cases h
theorem Fields.ownershipRequest (n : Nat) : Fields.Statement (.ownershipRequest n) := by intro x h _; cases h
theorem Fields.runGrant (n : Nat) : Fields.Statement (.runGrant n) := by intro x h _; cases h
theorem Fields.ownershipReturn (n : Nat) : Fields.Statement (.ownershipReturn n) := by intro x h _; cases h
theorem Fields.writebackAck (n : Nat) : Fields.Statement (.writebackAck n) := by intro x h _; cases h
theorem Fields.collapseRequest (n : Nat) : Fields.Statement (.collapseRequest n) := by intro x h _; cases h
theorem Fields.collapseAck (n : Nat) : Fields.Statement (.collapseAck n) := by intro x h _; cases h
theorem Fields.replicaEvictionNotice (n : Nat) : Fields.Statement (.replicaEvictionNotice n) := by intro x h _; cases h
theorem Fields.killWalkEnd (home : Nat) (ctx : Nat) : Fields.Statement (.killWalkEnd home ctx) := by intro x h _; cases h
theorem Fields.revocationNotice (n : Nat) : Fields.Statement (.revocationNotice n) := by intro x h _; cases h
theorem Fields.storeBufferDrain (wg : Nat) (gang : Nat) (n : Nat) (ev : Evict) : Fields.Statement (.storeBufferDrain wg gang n ev) := by intro x h _; cases h
theorem Fields.accessAck (wg : Nat) (gang : Nat) : Fields.Statement (.accessAck wg gang) := by intro x h _; cases h
theorem Fields.memsideAtomic (n : Nat) : Fields.Statement (.memsideAtomic n) := by intro x h _; cases h
theorem Fields.waitvPoll (n : Nat) : Fields.Statement (.waitvPoll n) := by intro x h _; cases h
theorem Fields.frameArrival (n : Nat) (bad : Bool) : Fields.Statement (.frameArrival n bad) := by intro x h _; cases h
theorem Fields.ringLoadComplete (wg : Nat) (handle : Nat) : Fields.Statement (.ringLoadComplete wg handle) := by intro x h _; cases h
theorem Fields.stagingCopy (entry : Nat) : Fields.Statement (.stagingCopy entry) := by intro x h _; cases h
theorem Fields.rgctlWrite (value : W64) : Fields.Statement (.rgctlWrite value) := by intro x h _; cases h
theorem Fields.slctlWrite (value : W64) : Fields.Statement (.slctlWrite value) := by intro x h _; cases h
theorem Fields.copyPiece (n : Nat) : Fields.Statement (.copyPiece n) := by intro x h _; cases h
theorem Fields.msopLine (n : Nat) : Fields.Statement (.msopLine n) := by intro x h _; cases h
theorem Fields.amAccept (n : Nat) : Fields.Statement (.amAccept n) := by intro x h _; cases h
theorem Fields.amReply (n : Nat) : Fields.Statement (.amReply n) := by intro x h _; cases h
theorem Fields.workgroupPlace (what : PlaceWhat) (cores : List Nat) : Fields.Statement (.workgroupPlace what cores) := by intro x h _; cases h
theorem Fields.childEnd (wg : Nat) : Fields.Statement (.childEnd wg) := by intro x h _; cases h
theorem Fields.linkNotice (module : Nat) (link : Nat) (st : LinkSt) : Fields.Statement (.linkNotice module link st) := by intro x h _; cases h
theorem Fields.planeResendTimeout (plane : Nat) : Fields.Statement (.planeResendTimeout plane) := by intro x h _; cases h
theorem Fields.ackSend (link : Nat) : Fields.Statement (.ackSend link) := by intro x h _; cases h
theorem Fields.xferPacket (pkt : XferPacket) : Fields.Statement (.xferPacket pkt) := by intro x h _; cases h
theorem Fields.xferAck (n : Nat) (status : Nat) : Fields.Statement (.xferAck n status) := by intro x h _; cases h
theorem Fields.collectivePacket (pkt : CollPacket) : Fields.Statement (.collectivePacket pkt) := by intro x h _; cases h
theorem Fields.confirmationRound (coll : Nat) : Fields.Statement (.confirmationRound coll) := by intro x h _; cases h
theorem Fields.queueDoorbell (queue : Nat) (value : W64) : Fields.Statement (.queueDoorbell queue value) := by intro x h _; cases h
theorem Fields.launchStart (queue : Nat) : Fields.Statement (.launchStart queue) := by intro x h _; cases h
theorem Fields.launchComplete (launch : Nat) : Fields.Statement (.launchComplete launch) := by intro x h _; cases h
theorem Fields.preemptionDecision (skein : Nat) (sw : Bool) : Fields.Statement (.preemptionDecision skein sw) := by intro x h _; cases h
theorem Fields.drainTimeout (skein : Nat) : Fields.Statement (.drainTimeout skein) := by intro x h _; cases h
theorem Fields.skeinSave (skein : Nat) : Fields.Statement (.skeinSave skein) := by intro x h _; cases h
theorem Fields.skeinRestore (skein : Nat) (cores : List Nat) : Fields.Statement (.skeinRestore skein cores) := by intro x h _; cases h
theorem Fields.watchdogExpiry (wg : Nat) : Fields.Statement (.watchdogExpiry wg) := by intro x h _; cases h
theorem Fields.saveStallKill (skein : Nat) : Fields.Statement (.saveStallKill skein) := by intro x h _; cases h
theorem Fields.hcqctlWrite (value : W64) : Fields.Statement (.hcqctlWrite value) := by intro x h _; cases h
theorem Fields.fqctlWrite (value : W64) : Fields.Statement (.fqctlWrite value) := by intro x h _; cases h
theorem Fields.fqheadWrite (value : W64) : Fields.Statement (.fqheadWrite value) := by intro x h _; cases h
theorem Fields.imgctlWrite (value : W64) : Fields.Statement (.imgctlWrite value) := by intro x h _; cases h
theorem Fields.controlSpaceWrite (addr : Nat) (value : W64) : Fields.Statement (.controlSpaceWrite addr value) := by intro x h _; cases h
theorem Fields.ownershipRefusal (n : Nat) : Fields.Statement (.ownershipRefusal n) := by intro x h _; cases h
theorem Fields.ringBorrowReturn (n : Nat) : Fields.Statement (.ringBorrowReturn n) := by intro x h _; cases h
theorem Fields.queueDescriptorWrite (queue : Nat) (word : Nat) (value : W64) : Fields.Statement (.queueDescriptorWrite queue word value) := by intro x h _; cases h
theorem Fields.residencyRangeWrite (addr : Nat) (value : W64) : Fields.Statement (.residencyRangeWrite addr value) := by intro x h _; cases h
theorem Fields.segmentFrameArrival (frame : Frame) : Fields.Statement (.segmentFrameArrival frame) := by intro x h _; cases h
theorem Fields.rgpatWrite (value : W64) : Fields.Statement (.rgpatWrite value) := by intro x h _; cases h
theorem Fields.rglenWrite (value : W64) : Fields.Statement (.rglenWrite value) := by intro x h _; cases h
theorem Fields.rgerrWrite (value : W64) : Fields.Statement (.rgerrWrite value) := by intro x h _; cases h
theorem Fields.flitReceive (link : Nat) (flit : Flit) : Fields.Statement (.flitReceive link flit) := by intro x h _; cases h
theorem Fields.ackReceive (link : Nat) (seq : BitVec 12) (bitmap : W64) : Fields.Statement (.ackReceive link seq bitmap) := by intro x h _; cases h
theorem Fields.linkLock (link : Nat) (lo : Nat) (hi : Nat) : Fields.Statement (.linkLock link lo hi) := by intro x h _; cases h
theorem Fields.lossOfLock (link : Nat) : Fields.Statement (.lossOfLock link) := by intro x h _; cases h
theorem Fields.trainingTimeout (link : Nat) : Fields.Statement (.trainingTimeout link) := by intro x h _; cases h
theorem Fields.slotReservation (links : List Nat) (slots : List Nat) : Fields.Statement (.slotReservation links slots) := by intro x h _; cases h
theorem Fields.starvationToken (router : Nat) (input : Nat) : Fields.Statement (.starvationToken router input) := by intro x h _; cases h
theorem Fields.xferResend (n : Nat) : Fields.Statement (.xferResend n) := by intro x h _; cases h
theorem Fields.epochExchange (ex : CollExchange) : Fields.Statement (.epochExchange ex) := by intro x h _; cases h
theorem Fields.memberLostTimeout (coll : Nat) (module : Nat) : Fields.Statement (.memberLostTimeout coll module) := by intro x h _; cases h
theorem Fields.extentTakeback (extent : Nat) : Fields.Statement (.extentTakeback extent) := by intro x h _; cases h
theorem Fields.poolFatalError (device : PoolFault) : Fields.Statement (.poolFatalError device) := by intro x h _; cases h
theorem Fields.cxlMemAccess (acc : CxlAccess) : Fields.Statement (.cxlMemAccess acc) := by intro x h _; cases h
theorem Fields.thermalLimit (up : Bool) : Fields.Statement (.thermalLimit up) := by intro x h _; cases h
theorem Fields.portEnable (link : Nat) : Fields.Statement (.portEnable link) := by intro x h _; cases h
theorem Fields.sliceTableWrite (addr : Nat) (value : W64) : Fields.Statement (.sliceTableWrite addr value) := by intro x h _; cases h
theorem Fields.clauseStart : Fields.Statement (.clauseStart) := by intro x h _; cases h
theorem Fields.frameInject : Fields.Statement (.frameInject) := by intro x h _; cases h
theorem Fields.sliceSwitch : Fields.Statement (.sliceSwitch) := by intro x h _; cases h
theorem Fields.faultRecordWrite : Fields.Statement (.faultRecordWrite) := by intro x h _; cases h
theorem Fields.load : Fields.Statement (.load) := by intro x h _; cases h
theorem Fields.unload : Fields.Statement (.unload) := by intro x h _; cases h
theorem Fields.replace : Fields.Statement (.replace) := by intro x h _; cases h
theorem Fields.ctxset : Fields.Statement (.ctxset) := by intro x h _; cases h
theorem Fields.hborrow : Fields.Statement (.hborrow) := by intro x h _; cases h
theorem Fields.hreturn : Fields.Statement (.hreturn) := by intro x h _; cases h
theorem Fields.kill : Fields.Statement (.kill) := by intro x h _; cases h
theorem Fields.wgterm : Fields.Statement (.wgterm) := by intro x h _; cases h
theorem Fields.resume : Fields.Statement (.resume) := by intro x h _; cases h
theorem Fields.skip : Fields.Statement (.skip) := by intro x h _; cases h
theorem Fields.fail : Fields.Statement (.fail) := by intro x h _; cases h
theorem Fields.fuseup : Fields.Statement (.fuseup) := by intro x h _; cases h
theorem Fields.fuseBlowComplete : Fields.Statement (.fuseBlowComplete) := by intro x h _; cases h
theorem Fields.attest : Fields.Statement (.attest) := by intro x h _; cases h
theorem Fields.extmap : Fields.Statement (.extmap) := by intro x h _; cases h
theorem Fields.extunmap : Fields.Statement (.extunmap) := by intro x h _; cases h
theorem Fields.securityAlarm : Fields.Statement (.securityAlarm) := by intro x h _; cases h
theorem Fields.reset : Fields.Statement (.reset) := by intro x h _; cases h

end Sys2Proof.Laws
end

