-- ==== Sys2Proof/Laws/Word.lean ====
section
/-! SUPPORT. What an instruction word does around its own entry, once: with nothing in its way it runs its entry and goes on. -/

namespace Sys2Proof.Machine

theorem trapsMask_nil : trapsMask [] = 0#32 := rfl
theorem band_all (m : LaneMask) : m &&& ~~~0#32 = m := by rw [BitVec.not_zero, BitVec.and_allOnes]
theorem trapAll_none (t : Trap) (info : W64) : trapAll t 0#32 info = ⟨t, []⟩ := by simp [trapAll, bitsOf_zero]
theorem Here.only_all (h : Here) : h.only h.iss.lanes = h := rfl
theorem takeTraps_nil (vec : W64) (s : State) (tag gang : Nat) (pc : W64) (base : Option W64) : takeTraps vec s tag gang pc base [] = s := rfl

/-- A word with nothing in its way runs its own entry on the lanes whose guard is true. -/
theorem runWord_ready {i : Instr} {gd : Guard} {h : Here} {s : State} (hr : Ready i gd h s) (body : Here → LaneMask → State → Fx) :
    runWord i gd body s = .next (match (body h (trueMask h gd) s).hold with
      | some why => breakIssue h why (body h (trueMask h gd) s).s
      | none => finishWord h (isControl i) (body h (trueMask h gd) s)) := by
  have hz : 0#32 ||| 0#32 = 0#32 := rfl
  simp only [runWord, hr.place, wordStep, hr.mayRun, if_false, hr.guardFull, hr.privileged, hr.macros, hr.quota, band_all, hz,
    Here.only_all, hr.full, hr.filled, hr.inOrder, Bool.false_eq_true]
  cases (body h (trueMask h gd) s).hold with
  | some why => simp [takeTraps, addTrap, trapAll_none]
  | none =>
    simp [trapAll_none, finishWord, trapsMask, trapMask, takeTraps, addTrap, maskOf_eq_zero]

/-- A lane goes on past its word. -/
def goOn (h : Here) (now : Nat) (_ : Nat) (l : Lane) : Lane :=
  { l with pc := (nextPc h).1, cbase := (nextPc h).2, since := if atLast h then now else l.since }
/-- A word retires (R395, R401). -/
def stepCounts (zero : Bool) (w : Wg) : Wg := { w with retired := w.retired + 1, idle := if zero then 0 else w.idle }
@[simp] theorem stepCounts_tag (zero : Bool) (w : Wg) : (stepCounts zero w).tag = w.tag := rfl
@[simp] theorem gangOf_stepCounts (zero : Bool) (w : Wg) (k : Nat) : gangOf (stepCounts zero w) k = gangOf w k := rfl
@[simp] theorem setGang_stepCounts (zero : Bool) (w : Wg) (k : Nat) (x : Gang) : setGang (stepCounts zero w) k x = stepCounts zero (setGang w k x) := rfl
@[simp] theorem setGang_setGang (w : Wg) (k : Nat) (x y : Gang) : setGang (setGang w k x) k y = setGang w k y := by simp [setGang]
theorem stepCounts_frame (zero : Bool) (w : Wg) :
    stepCounts zero w = { w with retired := w.retired + 1, idle := (stepCounts zero w).idle } := rfl
/-- A word's counters and its change of one gang, on a workgroup that differs in its gangs alone. -/
theorem moved_frame (zero : Bool) {w w' : Wg} (k : Nat) (x : Gang) (hf : w' = { w with gangs := w'.gangs }) :
    stepCounts zero (setGang w' k x) =
      { w with gangs := (setGang w' k x).gangs, retired := w.retired + 1, idle := (stepCounts zero (setGang w' k x)).idle } := by
  rw [hf]
  rfl
/-- The gang after a word whose other lanes went on: they stand at the next word; as the issue ends its pending writes come. -/
def movedGang (h : Here) (left : LaneMask) (ended : Bool) (jops : List JOp) (fops : List FOp) (now : Nat) (g : Gang) : Gang :=
  let g := mapLanes left (goOn h now) g
  if ended then endWrites jops fops g else g
/-- A workgroup as the issue ends, where it does. -/
def endedWg (ended : Bool) (now gang seq : Nat) (fops : List FOp) (w : Wg) : Wg := if ended then subsOn now gang seq fops w else w

theorem endedWg_comm (e : Bool) (now gang seq : Nat) (ops : List FOp) (w : Wg) (gs : List Gang) (r i : Nat) :
    endedWg e now gang seq ops { w with gangs := gs, retired := r, idle := i } =
      { endedWg e now gang seq ops w with gangs := gs, retired := r, idle := i } := by
  cases e
  · rfl
  · exact subsOn_comm now gang ops seq w gs r i
theorem endedWg_frame (e : Bool) (now gang seq : Nat) (ops : List FOp) (w : Wg) : endedWg e now gang seq ops w =
    { w with macs := (endedWg e now gang seq ops w).macs, subs := (endedWg e now gang seq ops w).subs
             nonIdem := (endedWg e now gang seq ops w).nonIdem } := by
  cases e
  · rfl
  · exact subsOn_frame now gang ops seq w
@[simp] theorem gangOf_endedWg (e : Bool) (now gang seq : Nat) (ops : List FOp) (w : Wg) (k : Nat) :
    gangOf (endedWg e now gang seq ops w) k = gangOf w k := by rw [endedWg_frame]; rfl
@[simp] theorem findWg_cont (s : State) (c) (tag : Nat) : findWg { s with cont := c } tag = findWg s tag := rfl
@[simp] theorem findWg_oweNext (h : Here) (c : Option Cont) (s : State) (tag : Nat) : findWg (oweNext h c s) tag = findWg s tag := rfl
@[simp] theorem findWg_setHead (s : State) (i : Option Issue) (tag : Nat) : findWg (setHead s i) tag = findWg s tag := rfl

/-- What stands after a word that raised no trap: its issue has gone on or ended, the lanes left stand at the next word, and nothing but
workgroups, issues and continuations differs from what the entry left. -/
theorem finishWord_calm {h : Here} {fx : Fx} {w : Wg} (ctl : Bool) (hw : findWg fx.s h.iss.wg = some w) (ht : fx.traps = []) :
    let t := finishWord h ctl fx
    let left := h.iss.lanes &&& ~~~fx.gone
    let ended := left == 0#32 || atLast h
    let js := h.iss.jops ++ fx.jop.toList ++ fx.jops
    let fs := h.iss.fops ++ fx.fops
    t = { fx.s with seq := fx.s.seq + (if ended then subCount fs else 0), wgs := t.wgs, issues := t.issues, cont := t.cont } ∧
    (∀ tag, tag ≠ h.iss.wg → findWg t tag = findWg fx.s tag) ∧
    (∃ zero, findWg t h.iss.wg = some (endedWg ended fx.s.cycle h.iss.gang fx.s.seq fs
      (stepCounts zero (setGang w h.iss.gang (movedGang h left ended js fs fx.s.cycle (gangOf w h.iss.gang)))))) ∧
    t.issues = (if ended then fx.s.issues.tail
      else { h.iss with lanes := left, at_ := h.iss.at_ + 8#64, jops := js, fops := fs } :: fx.s.issues.tail) := by
  intro t left ended js fs
  have htag := findWg_tag hw
  -- The state before the issue is set: lanes moved, the two counters stepped.
  obtain ⟨s1, hs1⟩ : ∃ s1, s1 = updLanes h left (goOn h fx.s.cycle) fx.s := ⟨_, rfl⟩
  have h1 : findWg s1 h.iss.wg = some (setGang w h.iss.gang (mapLanes left (goOn h fx.s.cycle) (gangOf w h.iss.gang))) := by
    rw [hs1]
    exact findWg_updGang_same h.iss.gang _ hw
  obtain ⟨s2, hs2⟩ : ∃ s2, s2 = updWg s1 h.iss.wg (stepCounts (atLast h && (left != 0#32 || ctl))) := ⟨_, rfl⟩
  have h2 : findWg s2 h.iss.wg = some (stepCounts (atLast h && (left != 0#32 || ctl))
      (setGang w h.iss.gang (mapLanes left (goOn h fx.s.cycle) (gangOf w h.iss.gang)))) := by
    rw [hs2]
    exact findWg_updWg_same _ h1 rfl
  have hf : s2 = { fx.s with wgs := s2.wgs } := by
    rw [hs2, updWg_frame, hs1, updLanes, updGang_frame]
  have ho : ∀ tag, tag ≠ h.iss.wg → findWg s2 tag = findWg fx.s tag := fun tag hne => by
    rw [hs2, findWg_updWg_other _ _ _ _ (stepCounts_tag _) hne, hs1, updLanes, findWg_updGang_other _ _ _ _ _ hne]
  -- The end of the issue: its writes, then its subscriptions.
  obtain ⟨s3, hs3⟩ : ∃ s3, s3 = setHead (updGang s2 h.iss.wg h.iss.gang (endWrites js fs)) none := ⟨_, rfl⟩
  have h3 : findWg s3 h.iss.wg = some (stepCounts (atLast h && (left != 0#32 || ctl))
      (setGang w h.iss.gang (movedGang h left true js fs fx.s.cycle (gangOf w h.iss.gang)))) := by
    rw [hs3, findWg_setHead, findWg_updGang_same h.iss.gang _ h2]
    simp [movedGang]
  have hf3 : s3 = { fx.s with wgs := s3.wgs, issues := fx.s.issues.tail } := by
    rw [hs3, setHead, updGang_frame, hf]
    rfl
  have ho3 : ∀ tag, tag ≠ h.iss.wg → findWg s3 tag = findWg fx.s tag := fun tag hne => by
    rw [hs3, findWg_setHead, findWg_updGang_other _ _ _ _ _ hne, ho tag hne]
  have hcyc : s3.cycle = fx.s.cycle := by rw [hf3]
  have hseq : s3.seq = fx.s.seq := by rw [hf3]
  obtain ⟨g1, g2, g3⟩ := endSubs_spec h.iss.wg h.iss.gang fs s3 (stepCounts (atLast h && (left != 0#32 || ctl))
    (setGang w h.iss.gang (movedGang h left true js fs fx.s.cycle (gangOf w h.iss.gang)))) h3
  rw [hcyc, hseq] at g3
  rw [hseq] at g1
  obtain ⟨s4, hs4⟩ : ∃ s4, s4 = endSubs h.iss.wg h.iss.gang fs s3 := ⟨_, rfl⟩
  rw [← hs4] at g1 g2 g3
  have hm : h.iss.lanes &&& ~~~fx.gone &&& ~~~0#32 = left := band_all _
  by_cases he : ended = true
  · have hend : ∃ c, t = oweNext h c s4 := by
      refine ⟨if fx.carry && atLast h then continued h (h.iss.lanes &&& ~~~0#32) s2 else none, ?_⟩
      simp only [t, finishWord, ht, trapsMask_nil, takeTraps_nil, hm]
      rw [if_pos he, hs4, hs3, hs2, hs1]
      rfl
    obtain ⟨c, hc⟩ := hend
    refine ⟨?_, ?_, ⟨atLast h && (left != 0#32 || ctl), ?_⟩, ?_⟩
    · rw [hc, oweNext, g1, hf3, if_pos he]
    · intro tag hne
      rw [hc, findWg_oweNext, g2 tag hne, ho3 tag hne]
    · rw [hc, findWg_oweNext, g3, he]
      rfl
    · rw [hc, if_pos he, oweNext, g1, hf3]
  · have hend : t = setHead s2 (some { h.iss with lanes := left, at_ := h.iss.at_ + 8#64, jops := js, fops := fs }) := by
      simp only [t, finishWord, ht, trapsMask_nil, takeTraps_nil, hm]
      rw [if_neg he, hs2, hs1]
      rfl
    have hb : ended = false := by simpa using he
    refine ⟨?_, ?_, ⟨atLast h && (left != 0#32 || ctl), ?_⟩, ?_⟩
    · rw [hend, setHead, hf, if_neg he]
      rfl
    · intro tag hne
      rw [hend, findWg_setHead, ho tag hne]
    · rw [hend, findWg_setHead, h2, hb]
      rfl
    · rw [hend, setHead, hf, if_neg he]
      rfl

theorem trueMask_bit {h : Here} {gd : Guard} {k : Nat} :
    (trueMask h gd).getLsbD k = (decide (k < 32) && (h.iss.lanes.getLsbD k && guardOn gd (laneOf h.g k))) := getLsbD_maskOf _ k
theorem mem_bits_trueMask {h : Here} {gd : Guard} {k : Nat} :
    k ∈ bitsOf (trueMask h gd) ↔ k < 32 ∧ h.iss.lanes.getLsbD k = true ∧ guardOn gd (laneOf h.g k) = true := by
  rw [mem_bitsOf, trueMask_bit]
  constructor
  · rintro ⟨hk, hb⟩
    simpa [hk] using hb
  · rintro ⟨hk, hl, hg⟩
    simp [hk, hl, hg]

/-- What an entry did to its own workgroup alone. -/
structure OwnOnly (h : Here) (s s' : State) (w' : Wg) : Prop where
  state : s' = { s with wgs := s'.wgs }
  others : ∀ tag, tag ≠ h.iss.wg → findWg s' tag = findWg s tag
  find : findWg s' h.iss.wg = some w'
  frame : w' = { h.w with gangs := w'.gangs }
  gangs : ∀ k, k ≠ h.iss.gang → gangOf w' k = gangOf h.w k
theorem ownOnly_refl {h : Here} {s : State} (hw : findWg s h.iss.wg = some h.w) : OwnOnly h s s h.w :=
  ⟨rfl, fun _ _ => rfl, hw, rfl, fun _ _ => rfl⟩
theorem ownOnly_onGang {h : Here} {s : State} (f : Gang → Gang) (hw : findWg s h.iss.wg = some h.w) :
    OwnOnly h s (onGang h f s) (setGang h.w h.iss.gang (f (gangOf h.w h.iss.gang))) :=
  ⟨updGang_frame _ _ _ _, fun _ hne => findWg_updGang_other _ _ _ _ _ hne, findWg_updGang_same h.iss.gang f hw, setGang_frame _ _ _,
    fun _ hk => gangOf_setGang_other _ _ _ _ hk⟩

/-- An issue that goes on past its word ends with the clause's last. -/
theorem issueOver_of {h : Here} {s t : State} (hi : s.issues = h.iss :: s.issues.tail) {x : Issue}
    (ht : t.issues = if atLast h then s.issues.tail else x :: s.issues.tail) : issueOver s t = atLast h := by
  unfold issueOver
  rw [hi, ht]
  cases atLast h <;> simp
/-- The state that what else a word leaves is compared with. -/
theorem settledTo_spec {h : Here} {s t : State} (hw : findWg s h.iss.wg = some h.w) :
    settledTo h s t = { s with seq := s.seq + (if issueOver s t then subCount h.iss.fops else 0), wgs := (settledTo h s t).wgs } ∧
    findWg (settledTo h s t) h.iss.wg = some (endedWg (issueOver s t) s.cycle h.iss.gang s.seq h.iss.fops h.w) := by
  have htag := findWg_tag hw
  have hp : findWg (putWg s h.w) h.iss.wg = some h.w := by
    rw [← htag] at hw ⊢
    exact findWg_putWg_same s h.w hw
  obtain ⟨g1, _, g3⟩ := endSubs_spec h.iss.wg h.iss.gang h.iss.fops (putWg s h.w) h.w hp
  unfold settledTo
  cases issueOver s t
  · exact ⟨rfl, hp⟩
  · simp only [if_true]
    refine ⟨?_, g3⟩
    conv_lhs => rw [g1]
    rfl

/-- What a word leaves when its entry changed its own workgroup's gangs alone, raised no trap, wrote no mask and took no lane: every lane of
the issue goes on from where the entry left it. -/
theorem runWord_own {i : Instr} {gd : Guard} {h : Here} {s s' : State} {w' : Wg} (hr : Ready i gd h s) (body : Here → LaneMask → State → Fx)
    (fp : BitVec 5) (mf : BitVec 4) (c : Bool) (hb : body h (trueMask h gd) s = { s := s', carry := c, fops := raises fp mf })
    (ho : OwnOnly h s s' w') :
    ∃ t, runWord i gd body s = .next t ∧ Elsewhere h s t ∧ IssueOn (h.withOps (raises fp mf)) s t ∧ issueOver s t = atLast h ∧
      gangAt t h = movedGang h h.iss.lanes (atLast h) h.iss.jops (h.iss.fops ++ raises fp mf) s.cycle (gangOf w' h.iss.gang) := by
  have hfin := finishWord_calm (h := h) (fx := { s := s', carry := c, fops := raises fp mf }) (isControl i) ho.find rfl
  have hz : (h.iss.lanes == 0#32) = false := by simpa using hr.active
  simp only [band_all, hz, Bool.false_or, Option.toList_none, List.append_nil, subCount_append, subCount_raises, Nat.add_zero] at hfin
  obtain ⟨hf, hoth, ⟨zero, hown⟩, hiss⟩ := hfin
  obtain ⟨hi, hw, _, _⟩ := here_spec hr.place
  have hcyc : s'.cycle = s.cycle := by rw [ho.state]
  have hseq : s'.seq = s.seq := by rw [ho.state]
  have hist : s'.issues = s.issues := by rw [ho.state]
  rw [hist] at hiss
  have hover := issueOver_of hi hiss
  obtain ⟨g1, g2⟩ := settledTo_spec (t := finishWord h (isControl i) { s := s', carry := c, fops := raises fp mf }) hw
  rw [hover] at g1 g2
  have hsub : ∀ x, endedWg (atLast h) s'.cycle h.iss.gang s'.seq (h.iss.fops ++ raises fp mf) x =
      endedWg (atLast h) s.cycle h.iss.gang s.seq h.iss.fops x := fun x => by
    unfold endedWg
    rw [hcyc, hseq, subsOn_append, subsOn_raises]
  rw [hsub] at hown
  refine ⟨_, by rw [runWord_ready hr, hb], ⟨?_, ?_, ?_⟩, ?_, hover, ?_⟩
  · conv_lhs => rw [hf]
    rw [g1, ho.state]
  · intro tag hne
    rw [hoth tag hne, ho.others tag hne]
  · refine ⟨_, _, hown, g2, ?_, fun k hk => ?_⟩
    · rw [moved_frame zero h.iss.gang _ ho.frame, endedWg_comm]
    · rw [gangOf_endedWg, gangOf_stepCounts, gangOf_setGang_other _ _ _ _ hk, ho.gangs k hk]
  · rw [IssueOn, hiss]
    rfl
  · rw [gangAt_of_find hown, gangOf_endedWg, gangOf_stepCounts, gangOf_setGang_same, hcyc]

/-- The same for an entry that is one change of its gang. -/
theorem runWord_onGang {i : Instr} {gd : Guard} {h : Here} {s : State} (hr : Ready i gd h s) (body : Here → LaneMask → State → Fx)
    (f : Gang → Gang) (fp : BitVec 5) (mf : BitVec 4) (c : Bool)
    (hb : body h (trueMask h gd) s = { s := onGang h f s, carry := c, fops := raises fp mf }) :
    ∃ t, runWord i gd body s = .next t ∧ Elsewhere h s t ∧ IssueOn (h.withOps (raises fp mf)) s t ∧ issueOver s t = atLast h ∧
      gangAt t h = movedGang h h.iss.lanes (atLast h) h.iss.jops (h.iss.fops ++ raises fp mf) s.cycle (f h.g) := by
  obtain ⟨_, hw, _, hg⟩ := here_spec hr.place
  have := runWord_own hr body fp mf c hb (ownOnly_onGang f hw)
  rwa [gangOf_setGang_same, ← hg] at this
/-- The same for an entry that does nothing. -/
theorem runWord_idle {i : Instr} {gd : Guard} {h : Here} {s : State} (hr : Ready i gd h s) (body : Here → LaneMask → State → Fx)
    (c : Bool) (hb : body h (trueMask h gd) s = { s := s, carry := c }) :
    ∃ t, runWord i gd body s = .next t ∧ Elsewhere h s t ∧ IssueOn h s t ∧ issueOver s t = atLast h ∧
      gangAt t h = movedGang h h.iss.lanes (atLast h) h.iss.jops h.iss.fops s.cycle h.g := by
  obtain ⟨_, hw, _, hg⟩ := here_spec hr.place
  have := runWord_own hr body 0#5 0#4 c hb (ownOnly_refl hw)
  have h0 : raises 0#5 0#4 = [] := rfl
  simpa [h0, Here.withOps, ← hg] using this

/-- The lanes, quads and other parts of a moved gang. -/
theorem movedGang_frame (h : Here) (m : LaneMask) (e : Bool) (js : List JOp) (fs : List FOp) (now : Nat) (g : Gang) :
    movedGang h m e js fs now g =
      if e then { g with lanes := (mapLanes m (goOn h now) g).lanes, j := maskWrites js g.j, fpctl := (flagWrites fs (g.fpctl, g.mflags)).1,
                         mflags := (flagWrites fs (g.fpctl, g.mflags)).2 }
      else { g with lanes := (mapLanes m (goOn h now) g).lanes } := by
  unfold movedGang
  cases e
  · rfl
  · simp only [if_true]
    rw [endWrites_frame]
    rfl
theorem laneOf_movedGang (h : Here) (m : LaneMask) (e : Bool) (js : List JOp) (fs : List FOp) (now : Nat) (g : Gang) (k : Nat) (hk : k < 32) :
    laneOf (movedGang h m e js fs now g) k = if m.getLsbD k then goOn h now k (laneOf g k) else laneOf g k := by
  have := laneOf_mapLanes m (goOn h now) g k hk
  rw [movedGang_frame]
  cases e <;> exact this
@[simp] theorem quadOf_movedGang (h : Here) (m : LaneMask) (e : Bool) (js : List JOp) (fs : List FOp) (now : Nat) (g : Gang) (q : Nat) :
    quadOf (movedGang h m e js fs now g) q = quadOf g q := by rw [movedGang_frame]; cases e <;> rfl
/-- The gang after a word that changed lanes and quads alone. -/
theorem gangOn_of {h : Here} {s t : State} (fp : BitVec 5) (mf : BitVec 4) (g' : Gang) (hover : issueOver s t = atLast h)
    (ht : gangAt t h = movedGang h h.iss.lanes (atLast h) h.iss.jops (h.iss.fops ++ raises fp mf) s.cycle g')
    (hg : g' = { gangAt s h with lanes := g'.lanes, quads := g'.quads }) : GangOn h s t fp mf := by
  unfold GangOn GangHas
  have h1 : gangAt t (h.withOps (raises fp mf)) = gangAt t h := rfl
  rw [h1, hover, ht, movedGang_frame]
  cases atLast h
  · simp only [Bool.false_eq_true, if_false]
    rw [hg]
  · simp only [if_true]
    rw [hg]
    rfl

/-- A vector word that raises no trap: each lane whose guard is true writes what its own part says and goes on. -/
theorem vecWord_done {i : Instr} {gd : Guard} {h : Here} {s : State} (hr : Ready i gd h s) (word : W64) (sem : Here → Lane → LaneOut)
    (hq : ∀ k, k ∈ bitsOf (trueMask h gd) → (sem h (laneOf h.g k)).trap = none) :
    ∃ t, runWord i gd (vecBody word sem) s = .next t ∧ Elsewhere h s t ∧
      IssueOn (h.withOps (raises (flagsOf gd h fun l => (sem h l).flags) (flagsOf gd h fun l => (sem h l).mflags))) s t ∧ QuadsKept h s t ∧
      GangOn h s t (flagsOf gd h fun l => (sem h l).flags) (flagsOf gd h fun l => (sem h l).mflags) ∧
      ∀ k, k < 32 → laneAt t h k = if h.iss.lanes.getLsbD k = true then
        goOn h s.cycle k (if guardOn gd (laneAt s h k) = true then laneWrite (sem h (laneAt s h k)) (laneAt s h k) else laneAt s h k)
        else laneAt s h k := by
  obtain ⟨hi, hw, hc, hg⟩ := here_spec hr.place
  have hbad : (maskOf fun n => (trueMask h gd).getLsbD n && (sem h (laneOf h.g n)).trap.isSome) = 0#32 := by
    refine maskOf_eq_zero _ fun k hk => ?_
    cases hb : (trueMask h gd).getLsbD k with
    | false => rfl
    | true => simp [hq k ((mem_bitsOf _ k).2 ⟨hk, hb⟩)]
  have hbody : vecBody word sem h (trueMask h gd) s =
      { s := onGang h (mapLanes (trueMask h gd) fun n l => laneWrite (sem h (laneOf h.g n)) l) s, carry := true
        fops := raises (flagsOf gd h fun l => (sem h l).flags) (flagsOf gd h fun l => (sem h l).mflags) } := by
    simp only [vecBody, hbad, band_all, bitsOf_zero, List.map_nil]
    rfl
  obtain ⟨t, ht, he, hiss, hover, hgang⟩ := runWord_onGang hr (vecBody word sem) _ _ _ true hbody
  refine ⟨t, ht, he, hiss, ?_, gangOn_of _ _ _ hover hgang ?_, ?_⟩
  · intro q hq8
    rw [quadAt, hgang, quadOf_movedGang, quadAt_here hr.place]
    rfl
  · rw [gangAt_here hr.place]
    rfl
  · intro k hk
    rw [laneAt, hgang, laneOf_movedGang _ _ _ _ _ _ _ _ hk, laneOf_mapLanes _ _ _ _ hk, trueMask_bit, laneAt_here hr.place]
    cases hl : h.iss.lanes.getLsbD k
    · simp
    · cases hgd : guardOn gd (laneOf h.g k) <;> simp [hk]

end Sys2Proof.Machine
end

