-- ==== Sys2Proof/Laws/Regs.lean ====
section
/-! SUPPORT. Registers of a lane and of a quad: reading what was written; and with them the whole effect of a vector, predicate or scalar word. -/

namespace Sys2Proof.Machine

theorem getLsbD_oneAt {w : Nat} (n k : Nat) (hn : n < w) : (1#w <<< n).getLsbD k = decide (k = n) := by
  simp only [BitVec.getLsbD_shiftLeft, BitVec.getLsbD_one]
  by_cases h : k = n
  · subst h
    simp
    omega
  · by_cases h2 : k < n
    · simp [h, h2]
    · simp [h]
      omega
theorem getLsbD_putBit {w : Nat} (m : BitVec w) (n k : Nat) (b : Bool) (hn : n < w) :
    (putBit m n b).getLsbD k = if k = n then b else m.getLsbD k := by
  have h1 := getLsbD_oneAt (w := w) n k hn
  unfold putBit
  generalize 1#w <<< n = o at h1 ⊢
  by_cases hk : k < w
  · cases b
    · rw [if_neg (by simp), BitVec.getLsbD_and, BitVec.getLsbD_not, h1]
      by_cases h : k = n <;> simp only [h, hk, hn, decide_true, decide_false] <;> simp
    · rw [if_pos rfl, BitVec.getLsbD_or, h1]
      by_cases h : k = n <;> simp only [h, decide_true, decide_false] <;> simp
  · have hne : k ≠ n := by omega
    cases b <;> simp [BitVec.getLsbD_of_ge _ k (by omega : w ≤ k), hne]
/-- A place past the mask reads false whatever is put. -/
theorem getLsbD_putBit_ge {w : Nat} (m : BitVec w) (n k : Nat) (b : Bool) (hn : w ≤ n) : (putBit m n b).getLsbD k = m.getLsbD k := by
  have h0 : 1#w <<< n = 0#w := by
    apply BitVec.eq_of_getLsbD_eq
    intro i hi
    have : i < n := by omega
    simp [BitVec.getLsbD_shiftLeft, this]
  cases b <;> simp only [putBit, h0] <;> simp
theorem getLsbD_putBit_false {w : Nat} (m : BitVec w) (n k : Nat) : (putBit m n false).getLsbD k = if k = n then false else m.getLsbD k := by
  by_cases hn : n < w
  · exact getLsbD_putBit m n k false hn
  · rw [getLsbD_putBit_ge m n k false (by omega)]
    split
    · next h => subst h; exact BitVec.getLsbD_of_ge _ _ (by omega)
    · rfl

/-! Vector registers. -/

theorem vreg_vput (l : Lane) (r k : Nat) (x : W32) : vreg (vput l r x) k = if k = r then x else vreg l k := by simp [vreg, vput, tget_tset]
theorem vempty_vput (l : Lane) (r k : Nat) (x : W32) : vempty (vput l r x) k = if k = r then false else vempty l k := by
  simp [vempty, vput, getLsbD_putBit_false]
theorem vput_frame (l : Lane) (r : Nat) (x : W32) : vput l r x = { l with v := (vput l r x).v, ve := (vput l r x).ve } := rfl
theorem vputs_frame (n : Nat) : ∀ (l : Lane) (r x : Nat), vputs l r n x = { l with v := (vputs l r n x).v, ve := (vputs l r n x).ve } := by
  induction n with
  | zero => intro l r x; rfl
  | succ n ih => intro l r x; rw [vputs, ih]; rfl
theorem vputs_kept (n : Nat) : ∀ (l : Lane) (r x k : Nat), k < r ∨ r + n ≤ k → vreg (vputs l r n x) k = vreg l k ∧ vempty (vputs l r n x) k = vempty l k := by
  induction n with
  | zero => intro l r x k _; exact ⟨rfl, rfl⟩
  | succ n ih =>
    intro l r x k hk
    have hne : k ≠ r := by omega
    obtain ⟨h1, h2⟩ := ih (vput l r (BitVec.ofNat 32 x)) (r + 1) (x / 2 ^ 32) k (by omega)
    rw [vputs, h1, h2, vreg_vput, vempty_vput, if_neg hne, if_neg hne]
    exact ⟨rfl, rfl⟩
theorem vputs_read (n : Nat) : ∀ (l : Lane) (r x : Nat), vregs (vputs l r n x) r n = x % 2 ^ (32 * n) ∧ ∀ j, j < n → vempty (vputs l r n x) (r + j) = false := by
  induction n with
  | zero => intro l r x; simp [vputs, vregs, Nat.mod_one]
  | succ n ih =>
    intro l r x
    obtain ⟨h1, h2⟩ := ih (vput l r (BitVec.ofNat 32 x)) (r + 1) (x / 2 ^ 32)
    obtain ⟨h3, h4⟩ := vputs_kept n (vput l r (BitVec.ofNat 32 x)) (r + 1) (x / 2 ^ 32) r (by omega)
    refine ⟨?_, fun j hj => ?_⟩
    · rw [vputs, vregs, h1, h3, vreg_vput, if_pos rfl, BitVec.toNat_ofNat, show 32 * (n + 1) = 32 + 32 * n by ring, pow_add, Nat.mod_mul]
    · cases j with
      | zero =>
        rw [vputs, show r + 0 = r from rfl, h4, vempty_vput, if_pos rfl]
      | succ j =>
        have := h2 j (by omega)
        rwa [vputs, show r + (j + 1) = r + 1 + j by omega]

/-! Predicates. -/

theorem preg_pput (l : Lane) (d k : Nat) (b : Bool) (hd : d < 16) : preg (pput l d b) k = if k = d then (d == 0 || b) else preg l k := by
  unfold pput preg
  by_cases h0 : d = 0
  · subst h0
    by_cases hk : k = 0 <;> simp [hk]
  · by_cases hk : k = d
    · subst hk
      simp [h0, getLsbD_putBit _ _ _ _ hd]
    · simp [h0, hk, getLsbD_putBit _ _ _ _ hd]
theorem pempty_pput (l : Lane) (d k : Nat) (b : Bool) : pempty (pput l d b) k = if k = d then false else pempty l k := by
  unfold pput pempty
  by_cases h0 : d = 0
  · subst h0
    by_cases hk : k = 0 <;> simp [hk]
  · by_cases hk : k = d
    · subst hk
      simp [h0, getLsbD_putBit_false]
    · simp [h0, hk, getLsbD_putBit_false]
theorem pput_frame (l : Lane) (d : Nat) (b : Bool) : pput l d b = { l with p := (pput l d b).p, pe := (pput l d b).pe } := by
  unfold pput
  split <;> rfl

/-! Scalar registers. -/

theorem sreg_sput (q : Quad) (r k : Nat) (x : W64) : sreg (sput q r x) k = if k = r then x else sreg q k := by simp [sreg, sput, tget_tset]
theorem sempty_sput (q : Quad) (r k : Nat) (x : W64) : sempty (sput q r x) k = if k = r then false else sempty q k := by
  simp [sempty, sput, getLsbD_putBit_false]
@[simp] theorem sput_ptr (q : Quad) (r : Nat) (x : W64) : (sput q r x).ptr = q.ptr := rfl

/-! Whole effects. -/

theorem goOn_laneOn (h : Here) (now k : Nat) (l l' : Lane) (hl : l' = { l with v := l'.v, ve := l'.ve, p := l'.p, pe := l'.pe }) :
    LaneOn h l (goOn h now k l') := by
  unfold LaneOn goOn
  rw [hl]
theorem vreg_goOn (h : Here) (now k : Nat) (l : Lane) (r : Nat) : vreg (goOn h now k l) r = vreg l r := rfl
theorem vempty_goOn (h : Here) (now k : Nat) (l : Lane) (r : Nat) : vempty (goOn h now k l) r = vempty l r := rfl
theorem vregs_congr (l l' : Lane) (hl : l'.v = l.v) (n : Nat) : ∀ r, vregs l' r n = vregs l r n := by
  induction n with
  | zero => intro r; rfl
  | succ n ih => intro r; simp [vregs, vreg, hl, ih]

/-- A vector word whose lanes each write n registers from d and nothing else. -/
theorem vecDone_of {i : Instr} {gd : Guard} {h : Here} {s : State} (hr : Ready i gd h s) (word : W64) (sem : Here → Lane → LaneOut) (d n : Nat)
    (val : Lane → Nat) (fp : Lane → BitVec 5) (mf : Lane → BitVec 4)
    (hs : ∀ l, sem h l = { v := some (d, n, val l), flags := fp l, mflags := mf l }) :
    ∃ t, runWord i gd (vecBody word sem) s = .next t ∧ VecDone gd h s t d n val fp mf := by
  obtain ⟨t, ht, he, hiss, hq, hg, hl⟩ := vecWord_done hr word sem fun k _ => by rw [hs]
  have h1 : (fun l => (sem h l).flags) = fp := by funext l; rw [hs]
  have h2 : (fun l => (sem h l).mflags) = mf := by funext l; rw [hs]
  rw [h1, h2] at hg hiss
  refine ⟨t, ht, ?_, hq, hg, hiss, he⟩
  · intro k hk
    rw [hl k hk]
    refine ⟨fun h0 => by simp [h0], fun h1 => ?_, fun h1 hgd => ?_⟩
    · rw [if_pos h1, hs]
      cases hgd : guardOn gd (laneAt s h k) with
      | false =>
        refine ⟨goOn_laneOn h _ k _ _ rfl, ⟨rfl, rfl⟩, fun r _ => ⟨rfl, rfl⟩⟩
      | true =>
        simp only [if_true, laneWrite]
        refine ⟨goOn_laneOn h _ k _ _ ?_, ?_, fun r hr' => ?_⟩
        · rw [vputs_frame]
        · constructor <;> (simp only [goOn]; rw [vputs_frame])
        · exact vputs_kept n _ d _ r hr'
    · rw [if_pos h1, if_pos hgd, hs]
      simp only [laneWrite]
      obtain ⟨h1, h2⟩ := vputs_read n (laneAt s h k) d (val (laneAt s h k))
      exact ⟨(vregs_congr (vputs (laneAt s h k) d n (val (laneAt s h k))) (goOn h s.cycle k _) rfl n d).trans h1, h2⟩

/-- A word whose lanes each write one predicate and nothing else. -/
theorem predDone_of {i : Instr} {gd : Guard} {h : Here} {s : State} (hr : Ready i gd h s) (word : W64) (sem : Here → Lane → LaneOut) (d : Nat)
    (hd : d < 16) (val : Lane → Bool) (fp : Lane → BitVec 5) (hs : ∀ l, sem h l = { p := some (d, val l), flags := fp l }) :
    ∃ t, runWord i gd (vecBody word sem) s = .next t ∧ PredDone gd h s t d val fp := by
  obtain ⟨t, ht, he, hiss, hq, hg, hl⟩ := vecWord_done hr word sem fun k _ => by rw [hs]
  have h1 : (fun l => (sem h l).flags) = fp := by funext l; rw [hs]
  have h2 : (fun l => (sem h l).mflags) = fun _ => 0#4 := by funext l; rw [hs]
  have h3 : flagsOf gd h (fun _ => 0#4) = 0#4 := by
    unfold flagsOf
    induction flagLanes gd h with
    | nil => rfl
    | cons x xs ih => simp
  rw [h1, h2, h3] at hg hiss
  refine ⟨t, ht, ?_, hq, hg, hiss, he⟩
  · intro k hk
    rw [hl k hk]
    refine ⟨fun h0 => by simp [h0], fun h1 => ?_, fun h1 hgd => ?_⟩
    · rw [if_pos h1, hs]
      cases hgd : guardOn gd (laneAt s h k) with
      | false =>
        refine ⟨goOn_laneOn h _ k _ _ rfl, fun r _ => ⟨rfl, rfl⟩, fun r _ => ⟨rfl, rfl⟩⟩
      | true =>
        simp only [if_true, laneWrite]
        refine ⟨goOn_laneOn h _ k _ _ ?_, fun r _ => ?_, fun r hr' => ?_⟩
        · rw [pput_frame]
        · rw [vreg_goOn, vempty_goOn, pput_frame]; exact ⟨rfl, rfl⟩
        · have h1 := preg_pput (laneAt s h k) d r (val (laneAt s h k)) hd
          have h2 := pempty_pput (laneAt s h k) d r (val (laneAt s h k))
          rw [if_neg hr'] at h1 h2
          exact ⟨h1, h2⟩
    · rw [if_pos h1, if_pos hgd, hs]
      simp only [laneWrite]
      have h1 := preg_pput (laneAt s h k) d d (val (laneAt s h k)) hd
      have h2 := pempty_pput (laneAt s h k) d d (val (laneAt s h k))
      rw [if_pos rfl] at h1 h2
      exact ⟨h1, h2⟩

/-- A scalar word writes its destination, when its guard is true in some active lane, and nothing else. -/
theorem scalDone_of {i : Instr} {gd : Guard} {h : Here} {s : State} (hr : Ready i gd h s) (d : Nat) (sem : Here → W64) :
    ∃ t, runWord i gd (scalBody d sem) s = .next t ∧ ScalDone gd h s t d (sem h) := by
  have hlanes : ∀ (f : Gang → Gang) (t : State), (∀ n, laneOf (f h.g) n = laneOf h.g n) →
      gangAt t h = movedGang h h.iss.lanes (atLast h) h.iss.jops (h.iss.fops ++ raises 0#5 0#4) s.cycle (f h.g) → PlainLanes h s t := by
    intro f t hf ht k hk
    rw [laneAt, ht, laneOf_movedGang _ _ _ _ _ _ _ _ hk, hf, laneAt_here hr.place]
    refine ⟨fun h0 => by simp [h0], fun h1 => ?_⟩
    rw [if_pos h1]
    exact ⟨goOn_laneOn h _ k _ _ rfl, ⟨rfl, rfl⟩, fun r _ => ⟨rfl, rfl⟩⟩
  have hnil : h.iss.fops = h.iss.fops ++ raises 0#5 0#4 := (List.append_nil _).symm
  by_cases hz : trueMask h gd = 0#32
  · obtain ⟨t, ht, he, hiss, hover, hgang⟩ := runWord_idle hr (scalBody d sem) true (by rw [scalBody, if_pos hz])
    rw [hnil] at hgang
    refine ⟨t, ht, ?_, hlanes id t (fun _ => rfl) hgang, gangOn_of _ _ _ hover hgang ?_, hiss, he⟩
    · intro q hq
      rw [quadAt, hgang, quadOf_movedGang, quadAt_here hr.place]
      simp [hz]
    · rw [gangAt_here hr.place]
  · obtain ⟨t, ht, he, hiss, hover, hgang⟩ := runWord_onGang hr (scalBody d sem) (putS h d (sem h)) 0#5 0#4 true (by rw [scalBody, if_neg hz]; rfl)
    refine ⟨t, ht, ?_, hlanes (putS h d (sem h)) t (fun _ => rfl) hgang, gangOn_of _ _ _ hover hgang ?_, ?_, he⟩
    · intro q hq
      rw [quadAt, hgang, quadOf_movedGang, quadAt_here hr.place, putS, quadOf_mapQuads _ _ _ _ hq]
      cases hd : (dstQuads h).getLsbD q with
      | false => simp
      | true =>
        refine ⟨rfl, fun r => ?_⟩
        simp only [if_true, sreg_sput, sempty_sput]
        by_cases hr' : r = d <;> simp [hr', hz]
    · rw [gangAt_here hr.place]
      rfl
    · simpa [Here.withOps, show raises 0#5 0#4 = [] from rfl] using hiss

end Sys2Proof.Machine
end

