-- ==== Sys2Proof/Tests/Slice0.lean ====
section
/-! SUPPORT. Tests. Expected words and values come from the spec's own encodings and worked examples, named at each test, or from calculation by
hand from its tables. The witness theorems show states and operands that meet the hypotheses of the statements in Certificates/Slice0. -/

set_option maxRecDepth 100000

namespace Sys2Proof.Tests

open Sys2Proof Sys2Proof.Machine

/-! States of one workgroup about to execute one word. -/

/-- The guard p0, the fields of a format-T word with three registers, and the same with a MOD. -/
def g0 : Guard := ⟨0, false, 0⟩
def fT : FmtT := ⟨4, 6, 8, 12, false, false, 0⟩
def fM (m : BitVec 14) : FmtT := { fT with mod := m }
/-- The word's own state: the issue of the word stands at the head, and the workgroup and the state are changed as given. -/
def placed (i : Instr) (f : Wg → Wg := id) (k : State → State := id) : State :=
  let s := State.reset.withFetchWord 64 (((encode i).getD 0#64).toNat)
  k { s with wgs := s.wgs.map f, agenda := [] }
/-- Registers of every quad and every lane. -/
def regs (sv : List W64) (vv : List W32 := []) (pv : BitVec 16 := 0) (w : Wg) : Wg :=
  { w with gangs := w.gangs.map fun g => { g with quads := List.replicate 8 { s := sv }, lanes := g.lanes.map fun l => { l with v := vv, p := pv } } }
/-- The issue of quad 0 alone. -/
def quadIssue (s : State) : State := { s with issues := s.issues.map fun i => { i with quad := some 0, lanes := 0xF#32 } }
/-- A check of the place where the next word executes. -/
def atHere (s : State) (p : Here → Bool) : Bool := match here s with
  | some h => p h
  | none => false
/-- Ready, as a check. -/
def rdyAt (i : Instr) (gd : Guard) (h : Here) (s : State) : Bool :=
  h.iss.lanes != 0#32 && !(gd.pred == 0#4 && gd.pn) && !guardEmpty h gd && privMask i h (trueMask h gd) == 0#32
    && quotaMask h (operandsOf i) (checked i h (trueMask h gd)) == 0#32 && macQuota i h (trueMask h gd) == 0#32 && !holdsWord h gd (operandsOf i)
    && emptyMask h gd (operandsOf i) (checked i h (trueMask h gd)) == 0#32 && !(isGangOp i && givePending s h.iss.wg h.iss.gang)
/-- Ready and one more check. -/
def rdy (i : Instr) (gd : Guard) (s : State) (p : Here → Bool := fun _ => true) : Bool := atHere s fun h => rdyAt i gd h s && p h
/-- What the check shows. -/
theorem rdy_spec {i : Instr} {gd : Guard} {s : State} {p : Here → Bool} (h : rdy i gd s p = true) : ∃ x, Ready i gd x s ∧ p x = true := by
  unfold rdy atHere at h
  split at h
  · next x hx =>
    simp only [rdyAt, Bool.and_eq_true, bne_iff_ne, ne_eq, Bool.not_eq_true', beq_iff_eq] at h
    obtain ⟨⟨⟨⟨⟨⟨⟨⟨⟨h1, h2⟩, h3⟩, h4⟩, h5⟩, h6⟩, h7⟩, h8⟩, h9⟩, hp⟩ := h
    refine ⟨x, ⟨hx, h1, ?_, h3, h4, h5, h6, h7, h8, h9⟩, hp⟩
    rintro ⟨a, b⟩
    simp [a, b] at h2
  · cases h
/-- The state of the first workgroup after one step, where the step goes on. -/
def after (s : State) : Option State := match step s with
  | .next t => some t
  | _ => none
def goes (r : Host.Outcome State Fault Refusal) : Bool := match r with
  | .next _ => true
  | _ => false
/-- A scalar register of quad q, and a vector register and a predicate of a lane, after the word. -/
def sOut (s : State) (r : Nat) (q : Nat := 0) : Option W64 := (after s).bind fun t => (t.wgs.head?).map fun w => sreg (quadOf (gangOf w 0) q) r
def vOut (s : State) (r : Nat) (n : Nat := 5) : Option W32 := (after s).bind fun t => (t.wgs.head?).map fun w => vreg (laneOf (gangOf w 0) n) r
def pOut (s : State) (r : Nat) (n : Nat := 5) : Option Bool := (after s).bind fun t => (t.wgs.head?).map fun w => preg (laneOf (gangOf w 0) n) r

/-! The encodings: words of the spec's examples and listings, each beside the assembly the spec gives for it. -/

/-- Every pair decodes as given, and the instruction encodes back to the word. -/
def reads (xs : List (W64 × Instr)) : Bool := xs.all fun p => decode p.1 == .ok p.2 && encode p.2 == some p.1

/-- 13: the listing of the nested loop; 16: P1's listing. -/
theorem test_decode_scalar : reads [
    (0x04000303FFFFFFFF, .saddi g0 ⟨3, 3, 0xFFFFFFFF⟩), (0x17000003FFFFFFFE, .brnz g0 ⟨0, 3, 0xFFFFFFFE⟩),
    (0x1810300000000003, .brv ⟨1, false, 0⟩ ⟨3, 3⟩), (0x1A00000A00000000, .ret g0 ⟨0, 10, 0, 0, false, false, 0⟩),
    (0x1B00100000000000, .rejoin g0 ⟨1, 0⟩), (0x1E00000000000000, .exit g0 ⟨0, 0, 0, 0, false, false, 0⟩),
    (0x1C00010000000004, .jmset g0 ⟨1, 0, 0, 0, false, false, 4⟩), (0x0900130405000000, .sor g0 ⟨19, 4, 5, 0, false, false, 0⟩),
    (0x0000000000000000, .nop g0 ⟨0, 0, 0, 0, false, false, 0⟩), (0x1500800000000002, .jmp g0 ⟨8, 2⟩)] = true := by decide
/-- R210, R216, R231, R241, and P1, P4. -/
theorem test_decode_vector : reads [
    (0x2200080403008001, .vadd g0 ⟨8, 4, 3, 0, true, false, 1⟩), (0x3D0003040500000A, .vcmp g0 ⟨3, 4, 5, 0, false, false, 0xA⟩),
    (0x3D00020600000001, .vcmp g0 ⟨2, 6, 0, 0, false, false, 1⟩), (0x2120050000000001, .vmovi ⟨2, false, 0⟩ ⟨5, 0, 1⟩),
    (0x53000A0406088001, .ffma g0 ⟨10, 4, 6, 8, true, false, 1⟩), (0x77000C0403008112, .cvtq g0 ⟨12, 4, 3, 0, true, false, 0x112⟩),
    (0x74000A0900000060, .cvtff g0 ⟨10, 9, 0, 0, false, false, 0x60⟩)] = true := by decide
/-- R243 to R268 and the listings of P1, P2, P4, P6. -/
theorem test_decode_memory : reads [
    (0x8004040402000000, .ld ⟨0, false, 4⟩ ⟨4, 0, 2, false, 2, 0⟩), (0x8000081A02000000, .ld g0 ⟨8, 1, 5, false, 2, 0⟩),
    (0x8104053403000000, .st ⟨0, false, 4⟩ ⟨5, 3, 2, false, 3, 0⟩), (0x82040438FF000000, .lds ⟨0, false, 4⟩ ⟨4, 3, 4, false, 0xFF, 0⟩),
    (0x85000A020D000000, .stsp g0 ⟨10, 0, 1, false, 13, 0⟩), (0x91040624030B0010, .atom ⟨0, false, 4⟩ ⟨6, 2, 2, false, 3, 0x0B0010⟩),
    (0x94140624FF070004, .waitv ⟨1, false, 4⟩ ⟨6, 2, 2, false, 0xFF, 0x070004⟩), (0x93140724FF0B0004, .red ⟨1, false, 4⟩ ⟨7, 2, 2, false, 0xFF, 0x0B0004⟩),
    (0x950000000000001B, .fence g0 ⟨0, 0, 0, 0, false, false, 0x1B⟩), (0x96040031FF000000, .clnr ⟨0, false, 4⟩ ⟨0, 3, 0, true, 0xFF, 0⟩),
    (0x8800110405060001, .hborx g0 ⟨17, 4, 5, 6, false, false, 1⟩), (0x8E00000100000000, .hret g0 ⟨0, 1, 0, 0, false, false, 0⟩),
    (0x9A00000B0C000000, .acset g0 ⟨0, 11, 12, 0, false, false, 0⟩), (0x9C00080100000000, .acwait g0 ⟨8, 1, 0, 0, false, false, 0⟩),
    (0xA100000404000000, .rqset g0 ⟨0, 4, 4, 0, false, false, 0⟩)] = true := by decide
/-- The listings of P3 and P4, R319, R337, R342, R347, R352, R355, R358, R371, R380, R382. -/
theorem test_decode_units : reads [
    (0xA800000100D00031, .mld g0 ⟨0, 0, 0, 16, 13, 0x31⟩), (0xA9000880E1500000, .mma g0 ⟨1, 1, 0, 14, 21, 0⟩),
    (0xAC0008001E008002, .mrd g0 ⟨8, 0, 30, 0, true, false, 2⟩), (0xAD0020011E008003, .mwr g0 ⟨32, 1, 30, 0, true, false, 3⟩),
    (0xAE00140000000000, .mbatch g0 ⟨20, 0, 0, 0, false, false, 0⟩), (0xAF00151400000010, .mwait g0 ⟨21, 20, 0, 0, false, false, 16⟩),
    (0xC000140204050001, .msub g0 ⟨20, 2, 4, 5, false, false, 1⟩), (0xC400120104060001, .cpy g0 ⟨18, 1, 4, 6, false, false, 1⟩),
    (0xC5001110080A0000, .cpyt g0 ⟨17, 16, 8, 10, false, false, 0⟩), (0xC700121011080803, .msop g0 ⟨18, 16, 17, 8, false, false, 0x803⟩),
    (0xC8000A0405060001, .amsend g0 ⟨10, 4, 5, 6, false, false, 1⟩), (0xC9000C0405000009, .spawn g0 ⟨12, 4, 5, 0, false, false, 9⟩),
    (0xCA000D0C00000000, .waitch g0 ⟨13, 12, 0, 0, false, false, 0⟩), (0xD0001411080C0000, .xfer g0 ⟨20, 17, 8, 12, false, false, 0⟩),
    (0xD100151210182230, .cred g0 ⟨21, 18, 16, 24, false, false, 0x2230⟩), (0xD400161500000000, .cwait g0 ⟨22, 21, 0, 0, false, false, 0⟩)] = true := by decide
/-- R407 to R412: the examples of the system instructions. -/
theorem test_decode_system : reads [
    (0xF000010000010000, .csrr g0 ⟨1, 0, 1, 0⟩), (0xF000010000060001, .csrr g0 ⟨1, 0, 6, 1⟩), (0xF100000700100001, .csrw g0 ⟨0, 7, 0x10, 1⟩),
    (0xF300000000000001, .rett g0 ⟨0, 0, 0, 1⟩), (0xF600000400000000, .timew g0 ⟨0, 4, 0, 0⟩)] = true := by decide
/-- R149, R176: a header's mark, an unassigned opcode, an experimental one and a reserved value are refused by name. -/
theorem test_decode_refusals : (decode 0xF92800000080340C == .error .header && decode 0x8700000000000000 == .error .illegalOpcode
    && decode 0xE000000000000000 == .error .illegalOpcode && decode 0x0000010000000000 == .error .reservedField) = true := by decide

/-! WellFormed: for each check an ill-formed word that it refuses, beside a word that passes. -/

/-- None of these is well formed. -/
def bad (xs : List Instr) : Bool := xs.all fun i => !wellFormed i
/-- R165, R172, R173: the checks that format T shares: a field that must be 0, a vector pair, a scalar register past s63, a predicate past p15, a
mask past j7, a hank past w7, a queue, a macro, a tile, a batch number, BS and CS where they are reserved, FE bits that cover nothing, MOD bits
and MOD values not defined. -/
theorem test_illformed_shared : bad [
    .nop g0 ⟨1, 0, 0, 0, false, false, 0⟩, .nop ⟨0, false, 1⟩ ⟨0, 0, 0, 0, false, false, 0⟩, .smov g0 ⟨64, 1, 0, 0, false, false, 0⟩,
    .sadd g0 ⟨1, 2, 3, 4, false, false, 0⟩, .sadd g0 ⟨1, 2, 3, 0, true, false, 0⟩, .sadd g0 ⟨1, 2, 3, 0, false, true, 0⟩,
    .sadd g0 ⟨1, 2, 3, 0, false, false, 1⟩, .sadd ⟨0, false, 4⟩ ⟨1, 2, 3, 0, false, false, 0⟩, .smov ⟨0, false, 2⟩ ⟨1, 2, 0, 0, false, false, 0⟩,
    .scmp g0 ⟨1, 2, 3, 0, false, false, 6⟩, .ret g0 ⟨0, 5, 0, 0, false, false, 0⟩, .vmadw g0 ⟨3, 2, 4, 6, false, false, 0⟩,
    .vadd g0 ⟨1, 2, 64, 0, true, false, 0⟩, .vadd g0 ⟨1, 2, 3, 0, false, false, 3⟩, .vsel g0 ⟨1, 2, 3, 16, false, false, 0⟩,
    .vcmp g0 ⟨1, 2, 3, 0, false, false, 0x30⟩, .vcmp g0 ⟨1, 2, 3, 5, false, false, 0⟩, .pand g0 ⟨16, 0, 0, 0, false, false, 0⟩,
    .jmset g0 ⟨8, 1, 0, 0, false, false, 0⟩, .jmset g0 ⟨1, 1, 0, 0, false, false, 3⟩, .jmqry g0 ⟨1, 0, 0, 0, false, false, 3⟩,
    .vmov g0 ⟨1, 2, 0, 0, false, false, 2⟩, .hret g0 ⟨0, 24, 0, 0, false, false, 0⟩, .cpy g0 ⟨25, 1, 4, 6, false, false, 0⟩,
    .qdef g0 ⟨16, 1, 2, 0, false, false, 0⟩, .mrel g0 ⟨0, 16, 0, 0, false, false, 0⟩, .mstat g0 ⟨1, 16, 0, 0, false, false, 1⟩,
    .mrd g0 ⟨8, 32, 30, 0, true, false, 2⟩] = true := by decide
/-- The entries' own conditions on MOD (R216 to R242, R286 to R302, R347, R380). -/
theorem test_illformed_mod : bad [
    .xquad g0 ⟨1, 2, 0, 0, false, false, 4⟩, .xlane g0 ⟨1, 2, 0, 0, false, false, 0x44⟩, .xbcast g0 ⟨1, 2, 3, 0, false, false, 0x80⟩,
    .xred g0 ⟨1, 2, 0, 0, false, false, 11⟩, .xvote g0 ⟨1, 2, 0, 0, false, false, 3⟩, .fmin g0 ⟨1, 2, 3, 0, false, false, 1⟩,
    .dadd g0 ⟨2, 4, 7, 0, false, false, 0⟩, .dcmp g0 ⟨1, 2, 4, 0, false, false, 8⟩, .hadd2 g0 ⟨1, 2, 3, 0, false, false, 12⟩,
    .cvtff g0 ⟨1, 2, 0, 0, false, false, 0x100⟩, .cvtfi g0 ⟨1, 2, 0, 0, false, false, 4⟩, .cvtif g0 ⟨1, 2, 0, 0, false, false, 0x100⟩,
    .cvtq g0 ⟨1, 2, 3, 0, true, false, 0x210⟩, .cvtdq g0 ⟨1, 2, 3, 0, false, false, 0x208⟩, .fclass g0 ⟨1, 3, 0, 0, false, false, 1⟩,
    .hborx g0 ⟨1, 4, 5, 6, false, false, 2⟩, .hborx ⟨0, false, 4⟩ ⟨1, 4, 5, 6, false, false, 0⟩, .acset g0 ⟨0, 1, 2, 3, false, false, 0⟩,
    .mrd g0 ⟨8, 0, 30, 0, false, false, 0⟩, .mwr g0 ⟨240, 0, 30, 0, true, false, 5⟩, .mwait g0 ⟨1, 2, 0, 0, false, false, 0x11⟩,
    .rstat g0 ⟨1, 0, 0, 0, false, false, 3⟩, .msop g0 ⟨1, 2, 3, 8, false, false, 0x600⟩, .xfer g0 ⟨1, 2, 3, 8, false, false, 0⟩,
    .cred g0 ⟨1, 2, 4, 8, false, false, 0xC00⟩, .cred g0 ⟨1, 2, 4, 8, false, false, 31⟩, .cbcast g0 ⟨1, 2, 4, 8, false, false, 24⟩] = true := by decide
/-- The other formats (R166 to R171). -/
theorem test_illformed_formats : bad [
    .smovi g0 ⟨1, 3, 0⟩, .smovi ⟨0, false, 1⟩ ⟨1, 0, 0⟩, .saddi g0 ⟨1, 64, 0⟩, .brz g0 ⟨1, 2, 0⟩, .call g0 ⟨3, 0xFF, 0⟩, .call g0 ⟨4, 7, 0⟩,
    .call g0 ⟨4, 6, 1⟩, .call ⟨0, false, 1⟩ ⟨4, 0xFF, 1⟩, .vmovi g0 ⟨1, 1, 0⟩, .jmp ⟨1, false, 0⟩ ⟨8, 2⟩, .jmp g0 ⟨0, 2⟩, .brv ⟨0, false, 1⟩ ⟨9, 2⟩,
    .rejoin g0 ⟨8, 0⟩, .rejoin g0 ⟨1, 1⟩, .rejoin ⟨1, false, 0⟩ ⟨1, 0⟩, .ld g0 ⟨4, 1, 6, false, 2, 0⟩, .ld g0 ⟨4, 1, 2, true, 2, 0⟩,
    .ld g0 ⟨5, 1, 3, false, 2, 0⟩, .ld ⟨0, false, 1⟩ ⟨4, 1, 2, false, 0xFF, 0⟩, .ld ⟨0, false, 4⟩ ⟨4, 8, 2, false, 2, 0⟩, .st g0 ⟨4, 1, 0, true, 2, 0⟩,
    .ldsp g0 ⟨4, 1, 2, false, 2, 0⟩, .lds g0 ⟨5, 1, 4, false, 2, 0⟩, .sts g0 ⟨4, 1, 3, false, 64, 0⟩, .ldc g0 ⟨4, 1, 1, false, 2, 0⟩,
    .ldc g0 ⟨4, 1, 2, false, 2, 0x100000⟩, .atom g0 ⟨4, 1, 2, false, 2, 0xC00000⟩, .atomcas g0 ⟨5, 1, 2, false, 2, 0⟩, .red g0 ⟨4, 1, 2, false, 2, 0x40000⟩,
    .waitv g0 ⟨4, 1, 2, false, 2, 0⟩, .clnr g0 ⟨0, 1, 1, false, 2, 0⟩, .invr g0 ⟨0, 1, 0, true, 2, 0⟩, .mld g0 ⟨1, 0, 0, 16, 13, 0⟩,
    .mld g0 ⟨0, 0, 0, 15, 13, 0⟩, .mld g0 ⟨0, 0, 0, 16, 13, 24⟩, .mma g0 ⟨0, 0, 0, 64, 13, 0⟩, .mma g0 ⟨0, 0, 0, 14, 64, 0⟩, .mma g0 ⟨0, 0, 0, 14, 21, 1⟩,
    .mzero g0 ⟨0, 1, 0, 0, 0xFF, 0⟩, .mzero ⟨0, false, 2⟩ ⟨0, 0, 0, 0, 0xFF, 0⟩, .csrr g0 ⟨1, 0, 0x0D, 1⟩, .csrr g0 ⟨1, 0, 1, 1⟩, .csrw g0 ⟨1, 7, 0x10, 1⟩,
    .csrrCtl g0 ⟨1, 7, 0xFFFF, 0⟩, .csrwCtl g0 ⟨64, 7, 0xFFFF, 1⟩, .trap g0 ⟨0, 0, 0, 64⟩, .rett g0 ⟨0, 0, 0, 2⟩, .bkpt g0 ⟨1, 0, 0, 0⟩,
    .haltg g0 ⟨0, 0, 1, 0⟩, .timew g0 ⟨0, 64, 0, 0⟩, .load, .reset, .frameInject] = true := by decide

/-! Effects: one step each. -/

/-- One scalar operation on s6 = a, s8 = b, s12 = 7, s4 = 0x55 before; s4 after. -/
def scal (i : Instr) (a b : W64) : Option W64 := sOut (placed i (regs [0, 0, 0, 0, 0x55, 0, a, 0, b, 0, 0, 0, 7])) 4 3
/-- R190: wrap, high products in both readings, shift amounts modulo 64, signed and unsigned order. -/
theorem test_scalar_table : ([
    (scal (.sadd g0 { fT with c := 0 }) (BitVec.allOnes 64) 1, 0), (scal (.ssub g0 { fT with c := 0 }) 0 1, BitVec.allOnes 64),
    (scal (.smul g0 { fT with c := 0 }) (BitVec.allOnes 64) (BitVec.allOnes 64), 1), (scal (.smulh g0 { fT with c := 0 }) (BitVec.allOnes 64) 2, BitVec.allOnes 64),
    (scal (.smulh g0 { fT with c := 0, mod := 1 }) (BitVec.allOnes 64) 2, 1), (scal (.sand g0 { fT with c := 0 }) 0xC 0xA, 8),
    (scal (.sor g0 { fT with c := 0 }) 0xC 0xA, 0xE), (scal (.sxor g0 { fT with c := 0 }) 0xC 0xA, 6), (scal (.sshl g0 { fT with c := 0 }) 3 65, 6),
    (scal (.sshr g0 { fT with c := 0 }) (BitVec.allOnes 64) 127, 1), (scal (.ssra g0 { fT with c := 0 }) (1 <<< 63) 63, BitVec.allOnes 64),
    (scal (.smin g0 { fT with c := 0 }) 1 (BitVec.allOnes 64), BitVec.allOnes 64), (scal (.smin g0 { fT with c := 0, mod := 1 }) 1 (BitVec.allOnes 64), 1),
    (scal (.smax g0 { fT with c := 0 }) 1 (BitVec.allOnes 64), 1), (scal (.smov g0 { fT with b := 0, c := 0 }) 9 3, 9)] :
      List (Option W64 × W64)).all (fun p => p.1 == some p.2) = true := by decide
/-- R190, R191: counts, comparison, selection, and division with its two fixed cases. -/
theorem test_scalar_rest : ([
    (scal (.sclz g0 { fT with b := 0, c := 0 }) 1 0, 63), (scal (.spopc g0 { fT with b := 0, c := 0 }) 0xF0F 0, 8),
    (scal (.scmp g0 { fT with c := 0, mod := 2 }) (BitVec.allOnes 64) 1, 1), (scal (.scmp g0 { fT with c := 0, mod := 10 }) (BitVec.allOnes 64) 1, 0),
    (scal (.ssel g0 fT) 3 4, 3), (scal (.sdiv g0 { fT with c := 0 }) (-7) 2, -3), (scal (.sdiv g0 { fT with c := 0, mod := 2 }) (-7) 2, -1),
    (scal (.sdiv g0 { fT with c := 0 }) 5 0, BitVec.allOnes 64), (scal (.sdiv g0 { fT with c := 0, mod := 2 }) 5 0, 5),
    (scal (.sdiv g0 { fT with c := 0 }) (1 <<< 63) (BitVec.allOnes 64), 1 <<< 63), (scal (.saddi g0 ⟨4, 6, 0xFFFFFFFF⟩) 3 0, 2),
    (scal (.smovi g0 ⟨4, 0, 0xFFFFFFFE⟩) 0 0, -2), (scal (.smovi g0 ⟨4, 1, 0xFFFFFFFE⟩) 0 0, 0xFFFFFFFE), (scal (.smovi g0 ⟨4, 2, 9⟩) 0 0, 0x900000055)] :
      List (Option W64 × W64)).all (fun p => p.1 == some p.2) = true := by decide

/-- One vector operation on v6 = a, v8 = b, v12 = c, v4 = d before; v4 of lane 5 after. -/
def vect (i : Instr) (a b c d : W32) (p : BitVec 16 := 0) : Option W32 := vOut (placed i (regs [0, 0, 0, 0xFFFFFFFF80000000] [0, 0, 0, 0, d, 0, a, 0, b, 0, 0, 0, c, 0] p)) 4
def fAB (m : BitVec 14 := 0) : FmtT := { fT with c := 0, mod := m }
def fA (m : BitVec 14 := 0) : FmtT := { fT with b := 0, c := 0, mod := m }
/-- R209, R210, R213. The scalar operand of VADD.sat is bits [31:0] of s3, as in the example of R210. -/
theorem test_vector_arith : ([
    (vect (.vadd g0 (fAB)) 0xFFFFFFFF 1 0 9, 0), (vect (.vadd g0 (fAB 1)) 0x7FFFFFFF 1 0 9, 0x7FFFFFFF), (vect (.vadd g0 (fAB 2)) 0xFFFFFFFF 1 0 9, 0xFFFFFFFF),
    (vect (.vadd g0 ⟨4, 6, 3, 0, true, false, 1⟩) 0x80000000 0 0 9, 0x80000000), (vect (.vsub g0 (fAB 2)) 1 2 0 9, 0), (vect (.vsub g0 (fAB 1)) 0x80000000 1 0 9, 0x80000000),
    (vect (.vmul g0 (fAB)) 0x10001 0x10001 0 9, 0x20001), (vect (.vmulh g0 (fAB)) 0xFFFFFFFF 2 0 9, 0xFFFFFFFF), (vect (.vmulh g0 (fAB 1)) 0xFFFFFFFF 2 0 9, 1),
    (vect (.vmad g0 fT) 3 5 7 9, 22), (vect (.vmin g0 (fAB)) 0xFFFFFFFF 1 0 9, 0xFFFFFFFF), (vect (.vmax g0 (fAB 1)) 0xFFFFFFFF 1 0 9, 0xFFFFFFFF),
    (vect (.vabs g0 (fA)) 0x80000000 0 0 9, 0x80000000), (vect (.vabs g0 (fA 1)) 0x80000000 0 0 9, 0x7FFFFFFF), (vect (.vneg g0 (fA)) 5 0 0 9, 0xFFFFFFFB),
    (vect (.vneg g0 (fA 1)) 0x80000000 0 0 9, 0x7FFFFFFF)] : List (Option W32 × W32)).all (fun p => p.1 == some p.2) = true := by decide
/-- R209, R214, R215, R217: bits, shifts, fields, and the sign extension recipe of VPERM4 (C is 0x42100). -/
theorem test_vector_bits : ([
    (vect (.vand g0 (fAB)) 0xC 0xA 0 9, 8), (vect (.vor g0 (fAB)) 0xC 0xA 0 9, 0xE), (vect (.vxor g0 (fAB)) 0xC 0xA 0 9, 6), (vect (.vandn g0 (fAB)) 0xC 0xA 0 9, 4),
    (vect (.vnot g0 (fA)) 0 0 0 9, 0xFFFFFFFF), (vect (.vshl g0 (fAB)) 3 33 0 9, 6), (vect (.vshr g0 (fAB)) 0x80000000 31 0 9, 1), (vect (.vsra g0 (fAB)) 0x80000000 31 0 9, 0xFFFFFFFF),
    (vect (.vrot g0 (fAB)) 0x80000001 1 0 9, 3), (vect (.vrot g0 (fAB 1)) 0x80000001 1 0 9, 0xC0000000), (vect (.vclz g0 (fA)) 0 0 0 9, 32), (vect (.vpopc g0 (fA)) 0xF0F 0 0 9, 8),
    (vect (.vbrev g0 (fA)) 1 0 0 9, 0x80000000), (vect (.vbfe g0 fT) 0xF0 4 8 9, 0xF), (vect (.vbfe g0 (fM 1)) 0xF0 4 4 9, 0xFFFFFFFF), (vect (.vbfe g0 fT) 0xF0000000 28 40 9, 0xF),
    (vect (.vbfi g0 fT) 0xFF 4 4 0x1001, 0x10F1), (vect (.vbfi g0 fT) 0xFF 4 0 0x1001, 0x1001), (vect (.vperm4 g0 fT) 0x12345680 0 0x42100 9, 0xFFFFFF80),
    (vect (.vsel g0 { fT with c := 2 }) 1 2 0 9 4, 1), (vect (.vsel g0 { fT with c := 2 }) 1 2 0 9, 2), (vect (.vmov g0 ⟨4, 3, 0, 0, false, false, 3⟩) 0 0 0 9, 0xFFFFFFFF),
    (vect (.vmovi g0 ⟨4, 0, 77⟩) 0 0 0 9, 77)] : List (Option W32 × W32)).all (fun p => p.1 == some p.2) = true := by decide
/-- R212, R213, R216, R218: the carry in and out, the wide product, a comparison combined with a predicate, and p0. -/
theorem test_vector_carry : (vect (.vaddc g0 { fT with c := 2 }) 0xFFFFFFFF 0 0 9 4 == some 0 && pOut (placed (.vaddc g0 { fT with c := 2 }) (regs [] [0, 0, 0, 0, 9, 0, 0xFFFFFFFF, 0, 0] 4)) 2 == some true
    && vect (.vsubb g0 { fT with c := 2, mod := 1 }) 1 2 0 9 4 == some 0xFFFFFFFF && pOut (placed (.vsubb g0 { fT with c := 2, mod := 1 }) (regs [] [0, 0, 0, 0, 9, 0, 1, 0, 2])) 2 == some true
    && vOut (placed (.vmadw g0 fT) (regs [] [0, 0, 0, 0, 9, 9, 0xFFFFFFFF, 0, 2, 0, 0, 0, 1, 0])) 5 == some 0xFFFFFFFF
    && pOut (placed (.vcmp g0 ⟨3, 6, 8, 2, false, false, 0x1A⟩) (regs [] [0, 0, 0, 0, 0, 0, 1, 0, 2])) 3 == some false
    && pOut (placed (.pnot g0 ⟨0, 1, 0, 0, false, false, 0⟩) (regs [] [] 2)) 0 == some true
    && pOut (placed (.pxor g0 ⟨3, 1, 2, 0, false, false, 0⟩) (regs [] [] 6)) 3 == some false) = true := by decide
/-- R231, R139: rounding of 1 / 3 in two modes, −0 below +0, a NaN beside a number, an exact fused product, √2, and overflow. -/
theorem test_float_arith : ([
    (vect (.fadd g0 (fAB)) 0x3F800000 0x40000000 0 9, 0x40400000), (vect (.fsub g0 (fAB)) 0x3F800000 0x3F800000 0 9, 0), (vect (.fsub g0 (fAB 3)) 0x3F800000 0x3F800000 0 9, 0x80000000),
    (vect (.fmul g0 (fAB)) 0x7F000000 0x40000000 0 9, 0x7F800000), (vect (.fmul g0 (fAB 1)) 0x7F000000 0x40000000 0 9, 0x7F7FFFFF), (vect (.fdiv g0 (fAB)) 0x3F800000 0x40400000 0 9, 0x3EAAAAAB),
    (vect (.fdiv g0 (fAB 1)) 0x3F800000 0x40400000 0 9, 0x3EAAAAAA), (vect (.ffma g0 fT) 0x3F800001 0x3F800001 0xBF800002 9, 0x28800000), (vect (.fsqrt g0 (fA)) 0x40000000 0 0 9, 0x3FB504F3),
    (vect (.fsqrt g0 (fA)) 0x80000000 0 0 9, 0x80000000), (vect (.fmin g0 (fAB)) 0 0x80000000 0 9, 0x80000000), (vect (.fmax g0 (fAB)) 0x7FC00000 0x3F800000 0 9, 0x3F800000),
    (vect (.fmin g0 (fAB)) 0x7FC00000 0x7FC00001 0 9, 0x7FC00000), (vect (.fadd g0 (fAB 4)) 0x00000001 0 0 9, 0), (vect (.fadd g0 (fAB)) 0x00000001 0 0 9, 1)] :
      List (Option W32 × W32)).all (fun p => p.1 == some p.2) = true := by decide
/-- R146, R147, R231, R232: special results of the estimates, FRND to even, the fraction, a class, and a scaled value. -/
theorem test_float_rest : ([
    (vect (.frcp g0 (fA)) 0x80000000 0 0 9, 0xFF800000), (vect (.frsq g0 (fA)) 0xBF800000 0 0 9, 0x7FC00000), (vect (.fexp2 g0 (fA)) 0xFF800000 0 0 9, 0),
    (vect (.flog2 g0 (fA)) 0 0 0 9, 0xFF800000), (vect (.fsin g0 (fA)) 0x80000000 0 0 9, 0x80000000), (vect (.fcos g0 (fA)) 0 0 0 9, 0x3F800000),
    (vect (.ftanh g0 (fA)) 0xFF800000 0 0 9, 0xBF800000), (vect (.frnd g0 (fA)) 0x40200000 0 0 9, 0x40000000), (vect (.frnd g0 (fA 2)) 0x40200000 0 0 9, 0x40400000),
    (vect (.ffrc g0 (fA)) 0xC0200000 0 0 9, 0xBF000000), (vect (.fclass g0 (fA)) 0x80000001 0 0 9, 4), (vect (.fclass g0 (fA)) 0x7F800001 0 0 9, 0x100),
    (vect (.fscale g0 (fAB)) 0x3F800000 0xFFFFFFFF 0 9, 0x3F000000)] : List (Option W32 × W32)).all (fun p => p.1 == some p.2) = true := by decide
/-- R231, R234, R235: an ordered comparison of a NaN raises NV and is false; FP64 in register pairs: 1 + 2, 1 / 3, √2. -/
def pair (i : Instr) (a b : BitVec 64) : Option (W32 × W32) :=
  let s := placed i (regs [] [0, 0, 0, 0, 9, 9, a.extractLsb' 0 32, a.extractLsb' 32 32, b.extractLsb' 0 32, b.extractLsb' 32 32])
  (vOut s 5).bind fun hi => (vOut s 4).map fun lo => (hi, lo)
theorem test_float_wide : (pair (.dadd g0 (fAB)) 0x3FF0000000000000 0x4000000000000000 == some (0x40080000, 0)
    && pair (.ddiv g0 (fAB)) 0x3FF0000000000000 0x4008000000000000 == some (0x3FD55555, 0x55555555)
    && pair (.dsqrt g0 (fA)) 0x4000000000000000 0 == some (0x3FF6A09E, 0x667F3BCD)
    && pair (.dmul g0 (fAB)) 0x4000000000000000 0xC008000000000000 == some (0xC0180000, 0)
    && pair (.dmin g0 (fAB)) 0x0000000000000000 0x8000000000000000 == some (0x80000000, 0)
    && pOut (placed (.fcmp g0 ⟨3, 6, 8, 0, false, false, 2⟩) (regs [] [0, 0, 0, 0, 0, 0, 0x3F800000, 0, 0x40000000])) 3 == some true
    && ((after (placed (.fcmp g0 ⟨3, 6, 8, 0, false, false, 2⟩) (regs [] [0, 0, 0, 0, 0, 0, 0x7FC00000]))).bind fun t => t.wgs.head?.map fun w => (gangOf w 0).fpctl) == some 16#5
    && pOut (placed (.dcmp g0 ⟨3, 6, 8, 0, false, false, 6⟩) (regs [] [0, 0, 0, 0, 0, 0, 0, 0x7FF80000])) 3 == some true) = true := by decide
/-- R139, R231, R235, R236: a difference, the larger of two zeros and fused products of pairs and halves; infinity times 0 plus a quiet NaN raises nothing. -/
theorem test_float_fused : (pair (.dsub g0 (fAB)) 0x4008000000000000 0x3FF0000000000000 == some (0x40000000, 0)
    && pair (.dmax g0 (fAB)) 0x8000000000000000 0 == some (0, 0)
    && vOut (placed (.dfma g0 fT) (regs [] [0, 0, 0, 0, 9, 9, 0, 0x3FF00000, 0, 0x40000000, 0, 0, 0, 0x3FF00000])) 5 == some 0x40080000
    && vect (.hfma2 g0 fT) 0x3C003C00 0x40004000 0x3C000000 9 == some 0x42004000
    && vect (.ffma g0 fT) 0x7F800000 0 0x7FC00001 9 == some 0x7FC00000
    && ((after (placed (.ffma g0 fT) (regs [] [0, 0, 0, 0, 9, 0, 0x7F800000, 0, 0, 0, 0, 0, 0x7FC00001]))).bind fun t => t.wgs.head?.map fun w => (gangOf w 0).fpctl) == some 0
    && pOut (placed (.por g0 ⟨3, 1, 2, 0, false, false, 0⟩) (regs [] [] 4)) 3 == some true
    && pOut (placed (.pand g0 ⟨3, 1, 2, 0, false, false, 0⟩) (regs [] [] 0xC)) 3 == some false) = true := by decide
/-- R236 to R240: two halves, the conversions between formats, saturation to an integer, and the E8M0 scale of 3. -/
theorem test_float_convert : ([
    (vect (.hadd2 g0 (fAB)) 0x3C003C00 0x40003C00 0 9, 0x42004000), (vect (.hmul2 g0 (fAB 8)) 0x3F804000 0x40004000 0 9, 0x40004080), (vect (.cvtff g0 (fA 0x60)) 0x3F808000 0 0 9, 0x3F80),
    (vect (.cvtff g0 (fA 0x140)) 0x3F800000 0 0 0x1234, 0x3C001234), (vect (.cvtfi g0 (fA)) 0x40200000 0 0 9, 2), (vect (.cvtfi g0 (fA)) 0x7FC00000 0 0 9, 0), (vect (.cvtfi g0 (fA)) 0xCF800000 0 0 9, 0x80000000),
    (vect (.cvtfi g0 (fA 0x20)) 0xBF800000 0 0 9, 0), (vect (.cvtif g0 (fA)) 0xFFFFFFFF 0 0 9, 0xBF800000), (vect (.cvtif g0 (fA 8)) 16777217 0 0 9, 0x4B800000),
    (vect (.cvtq g0 (fA 0x300)) 0x40400000 0 0 9, 0x80), (vect (.cvtdq g0 (fA 0x200)) 0x80 0 0 9, 0x40000000)] : List (Option W32 × W32)).all (fun p => p.1 == some p.2) = true := by decide
/-- R195 to R206: where branches send lanes, what CALL leaves, and the states of EXIT, YIELD and REJOIN. -/
def laneAfter (s : State) (n : Nat := 5) : Option Lane := (after s).bind fun t => (t.wgs.head?).map fun w => laneOf (gangOf w 0) n
def base0 : W64 := 0xFFFFC00000000
theorem test_control : ((laneAfter (placed (.jmp g0 ⟨8, 2⟩))).map (fun l => l.pc) == some (base0 + 24)
    && (laneAfter (placed (.brz g0 ⟨0, 6, 0xFFFFFFFF⟩) (regs [0, 0, 0, 0, 0, 0, 0]))).map (fun l => l.pc) == some base0
    && (laneAfter (placed (.brz g0 ⟨0, 6, 0xFFFFFFFF⟩) (regs [0, 0, 0, 0, 0, 0, 1]))).map (fun l => l.pc) == some (base0 + 16)
    && (laneAfter (placed (.brnz g0 ⟨0, 6, 4⟩) (regs [0, 0, 0, 0, 0, 0, 1]))).map (fun l => l.pc) == some (base0 + 40)
    && (laneAfter (placed (.brv ⟨1, true, 0⟩ ⟨8, 4⟩))).map (fun l => l.pc) == some (base0 + 40)
    && (laneAfter (placed (.brv ⟨1, true, 0⟩ ⟨9, 4⟩))).map (fun l => l.pc) == some (base0 + 40)
    && (laneAfter (placed (.ret g0 ⟨0, 6, 0, 0, false, false, 0⟩) (regs [] [0, 0, 0, 0, 0, 0, 0x40, 0xFFFC0]))).map (fun l => l.pc) == some (0xFFFC000000040)
    && (laneAfter (placed (.call g0 ⟨4, 0xFF, 4⟩))).map (fun l => (l.pc, vreg l 5, vreg l 4)) == some (base0 + 40, 0xFFFFC, 0x10)
    && (laneAfter (placed (.exit g0 ⟨0, 0, 0, 0, false, false, 0⟩))).map (fun l => l.st) == some .exited
    && (laneAfter (placed (.yield g0 ⟨0, 0, 0, 0, false, false, 3⟩))).map (fun l => l.st) == some (.waiting (.cycles 25))
    && (laneAfter (placed (.rejoin g0 ⟨1, 0⟩))).map (fun l => l.st) == some (.blocked (.rejoin (base0 + 8) 1))) = true := by decide
/-- R200, R201: JMSET.act, JMADD and JMDEL on j1, and JMQRY. -/
def withMask (m : W32) (w : Wg) : Wg := { w with gangs := w.gangs.map fun g => { g with j := [0, m] } }
def jOut (s : State) : Option W32 := (after s).bind fun t => (t.wgs.head?).map fun w => tget 0#32 (gangOf w 0).j 1
theorem test_masks : (jOut (placed (.jmset g0 ⟨1, 0, 0, 0, false, false, 4⟩)) == some 0xFFFFFFFF
    && jOut (placed (.jmadd g0 ⟨1, 6, 0, 0, false, false, 1⟩) (fun w => withMask 0xF0 (regs [0, 0, 0, 0, 0, 0, 0x3C] [] 0 w))) == some 0xFC
    && jOut (placed (.jmdel g0 ⟨1, 6, 0, 0, false, false, 2⟩) (fun w => withMask 0xF0 (regs [0, 0, 0, 0, 0, 0, 0x3C] [] 0 w))) == some 0xC0
    && sOut (placed (.jmqry g0 ⟨4, 1, 0, 0, false, false, 0⟩) (withMask 0xF0)) 4 == some 0xF0) = true := by decide
/-- R221 to R227 in the issue of quad 0, lane n holding n: an exchange with the neighbour, the sum, an exclusive scan, a ballot, and a match. -/
def lanesOwn (w : Wg) : Wg := { w with gangs := w.gangs.map fun g => { g with lanes := (List.range 32).map fun n =>
  { (laneOf g n) with v := [0, 0, 0, 0, 9, 0, BitVec.ofNat 32 n], p := if n = 2 then 4 else 0 } } }
theorem test_cross : (vOut (placed (.xquad g0 ⟨4, 6, 0, 0, false, false, 0⟩) lanesOwn quadIssue) 4 2 == some 3
    && vOut (placed (.xred g0 ⟨4, 6, 0, 0, false, false, 0⟩) lanesOwn quadIssue) 4 2 == some 6
    && vOut (placed (.xscan g0 ⟨4, 6, 0, 0, false, false, 0x80⟩) lanesOwn quadIssue) 4 3 == some 3
    && sOut (placed (.xvote g0 ⟨4, 2, 0, 0, false, false, 2⟩) lanesOwn quadIssue) 4 == some 4
    && vOut (placed (.xmatch g0 ⟨4, 6, 0, 0, false, false, 0⟩) lanesOwn quadIssue) 4 3 == some 8
    && vOut (placed (.xlane g0 ⟨4, 6, 0, 0, false, false, 8⟩) lanesOwn quadIssue) 4 3 == some 2
    && vOut (placed (.xbcast g0 ⟨4, 6, 0, 0, false, false, 1⟩) lanesOwn quadIssue) 4 3 == some 1) = true := by decide

/-! Witnesses: states and operands that meet the hypotheses of the statements, one clause after another. -/

/-- A word that decodes, and is Ready where it is laid out alone. -/
def readyW (x : W64) : Bool := match decode x with
  | .ok i => rdy i (guardOf x) (placed i)
  | .error _ => false
theorem readyW_spec {x : W64} (h : readyW x = true) : ∃ i y s, decode x = .ok i ∧ Ready i (guardOf x) y s := by
  unfold readyW at h
  split at h
  · next i hi =>
    obtain ⟨y, hy, -⟩ := rdy_spec h
    exact ⟨i, y, _, hi, hy⟩
  · cases h
/-- An instruction, its state, and a check of the place where it executes: each is Ready there, and the check holds. -/
abbrev Case := Instr × State × (Here → Bool)
def meets (xs : List Case) : Bool := xs.all fun p => rdy p.1 g0 p.2.1 p.2.2
theorem meets_spec {xs : List Case} (h : meets xs = true) : ∀ p ∈ xs, ∃ y, Ready p.1 g0 y p.2.1 ∧ p.2.2 y = true :=
  fun p hp => rdy_spec (List.all_eq_true.mp h p hp)
/-- AccessOk, as a check. -/
def accessB (s : State) (ctx : Nat) (k : Hank) (u : Use) (ea n : Nat) : Bool :=
  !k.pending && k.kind != 0#2 && !k.revoked && (match u with
    | .load => k.kind == 1#2 || k.kind == 2#2
    | .store => k.kind == 1#2 && k.rebs == 0#4
    | .atomic => k.kind == 3#2 || (k.kind == 1#2 && k.rebs == 0#4)
    | .common => k.kind == 3#2
    | .engRead => k.kind == 1#2 || k.kind == 2#2
    | .engWrite => k.kind == 1#2 && k.rebs == 0#4) &&
  decide (k.base.toNat * 256 ≤ ea) && decide (ea + n ≤ (k.base.toNat + k.len.toNat + 1) * 256) && ea % min n 8 == 0 &&
  (List.range n).all fun i => i % 8 != 0 || (translate s ctx (ea + i)).any (reachable s)
theorem accessB_spec {s : State} {ctx ea n : Nat} {k : Hank} {u : Use} (h : accessB s ctx k u ea n = true) : AccessOk s ctx k u ea n := by
  simp only [accessB, Bool.and_eq_true, decide_eq_true_eq, beq_iff_eq, bne_iff_ne, Bool.not_eq_true', List.all_eq_true, List.mem_range,
    Bool.or_eq_true] at h
  obtain ⟨⟨⟨⟨⟨⟨⟨h1, h2⟩, h3⟩, h4⟩, h5⟩, h6⟩, h7⟩, h8⟩ := h
  refine ⟨⟨h1, h2, h3⟩, ?_, ⟨h5, h6⟩, h7, fun i hi hi8 => (h8 i hi).resolve_left fun hne => hne hi8⟩
  cases u <;> simpa using h4
/-- NoneWaits, as a check. -/
def noneB (h : Here) (s : State) : Bool :=
  h.w.qwait.isEmpty && s.wgs.all fun w => w.gangs.all fun g => g.lanes.all fun l => (counterWait l).isNone
theorem noneB_spec {h : Here} {s : State} (x : noneB h s = true) : NoneWaits h s := by
  simpa only [noneB, NoneWaits, Bool.and_eq_true, List.isEmpty_iff, List.all_eq_true] using x

/-- Ready words for ScalarResults. -/
theorem witness_ScalarResults : [0x0100040600000000, 0x0200040200000008, 0x0300040608000000, 0x0400040200000008, 0x0500040608000000, 0x0600040608000000,
    0x0700040608000000, 0x0800040608000000, 0x0900040608000000, 0x0a00040608000000, 0x0b00040608000000, 0x0c00040608000000, 0x0d00040608000000,
    0x0e00040608000000, 0x0f00040608000000, 0x1000040600000000, 0x1100040600000000, 0x1200040608000000, 0x13000406080c0000, 0x1400040608000000,
    0x1d00040600000000].all readyW = true := by decide
/-- Ready words, each the last of its clause, for JumpsAndNops, ExitAndYield, Branches and RejoinAndMasks. -/
theorem witness_Branches : ([0x1600000600000008, 0x1700000600000008, 0x1800300000000000, 0x1900040600000000, 0x1a00000600000000, 0x1500800000000002,
    0x1e00000000000000, 0x1f00000000000003, 0x1b00300000000000, 0x1c00030600000000, 0x1c00030600000001, 0x1c00030600000002].all fun x => match decode x with
  | .ok i => rdy i (guardOf x) (placed i) (fun h => atLast h && trueMask h (guardOf x) != 0#32)
  | .error _ => false) = true := by decide
/-- Ready words for VectorResults. -/
theorem witness_VectorResults : [0x2200040608000000, 0x23000406080c0000, 0x2400040608000000, 0x2600040608000000, 0x2700040608000000, 0x28000406080c0000,
    0x2a00040608000000, 0x2b00040608000000, 0x2c00040608000000, 0x2d00040600000000, 0x2e00040608000000, 0x2f00040608000000, 0x3000040608000000,
    0x3100040608000000, 0x3200040608000000, 0x3300040608000000, 0x3400040608000000, 0x3500040600000000, 0x3600040600000000, 0x3700040600000000,
    0x3800040600000000, 0x3900040600000000, 0x3a000406080c0000, 0x3b000406080c0000].all readyW = true := by decide
/-- Ready words for VectorMoves (the selectors of VPERM4 are 0), Selects, Carries and PredicateResults. -/
theorem witness_VectorMoves : [0x2000040600000000, 0x2000040600000003, 0x2100040000000008, 0x29000406080c0000, 0x3c000406080c0000, 0x3e00040608020000,
    0x23000406080c0000, 0x25000406080c0000, 0x3d000306080c0020, 0x4000040608000000, 0x4100040608000000, 0x4200040608000000, 0x4300040600000000].all readyW = true := by decide
/-- Ready words for FloatResults, PackedHalves and Conversions. -/
theorem witness_FloatResults : [0x5000040608000000, 0x5100040608000000, 0x5200040608000000, 0x53000406080c0000, 0x5900040600000000, 0x5a00040608000000,
    0x6800040608000000, 0x6900040608000000, 0x6a00040608000000, 0x6b000406080c0000, 0x6f00040608000000, 0x7000040600000000, 0x7100040608000000,
    0x7200040608000000, 0x73000406080c0000, 0x7400040600000000, 0x7500040600000000, 0x7600040600000000].all readyW = true := by decide
/-- The square root of 2 is irrational, that of 4 is not. -/
theorem witness_Roots : (ratOf (unpack fp32 0x40000000) == some 2 && (match sqrtEx 24 (unpack fp32 0x40000000), sqrtEx 24 (unpack fp32 0x40800000) with
    | .num _ _ _ a, .num _ _ _ b => a && !b
    | _, _ => false)) = true := by decide +kernel
/-- Ready words for FloatOrder and Transcendentals. -/
theorem witness_FloatOrder : [0x5400040608000000, 0x5500040608000000, 0x56000306080c0020, 0x5b00040600000000, 0x5c00040600000000, 0x5d00040600000000,
    0x5e00040600000000, 0x5f00040600000000, 0x6000040600000000, 0x5700040600000000, 0x5800040600000000, 0x6100040600000000, 0x6200040600000000,
    0x6300040608000000, 0x6c00040608000000, 0x6d00040608000000, 0x6e000306080c0020].all readyW = true := by decide
/-- Numbers for FloatRounding and FloatExactness: an exact result and one with more below, and values with their sum, quotient and root. -/
theorem witness_Rounding : stands 24 (.num false 3 0 false) 3 ∧ stands 24 (.num false (2 ^ 25) (-25) true) (1 + 1 / 2 ^ 26) ∧
    ratOf (.fin false 3 0) = some 3 ∧ ratOf (.fin false 4 0) = some 4 ∧ (2 : Rat) * 2 = 4 := by
  refine ⟨by norm_num [stands, twoTo], by norm_num [stands, twoTo, show Int.toNat 25 = 25 from rfl], by norm_num [ratOf, twoTo], by norm_num [ratOf, twoTo], by norm_num⟩
theorem witness_Transcendentals : unpack fp32 0x7FC00000 = .nan false ∧ unpack fp32 0x40000000 = .fin false 0x800000 (-22) := by decide

/-- One page of 64 KiB of device memory; hanks over it in order: exclusive (h1, h2, side by side), common (h3), shared (h4), of 16 KiB each. -/
def page0 : PageMap := ⟨0, 0x1000000, 0x80000000, .k64, true, 0, [0x90000000]⟩
def hank (n : Nat) (kind : BitVec 2) : Hank := { base := BitVec.ofNat 44 (0x10000 + 0x40 * n), len := 0x3F, kind := kind }
def hanks0 : List Hank := [{}, hank 0 1, hank 1 1, hank 2 3, hank 3 2]
/-- The workgroup with those hanks, scalar and vector registers; the state with that page. -/
def labWg (sv : List W64 := []) (vv : List W32 := []) (w : Wg) : Wg :=
  { w with gangs := w.gangs.map fun g => { g with h := hanks0, quads := List.replicate 8 { s := sv }, lanes := g.lanes.map fun l => { l with v := vv } } }
def labSt (s : State) : State := { s with pages := [page0], ctxs := [{ num := 0, supplies := [(0, [5])] }] }
def lab (i : Instr) (sv : List W64 := []) (vv : List W32 := []) : State := placed i (labWg sv vv) labSt
/-- An instruction in the lab. -/
def inLab (i : Instr) (p : State → Here → Bool := fun _ _ => true) (sv : List W64 := []) (vv : List W32 := []) : Case := (i, lab i sv vv, p (lab i sv vv))
/-- Every lane of a set passes. -/
def each (m : LaneMask) (p : Nat → Bool) : Bool := (List.range 32).all fun n => !m.getLsbD n || p n
def fMem : FmtM := ⟨4, 1, 2, false, 6, 8⟩
/-- Loads, stores and atomics of each lane, at the address the statements give, pass their checks. -/
def okAt (f : FmtM) (u : Use) (s : State) (h : Here) : Bool := each (trueMask h g0) fun n =>
  accessB s h.w.ctx (hankIn h g0 f) u (addrOf (hankIn h g0 f) (offOf f (laneAt s h n)) (f.imm.signExtend 64)) (widthOf f)
def ok12 (f : FmtM) (u : Use) (s : State) (h : Here) : Bool := each (trueMask h g0) fun n =>
  accessB s h.w.ctx (hankIn h g0 f) u (addr12 (hankIn h g0 f) f (laneAt s h n)) (widthOf f)
def okScal (f : FmtM) (u : Use) (s : State) (h : Here) : Bool :=
  let k := hankIn h g0 f
  trueMask h g0 != 0#32 && accessB s h.w.ctx k u (addrOf k ((srcS h f.a.toNat) &&& 0xFFFFFFFF#64) (f.imm.signExtend 64)) (widthOf f)
/-- No access is pending, none is numbered ahead, the store buffer has room, lanes act. -/
def calmMem (s : State) (h : Here) : Bool := h.g.pend.all (fun a => a.seq < s.seq && a.kind != .red) && decide (bufferUse h.g + 32 ≤ 64) &&
  mainLanes h g0 != 0#32 && decide (h.g.unacked ≤ 991)

theorem witness_Loads : meets [inLab (.ld g0 fMem) (okAt fMem .load), inLab (.ld g0 { fMem with w := 4 }) (okAt { fMem with w := 4 } .load),
    inLab (.lds g0 { fMem with w := 3 }) (okScal { fMem with w := 3 } .load)] = true := by decide
theorem witness_Stores : meets [inLab (.st g0 fMem) (fun s h => okAt fMem .store s h && calmMem s h),
    inLab (.sts g0 fMem) (fun s h => okScal fMem .store s h && calmMem s h)] = true := by decide
/-- Offsets of LDSP and STSP lie in the scratchpad, aligned. -/
def okScr (f : FmtM) (s : State) (h : Here) : Bool := each (trueMask h g0) fun n =>
  let off := (offOf f (laneAt s h n) + f.imm.signExtend 64).toNat
  decide (off + widthOf f ≤ h.w.scratchSize) && off % min (widthOf f) 8 == 0
theorem witness_Scratchpad : meets [inLab (.ldsp g0 { fMem with h := 0 }) (okScr { fMem with h := 0 }),
    inLab (.stsp g0 { fMem with h := 0 }) (okScr { fMem with h := 0 })] = true := by decide
def fHome : FmtM := { fMem with h := 3 }
theorem witness_Atomics : meets [inLab (.ldc g0 fHome) (fun s h => ok12 fHome .common s h && calmMem s h),
    inLab (.atom g0 fHome) (fun s h => ok12 fHome .atomic s h && calmMem s h), inLab (.atom g0 fMem) (fun s h => ok12 fMem .atomic s h && calmMem s h),
    inLab (.red g0 fHome) (fun s h => ok12 fHome .atomic s h && calmMem s h)] = true := by decide
theorem witness_CompareAndWait : meets [inLab (.atomcas g0 fMem) (fun s h => ok12 fMem .atomic s h && calmMem s h),
    inLab (.waitv g0 { fHome with imm := 0x070004 }) (fun s h => ok12 { fHome with imm := 0x070004 } .common s h && calmMem s h)] = true := by decide
/-- The line of each lane may be cleaned; nothing is in the buffer and no cache holds anything. -/
def okLine (f : FmtM) (s : State) (h : Here) : Bool := each (trueMask h g0) (fun n =>
    let line := addrOf (hankIn h g0 f) (offOf f (laneAt s h n)) (f.imm.signExtend 64) / 256 * 256
    accessB s h.w.ctx (hankIn h g0 f) .load line 256 && keyAt s h.w.ctx line % 256 == 0 && decide (keyAt s h.w.ctx line + 256 ≤ dramTop) && !meetsImages s (keyAt s h.w.ctx line) 256) &&
  h.g.pend.isEmpty && decide (h.g.unacked ≤ 991) && trueMask h g0 != 0#32 && s.l1.isEmpty && s.slices.isEmpty && !f.sx
def fLine : FmtM := ⟨0, 1, 0, false, 6, 8⟩
/-- All of a hank's range. -/
def okHank (f : FmtM) (s : State) (h : Here) : Bool :=
  let k := hankIn h g0 f
  f.sx && mainLanes h g0 != 0#32 && !k.pending && !k.revoked && k.kind == 1#2 && h.g.pend.isEmpty && h.g.unacked == 0 && s.l1.isEmpty && s.slices.isEmpty &&
    (match extentsOf s h.w.ctx (k.base.toNat * 256) ((k.len.toNat + 1) * 256) with
      | .ok xs => xs.all fun x => x.1 % 256 == 0 && x.2 % 256 == 0 && decide (x.1 + x.2 ≤ dramTop) && !meetsImages s x.1 x.2
      | _ => false)
/-- A load of the same lanes is pending before a fence. -/
def loading (w : Wg) : Wg := { w with gangs := w.gangs.map fun g => { g with pend := [{ seq := 0, kind := .load, lanes := 0xF#32, pa := 0x10000, bytes := 4 }] } }
theorem witness_FencesAndCleans : meets [inLab (.clnr g0 fLine) (okLine fLine), inLab (.invr g0 fLine) (okLine fLine),
    inLab (.clnr g0 { fLine with sx := true }) (okHank { fLine with sx := true }), inLab (.invr g0 { fLine with sx := true }) (okHank { fLine with sx := true }),
    (.fence g0 ⟨0, 0, 0, 0, false, false, 2⟩, placed (.fence g0 ⟨0, 0, 0, 0, false, false, 2⟩) loading, fun h => trueMask h g0 != 0#32 && h.g.pend.any fun a =>
      a.seq < 2 && sharesLane a { seq := 0, kind := .fence, lanes := trueMask h g0 } && isAccess a.kind)] = true := by decide

/-- The lab with two gangs of one shape, and the workgroup and the state changed further. -/
def duo (w : Wg) : Wg := { w with ngangs := 2, lanes := 64, gangs := w.gangs ++ w.gangs.map fun g => { g with h := [] } }
def labs (i : Instr) (sv : List W64) (f : Wg → Wg := duo) (k : State → State := id) (p : State → Here → Bool := fun _ _ => true) : Case :=
  let s := placed i (fun w => f (labWg sv [] w)) fun s => k (labSt s)
  (i, s, p s)
def withHanks (hs : List Hank) (w : Wg) : Wg := { w with gangs := w.gangs.map fun g => { g with h := hs } }
def fB (d a b c : BitVec 8) (m : BitVec 14 := 0) : FmtT := ⟨d, a, b, c, false, false, m⟩
/-- A borrow of 4 grains at the page's start: ranges, tickets and the hank are as the first clause asks. -/
def okBorrow (kind : BitVec 2) (s : State) (h : Here) : Bool :=
  let va := (srcS h 4).toNat
  let n := 256 * (srcS h 5).toNat
  va % 256 == 0 && decide (1 ≤ n) && decide (va + n ≤ 2 ^ 52) && (getHank h.w h.iss.gang 7).kind == 0#2 && !(getHank h.w h.iss.gang 7).pending &&
  mainLanes h g0 != 0#32 && match extentsOf s h.w.ctx va n, takeTicket s h.w.ctx (some h.core) with
    | .ok xs, some (_, s1) => !unborrowable s kind va n [] && !unborrowable s kind va n xs && findWg s1 h.iss.wg == some h.w
    | _, _ => false
theorem witness_Borrows : meets [labs (.hborx g0 (fB 7 4 5 6)) [0, 0, 0, 0, 0x1000000, 4] id id (okBorrow 1),
    labs (.hbors g0 (fB 7 4 5 6 1)) [0, 0, 0, 0, 0x1000000, 4] id id (okBorrow 2), labs (.hborc g0 (fB 7 4 5 6)) [0, 0, 0, 0, 0x1000000, 256] id id (okBorrow 3),
    labs (.hborx g0 (fB 7 4 5 6)) [0, 0, 0, 0, 0x1000001, 4] id id (fun _ h => (srcS h 4).toNat % 256 != 0 &&
      handled { h.w with trapvec := 1 } .alignment (laneAt (lab .reset) h 5)),
    labs (.hborx g0 (fB 1 4 5 6)) [0, 0, 0, 0, 0x1000000, 4] id id (fun _ h => (getHank h.w 0 1).kind != 0#2),
    labs (.hborx g0 (fB 7 4 5 6)) [0, 0, 0, 0, 0x1000000, 0] id id (fun _ h => srcS h 5 == 0#64)] = true := by decide
def hankRdy (k : Hank) : Bool := !k.pending && k.kind != 0#2 && !k.revoked && k.eng == 0#6
theorem hankRdy_spec {k : Hank} (h : hankRdy k = true) : HankReady k := by simpa [hankRdy, HankReady, and_assoc] using h
theorem witness_HankOperations : meets [
    labs (.hreb g0 (fB 0 1 5 6)) [0, 0, 0, 0, 0, 1] duo id (fun _ h => let k := getHank h.w 0 1
      hankRdy k && k.kind == 1#2 && !k.lent && k.rebs == 0#4 && decide (1 < h.w.ngangs) && !gangExited h.w 1 && (getHank h.w 1 6).kind == 0#2),
    labs (.hsplit g0 (fB 7 1 5 0)) [0, 0, 0, 0, 0, 0x3F] duo id (fun _ h => let k := getHank h.w 0 1
      hankRdy k && k.kind != 3#2 && !k.lent && k.rebs == 0#4 && decide (0x3F ≤ k.len.toNat) && (getHank h.w 0 7).kind == 0#2),
    labs (.hmerge g0 (fB 0 1 2 0)) [] duo id (fun _ h => let k := getHank h.w 0 1
      let b := getHank h.w 0 2
      hankRdy k && hankRdy b && k.kind == b.kind && k.ticket == b.ticket && k.base.toNat + k.len.toNat + 1 == b.base.toNat),
    labs (.hmerge g0 (fB 0 2 1 0)) [] duo id (fun _ h => let k := getHank h.w 0 2
      let b := getHank h.w 0 1
      hankRdy k && hankRdy b && k.kind == b.kind && k.ticket == b.ticket && b.base.toNat + b.len.toNat + 1 == k.base.toNat),
    labs (.hgive g0 (fB 0 1 5 6)) [0, 0, 0, 0, 0, 1] duo id (fun _ h => hankRdy (getHank h.w 0 1) && !gangExited h.w 1 && (getHank h.w 1 6).kind == 0#2),
    labs (.hret g0 (fB 0 1 0 0)) [] (fun w => withHanks [{}, { hank 0 2 with lent := true, phank := 2 }, { hank 0 1 with rebs := 1 }] w) id
      (fun _ h => let k := getHank h.w 0 1
      hankRdy k && k.lent && k.rebs == 0#4 && hankKey k.pgang.toNat k.phank.toNat != hankKey 0 1),
    labs (.hqry g0 (fB 4 1 0 0)) []] = true := by decide
/-- A grant to the gang of 64 grains in one run of home 0, its entry, and the hank that holds it. -/
def run0 : Run := ⟨0, 0x800000, 0x40⟩
def grant0 : Grant := { ctx := 0, ticket := 7, kind := 1, taker := .gang 1 0 0xF 1 1 4, vbase := 0x10000, grains := 0x40, runs := [run0],
                        exts := [(0x80000000, 0x4000)] }
def entry0 : OwnEntry := { home := 0, pbase := 0x800000, grains := 0x40, kind := 1, grid := false, ctx := 0, wgtag := 1, gang := 0, scount := 0, ticket := 7 }
def granted (s : State) : State := { s with grants := [grant0], own := [entry0] }
theorem witness_HankReturns : meets [
    labs (.hret g0 (fB 0 1 0 0)) [] (withHanks [{}, { hank 0 1 with ticket := 7 }]) granted (fun s h => let k := getHank h.w 0 1
      hankRdy k && !k.lent && k.rebs == 0#4 && wholeGrant s h.w k == some grant0 && (entryOf s 0 1 run0).isSome && s.rets.isEmpty &&
        h.w.gangs.all (fun x => x.pend.isEmpty) && mainLanes h g0 != 0#32),
    labs (.hret g0 (fB 0 1 0 0)) [] (withHanks [{}, { hank 0 1 with eng := 2 }]) id (fun _ h => (getHank h.w 0 1).eng != 0#6 &&
      (hankCheck h.w 0 (.hret g0 (fB 0 1 0 0)) 0#64).isNone)] = true := by decide
/-- The third clause: a deferred HGIVE whose hank has no command left. -/
theorem witness_deferred : (let s := placed (.nop g0 (fB 0 0 0 0)) (fun w => duo (labWg [] [] w)) fun s =>
      { s with deferred := [⟨1, 0, none, 0xFFFFFFFF#32, 0xFFFFFFFF#32, .hgive g0 (fB 0 1 5 6), 1#64, 1, 0#64⟩] }
    goes (exec (.hankOpDeferred 0) s) && (findWg s 1).any fun w => !hankBusy w 0 (.hgive g0 (fB 0 1 5 6)) && (hankCheck w 0 (.hgive g0 (fB 0 1 5 6)) 1#64).isNone) = true := by decide

/-- A request of gang 0 of workgroup 1 for a run, and states with one message. -/
def req0 : Req := { id := 9, taker := .gang 1 0 0xF 1 1 4, ctx := 0, kind := 1, vbase := 0x10000, grains := 0x40, runs := [run0], ticket := 7, wait := false,
                     exts := [(0x80000000, 0x4000)] }
def owning (m : Msg) (k : State → State := id) : State :=
  let s := placed (.nop g0 (fB 0 0 0 0)) id labSt
  k { s with msgs := [m], reqs := [req0] }
/-- R74 to R82, one state a clause: a grant, SELF, CONFLICT, the last run and one before it, a refusal, a return, its acknowledgement, a collapse with its answer, an
eviction notice, a revocation, a supply and a walk; and what each leaves. -/
theorem witness_OwnershipMessages : (
    goes (exec (.ownershipRequest 0) (owning (.ownReq 9))) &&
    (match exec (.ownershipRequest 0) (owning (.ownReq 9) fun s => { s with own := [entry0] }) with
      | .next t => t.msgs == [.refusal 9 3]
      | _ => false) &&
    (match exec (.ownershipRequest 0) (owning (.ownReq 9) fun s => { s with own := [{ entry0 with wgtag := 2 }] }) with
      | .next t => t.msgs == [.refusal 9 1]
      | _ => false) &&
    (match exec (.runGrant 0) (owning (.runGrant 9)) with
      | .next t => t.reqs == [] && t.grants == [grant0]
      | _ => false) &&
    (match exec (.runGrant 0) (owning (.runGrant 9) fun s => { s with reqs := [{ req0 with runs := [run0, ⟨1, 0x900000, 4⟩] }] }) with
      | .next t => t.msgs == [.ownReq 9]
      | _ => false) &&
    goes (exec (.ownershipRefusal 0) (owning (.refusal 9 1))) &&
    (match exec (.ownershipReturn 0) (owning (.ret 0 7 1 run0 1 0) fun s => { s with own := [entry0] }) with
      | .next t => t.own == [{ entry0 with xret := true }] && t.msgs == [.wbAck 0 7 run0 1 0]
      | _ => false) &&
    (match exec (.writebackAck 0) (owning (.wbAck 0 7 run0 1 0) fun s => { s with own := [{ entry0 with xret := true }] }) with
      | .next t => t.own == []
      | _ => false) &&
    goes (exec (.collapseRequest 0) (owning (.collapseReq 3 1 0 0 run0))) &&
    (match exec (.collapseAck 0) (owning (.collapseAck 0x8000 1 0 0 run0) fun s =>
        { s with reps := [⟨0x8000, [(0, 0, 1)], 1⟩], own := [{ entry0 with coll := true }] }) with
      | .next t => runReplicas t run0 == [] && t.own.all fun e => !e.coll
      | _ => false) &&
    (match exec (.collapseAck 0) (owning (.collapseAck 0x8000 1 0 0 run0) fun s => { s with msgs := s.msgs ++ [.collapseReq 0x8001 1 0 0 run0] }) with
      | .next t => t.msgs == [.collapseReq 0x8001 1 0 0 run0]
      | _ => false) &&
    goes (exec (.replicaEvictionNotice 0) (owning (.evictNotice 3 1 0 0) fun s => { s with reps := [⟨3, [(0, 0, 1)], 1⟩] })) &&
    (match exec (.ownershipRefusal 0) (owning (.refusal 9 1) fun s => { s with reqs := [{ req0 with held := [run0] }] }) with
      | .next t => t.msgs == [.retRun 9 run0] && t.reqs.map (fun r => r.failing) == [some 1]
      | _ => false) &&
    (match exec (.ownershipReturn 0) (owning (.retRun 9 run0) fun s => { s with reqs := [{ req0 with held := [run0], failing := some 1 }], own := [entry0] }) with
      | .next t => t.reqs == [] && t.own == []
      | _ => false) &&
    goes (exec (.revocationNotice 0) (owning (.revoke 1 0 7))) &&
    goes (exec (.ticketSupplyDraw 0 0) (owning (.ownReq 9))) &&
    goes (exec (.killWalkEnd 4 0) (owning (.ownReq 9) fun s => { s with ctxs := [{ num := 0, walks := [4] }] }))) = true := by decide
theorem witness_TablesStayExclusive : Exclusive (owning (.ownReq 9) fun s => { s with own := [entry0, { entry0 with pbase := 0x900000 }] }) := by
  simp only [Exclusive]; decide
/-- R77 to R79: a request that waits at the home, one refused by a table that is full, and one that finds its waiters full. -/
theorem witness_Waits : (
    (match exec (.ownershipRequest 0) (owning (.ownReq 9) fun s => { s with own := [{ entry0 with wgtag := 2 }], reqs := [{ req0 with wait := true }] }) with
      | .next t => t.waiters.map (fun x => (x.req, x.kind)) == [(9, 1)] && t.reqs.map (fun r => r.queued) == [true]
      | _ => false) &&
    (match exec (.ownershipRequest 0) (owning (.ownReq 9) fun s => { s with own := List.replicate 16384 { entry0 with home := 4, pbase := 0 }, reqs := [{ req0 with runs := [⟨4, 0x900000, 4⟩] }] }) with
      | .next t => t.msgs == [.refusal 9 2]
      | _ => false) &&
    (match exec (.ownershipRequest 0) (owning (.ownReq 9) fun s => { s with own := [{ entry0 with wgtag := 2 }], reqs := [{ req0 with wait := true }], waiters := List.replicate 4096 ⟨0, 8, 1, 0, 3, none, 0x800000, 4⟩ }) with
      | .next t => t.msgs == [.refusal 9 2]
      | _ => false)) = true := by decide +kernel

/-- Words of the scratchpad. -/
def scr (xs : List (Nat × Nat)) (w : Wg) : Wg := { w with scratch := xs.foldl (fun m x => puts0 m x.1 (leBytes 8 x.2)) w.scratch }
def sAB (a b : W64) : List W64 := [0, 0, 0, 0, a, b]
/-- A counter word: kind, phase, target, count (R262). -/
def cw (kind target count : Nat) : Nat := kind * 2 ^ 59 + target * 2 ^ 30 + count
/-- Lane 0 of gang 1 waits on the counter at 0x100. -/
def waitsOn (w : Wg) : Wg :=
  { w with gangs := [gangOf w 0, { gangOf w 1 with lanes := { laneOf (gangOf w 1) 0 with st := .blocked (.counter 0x100 none 1 0) } :: (gangOf w 1).lanes.tail }] }
theorem witness_Counters : meets [
    labs (.acset g0 (fB 0 4 5 0)) (sAB 0x100 5) duo id (fun s h => noneB h s && mainLanes h g0 != 0#32 && scrWord h.w 0x110 == 0#64 && !opWaits h (trueMask h g0) true false 3#3 s),
    labs (.acset g0 (fB 0 4 5 0 1)) (sAB 0x100 3) duo id (fun s h => noneB h s && (List.range 128).all fun p =>
      !(3 : Nat).testBit p || !partExited s h.w 1 (.scr 0x100) p),
    labs (.acset g0 (fB 0 4 5 0 2)) (sAB 0x100 0xFFFF) duo id (fun s h => noneB h s && (List.range 128).all fun p =>
      !(0xFFFF : Nat).testBit p || !partExited s h.w 2 (.scr 0x100) p),
    labs (.acadd g0 (fB 0 4 5 0)) (sAB 0x100 2) (fun w => scr [(0x100, cw 0 9 2)] (duo w)) id (fun s h => noneB h s && !opWaits h (mainLanes h g0) true true 3#3 s),
    labs (.acadd g0 (fB 0 4 5 0)) (sAB 0x100 2) (fun w => scr [(0x100, cw 0 4 2)] (waitsOn (duo w))) id
      (fun _ h => (laneOf (gangOf h.w 1) 0).st == .blocked (.counter 0x100 none 1 0) && h.g.pend.isEmpty)] = true := by decide
/-- R265, R266: what the words leave: a fresh counter with the phase toggled, and a count past the target. -/
def scrOut (i : Instr) (sv : List W64) (f : Wg → Wg) (off : Nat) : Option W64 :=
  (after (placed i (fun w => f (labWg sv [] w)))).bind fun t => t.wgs.head?.map fun w => scrWord w off
theorem test_counters : (scrOut (.acset g0 (fB 0 4 5 0)) (sAB 0x100 5) id 0x100 == some (BitVec.ofNat 64 (2 ^ 61 + 5 * 2 ^ 30)) &&
    scrOut (.acset g0 (fB 0 4 5 0)) (sAB 0x100 5) (scr [(0x100, 2 ^ 61)]) 0x100 == some (BitVec.ofNat 64 (5 * 2 ^ 30)) &&
    scrOut (.acadd g0 (fB 0 4 5 0)) (sAB 0x100 4) (scr [(0x100, cw 0 3 2)]) 0x100 == some (BitVec.ofNat 64 (2 ^ 62 + cw 0 3 6)) &&
    scrOut (.acadd g0 (fB 0 4 5 0)) (sAB 0x100 1) (scr [(0x100, cw 0 3 2)]) 0x100 == some (BitVec.ofNat 64 (cw 0 3 3)) &&
    scrOut (.qdef g0 (fB 3 4 5 0)) (sAB 0x200 0x40004) id 0x200 == some (BitVec.ofNat 64 (4 * 2 ^ 35 + 4 * 2 ^ 17)) &&
    scrOut (.bara g0 (fB 0 4 0 0)) (sAB 0x100 0) (fun w => scr [(0x100, cw 1 2 0), (0x108, 3)] (duo w)) 0x110 == some 1) = true := by decide
theorem witness_BarrierArrivals : meets [
    labs (.acwait g0 (fB 7 4 0 0)) (sAB 0x100 0) (scr [(0x100, cw 0 1 1)]) id (fun _ h => trueMask h g0 != 0#32),
    labs (.acwait g0 (fB 7 4 0 0)) (sAB 0x100 0) (scr [(0x100, cw 0 2 1)]) id (fun _ h => mainLanes h g0 != 0#32),
    labs (.bara g0 (fB 0 4 0 0)) (sAB 0x100 0) (fun w => scr [(0x100, cw 1 2 0), (0x108, 3)] (duo w)) id (fun s h => noneB h s && h.iss.quad.isNone && h.iss.gang == 0),
    labs (.barw g0 (fB 0 4 0 0)) (sAB 0x100 0) (fun w => scr [(0x100, cw 1 2 0), (0x108, 3)] (duo w)) id (fun s h => noneB h s),
    labs (.barw g0 (fB 0 4 0 0)) (sAB 0x100 0) (fun w => scr [(0x100, cw 1 1 0), (0x108, 1)] w) id (fun s h => noneB h s)] = true := by decide
/-- Queue 3 at 0x200 with four entries' room and some full. -/
def calmOp (s : State) (h : Here) : Bool := !opWaits h (mainLanes h g0) true true 3#3 s && !opWaits h (mainLanes h g0) false false 3#3 s &&
  !opWaits h (trueMask h g0) true false 3#3 s && !opWaits h (trueMask h g0) false false 3#3 s
def queue3 (count allow : Nat) (w : Wg) : Wg := { scr [(0x200, allow * 2 ^ 35 + count * 2 ^ 26 + 4 * 2 ^ 17 + count * 2 ^ 8)] w with queues := [none, none, none, some 0x200] }
theorem witness_Queues : meets [labs (.qdef g0 (fB 3 4 5 0)) (sAB 0x200 0x40004) id id (fun s h => h.w.qwait.isEmpty && calmOp s h),
    labs (.qpush g0 (fB 0 3 5 0)) (sAB 0 77) (queue3 0 4) id (fun s h => qOk (scrWord h.w 0x200) && h.w.qwait.isEmpty && calmOp s h),
    labs (.qpush g0 (fB 0 3 5 0)) (sAB 0 77) (queue3 2 0) id (fun s h => qOk (scrWord h.w 0x200) && calmOp s h),
    labs (.qpop g0 (fB 7 3 0 0)) (sAB 0 77) (queue3 2 0) id (fun s h => qOk (scrWord h.w 0x200) && calmOp s h),
    labs (.qpop g0 (fB 7 3 0 0)) (sAB 0 77) (queue3 0 4) id (fun s h => qOk (scrWord h.w 0x200) && calmOp s h),
    labs (.qstat g0 (fB 7 3 0 0)) (sAB 0 77) (queue3 0 4) id calmOp] = true := by decide
/-- Two gangs of 8 units; some registers of the last unit of gang 0 empty. -/
def halves (ve : BitVec 256) (w : Wg) : Wg :=
  let w := duo w
  { w with gangs := w.gangs.map fun g => { g with quota := 8, lanes := g.lanes.map fun l => { l with ve := ve } } }
theorem witness_QuotaMoves : (meets [labs (.rqset g0 (fB 0 4 5 0)) (sAB 1 1) (halves 0) id (fun _ h => !rqBusy h.g 1 && h.iss.quad.isNone),
      labs (.rqset g0 (fB 0 4 5 0)) (sAB 1 1) (halves (1 <<< 120)) id (fun _ h => rqBusy h.g 1), labs (.rcfence g0 (fB 0 0 0 0)) []] &&
    goes (exec (.rqsetComplete 1 0) (placed (.nop g0 (fB 0 0 0 0)) (fun w => halves 0 (labWg [] [] w)) fun s => { s with rqWaits := [⟨1, 0, 0xF#32, 0xF#32, 1, 1⟩] }))) = true := by decide

/-! The matrix unit and the ring. -/

/-- Slot 0 is E4M3 by E4M3 into FP32; macro 1 holds a tile of that format. -/
def mats (st : MacSt) (w : Wg) : Wg :=
  { w with fslots := [0x33], macs := [{}, { st := st, bfmt := 3, inside := true, pfmt := 3, src := 2, psrc := 2 }], subs := [] }
def fX (mac : BitVec 4) (acc : BitVec 5) (as_ : BitVec 8) (mod : BitVec 20 := 0) : FmtX := ⟨acc, mac, 0, as_, 0xFF, mod⟩
/-- A block in the scratchpad at 0x1000 or rows at the page's start; no command in flight. -/
def okMma (h : Here) : Bool := matSlotOk (tget 0#64 h.w.fslots 0) && (inFlight h.w h.iss.gang).isEmpty && trueMask h g0 != 0#32 && (macOf h.w 1).st == .resident &&
  (macOf h.w 1).bfmt == (tget 0#64 h.w.fslots 0).extractLsb' 4 4 && validOf h (fX 1 1 4) == 32
theorem witness_MatrixIssues : meets [labs (.mma g0 (fX 1 1 4)) (sAB 0x1000 0) (mats .resident) id (fun _ h => okMma h),
    labs (.mmat g0 (fX 1 1 4)) (sAB 0x1000 0) (mats .resident) id (fun _ h => okMma h), labs (.mzero g0 (fX 0 1 0)) (sAB 0 0) (mats .free)] = true := by decide
/-- MLD through h1, which covers the 128 rows of 128 bytes. -/
theorem witness_MatrixMoves : meets [
    labs (.mld g0 (fX 0 0 4 1)) (sAB 0x1000000 0) (mats .free) id (fun s h => (mldCheck s (wordOf (.mld g0 (fX 0 0 4 1))) (fX 0 0 4 1) h).isNone && trueMask h g0 != 0#32),
    labs (.mrd g0 ⟨8, 0, 5, 0, true, false, 2⟩) (sAB 0 4) (mats .free), labs (.mwr g0 ⟨8, 0, 5, 0, true, false, 2⟩) (sAB 0 4) (mats .free),
    labs (.mrel g0 (fB 0 1 0 0)) [] (mats .free), labs (.mrel g0 (fB 0 1 0 0)) [] (mats .resident) id (fun _ h => (headOf h.w 1).isNone && !relWaits h.w 1),
    labs (.mrel g0 (fB 0 1 0 0)) [] (fun w => { mats .resident w with mq := [{ id := 1, gang := 0, mac := some 1, kind := .mma 0 0 0 32 false, seq := 0, lanes := 0xF#32 }] })
      id (fun _ h => (headOf h.w 1).isNone && h.w.mq.any fun c => c.mac == some 1)] = true := by decide
/-- A command in flight, and a closed batch that it belongs to. -/
def cmdIn (k : MKind) (started : Bool) (mac : Option Nat := none) (w : Wg) : Wg :=
  { w with mq := [{ id := 1, gang := 0, mac := mac, kind := k, seq := 0, lanes := 0xF#32, started := started }],
           gangs := w.gangs.map fun g => { g with batches := [{ upto := 5 }], nextBatch := 1, closures := 1 } }
theorem witness_Batches : meets [labs (.mbatch g0 (fB 7 0 0 0)) [], labs (.mwait g0 (fB 7 0 0 0)) [] id id (fun _ h => batchDone h.w 0 0),
    labs (.mwait g0 (fB 7 0 0 0)) [] (cmdIn (.mzero 0 32) false) id (fun _ h => !batchDone h.w 0 0), labs (.mstat g0 (fB 7 0 0 0)) []] = true := by decide
/-- States of one matrix command. -/
def cmdSt (k : MKind) (started : Bool) (mac : Option Nat := none) (f : Wg → Wg := mats .resident) : State :=
  placed (.nop g0 (fB 0 0 0 0)) (fun w => cmdIn k started mac (f w)) labSt
/-- R284 to R295: starts and completions; what MZERO, MWR and MRD leave. -/
theorem witness_MatrixSteps : (goes (exec (.matrixCommandStart 1 1 false) (cmdSt (.mzero 0 32) false)) &&
    (match exec (.matrixCommandComplete 1 1) (cmdSt (.mzero 0 1) true none fun w => { w with accs := [List.replicate 256 7] }) with
      | .next t => t.wgs.head?.any fun w => w.mq.isEmpty && accElem w 0 0 5 == 0 && accElem w 0 1 5 == 7
      | _ => false) &&
    (match exec (.matrixCommandComplete 1 1) (cmdSt (.mwr 0 2 1 1 [(0, [9])]) true) with
      | .next t => t.wgs.head?.any fun w => w.mq.isEmpty && accElem w 0 0 2 == 9 && accElem w 0 0 3 == 0
      | _ => false) &&
    (match exec (.matrixCommandComplete 1 1) (cmdSt (.mrd 0 2 1 8 0xF) true none fun w => { w with accs := [[0, 0, 6]] }) with
      | .next t => t.wgs.head?.any fun w => w.mq.isEmpty && vreg (laneOf (gangOf w 0) 0) 8 == 6 && vreg (laneOf (gangOf w 0) 9) 8 == 0
      | _ => false) &&
    goes (exec (.matrixCommandComplete 1 1) (cmdSt .mrel true (some 1))) &&
    goes (exec (.matrixCommandStart 1 1 false) (cmdSt (.mma 0 0 0x1000 32 false) false (some 1))) &&
    goes (exec (.matrixCommandComplete 1 1) (cmdSt (.mma 0 0 0x1000 32 false) true (some 1))) &&
    (match exec (.mldComplete 1 1) (cmdSt (.mld 0 1 0x1000000 0 32 false 7) true (some 1) fun w => { labWg [] [] w with
        fslots := [0x33], macs := [{}, { st := .pending, src := 2, upto := 1 }] }) with
      | .next t => t.wgs.head?.any fun w => (macOf w 1).st == .resident && (macOf w 1).scale == 7
      | _ => false)) = true := by decide
/-- 1.0 times 1.0, the other elements 0, over 2.0 in the accumulator. -/
def oneMac : Mac := { st := .resident, bfmt := 3, inside := true, pfmt := 3, src := 2, psrc := 2, cells := [0x38] }
def oneMma : MCmd := { id := 1, gang := 0, mac := some 1, kind := .mma 0 0 0x1000 1 false, seq := 0, lanes := 0xF#32, started := true, aBytes := [0x38] }
/-- R133, R134: the sum of one product, added to the accumulator. -/
theorem witness_MatrixSums : (sumOf 0x33 oneMac [0x38] false 0 0 128 == some 1 && rowScale 0x33 [0x38] 0 == some 1 && tileScale 0x33 oneMac == some 1 &&
    !nanIn 0x33 oneMac [0x38] false 0 0 && matSlotOk 0x33 && ratOf (unpack fp32 0x40000000) == some 2 &&
    (match exec (.matrixCommandComplete 1 1) (placed (.nop g0 (fB 0 0 0 0)) fun w => { w with fslots := [0x33], macs := [{}, oneMac], accs := [[0x40000000]], mq := [oneMma] }) with
      | .next t => t.wgs.head?.any fun w => accElem w 0 0 0 == 0x40400000
      | _ => false)) = true := by decide +kernel
/-- Macro 0 with its subscriptions in given states. -/
def subs0 (xs : List SubSt) (w : Wg) : Wg := { w with subs := xs.map fun x => { st := x, tile := 3, order := 1 } }
def sABC (a b c : W64) : List W64 := [0, 0, 0, 0, a, b, c]
theorem witness_RingWords : meets [
    labs (.msub g0 (fB 7 0 5 6)) (sABC 0 3 (1 <<< 63)) (subs0 [.armed, .queued, .held, .loading]) id
      (fun s h => (freeSlot s h.w 0).isNone && (subCounterTrap h.w (wordOf (.msub g0 (fB 7 0 5 6))) (1 <<< 63)).isNone),
    labs (.msub g0 (fB 7 0 5 6)) (sABC 0 3 (1 <<< 63)) (subs0 [.armed, .free]) id (fun s h => freeSlot s h.w 0 == some 1),
    labs (.msub g0 (fB 7 0 5 6)) (sABC 0 3 (1 <<< 63)) (subs0 []) id (fun s h => freeSlot s h.w 0 == some 0 && (macOf h.w 0).st == .free && (headOf h.w 0).isNone),
    labs (.munsub g0 (fB 0 4 0 0)) (sABC 0 0 0) (subs0 [.armed]) id (fun _ h => (awaiting h.w 0).isEmpty && h.w.gangs.all fun g => g.lanes.all fun l => (subWait l).isNone),
    labs (.msubq g0 (fB 7 4 0 0)) (sABC 0 0 0) (subs0 [.armed]), labs (.msubq g0 (fB 7 4 0 0 1)) (sABC 0 0 0) (subs0 [.held]),
    labs (.msubq g0 (fB 7 4 0 0 1)) (sABC 0 0 0) (subs0 [.queued]), labs (.rstat g0 (fB 7 0 0 0)) []] = true := by decide
/-- An entry of a pattern: source, physical address of its image, tile 3, staged from pool slot 0 where its source is 10. -/
def entryOf (src pa : Nat) : List Byte := leBytes 32 (src * 2 ^ 30 + 3 * 2 ^ 32 + pa / 256 * 2 ^ 72 + (if src = 2 then 0x8000000000 * 2 ^ 136 else 0))
/-- A pattern of the given entries at 0x8000_0000 in device memory; images of E4M3 at 0x8010_0000 of dies 0 and 2 and in pool slot 0. -/
def ringOf (xs : List (List Byte)) : State :=
  let s := placed (.nop g0 (fB 0 0 0 0))
  let s := ctlPut (ctlPut (ctlPut s 0x7F0000200008 0x80000000) 0x7F0000200010 (BitVec.ofNat 64 xs.length)) 0x7F0000200018 64
  let s := devPut s 0x80000000 xs.flatten
  let s := [0x800000000000, 0x80100000, 0x80100000 + 2 * dieBytes].foldl (fun s a => devPut s a (leBytes 64 (3 * 2 ^ 64))) s
  { s with ring := { s.ring with running := true }, cycle := 5000, extents := [(0, 0, 0, false)] }
/-- One entry, of a source; and the same on a ring of two modules. -/
def ringSt (src : Nat) : State := ringOf [entryOf src 0x80100000]
def segSt (src : Nat) : State := ctlPut (ringSt src) 0x7F0000200000 0x10001
def frame0 : Frame := let f : Frame := ⟨0, 0, 3, 1, false, 0, 3, 0, 0x3F800000, [5, 6, 7, 8], []⟩; { f with crc := frameCrc f }
def withFrame (f : RingFrame) : State := let s := ringSt 0; { s with ring := { s.ring with frames := [f] } }
/-- What a frame of the segment leaves: a bit of each frame of the ring that says whether it is a hole, and HDR. -/
def passes (r : Host.Outcome State Fault Refusal) : Option (List Bool × Nat) := match r with
  | .next t => some (t.ring.frames.map (fun x => x.frame.hole), fld (ctlGet t rgerrAddr) 32 32)
  | _ => none
/-- R313: a frame for an entry of the member's own is removed, one for an entry of the segment is passed on, a hole takes the place of another
tile's and of a damaged one. -/
theorem witness_RingSegment : (let at_ := fun f src => passes (exec (.segmentFrameArrival f) (segSt src))
    at_ frame0 0 == some ([], 1) && at_ frame0 1 == some ([false], 0) &&
    at_ (stamped { frame0 with tile := 4 }) 1 == some ([true], 1) && at_ { frame0 with crc := 0 } 1 == some ([true], 0)) = true := by decide +kernel
/-- R331, R332: entry 1, invalid and so injected at stop 0, is decided before the engine of die 2 decides entry 0. -/
theorem witness_RingEarly : (match exec .frameInject (ringOf [entryOf 0 (0x80100000 + 2 * dieBytes), entryOf 3 0]) with
    | .next t => t.ring.early.map (fun e => e.pos) == [1] && t.ring.frames.isEmpty
    | _ => false) = true := by decide +kernel
/-- R325: what begins a staging copy: its place in the pattern, a live slot, an X borrow that would be granted. -/
def stages (s : State) : Bool :=
  let x := patEntry s (patternNow s).1 0
  let run : Run := ⟨homeOf (entPaddr x), entPaddr x / 256, 65⟩
  headerLen (homeBytes s (entPool x) 64) == 16448 && !badEntry (patternNow s).1 x && entSrc x == 2 && !poolDead s (entPool x) && (runReplicas s run).isEmpty &&
    !unborrowable s 1#2 0 0 [(entPaddr x, 16448)] && decideRun s (ringReq s 1#2 [run] (.staging 0)) run s.waiters == .grant &&
    decide ((s.own.filter fun o => o.home == run.home).length < tableSize run.home)
theorem witness_RingSteps : (goes (exec .frameInject (segSt 0)) && (earlyAt (segSt 0) (headSlot (segSt 0))).isNone &&
    (match exec (.frameArrival 0 false) (withFrame ⟨frame0, 0, 0, 2, none, 10, 20, false⟩) with
      | .next t => t.ring.frames.map (fun f => f.reached) == [3] && t.ring.last == [(2, 0)]
      | _ => false) &&
    goes (exec (.ringBorrowReturn 0) (withFrame ⟨frame0, 0, 0, 2, some (1, [run0]), 10, 20, false⟩)) &&
    (match exec (.ringLoadComplete 1 0) (let s := ringSt 0
        { s with wgs := s.wgs.map fun w => { w with subs := [{ st := .loading, tile := 3, frame := some frame0, due := 9 }] } }) with
      | .next t => t.wgs.head?.any fun w => (macOf w 0).st == .resident && (macOf w 0).tile == 3 && (subOf w 0).st == .done && (subOf w 0).loads == 1
      | _ => false) &&
    stages (ringSt 2) && goes (exec (.stagingCopy 0) (ringSt 2)) &&
    (match exec (.stagingCopy 0) { ringSt 2 with own := [{ entry0 with pbase := 0x801000 }] } with
      | .next t => t.ring.failed == [(0, 0)] && t.ring.staging == []
      | _ => false) &&
    goes (exec (.stagingCopy 0) { ringSt 2 with ring := { (ringSt 2).ring with staging := [⟨0, 0, [run0]⟩] } })) = true := by decide +kernel


/-! Engines, messages, children and the fabric. -/

/-- s8 to s13 given. -/
def sAt8 (xs : List W64) : List W64 := [0, 0, 0, 0, 0, 0, 0, 0] ++ xs
def none63 : W64 := 1 <<< 63
/-- A tensor shape record in the scratchpad at 0x400: one dimension of 8 elements of 8 bytes, both strides 8. -/
def record1 (w : Wg) : Wg := scr [(0x400, 1 + 3 * 16), (0x420, 8), (0x428, 8), (0x430, 8)] w
theorem witness_EngineWords : meets [
    labs (.cpy g0 (fB 2 1 8 10)) (sAt8 [0, 0, 0x10000000100, none63]) id id (fun s h => (cpyCheck (wordOf (.cpy g0 (fB 2 1 8 10))) (fB 2 1 8 10) h).isNone && s.eng.isEmpty),
    labs (.cpyt g0 (fB 2 1 8 10 1)) (sAt8 [0x400, 0, 8, none63]) record1 id (fun s h => (cpytCheck (wordOf (.cpyt g0 (fB 2 1 8 10 1))) (fB 2 1 8 10 1) h).isNone && s.eng.isEmpty),
    labs (.msop g0 (fB 2 1 4 8 0x40)) (sAt8 [0, 0, 0, 0x4000000040]) id id (fun s h => (msopCheck (wordOf (.msop g0 (fB 2 1 4 8 0x40))) (fB 2 1 4 8 0x40) h s).isNone),
    labs (.cpyq g0 (fB 7 0 0 0)) []] = true := by decide
/-- A copy of 256 bytes from h1 to h2 in its engine; the page is there or not. -/
def copy0 : EngCmd := { id := 3, cluster := 0, wg := 1, gang := 0, kind := .cpy 2 1 0 0 512 512, dbase := some 0x1004000, abase := some 0x1000000, bbase := none, hanks := [2, 1],
                            counter := none63, pc := 0, seq := 0, lanes := 0xF }
def engSt (c : EngCmd) (k : State → State := id) : State := k { (placed (.nop g0 (fB 0 0 0 0)) (labWg [] []) labSt) with eng := [c] }
def sum0 (valid : Nat) : EngCmd := { copy0 with kind := .msop 2 1 4 0 0 0 0 128 valid 0 false, bbase := some 0x100C000, hanks := [2, 1, 4] }
theorem witness_EngineSteps : ((match exec (.copyPiece 3) (engSt copy0) with
      | .next t => t.eng.map (fun c => c.next) == [256]
      | _ => false) &&
    goes (exec (.copyPiece 3) (engSt { copy0 with next := 256 })) && goes (exec (.copyPiece 3) (engSt copy0 fun s => { s with pages := [] })) &&
    (match areaExtents (engSt copy0 fun s => { s with pages := [] }) 0 true 0x1000000 256 with
      | .error va => va == 0x1000000
      | .ok _ => false) &&
    goes (exec (.msopLine 3) (engSt (sum0 128))) &&
    (match exec (.msopLine 3) (engSt (sum0 0)) with
      | .next t => t.eng.map (fun c => c.next) == [256]
      | _ => false) &&
    engMoves (engSt copy0) copy0 (gangOf ((findWg (engSt copy0) 1).getD (soloWg State.reset)) 0) &&
    goes (exec (.msopLine 3) (engSt (sum0 128) fun s => { s with wgs := s.wgs.map (withHanks [{}, { hank 0 1 with revoked := true }]) }))) = true := by decide +kernel

/-- Kernel 5 of the resident image: one gang, a unit of registers, 512 bytes of scratchpad; context 2 of tenant 0 is valid. -/
def kernelSt (s : State) : State :=
  devPut { ctlPut (ctlPut s 0x7F0002000050 (BitVec.ofNat 64 (2 ^ 63 + 0x1000))) 0x7F0003000040 none63 with images := s.images.map fun im => { im with desc := (0x1000, 256) } }
    0x1000 (leBytes 8 0 ++ leBytes 8 (2 ^ 31 + 2 ^ 26 + 2 * 2 ^ 4))
/-- Handler 4 of core 0 as its word stands. -/
def amSt (e : Nat) : State :=
  let s := ctlPut (kernelSt (placed (.nop g0 (fB 0 0 0 0)))) (0x7F0000400000 + 8 * 4) (BitVec.ofNat 64 e)
  { s with msgs := [.am 0 4 [1, 2] 3 0 2 false 1 0 7 1] }
def amStatus (e : Nat) : Option (List Msg) := match exec (.amAccept 0) (amSt e) with
  | .next t => some t.msgs
  | _ => none
theorem witness_Messages : (meets [labs (.amsend g0 (fB 7 4 5 6)) (sABC 0x80003 0x802 0x100), labs (.amsend g0 (fB 7 4 5 6)) (sABC 0x403 0x802 0x100) id id (fun s h => mainLanes h g0 != 0#32 && s.module == 0)] &&
    amStatus 0 == some [.amReply 1 0 7 1 1] && amStatus (1 + 5 * 2 ^ 16 + 3 * 2 ^ 48) == some [.amReply 1 0 7 1 1] &&
    amStatus (1 + 6 * 2 ^ 16 + 2 * 2 ^ 48) == some [.amReply 1 0 7 1 1] && amStatus (1 + 5 * 2 ^ 16 + 2 * 2 ^ 48) == some [.amReply 1 0 7 1 0] &&
    (match exec (.amReply 0) { amSt 0 with msgs := [.amReply 1 0 7 1 4] } with
      | .next t => t.wgs.head?.any fun w => sreg (quadOf (gangOf w 0) 0) 7 == 4
      | _ => false)) = true := by decide
/-- Workgroup 1 alone, all its lanes exited. -/
def ended (k : WgKind) : State := placed (.nop g0 (fB 0 0 0 0))
  (fun w => { w with kind := k, gangs := w.gangs.map fun g => { g with lanes := List.replicate 32 { st := .exited } } }) fun s => { s with issues := [] }
theorem witness_Children : (meets [
    labs (.spawn g0 (fB 7 4 5 0)) (sAB 5 0x100) id kernelSt (fun s _ => match kernelOf s 5 with
      | some (_, d) => !childTooBig s d
      | none => false),
    labs (.spawn g0 (fB 7 4 5 0)) (sAB 5 0x100) (fun w => { w with children := List.replicate 16 .done }) kernelSt,
    labs (.waitch g0 (fB 7 4 0 0)) (sAB 3 0) (fun w => { w with children := [.running 9] }), labs (.waitch g0 (fB 7 4 0 0)) (sAB 3 0) (fun w => { w with children := [.done, .faulted 6] }),
    labs (.waitch g0 (fB 7 4 0 0 1)) (sAB 1 0) (fun w => { w with children := [.done, .faulted 6] })] &&
    goes (exec (.workgroupEnd 1) (ended .handler)) && goes (exec (.workgroupEnd 1) (ended (.child 4 2))) &&
    (match exec (.childEnd 1) (let s := ended (.child 4 2)
        { s with wgs := (s.wgs.map fun w => { w with st := .ended }) ++ [{ soloWg s with tag := 4 }] }) with
      | .next t => t.wgs.map (fun w => childOf w 2) == [.done]
      | _ => false)) = true := by decide

/-- Group 1 is modules 0 and 1; plane 0 is UP at both. -/
def podSt (s : State) : State := { ctlPut (ctlPut s 0x7F0000610400 (BitVec.ofNat 64 (2 ^ 63 + 2))) 0x7F0000610408 0x10000 with live := [(0, 1), (1, 1)] }
def fCred : FmtT := ⟨7, 3, 8, 12, false, false, 0x2024⟩
def collArea : List W64 := sAt8 [0, 0, 0, 0x100000040, 0]
def coll0 : Coll := { id := 3, wg := 1, gang := 0, group := 1, number := 0, op := .red 0 false true, n := 2, rank := 0, members := [0, 1], target := 0, count := 64, chunk := 65536,
                        inVa := some 0x100C000, outVa := some 0x1000000, recVa := 0x1008000, hanks := [4, 1, 3], trees := [0], marks := [0], params := [], seq := 0, lanes := 0xF }
def holdsColl (w : Wg) : Wg := { w with colls := [some 3] }
theorem witness_FabricWords : meets [
    labs (.xfer g0 (fB 7 1 8 10)) (sAt8 [0, 0x10000000100, 0x2000000, 1, none63, none63]) id podSt
      (fun s h => (xferCheck (wordOf (.xfer g0 (fB 7 1 8 10))) (fB 7 1 8 10) h s).isNone),
    labs (.cred g0 fCred) collArea id podSt (fun s h => let a := collArgs (.red 0 false true) fCred h s
      (collCheck (wordOf (.cred g0 fCred)) fCred a h s).isNone && !a.members.any (showsLost s) && !(treeSet s a.members).1.isEmpty && (findColl s s.seq).isNone),
    labs (.cred g0 fCred) collArea (fun w => { w with colls := List.replicate 8 (some 3) }) podSt (fun s h =>
      (collCheck (wordOf (.cred g0 fCred)) fCred (collArgs (.red 0 false true) fCred h s) h s).isNone),
    labs (.cbcast g0 { fCred with mod := 0x24 }) collArea id podSt (fun s h => (collCheck (wordOf (.cbcast g0 { fCred with mod := 0x24 })) { fCred with mod := 0x24 }
      (collArgs .bcast { fCred with mod := 0x24 } h s) h s).isNone),
    labs (.cgath g0 { fCred with mod := 0x24 }) collArea id podSt (fun s h => (collCheck (wordOf (.cgath g0 { fCred with mod := 0x24 })) { fCred with mod := 0x24 }
      (collArgs .gath { fCred with mod := 0x24 } h s) h s).isNone),
    labs (.cwait g0 (fB 7 4 0 0)) (sAB 5 0), labs (.cqry g0 (fB 7 4 0 0)) (sAB 5 0),
    labs (.cwait g0 (fB 7 4 0 0)) (sAB 0 0) holdsColl (fun s => { s with colls := [coll0] }) (fun s h => handleColl s h.w 0 == some coll0),
    labs (.cwait g0 (fB 7 4 0 0)) (sAB 0 0) holdsColl (fun s => { s with colls := [{ coll0 with code := 0 }] }),
    labs (.cqry g0 (fB 7 4 0 0)) (sAB 0 0) holdsColl (fun s => { s with colls := [coll0] })] = true := by decide
def linkSt (l : Link) : State := { State.reset with links := [l] }
/-- A load from module 1 went out on plane 0 before that plane failed, and 30 µs have passed; plane 1 is UP. -/
def farLoad : Access := { seq := 1, kind := .load, lanes := 2, va := 0x1000000, pa := 2 * 2 ^ 48 + 0x80000000, bytes := 4, full := 4, dst := .vec 8 1, plane := some 0 }
def farSt : State :=
  let s := placed (.nop g0 (fB 0 0 0 0)) fun w => { w with gangs := w.gangs.map fun g => { g with pend := [farLoad] } }
  { s with links := [{}, { st := .up }], live := [(1, 3)], deadPlanes := [⟨some 0, [0, 1], 0, 9⟩], time1588 := 30000 }
def flit (n : BitVec 12) (ok : Bool := true) : Flit := ⟨n, ok, true, [], none⟩
/-- R364 to R369: what a good flit, one ahead and a damaged one leave, and the states of training. -/
theorem witness_LinkSteps : (
    (match exec (.flitReceive 0 (flit 5)) (linkSt { st := .up, rxNext := 5 }) with
      | .next t => linkOf t 0 == { st := .up, rxNext := 6, acks := 1, delivered := 1 }
      | _ => false) &&
    (match exec (.flitReceive 0 { flit 5 with onward := some 1, payload := [7] }) { State.reset with links := [{ st := .up, rxNext := 5 }, { st := .train }] } with
      | .next t => (linkOf t 1).outbox == [[7]] && (linkOf t 0).rxNext == 6
      | _ => false) &&
    (match exec (.flitReceive 0 (flit 5 false)) (linkSt { st := .up, rxNext := 5, acks := 63 }) with
      | .next t => linkOf t 0 == { st := .up, rxNext := 5, ackOut := some (5, 0) }
      | _ => false) &&
    (match exec (.flitReceive 0 (flit 7)) (linkSt { st := .up, rxNext := 5 }) with
      | .next t => linkOf t 0 == { st := .up, rxNext := 5, acks := 1, rxBuf := [flit 7] }
      | _ => false) &&
    (match exec (.flitReceive 0 (flit 5 false)) (linkSt { st := .up, rxNext := 5 }) with
      | .next t => linkOf t 0 == { st := .up, rxNext := 5, acks := 1 }
      | _ => false) &&
    goes (exec (.ackSend 0) (linkSt { st := .up, acks := 1 })) && goes (exec (.ackReceive 0 9 0) (linkSt { st := .up, unacked := [flit 8] })) &&
    goes (exec (.lossOfLock 0) (linkSt { st := .up })) && goes (exec (.linkLock 0 0 2) (linkSt { st := .train })) && goes (exec (.linkLock 0 2 3) (linkSt { st := .train })) &&
    goes (exec (.linkLock 0 1 1) (linkSt { st := .retrain })) && goes (exec (.trainingTimeout 0) (linkSt { st := .train })) &&
    (match exec (.trainingTimeout 0) (linkSt { st := .retrain, attempts := 2 }) with
      | .next t => (linkOf t 0).st == .failed
      | _ => false) &&
    goes (exec (.portEnable 0) (linkSt {})) && overdue farSt 0 farLoad && goes (exec (.planeResendTimeout 0) farSt) && goes (exec (.starvationToken 0 3) State.reset) &&
    goes (exec (.slotReservation [1] [5]) State.reset) && goes (exec (.slotReservation [1] [32]) State.reset)) = true := by decide
/-- A landing entry of ticket 7 for the page of context 0, and an XFER in flight. -/
def landSt : State := { podSt (placed (.nop g0 (fB 0 0 0 0)) (labWg [] []) labSt) with own := [entry0] }
def xfer0 : Xfer := { id := 3, wg := 1, gang := 0, quads := 1, d := 7, hank := 1, sbase := 0x1000000, soff := 0, len := 256, valid := 256, remote := 0, module := 1, ticket := 9,
                        rcounter := none63, lcounter := none63, left := [0], seq := 0, lanes := 0xF }
def xferSt (x : Xfer) : State := { landSt with xfers := [x], links := [{ st := .up }] }
def collSt (c : Coll) : State := { landSt with colls := [c] }
def pkt0 (epoch : Nat) : CollPacket := ⟨1, 0, epoch, 0, 1, .contribution, List.replicate 256 0⟩
def exch0 : CollExchange := ⟨1, 0, 1, 0, [], [], [], false, true⟩
theorem witness_FabricSteps : (
    goes (exec (.xferPacket ⟨0, 7, 0x1000000, [1, 2, 3, 4, 5, 6, 7, 8], 8, none63⟩) landSt) && goes (exec (.xferPacket ⟨0, 8, 0x5000000, [1], 1, none63⟩) landSt) &&
    landing landSt 0 7 [(0x80000000, 8)] == some entry0 && (landingEntry landSt 0 8 []).isNone &&
    (match exec (.xferAck 0 2) (xferSt { xfer0 with sent := [(0, [5])] }) with
      | .next t => t.xfers == [] && t.wgs.head?.any fun w => sreg (quadOf (gangOf w 0) 0) 7 == 2
      | _ => false) &&
    goes (exec (.xferResend 0) (xferSt { xfer0 with sent := [(0, [5])] })) &&
    (match exec (.xferResend 0) (xferSt xfer0) with
      | .next t => t.xfers.map (fun x => x.sent.map fun y => (y.1, y.2.length)) == [[(0, 256)]]
      | _ => false) &&
    poisoned (xferSt xfer0) 0 [packetSrc xfer0 0] == false &&
    (match exec (.collectivePacket (pkt0 0)) landSt with
      | .next t => t.collPkts == [pkt0 0]
      | _ => false) &&
    (match exec (.collectivePacket (pkt0 0)) (collSt { coll0 with epoch := 1, held := [pkt0 0] }) with
      | .next t => t.colls.map (fun c => (c.epoch, c.contrib, c.held)) == [(1, [], [])]
      | _ => false) &&
    (match exec (.collectivePacket (pkt0 2)) (collSt coll0) with
      | .next t => t.colls.map (fun c => c.held) == [[pkt0 2]]
      | _ => false) &&
    (match exec (.collectivePacket (pkt0 0)) (collSt { coll0 with met := [1] }) with
      | .next t => t.colls.map (fun c => c.contrib) == [[(0, 1, List.replicate 256 0)]]
      | _ => false) &&
    (match exec (.epochExchange exch0) landSt with
      | .next t => t.collExs == [exch0]
      | _ => false) &&
    goes (exec (.epochExchange exch0) (collSt coll0)) && goes (exec (.epochExchange { exch0 with entry := groupEntry (collSt coll0) 1 }) (collSt coll0)) &&
    goes (exec (.memberLostTimeout 3 1) { collSt coll0 with time1588 := 2000000 }) && goes (exec (.confirmationRound 3) (collSt { coll0 with marks := [2], confirmed := [1] })) && goes (exec (.confirmationRound 3) (collSt { coll0 with begun := false })) &&
    goes (exec (.linkNotice 1 0 .failed) (collSt coll0)) && goes (exec (.linkNotice 1 0 .up) landSt)) = true := by decide
/-- Two chunks of 128 bytes: chunk 1 is rooted at module 1; 1.0 and 2.0 in every element. -/
def coll2 : Coll := { coll0 with chunk := 128, marks := [0, 0], met := [1] }
def fps (v : Nat) : List Byte := (List.replicate 32 (leBytes 4 v)).flatten
/-- A member's reading of its input, the sum of a chunk at its root, the bytes of a result and an announcement (R375 to R377). -/
theorem witness_CollectiveValues : (
    (match exec (.collectivePacket ⟨1, 0, 0, 1, 0, .contribution, []⟩) (collSt coll2) with
      | .next t => t.collSent.map (fun x => (x.1, x.2.chunk, x.2.data.length)) == [(1, 1, 128)] && t.colls.map (fun c => c.given) == [[1]]
      | _ => false) && (chunkRoot coll2 1 == 1 && deadIn (collSt coll2) 0x8000C080 128 == false) &&
    (match exec (.collectivePacket ⟨1, 0, 0, 0, 1, .contribution, fps 0x40000000⟩) (collSt { coll2 with contrib := [(0, 0, fps 0x3F800000)] }) with
      | .next t => t.collSent.map (fun x => (x.1, x.2.data)) == [(1, fps 0x40400000)] && t.colls.map (fun c => c.marks) == [[2, 0]]
      | _ => false) &&
    (match exec (.collectivePacket ⟨1, 0, 0, 1, 1, .result, fps 0x40000000⟩) (collSt coll2) with
      | .next t => homeBytes t 0x80000080 128 == fps 0x40000000 && t.colls.map (fun c => c.marks) == [[0, 2]]
      | _ => false) &&
    (match exec (.collectivePacket ⟨1, 0, 0, 1, 1, .announce, []⟩) (collSt { coll2 with op := .red 0 false false, target := 1, outVa := none }) with
      | .next t => t.colls.map (fun c => c.marks) == [[0, 2]]
      | _ => false)) = true := by decide +kernel

/-! System words, the device's steps, the host. -/

def fS (d a : BitVec 8) (n m : BitVec 16) : FmtS := ⟨d, a, n, m⟩
/-- Lanes with a handler active, or a handler that the workgroup has. -/
def inHandler (w : Wg) : Wg := { w with gangs := w.gangs.map fun g => { g with lanes := g.lanes.map fun l => { l with hact := true, tpc := l.pc, tbase := none } } }
def lanesOf (f : Lane → Lane) (w : Wg) : Wg := { w with gangs := w.gangs.map fun g => { g with lanes := g.lanes.map f } }
def tvecs (s : State) : State := { s with issues := s.issues.map fun i => { i with tvec := 0x40001 } }
theorem witness_StatusWords : meets [
    labs (.csrr g0 (fS 4 0 2 0)) [], labs (.csrr g0 (fS 4 0 0x24 2)) [], labs (.csrr g0 (fS 4 0 4 1)) [], labs (.csrr g0 (fS 4 0 0x30 2)) [],
    labs (.csrw g0 (fS 0 4 0x23 2)) [] inHandler, labs (.csrw g0 (fS 0 4 0x10 1)) (sAB 9 0) id id (fun _ h => decide ((srcS h 4).toNat < 16)),
    labs (.csrw g0 (fS 0 4 0x11 1)) (sAB 9 0), labs (.csrw g0 (fS 0 4 0x22 1)) (sAB 0x40001 0),
    labs (.csrrCtl g0 (fS 7 4 0xFFFF 1)) (sAB 0x7F0000200018 0) id id (fun _ h => isCtl (srcS h 4).toNat && !ctlFenced h.g h.iss.lanes),
    labs (.csrwCtl g0 (fS 4 5 0xFFFF 1)) (sAB 0x7F0000200018 9) id id (fun _ h => isCtl (srcS h 4).toNat && !ctlFenced h.g h.iss.lanes),
    labs (.timew g0 (fS 0 4 0 0)) (sAB 0 0) id id (fun s h => (laneAt s h 3).halt.isNone), labs (.timew g0 (fS 0 4 0 0)) (sAB 0 0) (lanesOf fun l => { l with halt := some 9 }),
    labs (.timew g0 (fS 0 4 0 0)) (sAB 5 0) id id (fun s h => decide (s.time1588.toNat < (srcS h 4).toNat))] = true := by decide
theorem witness_TrapWords : meets [labs (.trap g0 (fS 0 0 0 5)) [] id tvecs (fun _ h => trueMask h g0 != 0#32 && h.iss.tvec.getLsbD 0 && !(laneAt (tvecs (lab .reset)) h 3).hact),
    labs (.trap g0 (fS 0 0 0 5)) [], labs (.bkpt g0 (fS 0 0 0 5)) [], labs (.haltg g0 (fS 0 0 0 5)) [],
    labs (.rett g0 (fS 0 0 0 0)) [] inHandler, labs (.rett g0 (fS 0 0 0 1)) [] inHandler (fun s => s) (fun s h =>
      (laneAt s h 3).tbase.isNone && (laneAt s h 3).hact)] = true := by decide
/-- R406, R410: TRAP 5 enters the handler with its code, PC and information; without one it parks. -/
theorem test_trap : ((laneAfter (placed (.trap g0 (fS 0 0 0 5)) id tvecs)).map (fun l => (l.pc, l.fcode, l.tpc, l.tinfo, l.hact)) ==
      some (0x40000, 0x45, 0xFFFFC00000008, 5, true) &&
    (laneAfter (placed (.trap g0 (fS 0 0 0 5)))).map (fun l => (l.pc, l.st)) == some (0xFFFFC00000008, .parked)) = true := by decide

def evict0 : Evict := ⟨[], [], []⟩
/-- One access is pending in the lab; its line is in the core's L1 where asked. -/
def acc0 : Access := { seq := 1, kind := .load, lanes := 2, parts := [{ lane := 1 }], va := 0x1000000, pa := 0x80000000, bytes := 4, full := 4, dst := .vec 8 1, place := .core }
def accSt (a : Access) (cached : Bool := true) (k : State → State := id) : State :=
  let s := placed (.nop g0 (fB 0 0 0 0)) (fun w => { labWg [] [] w with gangs := (labWg [] [] w).gangs.map fun g => { g with pend := [a], unacked := 1 } }) labSt
  k (if cached then { s with l1 := [⟨0, 0x80000000, false, 0x78 :: 0x56 :: 0x34 :: 0x92 :: List.replicate 60 0, 0⟩] }
    else { s with slices := [⟨0, 0x80000000, false, List.replicate 64 0, 0⟩] })
def regAfter (r : Host.Outcome State Fault Refusal) : Option W32 := match r with
  | .next t => t.wgs.head?.map fun w => vreg (laneOf (gangOf w 0) 1) 8
  | _ => none
theorem witness_AccessSteps : (
    regAfter (exec (.registerFill 1 0 1 .late evict0) (accSt acc0)) == some 0x92345678 &&
    regAfter (exec (.registerFill 1 0 1 .late evict0) (accSt { acc0 with bytes := 2, sx := true, pa := 0x80000002 })) == some 0xFFFF9234 &&
    regAfter (exec (.registerFill 1 0 1 .late evict0) (accSt { acc0 with span := (8, 2) })) == some 0x92345678 &&
    (match exec (.registerFill 1 0 1 .late evict0) (accSt { acc0 with bytes := 8, full := 8, dst := .scal 8 1 1, span := (8, 2) }) with
      | .next t => t.wgs.head?.any fun w => sreg (quadOf (gangOf w 0) 0) 8 == 0x92345678 && !sempty (quadOf (gangOf w 0) 0) 9
      | _ => false) &&
    goes (exec (.registerFill 1 0 1 .late evict0) (accSt { acc0 with kind := .atom })) &&
    regAfter (exec (.registerFill 1 0 1 .late evict0) (accSt { acc0 with kind := .reply, place := .home 0, parts := [{ lane := 1, ret := [7, 0, 0, 0] }] })) == some 7 &&
    (match exec (.storeBufferDrain 1 0 1 evict0) (accSt { acc0 with kind := .store, data := [1, 2, 3, 4], dst := .none_ }) with
      | .next t => t.l1.map (fun c => (c.dirty, c.data.take 5)) == [(true, [1, 2, 3, 4, 0])]
      | _ => false) &&
    goes (exec (.storeBufferDrain 1 0 1 evict0) (accSt { acc0 with kind := .store, data := [1, 2, 3, 4], dst := .none_, place := .home 0 } false)) &&
    (match exec (.accessAck 1 0) (accSt acc0) with
      | .next t => t.wgs.head?.map (fun w => (gangOf w 0).unacked) == some 0
      | _ => false) &&
    (match exec (.memsideAtomic 0) (accSt { acc0 with kind := .atom, op := 0, place := .home 0, parts := [{ lane := 1, x := 5 }] } false fun s => { s with msgs := [.memReq 1 0 1] }) with
      | .next t => t.slices.map (fun c => c.data.take 4) == [[5, 0, 0, 0]]
      | _ => false) &&
    (match exec (.waitvPoll 0) (accSt { acc0 with kind := .waitv, sent := true, place := .home 0, op := 1, parts := [{ lane := 1, x := 5 }] } false) with
      | .next t => t.wgs.head?.any fun w => ((gangOf w 0).pend.length == 1 && waitvHolds { acc0 with op := 1, parts := [{ lane := 1, x := 5 }] } [0, 0, 0, 0] == false) ||
          (gangOf w 0).pend.isEmpty
      | _ => false) &&
    mayPerform 0 { pend := [acc0] } acc0) = true := by decide
/-- A load and a store of lane 1 at 0x100 of the scratchpad, which holds 0x12345678 there. -/
def scrAcc (k : AKind) : Access := { acc0 with kind := k, pa := 2 ^ 60 + 0x100, place := .scratch, data := if k = .stsp then [9, 8] else [] }
def scrAt (k : AKind) : State := placed (.nop g0 (fB 0 0 0 0)) fun w =>
  scr [(0x100, 0x12345678)] { w with gangs := w.gangs.map fun g => { g with pend := [scrAcc k] } }
/-- R106, R247, R248: the scratchpad is read and written as the access performs. -/
theorem witness_ScratchSteps : (regAfter (exec (.registerFill 1 0 1 .late evict0) (scrAt .load)) == some 0x12345678 &&
    (match exec (.registerFill 1 0 1 .late evict0) (scrAt .stsp) with
      | .next t => t.wgs.head?.map (fun w => gets0 w.scratch 0xFF 4) == some [0, 9, 8, 0x34]
      | _ => false) && mayPerform 0 { pend := [scrAcc .stsp] } (scrAcc .stsp)) = true := by decide
/-- No issue is in flight, and the lanes stand at the clause's header. -/
def atHeader (x : W64) (f : Lane → Lane := id) : State :=
  let s := State.reset.withFetchWord 64 x.toNat
  { s with wgs := s.wgs.map (fun w => { w with gangs := w.gangs.map fun g => { g with lanes := g.lanes.map fun l => f { l with pc := 0xFFFFC00000000, cbase := none } } }), issues := [], agenda := [] }
/-- And an issue about to start its clause. -/
def aboutTo (x : W64) (f : Wg → Wg := id) : State :=
  let s := atHeader x
  { s with wgs := s.wgs.map f, issues := [{ wg := 1, gang := 0, quad := none, lanes := 0xFFFFFFFF#32, base := 0xFFFFC00000000, at_ := 0xFFFFC00000000, last := 0, started := false }] }
/-- What a started clause leaves: the issue, or the trap code of lane 3. -/
def startsAs (s : State) : Option (List (Bool × W64) × BitVec 8) := match exec .clauseStart s with
  | .next t => t.wgs.head?.map fun w => (t.issues.map (fun i => (i.started, i.at_)), (laneOf (gangOf w 0) 3).fcode)
  | _ => none
theorem witness_IssueSteps : (goes (exec (.portIssueChoice 0 0) (atHeader 0)) && portUnits (atHeader 0) 0 0 != [] && portBusy (atHeader 0) 0 0 == [] && portTaken (atHeader 0) 0 0 == false &&
    startsAs (aboutTo 0) == some ([(true, 0xFFFFC00000008)], 0) &&
    startsAs (aboutTo 0x0000010000000000 fun w => { w with trapvec := 0x40001 }) == some ([], 2) &&
    (match exec (.rejoinRelease 1 0) { atHeader 0 (fun l => { l with st := .blocked (.rejoin 0xFFFFC00000008 1) }) with dawn := true } with
      | .next t => t.wgs.head?.map (fun w => (laneOf (gangOf w 0) 3).st) == some .ready
      | _ => false) &&
    (match exec (.yieldExpiry 1 0) (atHeader 0 fun l => { l with st := .waiting (.cycles 0) }) with
      | .next t => t.wgs.head?.map (fun w => (laneOf (gangOf w 0) 3).st) == some .ready
      | _ => false) &&
    (match exec (.timewRelease 1 0) (atHeader 0 fun l => { l with st := .blocked (.time 0) }) with
      | .next t => t.wgs.head?.map (fun w => (laneOf (gangOf w 0) 3).st) == some .ready
      | _ => false)) = true := by decide
/-- R159, R173: the state of ReservedTrap's premises: the header passes its checks, the word does not decode. -/
theorem witness_JumpsAndNops : (let s := aboutTo 0x0000010000000000
    match findWg s 1, fetch s ((findWg s 1).getD (soloWg s)) 0xFFFFC00000000, fetch s ((findWg s 1).getD (soloWg s)) 0xFFFFC00000008 with
      | some w, some hdr, some x => isHeader hdr && (headerTrap w hdr).isNone && !headerQuota s (gangOf w 0) hdr && slotsHold s w 0 0xFFFFFFFF#32 hdr && classOfBits (hdrClass hdr) == classOfOp (fld x 56 8) && decode x == .error .reservedField
      | _, _, _ => false) = true := by decide

/-- A launch of one workgroup of one gang. -/
def launch0 : Launch := { id := 3, queue := 0, seqno := 0, ctx := 0, tenant := 0, pri := 2, sys := false, idem := false, parkt := 0, wdog := 2000, expins := 0, gdim := (1, 1, 1),
                          wglanes := 32, skeinSize := 1, quota := 1, scratch := 256, nmacs := 0, naccs := 0, fslots := [], args := [], image := 0, entry := 0x40000, doneAddr := 0, st := .running }
/-- Queue 2, on, with one entry; the entry's launch record stands in the page. -/
def queueSt (e : Nat) (dep : Nat := 0) : State :=
  let s := labSt (kernelSt (placed (.nop g0 (fB 0 0 0 0))))
  let s := [(0, 0x80002000), (1, 4), (2, 1), (5, 2 ^ 26)].foldl (fun s x => ctlPut s (queueAddr 2 x.1) (BitVec.ofNat 64 x.2)) s
  let s := ctlPut s 0x7F0003000000 none63
  devPut (devPut s 0x80002000 (leBytes 64 e)) 0x80000000 (leBytes 256 (5 + 1 * 2 ^ 64 + 2 ^ 96 + 2 ^ 112 + (32 + 2 ^ 16 + 2 ^ 20 + 2 ^ 32) * 2 ^ 128 + dep * 2 ^ 64 * 2 ^ 256))
def skein0 (st : SkeinSt) (k : State → State := id) : State :=
  let s := placed (.nop g0 (fB 0 0 0 0)) id labSt
  k { s with issues := [], skeins := s.skeins.map fun x => { x with st := st } }
theorem witness_SchedulingSteps : (
    (match exec (.workgroupPlace (.skein 3) [4]) { kernelSt State.reset with launches := [launch0] } with
      | .next t => t.wgs.map (fun w => (coreOf w, w.kind, (laneOf (gangOf w 0) 31).pc)) == [(some 4, .grid 3 0, 0x40000)]
      | _ => false) &&
    (match exec (.workgroupPlace (.child 0) [1]) { kernelSt (placed (.nop g0 (fB 0 0 0 0))) with
                                                     childReqs := [{ id := 7, parent := 1, slot := 2, image := 0, desc := 0x1000, entry := 0x40000, args := [9], hanks := [], lend := 0 }] } with
      | .next t => t.wgs.length == 2 && t.childReqs == []
      | _ => false) &&
    (match exec (.workgroupPlace (.handler 5 0) []) { kernelSt (placed (.nop g0 (fB 0 0 0 0))) with
                                                        amWaits := [{ core := 5, urgent := false, ctx := 0, pri := 1, image := 0, desc := 0x1000, entry := 0x40000, payload := [9], sender := 4 }] } with
      | .next t => t.wgs.length == 2 && t.amWaits == []
      | _ => false)) = true := by decide
theorem witness_Distribution : (
    (match exec (.launchStart 2) (queueSt 1) with
      | .next t => t.launches.map (fun l => (l.queue, l.wglanes, l.quota)) == []
      | _ => false)) = true := by decide +kernel
theorem witness_Starts : (
    (match exec (.launchStart 2) (queueSt (1 + 0x1000000 * 2 ^ 64)) with
      | .next t => t.launches.map (fun l => (l.queue, l.wglanes, l.quota)) == [(2, 32, 1)]
      | _ => false)) = true := by decide +kernel
/-- R391: an entry whose dependence on queue 2's own entry 0 has not completed waits at its head; held, it starts once none is left. -/
theorem witness_HeldHead : (
    (match exec (.launchStart 2) (queueSt (1 + 0x1000000 * 2 ^ 64) (2 ^ 63 + 2 * 2 ^ 48)) with
      | .next t => t.heads.map (fun x => (x.launch.queue, x.deps)) == [(2, [(2, 0)])] && t.launches == []
      | _ => false) &&
    (match exec (.launchStart 2) { queueSt 1 with heads := [⟨{ launch0 with queue := 2, st := .borrowing }, 5, []⟩] } with
      | .next t => t.heads.isEmpty && t.launches.length == 1
      | _ => false)) = true := by decide +kernel
theorem witness_Completion : (
    (match exec (.launchComplete 3) { State.reset with launches := [{ launch0 with endedWgs := 1 }] } with
      | .next t => t.launches == []
      | _ => false)) = true := by decide
theorem witness_Preemption : (
    (match exec .sliceSwitch ([(0x7F0001200000, 0x82), (0x7F0001200100, 1000), (0x7F0001200108, 2000)].foldl (fun s x => ctlPut s x.1 (BitVec.ofNat 64 x.2))
        { State.reset with slice := 64, time1588 := 1500000 }) with
      | .next t => t.slice == 1
      | _ => false) &&
    (match exec (.drainTimeout 0) (skein0 (.draining 0) fun s => { s with time1588 := 100000 }) with
      | .next t => t.skeins.map (fun k => k.st) == [.saving false 100000]
      | _ => false)) = true := by decide
theorem witness_Decision : (
    (match exec (.preemptionDecision 0 true) (skein0 .running fun s => ctlPut (ctlPut s 0x7F0001200000 0x81) 0x7F0001200100 0x5000003E8) with
      | .next t => t.skeins.map (fun k => k.st) == [.saving false 0]
      | _ => false) &&
    (match exec (.preemptionDecision 0 true) (skein0 (.draining 0) fun s => { ctlPut (ctlPut s 0x7F0001200000 0x81) 0x7F0001200100 0x5000003E8 with
        wgs := s.wgs.map fun w => { w with subs := [{ st := .armed }] } }) with
      | .next t => t.skeins.map (fun k => k.st) == [.saving false 0]
      | _ => false)) = true := by decide
/-- A save area of one slot for context 0. -/
def boltArea (s : State) : State := ctlPut (ctlPut s 0x7F0003000008 0x40000000) 0x7F0003000010 1
/-- R402: a skein with a free slot and no access unacknowledged is saved. -/
theorem witness_Save : (
    (match exec (.skeinSave 0) (skein0 (.saving false 0) boltArea) with
      | .next t => t.skeins.map (fun k => k.st) == [.saved (skein0 (.saving false 0) boltArea).seq [0]] && t.wgs.map (fun w => w.st) == [.saved]
      | _ => false) && freeBolts (skein0 (.saving false 0) boltArea) 0 1 == some [0] &&
    (skein0 (.saving false 0) boltArea).wgs.all (settled (skein0 (.saving false 0) boltArea))) = true := by decide
/-- The memory that a save left: a slot's header over a body of its own. -/
def boltBase : State := skein0 (.saved 0 [0]) boltArea
def boltHead : List Byte := boltHeader false true 1 (bodyBytes 7) (crc32c (homeBytes boltBase 0x40000020 (bodyBytes 7)))
def savedSt : State := { devPut boltBase 0x40000000 boltHead with wgs := boltBase.wgs.map fun w => { w with st := .saved, bolt := some (0, 7) } }
theorem savedSt_byte (y : Nat) : homeByte savedSt y = if 0x40000000 ≤ y ∧ y < 0x40000020 then boltHead.getD (y - 0x40000000) 0#8 else homeByte boltBase y := by
  have h : homeByte savedSt y = devByte (devPut boltBase 0x40000000 boltHead) y := by rfl
  rw [h, devByte_devPut]
  rfl
theorem savedSt_head : homeBytes savedSt 0x40000000 32 = boltHead := by
  have e : homeBytes savedSt 0x40000000 32 = (List.range 32).map fun i => boltHead.getD i 0#8 := List.map_congr_left fun i hi => by
    rw [savedSt_byte, if_pos (by have := List.mem_range.1 hi; omega), Nat.add_sub_cancel_left]
  rw [e]; rfl
theorem savedSt_body (n : Nat) : homeBytes savedSt 0x40000020 n = homeBytes boltBase 0x40000020 n := List.map_congr_left fun i _ => by
  rw [savedSt_byte, if_neg (by omega)]
/-- The header that a save wrote is good (R403). -/
theorem witness_BoltGood : savedSt.wgs.all (boltGood savedSt) = true := by
  have hw : ∀ w ∈ savedSt.wgs, w.ctx = 0 ∧ w.bolt = some (0, 7) := by decide
  have ha : slotAddr savedSt 0 0 = 0x40000000 := by decide
  simp only [List.all_eq_true]
  intro w h
  obtain ⟨h0, h1⟩ := hw w h
  have hn : bodyBytes 7 < 2 ^ 21 := by unfold bodyBytes; omega
  have w0 : wordOfBytes boltHead 0 = 2 ^ 32 + 0x4131 * 2 ^ 16 + 1 := by rfl
  have w2 : wordOfBytes boltHead 2 = 32 + bodyBytes 7 := by
    show leNat (leBytes 8 _) = _
    rw [leNat_leBytes, Nat.mod_eq_of_lt (by omega)]
  have w3 : wordOfBytes boltHead 3 = (crc32c (homeBytes boltBase 0x40000020 (bodyBytes 7))).toNat := by
    show leNat (leBytes 8 _) = _
    rw [leNat_leBytes, Nat.mod_eq_of_lt (by omega)]
  simp [boltGood, h0, h1, ha, savedSt_head, savedSt_body, w0, w2, w3, bitsSet, bitsN]
  omega
/-- R403, R404: what a restore asks for. -/
theorem witness_Restore : (
    (match exec (.skeinRestore 0 [4]) { savedSt with wgs := savedSt.wgs.map fun w => { w with bolt := none } } with
      | .next t => t.wgs.isEmpty
      | _ => false) &&
    savedSt.skeins.all (fun k => skeinReady savedSt k && fitsOn savedSt ([4].zip (savedUnit savedSt k).needs) && isNext savedSt (savedUnit savedSt k)) &&
    !aheadOf savedSt [4]) = true := by decide
theorem witness_Stall : (
    (match exec (.saveStallKill 0) (skein0 (.saving false 0) fun s => { s with time1588 := 10000000 }) with
      | .next t => t.wgs == [] && (ctxOf t 0).killed
      | _ => false)) = true := by decide
theorem witness_Watchdog : (
    (match exec (.watchdogExpiry 1) (skein0 .running fun s => { s with wgs := s.wgs.map fun w => { w with idle := 2000 * 1000 * 1750 } }) with
      | .next t => t.faults.map (fun r => r.code) == [0xF0] && (ctxOf t 0).hung
      | _ => false) &&
    (match exec .faultRecordWrite { ctlPut (ctlPut State.reset fqctlAddr 4) 0x7F0004000010 0x40000 with
                                      faults := [⟨0, false, false, 2, 0, 1, 0, 0xF, 8, 9, false, false, none, false⟩] } with
      | .next t => hostBytes t 0x40008 1 == [0xF] && t.interrupts == 1
      | _ => false)) = true := by decide

def goesTo (r : Host.Outcome State Fault Refusal) (t : State) : Bool := match r with
  | .next x => x == t
  | _ => false
def s0 : State := State.reset
/-- R97 to R434: a write of each kind runs, and the ones of a bad value change only the bit that says so. -/
theorem witness_ControlWrites : (
    goes (exec (.rgpatWrite 0x80000000) s0) && goes (exec (.rglenWrite 1) s0) && goesTo (exec (.rglenWrite 0x100000000) s0) (ctlPut s0 rgctlAddr 0x8002) &&
    (match exec (.rgctlWrite 0x8001) (ctlPut (ctlPut s0 0x7F0000200008 0x80000000) 0x7F0000200010 1) with
      | .next t => t.ring.running && (ctlGet t rgctlAddr).getLsbD 0
      | _ => false) &&
    goes (exec (.residencyRangeWrite 0x7F0000100000 0) s0) && goes (exec (.slctlWrite 0x81) s0) && goesTo (exec (.slctlWrite 0x200) s0) (ctlPut s0 slctlAddr 0x100) &&
    goes (exec (.sliceTableWrite 0x7F0001200100 1000) s0) && goesTo (exec (.sliceTableWrite 0x7F0001200100 999) s0) (ctlPut s0 slctlAddr 0x100) &&
    goes (exec (.queueDoorbell 2 1) s0) && goesTo (exec (.queueDoorbell 2 9) s0) (ctlPut s0 (queueAddr 2 5) 0x8000000) &&
    goes (exec (.queueDescriptorWrite 2 0 0x40) s0) && goes (exec (.queueDescriptorWrite 2 5 0x4000000) s0) && goes (exec (.hcqctlWrite 0x100000004) s0) &&
    goes (exec (.hcqctlWrite 16) s0) && goes (exec (.fqctlWrite 4) s0) && goesTo (exec (.fqctlWrite 1) s0) s0 && goes (exec (.fqheadWrite 3) s0) &&
    goes (exec (.imgctlWrite 8) s0) && goes (exec (.controlSpaceWrite 0x7F0000400000 1) s0) && goes (exec (.controlSpaceWrite 0x7F0000610400 0x8000000000000002) s0) &&
    goes (exec (.rgerrWrite 0) s0) && goesTo (exec (.controlSpaceWrite 0x7F0000600000 7) s0) s0) = true := by decide
/-- A command of eight words in the ring of 16, its completion word at 0x20000. -/
def hst (ws : List Nat) (k : State → State := id) : State :=
  hostPut (ctlPut (ctlPut (k State.reset) 0x7F0004000000 0x10000) hcqctlAddr 0x100000004) 0x10000 ((ws.take 6 ++ List.replicate (6 - ws.length) 0 ++ [0x20000, 0]).flatMap (leBytes 8))
/-- The status word a step leaves there. -/
def statusOf (r : Host.Outcome State Fault Refusal) : Option Nat := match r with
  | .next t => some (leNat (hostBytes t 0x20000 8))
  | _ => none
def fault0 (code : BitVec 8) : FaultRec := ⟨0, false, false, code, 0, 1, 0, 0xFFFFFFFF, 8, 9, true, false, none, false⟩
/-- Workgroup 1's lanes are parked at the header under a record written to the ring. -/
def parkedSt (code : BitVec 8) (s : State) : State :=
  let x := atHeader 0 fun l => { l with st := .parked }
  { x with faults := [fault0 code], hostMem := s.hostMem, ctl := x.ctl }
theorem witness_HostCommands : (
    statusOf (exec .load (hst [1, 0, 0])) == some (6 * 2 ^ 56) && statusOf (exec .unload (hst [2, 3])) == some (9 * 2 ^ 56) &&
    statusOf (exec .unload (hst [2, 3] fun s => { s with images := [{ soloImage s with num := 3 }] })) == some (7 * 2 ^ 56) &&
    statusOf (exec .replace (hst [3, 5, 0, 2 ^ 63])) == some 0 && statusOf (exec .replace (hst [3, 5, 9, 0])) == some (9 * 2 ^ 56) &&
    statusOf (exec .replace (hst [3, 5, 0, 0] fun s => { s with images := [{ soloImage s with desc := (0, 256) }] })) == some 0 &&
    statusOf (exec .ctxset (hst [4, 7, 2 ^ 63, 0, 0, 0])) == some 0 && statusOf (exec .ctxset (hst [4, 7, 1, 0, 0, 0])) == some (2 ^ 56) &&
    statusOf (exec .hborrow (hst [5, 7, 1, 0, 1])) == some (9 * 2 ^ 56) && statusOf (exec .hreturn (hst [6, 7, 0, 1])) == some (9 * 2 ^ 56) &&
    statusOf (exec .kill (hst [7, 7])) == some (9 * 2 ^ 56) &&
    statusOf (exec .kill (hst [7, 7] fun s => { s with killing := some 7 })) == some 0 &&
    (match exec .kill (hst [7, 7] fun s => ctlPut s 0x7F00030000E0 none63) with
      | .next t => t.killing == some 7 && (ctxOf t 7).killed
      | _ => false) &&
    statusOf (exec .wgterm (hst [8, 0, 6])) == some (9 * 2 ^ 56) && statusOf (exec .resume (hst [9, 6])) == some (9 * 2 ^ 56) &&
    statusOf (exec .attest (hst [0xD, 0x30000, 0x31000] fun s => ctlPut s secstatAddr 0x100)) == some (8 * 2 ^ 56) &&
    statusOf (exec .extmap (hst [0xE, 4, 131072])) == some (2 ^ 56) && statusOf (exec .extmap (hst [0xE, 4, 2])) == some 0 &&
    statusOf (exec .extunmap (hst [0xF, 4, 2])) == some (9 * 2 ^ 56) &&
    statusOf (exec .extunmap (hst [0xF, 4, 2] fun s => { s with extents := [(4, 2, 0, false)] })) == some 0 &&
    statusOf (exec .fuseup (hst [0xC, 65])) == some (2 ^ 56) && goes (exec .fuseup (hst [0xC, 3])) &&
    statusOf (exec .fuseBlowComplete (hst [0xC, 3] fun s => { s with fuseBusy := some 3 })) == some 0) = true := by decide
/-- R400, R401: RESUME frees the lanes where they stand, SKIP of a breakpoint too, FAIL ends the workgroup; WGTERM ends one that runs. -/
theorem witness_FaultAnswers : (
    (match exec .resume (hst [9, 0] (parkedSt 2)) with
      | .next t => t.wgs.map (fun w => (laneOf (gangOf w 0) 3).st) == [.ready] && t.faults.map (fun r => r.answered) == [true]
      | _ => false) &&
    (match exec .skip (hst [0xA, 0] (parkedSt 0x30)) with
      | .next t => t.wgs.map (fun w => (laneOf (gangOf w 0) 3).st) == [.ready]
      | _ => false) &&
    (match exec .fail (hst [0xB, 0] (parkedSt 2)) with
      | .next t => t.wgs == []
      | _ => false) &&
    (match exec .wgterm (hst [8, 0, 1] (parkedSt 2)) with
      | .next t => t.wgs == []
      | _ => false)) = true := by decide
/-- A context hung, with its watchdog record written; and a copy suspended, with its own. -/
def hungSt (s : State) : State := { parkedSt 0xF0 s with ctxs := [{ num := 0, hung := true }] }
def suspSt (s : State) : State :=
  let x := engSt { copy0 with suspended := some 0 }
  { x with faults := [{ fault0 0x20 with lanes := 0, cmd := some 3 }], hostMem := s.hostMem, ctl := x.ctl }
/-- R344, R400, R401: RESUME of a watchdog record frees its context, FAIL kills it; RESUME of an engine's record lets its command go on, FAIL ends
it; neither has a word to skip. SKIP of a parked lane at a header goes to the next clause. -/
theorem witness_OtherAnswers : (
    (match exec .resume (hst [9, 0] hungSt) with
      | .next t => !(ctxOf t 0).hung
      | _ => false) &&
    statusOf (exec .skip (hst [0xA, 0] hungSt)) == some (2 ^ 56) &&
    (match exec .fail (hst [0xB, 0] hungSt) with
      | .next t => (ctxOf t 0).killed && t.killing == some 0
      | _ => false) &&
    (match exec .resume (hst [9, 0] suspSt) with
      | .next t => t.eng.map (fun c => c.suspended) == [none]
      | _ => false) &&
    statusOf (exec .skip (hst [0xA, 0] suspSt)) == some (2 ^ 56) &&
    (match exec .fail (hst [0xB, 0] suspSt) with
      | .next t => t.eng.isEmpty && t.faults.map (fun r => r.answered) == [true]
      | _ => false) &&
    (match exec .skip (hst [0xA, 0] (parkedSt 2)) with
      | .next t => t.wgs.map (fun w => (laneOf (gangOf w 0) 3).pc) != (atHeader 0).wgs.map (fun w => (laneOf (gangOf w 0) 3).pc)
      | _ => false)) = true := by decide
/-- R426 to R434: the outside's own steps. -/
theorem witness_Outside : (
    goes (exec (.extentTakeback 4) { State.reset with extents := [(4, 2, 0, false)] }) && goes (exec (.poolFatalError (.metadata 0)) State.reset) &&
    goes (exec (.cxlMemAccess ⟨0x1000, none, 8, 0x40000, []⟩) State.reset) && goes (exec (.cxlMemAccess ⟨0x1000, some [1], 1, 0, []⟩) State.reset) &&
    goes (exec (.cxlMemAccess ⟨0x80000000, some [1], 1, 0, []⟩) { State.reset with grants := [{ grant0 with taker := .host 0 0 }], own := [entry0] }) &&
    goesTo (exec (.thermalLimit false) State.reset) { State.reset with clockMHz := 1625, sideband := 1 } &&
    goes (exec (.thermalLimit true) { State.reset with clockMHz := 1625 }) && goes (exec .securityAlarm State.reset) && goes (exec .reset State.reset)) = true := by decide

/-- R432: lines of an extent that its device has lost. -/
theorem witness_LostLines : goes (exec (.poolFatalError (.lines (extentDevice 3) [⟨3, 64, 64⟩])) State.reset) = true := by
  simp [exec, execPoolFatalError, goes]

/-! Conversions under a slot, cross-lane words, and the whole machine. -/

theorem witness_SlotConversions : meets [
    labs (.cvtq g0 (fB 4 6 8 0 0x20)) [] (mats .free) id (fun _ h => convSlotOk false (tget 0#64 h.w.fslots 0)), labs (.cvtdq g0 (fB 4 6 0 0)) [] (mats .free),
    labs (.cvtq g0 (fB 4 6 8 0)) [] id id (fun _ h => !convSlotOk false (tget 0#64 h.w.fslots 0)), labs (.cvtdq g0 (fB 4 6 0 0)) []] = true := by decide
/-- The source lanes are live and full. -/
def fullAt (a : Nat) (h : Here) : Bool := (List.range 32).all fun n => isLive (laneOf h.g n).st && !vempty (laneOf h.g n) a && !pempty (laneOf h.g n) a
def quadCase (i : Instr) (p : Here → Bool) : Case := (i, placed i lanesOwn quadIssue, p)
theorem witness_CrossReads : meets [quadCase (.xquad g0 (fB 4 6 0 0)) (fullAt 6), quadCase (.xlane g0 (fB 4 6 0 0 8)) (fun h => fullAt 6 h && h.iss.quad.isSome),
    quadCase (.xbcast g0 (fB 4 6 0 0 1)) (fullAt 6), quadCase (.xread g0 (fB 4 6 5 0)) (fun h => fullAt 6 h && (vreg (laneOf h.g 2) 5) == 0),
    inLab (.xlane g0 (fB 4 6 0 0 8)) (fun _ h => fullAt 6 h && h.iss.quad.isNone), inLab (.xbcast g0 (fB 4 6 0 0 1)) (fun _ h => fullAt 6 h),
    inLab (.xread g0 (fB 4 6 5 0)) (fun _ h => fullAt 6 h)] = true := by decide
theorem witness_CrossCombines : meets [quadCase (.xred g0 (fB 4 6 0 0)) (fun h => fullAt 6 h && trueMask h g0 &&& helperMask h == 0#32),
    quadCase (.xscan g0 (fB 4 6 0 0 0x80)) (fullAt 6), quadCase (.xmatch g0 (fB 4 6 0 0)) (fullAt 6), quadCase (.xvote g0 (fB 4 2 0 0 2)) (fullAt 2),
    inLab (.xred g0 (fB 4 6 0 0)) (fun _ h => fullAt 6 h && trueMask h g0 != 0#32), inLab (.xscan g0 (fB 4 6 0 0)) (fun _ h => fullAt 6 h),
    inLab (.xmatch g0 (fB 4 6 0 0)) (fun _ h => fullAt 6 h), inLab (.xvote g0 (fB 4 2 0 0 2)) (fun _ h => fullAt 2 h)] = true := by decide
/-- A word in an agenda's tick, a word with no agenda, a device step in a tick, and a tick of which no threshold takes note. -/
theorem witness_StepRunsTheWord : (let x : W64 := 0x0300040608000000
    let s := State.reset.withFetchWord 64 x.toNat
    let e : State := { State.reset with agenda := [⟨4, 2, .event (.thermalLimit false)⟩] }
    (match s.issues, s.agenda with
      | i :: _, [t] => i.started && t.move == .word 0 && fetch s ((findWg s i.wg).getD (soloWg s)) i.at_ == some x && goes (step s) && goes (step { s with agenda := [] }) &&
          mayPass { s with agenda := [] } t.cycles t.ns && mayMove (passTime { s with agenda := [] } t.cycles t.ns) t.move
      | _, _ => false) && !s.dawn && firstOf { s with agenda := [] } (portSteps { s with agenda := [] }) == none && nextIssue { s with agenda := [] } == some 0 &&
    goes (step e) && mayPass { e with agenda := [] } 4 2 && mayMove (passTime { e with agenda := [] } 4 2) (.event (.thermalLimit false)) &&
    (encode (.thermalLimit false)).isNone && s.wgs.all fun w => decide (thresholdTest s w = s)) = true := by decide
theorem witness_EncodingsAgree : (encode (.sadd g0 (fB 1 2 3 0)) == some 0x0300010203000000 && wellFormed (.sadd g0 (fB 1 2 3 0))) = true := by decide
theorem witness_StepsKeepTidy : Tidy State.reset ∧ goes (step State.reset) = true := ⟨⟨rfl, rfl, by decide, rfl⟩, by decide⟩
/-- FIPS 180-4's example: the digest of "abc". -/
theorem test_sha256_abc : sha256 [0x61#8, 0x62#8, 0x63#8] = 0xBA7816BF8F01CFEA414140DE5DAE2223B00361A396177A9CB410FF61F20015AD#256 := by decide +kernel
/-- The published check value of CRC-32C (R308, R314): that of the nine digits "123456789". -/
theorem test_crc32c : crc32c [0x31#8, 0x32#8, 0x33#8, 0x34#8, 0x35#8, 0x36#8, 0x37#8, 0x38#8, 0x39#8] = 0xE3069283#32 := by decide

end Sys2Proof.Tests
end

section
/-! PROOFS. The scalar and control words: NOP with a scalar source B. -/

namespace Sys2Proof.Proofs

open Sys2Proof Sys2Proof.Machine

/-- A word that an empty operand holds, and on which no lane takes the privilege or the quota trap, ends its issue before it: no lane passes
(R159, R162). -/
theorem runWord_held {i : Instr} {gd : Guard} {h : Here} {s : State} (hh : here s = some h) (mayRun : ¬(gd.pred = 0#4 ∧ gd.pn = true))
    (guardFull : guardEmpty h gd = false) (privileged : privMask i h (trueMask h gd) = 0#32)
    (quota : quotaMask h (operandsOf i) (checked i h (trueMask h gd)) = 0#32) (macros : macQuota i h (trueMask h gd) = 0#32)
    (held : holdsWord h gd (operandsOf i) = true) (body : Here → LaneMask → State → Fx) :
    runWord i gd body s = .next (breakIssue h .word s) := by
  have hz : 0#32 ||| 0#32 = 0#32 := rfl
  simp only [runWord, hh, wordStep, mayRun, if_false, guardFull, privileged, macros, quota, band_all, hz, Here.only_all, held, if_true,
    Bool.false_eq_true]
  simp [takeTraps, addTrap, trapAll_none]

/-- A lane that goes on keeps its state (R46). -/
theorem LaneOn_st {h : Here} {l l' : Lane} (hon : LaneOn h l l') : l'.st = l.st := by
  unfold LaneOn at hon
  rw [hon]

/-- The fields of a NOP word with BS set, so that B names s0. R205 refuses the word; exec gives it a meaning all the same. -/
def nopOfS0 : FmtT := ⟨0, 0, 0, 0, true, false, 0⟩
/-- A workgroup of one gang with s0 of its first quad empty, nothing else. -/
def emptyS0Wg : Wg :=
  { soloWg State.reset with gangs := (soloWg State.reset).gangs.map fun g => { g with quads := [{ se := 1#64 }] } }
/-- A word of that workgroup stands at the head, all 32 lanes at it. -/
def emptyS0 : State := { State.reset with wgs := [emptyS0Wg], issues := [soloIssue State.reset] }
/-- The place of that word. -/
def emptyS0Here : Here := ⟨soloIssue State.reset, emptyS0Wg, 0, gangOf emptyS0Wg 0, 0⟩

theorem here_emptyS0 : here emptyS0 = some emptyS0Here := rfl
/-- The empty s0 holds the NOP that names it: operandsOf counts B as a source wherever BS is set. -/
theorem exec_nopOfS0 : exec (.nop ⟨0, false, 0⟩ nopOfS0) emptyS0 = .next (breakIssue emptyS0Here .word emptyS0) :=
  runWord_held here_emptyS0 (by decide) (by decide) (by decide) (by decide) (by decide) (by decide) _
/-- Its lane 0 then waits at it. -/
theorem waits_nopOfS0 : (laneAt (breakIssue emptyS0Here .word emptyS0) emptyS0Here 0).st = .waiting .word := by decide

/-- Refutes O2: the second clause ranges over every NOP, also over one with BS set, which R205 refuses. Of such a word the model takes sB for a
source, so an empty sB holds the issue before it (R162), where the clause says that every lane goes on. -/
theorem not_jumpsAndNops : ¬ Obligations.JumpsAndNops := by
  rintro ⟨-, hnop, -⟩
  obtain ⟨t, ht, hlanes, -⟩ := hnop ⟨0, false, 0⟩ nopOfS0 emptyS0Here emptyS0 here_emptyS0 (by decide) (by decide)
  obtain rfl : breakIssue emptyS0Here .word emptyS0 = t := Host.Outcome.next.inj (exec_nopOfS0.symm.trans ht)
  obtain ⟨hon, -, -⟩ := (hlanes 0 (by decide)).2 (by decide)
  exact absurd (waits_nopOfS0.symm.trans (LaneOn_st hon)) (by decide)

end Sys2Proof.Proofs
end

section
/-! PROOFS. VSEL, and the reserved-field trap of a clause whose first bad word holds a reserved value. -/

namespace Sys2Proof.Proofs

open Sys2Proof Sys2Proof.Machine

/-! What VSEL does (R217). -/

/-- The operand B as a vector word reads it: the low 32 bits of a scalar register, or a register of the lane (R208). -/
theorem ofNat_srcV_eq_opndB (h : Here) (f : FmtT) (l : Lane) : BitVec.ofNat 32 (srcV h l f.bs f.b 1) = opndB h f l := by
  apply BitVec.eq_of_toNat_eq
  cases hb : f.bs <;> simp [srcV, opndB, hb, vregs]

/-- VSEL writes A where pC is 1 and B elsewhere, and changes nothing else. -/
theorem exec_vsel_done {g : Guard} {f : FmtT} {h : Here} {s : State} (hr : Ready (.vsel g f) g h s) :
    ∃ t, exec (.vsel g f) s = .next t ∧
      VecDone g h s t f.d.toNat 1 fun l => (if preg l f.c.toNat then vreg l f.a.toNat else opndB h f l).toNat :=
  vecDone_of hr (wordOf (.vsel g f)) (fun h l => out32 f.d (if preg l f.c.toNat then vreg l f.a.toNat else BitVec.ofNat 32 (srcV h l f.bs f.b 1)))
    _ _ _ (fun _ => 0#5) (fun _ => 0#4) fun l => by rw [ofNat_srcV_eq_opndB]; rfl

/-! What a word with VSEL's opcode decodes to (R173, R217). -/

/-- A field of a field. -/
theorem extract_extract {w : Nat} (x : BitVec w) (lo n a m : Nat) (h : a + m ≤ n) :
    (x.extractLsb' lo n).extractLsb' a m = x.extractLsb' (lo + a) m := by
  apply BitVec.eq_of_getLsbD_eq
  intro i hi
  have : a + i < n := by omega
  simp [hi, this, Nat.add_assoc]

/-- The opcode 0x3E is VSEL's. -/
theorem decodeOp_vsel {x : W64} (hx : x.extractLsb' 56 8 = 0x3E#8) : decodeOp x = some (.vsel (guardOf x) (fmtTOf x)) := by
  have high : x.extractLsb' 60 4 = 3#4 := by rw [← extract_extract x 56 8 4 4 (by decide), hx]; rfl
  have low : x.extractLsb' 56 4 = 14#4 := by rw [← extract_extract x 56 8 0 4 (by decide), hx]; rfl
  simp only [decodeOp, high, low]
  rfl
/-- A word of that opcode is VSEL, or is refused for a reserved value. -/
theorem decode_vsel {x : W64} (hx : x.extractLsb' 56 8 = 0x3E#8) : decode x =
    if wellFormed (.vsel (guardOf x) (fmtTOf x)) then .ok (.vsel (guardOf x) (fmtTOf x)) else .error .reservedField := by
  have mark : x.extractLsb' 59 5 = 7#5 := by rw [← extract_extract x 56 8 3 5 (by decide), hx]; rfl
  simp [decode, mark, decodeOp_vsel hx]
/-- A well-formed VSEL has CS and MOD clear, and its C names a predicate. -/
theorem wellFormed_vsel {g : Guard} {f : FmtT} (h : wellFormed (.vsel g f) = true) : f.cs = false ∧ f.mod = 0#14 ∧ f.c.toNat < 16 := by
  have hs : shapeOk g f { shV 2 1 0 with c := .p } = true := h
  simp only [shapeOk, shV, Bool.and_eq_true] at hs
  obtain ⟨⟨⟨⟨⟨⟨⟨⟨⟨⟨-, -⟩, -⟩, hc⟩, -⟩, hcs⟩, -⟩, -⟩, -⟩, hmod⟩, -⟩ := hs
  have hcs0 : f.cs = false := by simpa using hcs
  have hall : f.mod &&& ~~~0#14 = 0#14 := eq_of_beq hmod
  rw [BitVec.not_zero, BitVec.and_allOnes] at hall
  exact ⟨hcs0, hall, by simpa [hcs0, rkOk] using hc⟩

/-! A clause whose first bad word holds a reserved value (R159). -/

/-- The words refused for a reserved value: no header, of a known opcode, and ill-formed. -/
theorem decode_reservedField {x : W64} (h : decode x = .error .reservedField) :
    isHeader x = false ∧ ∃ j, decodeOp x = some j ∧ wellFormed j = false := by
  unfold decode at h
  split at h
  · cases h
  · next mark =>
    refine ⟨by simpa [isHeader] using mark, ?_⟩
    split at h
    · cases h
    · next j hj =>
      split at h
      · cases h
      · next hwf => exact ⟨j, hj, by simpa using hwf⟩

/-- The reserved value is what such a word is refused for, where its class is its clause's and no control word stands too early (R159). -/
theorem wordTrap_reservedField {hdr x : W64} {last : Bool} (hx : decode x = .error .reservedField)
    (hclass : classOfBits (hdrClass hdr) = classOfOp (fld x 56 8))
    (hctl : ∀ j, decodeOp x = some j → isControl j = true → last = true) : wordTrap hdr x last = some .reservedField := by
  obtain ⟨hh, j, hj, hwf⟩ := decode_reservedField hx
  have hearly : (isControl j && !last) = false := by
    cases hc : isControl j with
    | false => rfl
    | true => simp [hctl j hj hc]
  simp [wordTrap, hh, hj, hclass, hearly, hwf]

/-- The first value that a partial function gives on 0, 1, 2 and so on. -/
theorem head?_filterMap_range {α : Type} (f : Nat → Option α) {n k : Nat} {y : α} (hk : k < n) (hy : f k = some y)
    (hlow : ∀ m, m < k → f m = none) : ((List.range n).filterMap f).head? = some y := by
  rw [List.head?_filterMap, show n = k + (n - k - 1 + 1) by omega, List.range_add, List.findSome?_append,
    List.findSome?_eq_none_iff.2 fun m hm => hlow m (List.mem_range.1 hm), List.range_succ_eq_map]
  simp [hy]

/-- The clause takes the trap of its first word that fails a check. -/
theorem clauseTrap_first {s : State} {w : Wg} {base hdr x : W64} {t : Trap} {n : Nat} (hn : n ≤ hdrCount hdr)
    (hx : fetch s w (base + 8#64 * BitVec.ofNat 64 (n + 1)) = some x) (ht : wordTrap hdr x (n + 1 == hdrCount hdr + 1) = some t)
    (hlow : ∀ m, m < n → ∃ y, fetch s w (base + 8#64 * BitVec.ofNat 64 (m + 1)) = some y ∧ wordTrap hdr y false = none) :
    clauseTrap s w base hdr = some (base + 8#64 * BitVec.ofNat 64 (n + 1), t, x) := by
  refine head?_filterMap_range _ (k := n) (by omega) ?_ fun m hm => ?_
  · simp only [hx, ht, Option.map_some]
  · obtain ⟨y, hy, hno⟩ := hlow m hm
    have hlast : (m + 1 == hdrCount hdr + 1) = false := by simp; omega
    simp only [hy, hlast, hno, Option.map_none]

/-! Taking one trap on lanes of one gang (R398, R406). -/

/-- A lane after a trap: in its handler, or parked. -/
def trappedLane (w : Wg) (t : Trap) (info pc : W64) (base : Option W64) (l : Lane) : Lane :=
  if handled w t l then enterHandler w t info pc base l else parkLane pc base l
/-- The INFO of a lane of a trap. -/
def infoFor (t : TrapOf) (n : Nat) : W64 := match t.lanes.find? fun x => x.1 == n with
  | some x => x.2
  | none => 0#64
/-- A gang after a trap of some of its lanes. -/
def trappedGang (w : Wg) (t : TrapOf) (pc : W64) (base : Option W64) (g : Gang) : Gang :=
  mapLanes (trapMask t) (fun n => trappedLane w t.trap (infoFor t n) pc base) g

/-- Fault records touch no workgroup and no issue in flight. -/
theorem recordPark_frame (s : State) (w : Wg) (gang : Nat) (code : BitVec 8) (pc : W64) (save : Bool) (xs : List (Nat × W64)) (nest : Bool) :
    (recordPark s w gang code pc save xs nest).wgs = s.wgs ∧ (recordPark s w gang code pc save xs nest).issues = s.issues := by
  unfold recordPark
  split <;> exact ⟨rfl, rfl⟩
theorem findWg_congr {s s' : State} (h : s'.wgs = s.wgs) (tag : Nat) : findWg s' tag = findWg s tag := by rw [findWg, findWg, h]
/-- A trap that is no fetch fault changes the lanes of its gang, and leaves the issues in flight. -/
theorem takeTrap_spec {s : State} {tag : Nat} {w : Wg} (hw : findWg s tag = some w) (gang : Nat) (pc : W64) (base : Option W64) {t : TrapOf}
    (ht : t.trap ≠ .fetchFault) :
    findWg (takeTrap s tag gang pc base t) tag = some (setGang w gang (trappedGang w t pc base (gangOf w gang))) ∧
    (takeTrap s tag gang pc base t).issues = s.issues := by
  have hpast : (t.trap == Trap.fetchFault) = false := by simpa using ht
  have hput : findWg (putWg s (setGang w gang (trappedGang w t pc base (gangOf w gang)))) tag =
      some (setGang w gang (trappedGang w t pc base (gangOf w gang))) := by
    obtain rfl := findWg_tag hw
    exact findWg_putWg_same s (setGang w gang _) hw
  simp only [takeTrap, takeTrapV, hw, hpast]
  split
  · exact ⟨hput, rfl⟩
  · obtain ⟨wgs1, issues1⟩ := recordPark_frame _ w gang _ pc _ _ true
    obtain ⟨wgs0, issues0⟩ := recordPark_frame _ w gang _ pc _ _ false
    exact ⟨(findWg_congr (wgs1.trans wgs0) tag).trans hput, issues1.trans issues0⟩

theorem trapMask_trapAll (t : Trap) (m : LaneMask) (info : W64) : trapMask (trapAll t m info) = m := by
  apply BitVec.eq_of_getLsbD_eq
  intro k hk
  rw [trapMask, getLsbD_maskOf, Bool.eq_iff_iff]
  simp [trapAll, mem_bitsOf, hk]
/-- Every lane of a common trap has the common INFO. -/
theorem infoFor_trapAll {t : Trap} {m : LaneMask} {info : W64} {n : Nat} (hn : n < 32) (hm : m.getLsbD n = true) :
    infoFor (trapAll t m info) n = info := by
  unfold infoFor
  split
  · next x hx =>
    obtain ⟨k, -, rfl⟩ := List.mem_map.1 (List.mem_of_find?_eq_some hx)
    rfl
  · next hx => exact absurd (List.find?_eq_none.1 hx (n, info) (List.mem_map.2 ⟨n, (mem_bitsOf m n).2 ⟨hn, hm⟩, rfl⟩)) (by simp)
/-- A lane of a gang after lanes of a mask took a common trap. -/
theorem laneOf_trappedGang (w : Wg) (t : Trap) (m : LaneMask) (info pc : W64) (base : Option W64) (g : Gang) {k : Nat} (hk : k < 32) :
    laneOf (trappedGang w (trapAll t m info) pc base g) k =
      if m.getLsbD k then trappedLane w t info pc base (laneOf g k) else laneOf g k := by
  rw [trappedGang, laneOf_mapLanes _ _ _ _ hk, trapMask_trapAll]
  split
  · next hm => rw [infoFor_trapAll hk hm]; rfl
  · rfl

/-! The end of the head issue under a trap (R159). -/

/-- The issue leaves, and its lanes have taken the trap. -/
theorem dropHead_spec {s : State} {i : Issue} {w : Wg} (hw : findWg s i.wg = some w) (pc : W64) (base : Option W64) {t : Trap}
    (ht : t ≠ .fetchFault) (m : LaneMask) (info : W64) :
    (dropHead s i pc base t m info).issues = s.issues.tail ∧
    ∀ k, k < 32 → laneAfter (dropHead s i pc base t m info) i w k =
      if m.getLsbD k then trappedLane w t info pc base (laneOf (gangOf w i.gang) k) else laneOf (gangOf w i.gang) k := by
  obtain ⟨w1, hw1⟩ : ∃ w1, w1 = setGang w i.gang (endWrites i.jops i.fops (gangOf w i.gang)) := ⟨_, rfl⟩
  have hfind : findWg (setHead (updGang s i.wg i.gang (endWrites i.jops i.fops)) none) i.wg = some w1 := by
    rw [findWg_setHead, findWg_updGang_same i.gang _ hw, hw1]
  have hlane : ∀ k, laneOf (gangOf w1 i.gang) k = laneOf (gangOf w i.gang) k := fun k => by
    rw [hw1, gangOf_setGang_same, endWrites_frame]
    rfl
  obtain ⟨hafter, hissues⟩ := takeTrap_spec hfind i.gang pc base (t := trapAll t m info) ht
  refine ⟨?_, fun k hk => ?_⟩
  · rw [dropHead, hissues, updGang_frame]
    rfl
  · rw [laneAfter, dropHead, hafter, Option.getD_some, gangOf_setGang_same, laneOf_trappedGang _ _ _ _ _ _ _ hk, hlane, hw1]
    rfl

/-! A clause that starts with such a word in it (R159, R173). -/

theorem lowest_bit {m : LaneMask} (hm : m ≠ 0#32) : lowest m < 32 ∧ m.getLsbD (lowest m) = true := by
  rw [← mem_bitsOf]
  cases hb : bitsOf m with
  | nil =>
    refine absurd (BitVec.eq_of_getLsbD_eq fun k hk => ?_) hm
    cases hbit : m.getLsbD k with
    | false => simp
    | true => exact absurd (hb ▸ (mem_bitsOf m k).2 ⟨hk, hbit⟩) List.not_mem_nil
  | cons n ns => simp [lowest, hb]

/-- Under the premises of ReservedTrap the start of the clause drops its issue at the word, for the reserved-field trap. -/
theorem clauseStart_refused {x : W64} {s : State} {i : Issue} {rest : List Issue} {w : Wg} {hdr : W64} {n : Nat}
    (hx : decode x = .error .reservedField) (hr : RefusedAt x s i rest w hdr n) :
    exec .clauseStart s =
      .next (dropHead s i (i.base + 8#64 * BitVec.ofNat 64 (n + 1)) (some i.base) .reservedField i.lanes x) := by
  obtain ⟨hissues, hw, hstarted, hlanes, haligned, -, hfresh, hhdr, hmark, hheader, hquota, hslots, hn, hclass, hctl, hword, hlow⟩ := hr
  obtain ⟨hk, hbit⟩ := lowest_bit hlanes
  have hbase : (laneOf (gangOf w i.gang) (lowest i.lanes)).cbase = none := (hfresh _ hk hbit).1
  have hpoison : ((bitsOf i.lanes).filter fun k => (laneOf (gangOf w i.gang) k).poison.isSome) = [] := by
    refine List.filter_eq_nil_iff.2 fun k hmem => ?_
    obtain ⟨hk, hbit⟩ := (mem_bitsOf i.lanes k).1 hmem
    simp [(hfresh k hk hbit).2]
  have htrap := clauseTrap_first hn hword
    (wordTrap_reservedField hx hclass fun j hj hc => by simp [hctl j hj hc]) hlow
  have hexec : exec .clauseStart s = execClauseStart s := rfl
  simp [hexec, execClauseStart, hissues, hw, hstarted, hbase, hpoison, haligned, hhdr, hmark, hheader, hslots, startClause, hquota, htrap]

/-- A word that decoding refuses for a reserved value raises the reserved-field trap as its clause starts. -/
theorem reservedTrap_of_decode {x : W64} (hx : decode x = .error .reservedField) : ReservedTrap x := by
  intro s i rest w hdr n hr
  have hstart := clauseStart_refused hx hr
  obtain ⟨hissues, hw, -⟩ := hr
  obtain ⟨hrest, hlanes⟩ := dropHead_spec hw (i.base + 8#64 * BitVec.ofNat 64 (n + 1)) (some i.base) (t := .reservedField) (by decide) i.lanes x
  refine ⟨_, hstart, by rw [hrest, hissues]; rfl, fun k hk => ?_⟩
  have hlane := hlanes k hk
  cases hm : i.lanes.getLsbD k with
  | false => simpa [hm] using hlane
  | true =>
    rw [hm, if_pos rfl, trappedLane] at hlane
    by_cases hh : (w.trapvec.getLsbD 0 && !(laneOf (gangOf w i.gang) k).hact) = true
    · have hhandled : handled w .reservedField (laneOf (gangOf w i.gang) k) = true := hh
      rw [hlane, if_pos hhandled]
      simp only [Bool.true_eq_false, if_false, if_pos hh]
      rfl
    · have hparked : ¬ handled w .reservedField (laneOf (gangOf w i.gang) k) = true := hh
      rw [hlane, if_neg hparked]
      simp only [Bool.true_eq_false, if_false, if_neg hh]
      rfl

/-- Settles O8: VSEL is a vector word of one register (vecDone_of); a word of its opcode decodes to VSEL or to the reserved-field refusal,
CS and MOD among the reasons; and any word refused so raises the trap at its clause's start (reservedTrap_of_decode). -/
theorem selects : Obligations.Selects := by
  refine ⟨fun g f h s hr => exec_vsel_done hr, fun x hx => ⟨fun i hi => ?_, fun hbad => ?_, reservedTrap_of_decode⟩⟩
  · rw [decode_vsel hx] at hi
    split at hi
    · next hwf => exact ⟨(Except.ok.inj hi).symm, (wellFormed_vsel hwf).2.2⟩
    · cases hi
  · rw [decode_vsel hx]
    split
    · next hwf =>
      obtain ⟨hcs, hmod, -⟩ := wellFormed_vsel hwf
      rcases hbad with hbit | hbits
      · exact absurd (hbit.symm.trans hcs) (by decide)
      · exact absurd hmod hbits
    · rfl

end Sys2Proof.Proofs
end
